-- ==== Sys2Proof/Word.lean ====
section
/-! DEFINITION. The word types of BED-CORE: bytes, addresses, the three-byte ECC triple. -/

namespace Sys2Proof

/-- A byte is 8 bits (00_scope.md section 5). -/
abbrev Byte := BitVec 8

/-- An operand, address or result register. It is `ADDR_W` bits wide (00_scope.md section 4, 92_eei_decisions.md D4), at
most 64, and holds numbers below `2 ^ ADDR_W` (`Params.addrBound`; log 36). -/
abbrev Addr := BitVec 64

/-- A size register of `ADDR_W + 1` bits, so that a device of `2 ^ ADDR_W` bytes has a size (92_eei_decisions.md D4). -/
abbrev Size := BitVec 65

/-- The ECC triple `ecc[0], ecc[1], ecc[2]` = A, B, C (30_encoding.md R104). -/
structure Triple where
  a : Byte
  b : Byte
  c : Byte
deriving DecidableEq, Repr

end Sys2Proof
end

