-- ==== Sys2Proof/Config.lean ====
section
/-! DEFINITION. What an implementation fixes: the constants of the bus protocol, the types of the implementation
parameters of 00_scope.md section 4, and the values the spec leaves open (opaque constants with no body). -/

namespace Sys2Proof

/-! ## Free values

Nothing in Lean can evaluate these: a claim that holds, holds whatever they are. -/

/-- A byte the spec leaves unspecified; applied to the counter `Bus.fresh` (log 8). -/
opaque Config.freeByte : Nat → Byte

/-- A register value the spec leaves unspecified; applied to the counter `Bus.fresh` (log 8). -/
opaque Config.freeWord : Nat → Size

/-- How many `Rdy()` polls answer 0 before a busy chip becomes ready: "finite but unspecified"
(20_memory.md R66 (g), 93_implementation_defined.md U4; log 8). -/
opaque Config.busyPolls : Nat → Nat

/-- `MAX_CHIPS`, the OPEN parameter (92_eei_decisions.md D5): what `State.reset` holds for it (log 4). -/
opaque Config.maxChips : Nat

/-! ## Default bytes of the bus command set (30_encoding.md R100; log 27, 35) -/

abbrev Config.cmdRead0 : Byte := 0x00#8
abbrev Config.cmdRead1 : Byte := 0x01#8
abbrev Config.cmdPageprog : Byte := 0x10#8
abbrev Config.cmdReadstart : Byte := 0x30#8
abbrev Config.cmdReadoob : Byte := 0x50#8
abbrev Config.cmdErase1 : Byte := 0x60#8
abbrev Config.cmdStatus : Byte := 0x70#8
abbrev Config.cmdSeqin : Byte := 0x80#8
abbrev Config.cmdReadid : Byte := 0x90#8
abbrev Config.cmdErase2 : Byte := 0xD0#8
abbrev Config.cmdParam : Byte := 0xEC#8
abbrev Config.cmdGetfeat : Byte := 0xEE#8
abbrev Config.cmdSetfeat : Byte := 0xEF#8
abbrev Config.cmdReset : Byte := 0xFF#8

/-- The default of `ST_FAIL`, the fail bit of the chip's status byte (30_encoding.md R107; log 27, 35). -/
abbrev Config.stFail : Byte := 0x01#8

/-! ## Bus commands -/

/-- A bus command by its name in the table of 30_encoding.md R100; `other` is a byte that is no `CMD_x`. Which byte stands
for a command is a parameter (`CmdBytes`; log 35). -/
inductive Cmd where
  | read0
  | read1
  | pageprog
  | readstart
  | readoob
  | erase1
  | status
  | seqin
  | readid
  | erase2
  | param
  | getfeat
  | setfeat
  | reset
  | other (b : Byte)
deriving DecidableEq, Repr

/-- The parameters `CMD_x` (00_scope.md section 4, 30_encoding.md R100, 93_implementation_defined.md U27). -/
structure CmdBytes where
  read0 : Byte
  read1 : Byte
  pageprog : Byte
  readstart : Byte
  readoob : Byte
  erase1 : Byte
  status : Byte
  seqin : Byte
  readid : Byte
  erase2 : Byte
  param : Byte
  getfeat : Byte
  setfeat : Byte
  reset : Byte
deriving DecidableEq, Repr

/-- The default command bytes (30_encoding.md R100). -/
def Config.cmds : CmdBytes where
  read0 := Config.cmdRead0
  read1 := Config.cmdRead1
  pageprog := Config.cmdPageprog
  readstart := Config.cmdReadstart
  readoob := Config.cmdReadoob
  erase1 := Config.cmdErase1
  status := Config.cmdStatus
  seqin := Config.cmdSeqin
  readid := Config.cmdReadid
  erase2 := Config.cmdErase2
  param := Config.cmdParam
  getfeat := Config.cmdGetfeat
  setfeat := Config.cmdSetfeat
  reset := Config.cmdReset

/-! ## Types of the parameters -/

/-- One pair of an OOB range table (30_encoding.md R109). -/
structure RangeEntry where
  off : BitVec 16
  size : BitVec 16
deriving DecidableEq, Repr

/-- An OOB range table: pairs, ended by the first pair of size 0 (30_encoding.md R109). -/
abbrev RangeTable := List RangeEntry

/-- The sentinel pair that ends a range table. -/
abbrev RangeEntry.sentinel : RangeEntry := ⟨0, 0⟩

/-- An entry of the device-info table, codes already expanded (30_encoding.md R110);
`pageSize = none` is the code 0, "unknown". -/
structure DevInfo where
  pageSize : Option Nat
  blockSize : Nat
  chipSize : Nat
  bus16 : Bool
deriving DecidableEq, Repr

/-- What `EXTID_DECODE` answers (43_detection.md R214). -/
structure ExtGeometry where
  pageSize : Nat
  blockSize : Nat
  oobSize : Nat
  bus16 : Bool
deriving DecidableEq, Repr

/-- The parameter `EXTID_DECODE`: the customary layout of R214, or a table from ID bytes to an answer (log 4). -/
inductive ExtIdParam where
  | customary
  | table (rows : List (List Byte × ExtGeometry))
deriving DecidableEq, Repr

/-- The implementation parameters of 00_scope.md section 4 that the model takes as arguments; no step changes them
(log 4). `ADDR_W` is at most 64 (log 36); `N_PART` is the length of `State.pt`. -/
structure Params where
  addrW : Fin 65
  maxPage : Nat
  maxOob : Nat
  maxChips : Nat
  eccLow2 : BitVec 2
  onfiRevMask : BitVec 16
  micronMfr : Byte
  micronFeatAddr : Byte
  micronEccBit : Byte
  devInfo : List (Byte × DevInfo)
  extId : ExtIdParam
  free16 : RangeTable
  free64 : RangeTable
  free128 : RangeTable
  ecc16 : RangeTable
  ecc64 : RangeTable
  ecc128 : RangeTable
  cmds : CmdBytes
  stFail : Byte
deriving DecidableEq, Repr

/-- The first number that does not fit `ADDR_W` bits (00_scope.md section 4). -/
abbrev Params.addrBound (p : Params) : Nat := 2 ^ p.addrW.val

/-- The first number that does not fit `ADDR_W + 1` bits (92_eei_decisions.md D4). -/
abbrev Params.sizeBound (p : Params) : Nat := 2 ^ (p.addrW.val + 1)

/-- The default parameters: 00_scope.md section 4 and the tables of 45_oob_badblock.md R260. -/
def Config.params : Params where
  addrW := 32
  maxPage := 8192
  maxOob := 436
  maxChips := Config.maxChips
  eccLow2 := 0b11#2
  onfiRevMask := 0x0002#16
  micronMfr := 0x2C#8
  micronFeatAddr := 0x90#8
  micronEccBit := 0x08#8
  devInfo := []
  extId := .customary
  free16 := [⟨8, 8⟩, .sentinel]
  free64 := [⟨2, 38⟩, .sentinel]
  free128 := [⟨2, 78⟩, .sentinel]
  ecc16 := [⟨0, 4⟩, ⟨6, 2⟩, .sentinel]
  ecc64 := [⟨40, 24⟩, .sentinel]
  ecc128 := [⟨80, 48⟩, .sentinel]
  cmds := Config.cmds
  stFail := Config.stFail

end Sys2Proof
end

