-- ==== Sys2Proof/Syntax.lean ====
section
/-! DEFINITION. The operations of BED-CORE: one constructor per row of spec/opcode_table.json. -/

namespace Sys2Proof

/-- The OOB request mode, `MODE[0]` (30_encoding.md R93). -/
inductive OobMode where
  | auto
  | raw
deriving DecidableEq, Repr

/-- The 40 host operations (30_encoding.md R95) and the 14 bus command bytes (R100). An argument is a field of the
command word; `mode : BitVec 2` is the two-bit `MODE` field whose value 3 is reserved (R93). The operand registers
`A0..A3` are no arguments: an operation reads them from the state. -/
inductive Instr where
  -- U-ECC
  | eccCalc
  | eccCorrect
  | eccPopcnt (imm : Byte)
  -- U-CRC
  | crc16
  | onfiCheck
  -- U-NAND
  | nandSelect
  | nandCtrl (data : Byte) (mode : BitVec 2)
  | nandWait
  | nandCmd (cmd : Byte) (colV rbV : Bool)
  | nandRd8
  | nandRd16
  | nandRdbuf
  | nandWrbuf
  | nandReset
  | nandReadid (imm : Byte)
  | nandStatus
  | nandGetfeat (imm : Byte)
  | nandSetfeat (imm : Byte)
  -- U-DET
  | detect
  | onfiDetect
  -- page operations
  | pageRead (mode : OobMode)
  | pageWrite (mode : OobMode)
  | pageReadoob
  | pageMarkbad
  | blockErase
  -- U-OOB and U-BB
  | oobCopy (mode : OobMode)
  | oobFill (mode : OobMode)
  | devIsvalid
  | devMarkbad
  -- U-PART
  | lockObtain
  | lockRelease
  | partCreate (pidx pdst : BitVec 4)
  | partRead (pidx : BitVec 4)
  | partWrite (pidx : BitVec 4)
  | partReadoob (pidx : BitVec 4) (mode : OobMode)
  | partWriteoob (pidx : BitVec 4) (mode : OobMode)
  | partErase (pidx : BitVec 4) (mode : BitVec 2)
  | partEraseall (pidx : BitVec 4) (mode : BitVec 2)
  | partIsvalid (pidx : BitVec 4)
  | partMarkbad (pidx : BitVec 4)
  -- bus command bytes
  | cmdRead0
  | cmdRead1
  | cmdPageprog
  | cmdReadstart
  | cmdReadoob
  | cmdErase1
  | cmdStatus
  | cmdSeqin
  | cmdReadid
  | cmdErase2
  | cmdParam
  | cmdGetfeat
  | cmdSetfeat
  | cmdReset
deriving DecidableEq, Repr

end Sys2Proof
end

