-- ==== Sys2Proof/WellFormed.lean ====
section
/-! DEFINITION. Which instruction terms stand for a legal request: the values that opcode_table.json's
`reserved_values` exclude (30_encoding.md R93, R96). Every other field of an instruction is legal at every value of its
type. -/

namespace Sys2Proof

/-- The value 3 of a two-bit `MODE` field is reserved (30_encoding.md R93). -/
def modeLegal (mode : BitVec 2) : Bool := mode != 3#2

/-- A term is well formed when its `MODE` field, if it has one of two bits, is not the reserved value. -/
def Instr.wellFormed : Instr → Bool
  | .nandCtrl _ mode => modeLegal mode
  | .partErase _ mode => modeLegal mode
  | .partEraseall _ mode => modeLegal mode
  | .eccCalc | .eccCorrect | .eccPopcnt _ | .crc16 | .onfiCheck | .nandSelect | .nandWait | .nandCmd _ _ _
  | .nandRd8 | .nandRd16 | .nandRdbuf | .nandWrbuf | .nandReset | .nandReadid _ | .nandStatus | .nandGetfeat _
  | .nandSetfeat _ | .detect | .onfiDetect | .pageRead _ | .pageWrite _ | .pageReadoob | .pageMarkbad
  | .blockErase | .oobCopy _ | .oobFill _ | .devIsvalid | .devMarkbad | .lockObtain | .lockRelease
  | .partCreate _ _ | .partRead _ | .partWrite _ | .partReadoob _ _ | .partWriteoob _ _ | .partIsvalid _
  | .partMarkbad _ | .cmdRead0 | .cmdRead1 | .cmdPageprog | .cmdReadstart | .cmdReadoob | .cmdErase1 | .cmdStatus
  | .cmdSeqin | .cmdReadid | .cmdErase2 | .cmdParam | .cmdGetfeat | .cmdSetfeat | .cmdReset => true

end Sys2Proof
end

