-- ==== Sys2Proof/Decode.lean ====
section
/-! DEFINITION. The decoder of command words and bus command bytes, total and rejecting by name, and the encoder, both
from the encoding tables of 30_encoding.md sections 1 and 2.2. -/

namespace Sys2Proof

/-- Why a word is no instruction (30_encoding.md R96). -/
inductive DecodeError where
  /-- `OPC` is not in the opcode map of R95, or a bus byte is not in the table of R100. -/
  | unknownOpcode
  /-- A 1 in `CW[15:12]`. -/
  | reservedBits
  /-- A 1 in a field the operation's format does not read. -/
  | unusedField
  /-- A `MODE` value that R93 reserves. -/
  | reservedMode
deriving DecidableEq, Repr

/-- What is decoded: a 32-bit command word, or one byte of the bus command set. -/
inductive Code where
  | request (cw : BitVec 32)
  | bus (b : Byte)
deriving DecidableEq, Repr

/-- The fields of the command word (30_encoding.md R90). -/
structure Fields where
  opc : Byte
  mode : BitVec 2
  colV : Bool
  rbV : Bool
  zero : BitVec 4
  imm8 : Byte
  pidx : BitVec 4
  pdst : BitVec 4
deriving DecidableEq, Repr

/-- Cut a command word into its fields (30_encoding.md R90). -/
def fieldsOfWord (cw : BitVec 32) : Fields where
  opc := cw.extractLsb' 0 8
  mode := cw.extractLsb' 8 2
  colV := cw.getLsbD 10
  rbV := cw.getLsbD 11
  zero := cw.extractLsb' 12 4
  imm8 := cw.extractLsb' 16 8
  pidx := cw.extractLsb' 24 4
  pdst := cw.extractLsb' 28 4

/-- Put the fields together to a command word (30_encoding.md R90). -/
def wordOfFields (f : Fields) : BitVec 32 :=
  f.pdst ++ f.pidx ++ f.imm8 ++ f.zero ++ BitVec.ofBool f.rbV ++ BitVec.ofBool f.colV ++ f.mode ++ f.opc

/-- The request formats of 30_encoding.md R92; format P is split by the meaning R93 gives its `MODE`: none (`p`), the
OOB mode (`pm`), the erase mode (`pe`). -/
inductive Format where
  | z | i | m | t | n | p | pm | pe | c
deriving DecidableEq, Repr

/-- Does the format read `IMM8`? (R92) -/
def Format.hasImm : Format → Bool
  | .i | .t | .n => true
  | .z | .m | .p | .pm | .pe | .c => false

/-- Does the format read `COL_V` and `RB_V`? (R92) -/
def Format.hasValid : Format → Bool
  | .n => true
  | .z | .i | .m | .t | .p | .pm | .pe | .c => false

/-- Does the format read `PIDX`? (R92) -/
def Format.hasPidx : Format → Bool
  | .p | .pm | .pe | .c => true
  | .z | .i | .m | .t | .n => false

/-- Does the format read `PDST`? (R92) -/
def Format.hasPdst : Format → Bool
  | .c => true
  | .z | .i | .m | .t | .n | .p | .pm | .pe => false

/-- Is the `MODE` field legal in the format? (R93) -/
def Format.modeOk : Format → BitVec 2 → Bool
  | .m, mode | .pm, mode => !mode.getLsbD 1
  | .t, mode | .pe, mode => modeLegal mode
  | .z, mode | .i, mode | .n, mode | .p, mode | .c, mode => mode == 0#2

/-- Are all fields that the format does not read 0? (R96) -/
def Format.unusedZero (fmt : Format) (f : Fields) : Bool :=
  (fmt.hasImm || f.imm8 == 0#8) && (fmt.hasValid || (!f.colV && !f.rbV)) && (fmt.hasPidx || f.pidx == 0#4) &&
    (fmt.hasPdst || f.pdst == 0#4)

/-- `MODE[0]` as an OOB mode (R93): 0 AUTO, 1 RAW. -/
def oobModeOf (mode : BitVec 2) : OobMode := if mode.getLsbD 0 then .raw else .auto

/-- The `MODE` field of an OOB mode (R93). -/
def modeOfOob : OobMode → BitVec 2
  | .auto => 0#2
  | .raw => 1#2

/-- One row of the opcode map: opcode, format, and the instruction the fields stand for. -/
structure RequestRow where
  opc : Byte
  fmt : Format
  build : Fields → Instr

/-- The opcode map of 30_encoding.md R95, rows of U-ECC and U-CRC. -/
def requestRowsEcc : List RequestRow :=
  [ ⟨0x01#8, .z, fun _ => .eccCalc⟩,
    ⟨0x02#8, .z, fun _ => .eccCorrect⟩,
    ⟨0x03#8, .i, fun f => .eccPopcnt f.imm8⟩,
    ⟨0x10#8, .z, fun _ => .crc16⟩,
    ⟨0x11#8, .z, fun _ => .onfiCheck⟩ ]

/-- The opcode map of 30_encoding.md R95, rows of U-NAND. -/
def requestRowsNand : List RequestRow :=
  [ ⟨0x20#8, .z, fun _ => .nandSelect⟩,
    ⟨0x21#8, .t, fun f => .nandCtrl f.imm8 f.mode⟩,
    ⟨0x22#8, .z, fun _ => .nandWait⟩,
    ⟨0x23#8, .n, fun f => .nandCmd f.imm8 f.colV f.rbV⟩,
    ⟨0x24#8, .z, fun _ => .nandRd8⟩,
    ⟨0x25#8, .z, fun _ => .nandRd16⟩,
    ⟨0x26#8, .z, fun _ => .nandRdbuf⟩,
    ⟨0x27#8, .z, fun _ => .nandWrbuf⟩,
    ⟨0x28#8, .z, fun _ => .nandReset⟩,
    ⟨0x29#8, .i, fun f => .nandReadid f.imm8⟩,
    ⟨0x2A#8, .z, fun _ => .nandStatus⟩,
    ⟨0x2B#8, .i, fun f => .nandGetfeat f.imm8⟩,
    ⟨0x2C#8, .i, fun f => .nandSetfeat f.imm8⟩ ]

/-- The opcode map of 30_encoding.md R95, rows of U-DET, the page operations, U-OOB and U-BB. -/
def requestRowsPage : List RequestRow :=
  [ ⟨0x30#8, .z, fun _ => .detect⟩,
    ⟨0x31#8, .z, fun _ => .onfiDetect⟩,
    ⟨0x40#8, .m, fun f => .pageRead (oobModeOf f.mode)⟩,
    ⟨0x41#8, .m, fun f => .pageWrite (oobModeOf f.mode)⟩,
    ⟨0x42#8, .z, fun _ => .pageReadoob⟩,
    ⟨0x43#8, .z, fun _ => .pageMarkbad⟩,
    ⟨0x44#8, .z, fun _ => .blockErase⟩,
    ⟨0x50#8, .m, fun f => .oobCopy (oobModeOf f.mode)⟩,
    ⟨0x51#8, .m, fun f => .oobFill (oobModeOf f.mode)⟩,
    ⟨0x60#8, .z, fun _ => .devIsvalid⟩,
    ⟨0x61#8, .z, fun _ => .devMarkbad⟩ ]

/-- The opcode map of 30_encoding.md R95, rows of U-PART. -/
def requestRowsPart : List RequestRow :=
  [ ⟨0x70#8, .z, fun _ => .lockObtain⟩,
    ⟨0x71#8, .z, fun _ => .lockRelease⟩,
    ⟨0x72#8, .c, fun f => .partCreate f.pidx f.pdst⟩,
    ⟨0x73#8, .p, fun f => .partRead f.pidx⟩,
    ⟨0x74#8, .p, fun f => .partWrite f.pidx⟩,
    ⟨0x75#8, .pm, fun f => .partReadoob f.pidx (oobModeOf f.mode)⟩,
    ⟨0x76#8, .pm, fun f => .partWriteoob f.pidx (oobModeOf f.mode)⟩,
    ⟨0x77#8, .pe, fun f => .partErase f.pidx f.mode⟩,
    ⟨0x78#8, .pe, fun f => .partEraseall f.pidx f.mode⟩,
    ⟨0x79#8, .p, fun f => .partIsvalid f.pidx⟩,
    ⟨0x7A#8, .p, fun f => .partMarkbad f.pidx⟩ ]

/-- The opcode map of 30_encoding.md R95. -/
def requestTable : List RequestRow :=
  List.append requestRowsEcc (List.append requestRowsNand (List.append requestRowsPage requestRowsPart))

/-- The bus command set of 30_encoding.md R100. -/
def busTable : List (Byte × Instr) :=
  [ (Config.cmdRead0, .cmdRead0), (Config.cmdRead1, .cmdRead1), (Config.cmdPageprog, .cmdPageprog),
    (Config.cmdReadstart, .cmdReadstart), (Config.cmdReadoob, .cmdReadoob), (Config.cmdErase1, .cmdErase1),
    (Config.cmdStatus, .cmdStatus), (Config.cmdSeqin, .cmdSeqin), (Config.cmdReadid, .cmdReadid),
    (Config.cmdErase2, .cmdErase2), (Config.cmdParam, .cmdParam), (Config.cmdGetfeat, .cmdGetfeat),
    (Config.cmdSetfeat, .cmdSetfeat), (Config.cmdReset, .cmdReset) ]

/-- Decode the fields of a command word (30_encoding.md R95, R96). -/
def decodeFields (f : Fields) : Except DecodeError Instr :=
  if f.zero ≠ 0#4 then .error .reservedBits
  else
    match requestTable.find? (fun r => r.opc == f.opc) with
    | none => .error .unknownOpcode
    | some r =>
      if !r.fmt.unusedZero f then .error .unusedField
      else if !r.fmt.modeOk f.mode then .error .reservedMode
      else .ok (r.build f)

/-- Decode a command word or a bus command byte. -/
def decode : Code → Except DecodeError Instr
  | .request cw => decodeFields (fieldsOfWord cw)
  | .bus b =>
    match busTable.find? (fun r => r.1 == b) with
    | none => .error .unknownOpcode
    | some (_, i) => .ok i

/-- Fields with the given opcode and everything else 0. -/
def fieldsZ (opc : Byte) : Fields := ⟨opc, 0, false, false, 0, 0, 0, 0⟩

/-- The word or byte that stands for an instruction (30_encoding.md R90, R95, R100). -/
def encode : Instr → Code
  | .eccCalc => .request (wordOfFields (fieldsZ 0x01))
  | .eccCorrect => .request (wordOfFields (fieldsZ 0x02))
  | .eccPopcnt imm => .request (wordOfFields { fieldsZ 0x03 with imm8 := imm })
  | .crc16 => .request (wordOfFields (fieldsZ 0x10))
  | .onfiCheck => .request (wordOfFields (fieldsZ 0x11))
  | .nandSelect => .request (wordOfFields (fieldsZ 0x20))
  | .nandCtrl data mode => .request (wordOfFields { fieldsZ 0x21 with imm8 := data, mode := mode })
  | .nandWait => .request (wordOfFields (fieldsZ 0x22))
  | .nandCmd cmd colV rbV => .request (wordOfFields { fieldsZ 0x23 with imm8 := cmd, colV := colV, rbV := rbV })
  | .nandRd8 => .request (wordOfFields (fieldsZ 0x24))
  | .nandRd16 => .request (wordOfFields (fieldsZ 0x25))
  | .nandRdbuf => .request (wordOfFields (fieldsZ 0x26))
  | .nandWrbuf => .request (wordOfFields (fieldsZ 0x27))
  | .nandReset => .request (wordOfFields (fieldsZ 0x28))
  | .nandReadid imm => .request (wordOfFields { fieldsZ 0x29 with imm8 := imm })
  | .nandStatus => .request (wordOfFields (fieldsZ 0x2A))
  | .nandGetfeat imm => .request (wordOfFields { fieldsZ 0x2B with imm8 := imm })
  | .nandSetfeat imm => .request (wordOfFields { fieldsZ 0x2C with imm8 := imm })
  | .detect => .request (wordOfFields (fieldsZ 0x30))
  | .onfiDetect => .request (wordOfFields (fieldsZ 0x31))
  | .pageRead m => .request (wordOfFields { fieldsZ 0x40 with mode := modeOfOob m })
  | .pageWrite m => .request (wordOfFields { fieldsZ 0x41 with mode := modeOfOob m })
  | .pageReadoob => .request (wordOfFields (fieldsZ 0x42))
  | .pageMarkbad => .request (wordOfFields (fieldsZ 0x43))
  | .blockErase => .request (wordOfFields (fieldsZ 0x44))
  | .oobCopy m => .request (wordOfFields { fieldsZ 0x50 with mode := modeOfOob m })
  | .oobFill m => .request (wordOfFields { fieldsZ 0x51 with mode := modeOfOob m })
  | .devIsvalid => .request (wordOfFields (fieldsZ 0x60))
  | .devMarkbad => .request (wordOfFields (fieldsZ 0x61))
  | .lockObtain => .request (wordOfFields (fieldsZ 0x70))
  | .lockRelease => .request (wordOfFields (fieldsZ 0x71))
  | .partCreate p d => .request (wordOfFields { fieldsZ 0x72 with pidx := p, pdst := d })
  | .partRead p => .request (wordOfFields { fieldsZ 0x73 with pidx := p })
  | .partWrite p => .request (wordOfFields { fieldsZ 0x74 with pidx := p })
  | .partReadoob p m => .request (wordOfFields { fieldsZ 0x75 with pidx := p, mode := modeOfOob m })
  | .partWriteoob p m => .request (wordOfFields { fieldsZ 0x76 with pidx := p, mode := modeOfOob m })
  | .partErase p mode => .request (wordOfFields { fieldsZ 0x77 with pidx := p, mode := mode })
  | .partEraseall p mode => .request (wordOfFields { fieldsZ 0x78 with pidx := p, mode := mode })
  | .partIsvalid p => .request (wordOfFields { fieldsZ 0x79 with pidx := p })
  | .partMarkbad p => .request (wordOfFields { fieldsZ 0x7A with pidx := p })
  | .cmdRead0 => .bus Config.cmdRead0
  | .cmdRead1 => .bus Config.cmdRead1
  | .cmdPageprog => .bus Config.cmdPageprog
  | .cmdReadstart => .bus Config.cmdReadstart
  | .cmdReadoob => .bus Config.cmdReadoob
  | .cmdErase1 => .bus Config.cmdErase1
  | .cmdStatus => .bus Config.cmdStatus
  | .cmdSeqin => .bus Config.cmdSeqin
  | .cmdReadid => .bus Config.cmdReadid
  | .cmdErase2 => .bus Config.cmdErase2
  | .cmdParam => .bus Config.cmdParam
  | .cmdGetfeat => .bus Config.cmdGetfeat
  | .cmdSetfeat => .bus Config.cmdSetfeat
  | .cmdReset => .bus Config.cmdReset

/-- The instruction the decoder reads from a row of spec/opcode_table.json: rows of 8 bits are bus command bytes, rows
of 32 bits command words (30_encoding.md, head of the file). -/
def decodeTableWord (nbits w : Nat) : Option Instr :=
  if nbits = 8 then (decode (.bus (BitVec.ofNat 8 w))).toOption
  else if nbits = 32 then (decode (.request (BitVec.ofNat 32 w))).toOption
  else none

end Sys2Proof
end

