-- ==== Sys2Proof/Machine/State.lean ====
section
/-! DEFINITION. The state of BED-CORE (10_state.md), of the NAND chips behind its bus (20_memory.md R63, R66,
10_state.md R47) and of its host port, as plain data; the reasons a step can stop; the state after reset (R49). -/

namespace Sys2Proof.Machine

/-! ## Statuses and small register types -/

/-- The 18 status codes (60_exceptions.md R330), in the order of their numbers 0 to 17. -/
inductive Status where
  | success
  | blockIsBad
  | invalidAddress
  | write
  | erase
  | eccFixed
  | eccUncorrectable
  | eccMicronInternal
  | noDevice
  | noOnfiDevice
  | onfiCrc
  | onfiRevision
  | busWidth
  | system
  | unsatisfied
  | opNotSupported
  | readOnly
  | stopped
deriving DecidableEq, Repr

/-- The sequencer phase (10_state.md R22). -/
inductive Phase where
  | idle
  | run
  | stallLock
  | waitRdy
deriving DecidableEq, Repr

/-- The command method `VARIANT` (10_state.md R33): 0 small-page, 1 large-page. -/
inductive Variant where
  | small
  | large
deriving DecidableEq, Repr

/-- `ECC_MODE` (10_state.md R37): 0 SOFT, 1 NONE. -/
inductive EccMode where
  | soft
  | none
deriving DecidableEq, Repr

/-- `ECC_ORDER` (10_state.md R37): 0 ABC, 1 CBA. -/
inductive EccOrder where
  | abc
  | cba
deriving DecidableEq, Repr

/-- The erase modes of PART.ERASE and PART.ERASEALL (30_encoding.md R93). -/
inductive EraseMode where
  | normal
  | force
  | markBadOnError
deriving DecidableEq, Repr

/-! ## Memory -/

/-- A byte-addressed space as its listed cells, addresses rising; an address that is not listed reads as 0xFF
(`Memory.blank` in Machine/Memory.lean). -/
structure Memory where
  cells : List Host.Cell
deriving DecidableEq, Repr

/-! ## Registers that belong together -/

/-- The geometry and derived registers (10_state.md R27, R28). -/
structure Geometry where
  chipCount : BitVec 8
  blocksPerChip : Addr
  blockSize : Addr
  pageSize : Addr
  oobSize : BitVec 16
  size : Size
  pageShift : BitVec 6
  blockShift : BitVec 6
  chipShift : BitVec 6
  pageMask : Addr
  blockMask : Addr
  chipMask : Addr
  pagesPerBlock : Addr
  row3 : Bool
deriving DecidableEq, Repr

/-- The configuration registers that the host writes (10_state.md R29, R32, R36, R37). -/
structure Conf where
  bus16 : Bool
  eccMode : EccMode
  eccOrder : EccOrder
  readOnly : Bool
  nandClass : Bool
  caps : BitVec 6
  bbc : BitVec 2
  micronEccWant : Bool
  eccCoversOob : Bool
deriving DecidableEq, Repr

/-- One entry of the partition table (10_state.md R39). -/
structure PartEntry where
  valid : Bool
  begin : Addr
  psize : Size
deriving DecidableEq, Repr

/-- The accumulators of U-ECC (10_state.md R41): `rp` lists, for each address bit, the pair of its even and odd
bucket `RP[j][0]`, `RP[j][1]`; `t` is the overall byte-parity accumulator `T`. -/
structure EccAcc where
  rp : List (Byte × Byte)
  t : Byte
deriving DecidableEq, Repr

/-! ## The bus and the chips behind it (environment) -/

/-- A bus event (00_scope.md section 5). -/
inductive BusEvent where
  /-- `Sel(c)` -/
  | sel (c : Byte)
  /-- `Ctl(d, CLE)` -/
  | cle (d : Byte)
  /-- `Ctl(d, ALE)` -/
  | ale (d : Byte)
  /-- `Ctl(-, NONE)` -/
  | idle
  /-- A whole busy-wait that ended: `polls` times `Rdy() = 0`, then `Rdy() = 1` (log 31) -/
  | wait (polls : Nat)
  /-- One `Rdy() = 0` of a busy-wait that does not end -/
  | notReady
  /-- `Rd8()` and the byte it returned -/
  | rd8 (v : Byte)
  /-- `Rd16()` and the word it returned -/
  | rd16 (v : BitVec 16)
  /-- `RdBuf(n)` and the bytes it returned -/
  | rdBuf (bytes : List Byte)
  /-- `WrBuf(bytes)` -/
  | wrBuf (bytes : List Byte)
deriving DecidableEq, Repr

/-- The fault oracle `FAILS(kind, chip, row)` for one kind and one chip (20_memory.md R66 (f)): `dflt`, except on the
listed rows (log 25). -/
structure Oracle where
  dflt : Bool
  excepted : List Nat
deriving DecidableEq, Repr

/-- What a chip drives on a data-out cycle (20_memory.md R66 (d), (e)). -/
inductive DataOut where
  /-- no data-out: any value (93_implementation_defined.md U13) -/
  | none
  /-- these bytes, one a cycle, then any value -/
  | bytes (l : List Byte)
  /-- the status byte -/
  | status
deriving DecidableEq, Repr

/-- One NAND chip: the reference device of 20_memory.md R66 with the state of 10_state.md R47 (log 19 to 26, 38, 39,
43 to 46). -/
structure Chip where
  /-- data-out after READID with address 0x00 -/
  idBytes : List Byte
  /-- data-out after READID with address 0x20 ("ONFI" on an ONFI chip) -/
  sigBytes : List Byte
  /-- data-out after PARAM: the copies of the parameter page, one after another -/
  paramBytes : List Byte
  /-- main bytes of a page -/
  pageSize : Nat
  /-- spare bytes of a page -/
  oobSize : Nat
  /-- pages of a block -/
  pagesPerBlock : Nat
  /-- pages of the chip -/
  rows : Nat
  /-- 16-bit data bus -/
  bus16 : Bool
  /-- a "stuck device": `Rdy()` never returns 1 -/
  stuck : Bool
  /-- the bits of the status byte other than the fail bit -/
  statusBase : Byte
  /-- the bits of the status byte that tell a failure: `ST_FAIL`, when the parameter describes the chip (log 35) -/
  failMask : Byte
  /-- which programs fail -/
  progFails : Oracle
  /-- which erases fail -/
  eraseFails : Oracle
  /-- SET FEATURES is ignored (95_test_vectors.md V70) -/
  featsFixed : Bool
  /-- the flash array: page `r`, column `k` at address `r * (pageSize + oobSize) + k` -/
  cells : Memory
  /-- an array operation is running -/
  busy : Bool
  /-- the last program or erase failed -/
  failed : Bool
  /-- feature registers that have been set -/
  feats : List (Byte × List Byte)
  /-- the last command latched -/
  cmd : Option Cmd
  /-- the address bytes latched after it -/
  addr : List Byte
  /-- the small-page area pointer: the column where the selected area begins -/
  area : Nat
  /-- data-in bytes received since the last command byte that takes data -/
  dataIn : List Byte
  /-- what the next data-out cycles drive -/
  dataOut : DataOut
deriving DecidableEq, Repr

/-- The NAND bus: the chips on it, the chip-select driven last, the lines of an empty chip-select, the trace (newest
event first), and the counter free values are drawn with. -/
structure Bus where
  chips : List Chip
  selected : Option Byte
  floatByte : Option Byte
  floatReady : Bool
  trace : List BusEvent
  fresh : Nat
deriving DecidableEq, Repr

/-! ## The host port -/

/-- One thing the host, or another requester, can do to BED-CORE between its steps (log 6, 10, 13). -/
inductive HostAction where
  /-- write `A0`, `A1`, `A2` or `A3` (10_state.md R20) -/
  | writeA (n : Fin 4) (v : Addr)
  /-- write `CW`, which starts an operation (30_encoding.md R91) -/
  | writeCw (v : BitVec 32)
  /-- write `ECC_RD` (10_state.md R23) -/
  | writeEccRd (t : Triple)
  /-- write `ECC_CA` (95_test_vectors.md P1) -/
  | writeEccCa (t : Triple)
  /-- write the configuration registers (10_state.md R29, R32, R36, R37) -/
  | writeConf (c : Conf)
  /-- install the range tables (10_state.md R38) -/
  | writeTables (free ecc : RangeTable)
  /-- write bytes into `DBUF` (10_state.md R45) -/
  | writeDbuf (off : Nat) (bytes : List Byte)
  /-- write bytes into `OBUF` (10_state.md R45) -/
  | writeObuf (off : Nat) (bytes : List Byte)
  /-- the reset event `RST` (10_state.md R49) -/
  | reset
  /-- another requester's LOCK.RELEASE, which ends a lock stall (10_state.md R40; log 10) -/
  | otherRelease
deriving DecidableEq, Repr

/-! ## The state -/

/-- The whole state: BED-CORE's registers and buffers, the bus with its chips, and the host port. -/
@[ext]
structure State where
  cw : BitVec 32
  a0 : Addr
  a1 : Addr
  a2 : Addr
  a3 : Addr
  status : Status
  res : Addr
  phase : Phase
  eccCa : Triple
  eccRd : Triple
  crcOut : BitVec 16
  detected : Bool
  geo : Geometry
  curChip : Byte
  id : List Byte
  onfi : List Byte
  onfiValid : Bool
  onfiStatus : Status
  bbmPos : BitVec 16
  variant : Variant
  eccBits512 : Byte
  micronEccOn : Bool
  conf : Conf
  freeTab : RangeTable
  eccTab : RangeTable
  pt : List PartEntry
  lock : Bool
  acc : EccAcc
  crc : BitVec 16
  oobs : Memory
  dbuf : Memory
  obuf : Memory
  bus : Bus
  par : Params
  hostIn : List HostAction
  busPort : Option Byte
deriving DecidableEq, Repr

/-! ## How a step can stop -/

/-- The faults of the model. No instruction raises one. -/
inductive Fault where
  /-- Raised by a host write beyond the end of `DBUF` or `OBUF`, to bytes that do not exist (10_state.md R45).
  Safe: the model stops (log 13). -/
  | noSuchBufferByte
deriving DecidableEq, Repr

/-- The refusals of the model. -/
inductive Refusal where
  /-- Raised by an arm of `exec` whose instruction has no meaning yet. Safe: nothing is claimed. -/
  | notModelled (mnemonic : String)
  /-- Raised where an operation places bytes through a range table that is ill-formed (10_state.md R38,
  93_implementation_defined.md U17). Safe: the model stops (log 12). -/
  | rangeTableIllFormed
  /-- Raised by an AUTO-mode page read or write with software ECC whose `ECC_TAB` holds fewer than
  `3 * PAGE_SIZE / 256` bytes (44_page_ops.md R242, 93_implementation_defined.md U6). Safe: the model stops (log 12). -/
  | eccTableTooShort
  /-- Raised by a host write to registers, tables or buffers while an operation runs (93_implementation_defined.md U8,
  U16). Safe: the model stops (log 13). -/
  | hostWriteWhileBusy
  /-- Raised by a host write that changes `BUS16` after DETECT (70_reset_and_hazards.md R372,
  93_implementation_defined.md U8). Safe: the model stops (log 13). -/
  | busWidthChangedAfterDetect
deriving DecidableEq, Repr

/-! ## Reset -/

/-- Geometry registers after reset: the spec leaves them unspecified; zero is this model's choice (log 2). -/
def Geometry.zero : Geometry where
  chipCount := 0
  blocksPerChip := 0
  blockSize := 0
  pageSize := 0
  oobSize := 0
  size := 0
  pageShift := 0
  blockShift := 0
  chipShift := 0
  pageMask := 0
  blockMask := 0
  chipMask := 0
  pagesPerBlock := 0
  row3 := false

/-- Configuration registers after reset (10_state.md R49). -/
def Conf.reset : Conf where
  bus16 := false
  eccMode := .soft
  eccOrder := .abc
  readOnly := false
  nandClass := true
  caps := 0b111111#6
  bbc := 0b01#2
  micronEccWant := false
  eccCoversOob := false

/-- The environment at reset: no chip attached, nothing selected, an empty chip-select reads FF and ready (log 5). -/
def Bus.reset : Bus where
  chips := []
  selected := none
  floatByte := some 0xFF#8
  floatReady := true
  trace := []
  fresh := 0

/-- The machine right after `RST` (10_state.md R49). The entries R49 calls unspecified hold the values of log 2 and 3. -/
def State.reset : State where
  cw := 0
  a0 := 0
  a1 := 0
  a2 := 0
  a3 := 0
  status := .success
  res := 0
  phase := .idle
  eccCa := ⟨0, 0, 0⟩
  eccRd := ⟨0, 0, 0⟩
  crcOut := 0
  detected := false
  geo := Geometry.zero
  curChip := 0
  id := List.replicate 8 0
  onfi := List.replicate 256 0
  onfiValid := false
  onfiStatus := .success
  bbmPos := 0
  variant := .small
  eccBits512 := 0
  micronEccOn := false
  conf := Conf.reset
  freeTab := [.sentinel]
  eccTab := [.sentinel]
  pt := List.replicate 8 ⟨false, 0, 0⟩
  lock := false
  acc := ⟨List.replicate 8 (0, 0), 0⟩
  crc := 0
  oobs := ⟨[]⟩
  dbuf := ⟨[]⟩
  obuf := ⟨[]⟩
  bus := Bus.reset
  par := Config.params
  hostIn := []
  busPort := none

end Sys2Proof.Machine
end

