-- ==== Sys2Proof/Machine/Memory.lean ====
section
/-! DEFINITION. The byte-addressed spaces (20_memory.md R60, R62, R63) and the only ways to read and write them. -/

namespace Sys2Proof.Machine

/-- What an address that nothing lists reads as: the erased value of flash (20_memory.md R66 (a)); for `DBUF`, `OBUF` and
`OOBS`, whose content before a write the spec leaves unspecified, DESIGN CHOICE, unsafe (log 3). -/
abbrev Memory.blank : Byte := 0xFF#8

/-- The byte at an address in a list of cells. -/
def lookupCell : List Host.Cell → Nat → Byte
  | [], _ => Memory.blank
  | (k, v) :: t, a => if k = a then v else lookupCell t a

/-- Store a byte in a list of cells, keeping addresses rising and listing no blank byte. -/
def storeCell : List Host.Cell → Nat → Byte → List Host.Cell
  | [], a, v => if v = Memory.blank then [] else [(a, v)]
  | (k, w) :: t, a, v =>
    if k < a then (k, w) :: storeCell t a v
    else if k = a then (if v = Memory.blank then t else (a, v) :: t)
    else if v = Memory.blank then (k, w) :: t
    else (a, v) :: (k, w) :: t

/-- The byte at address `a`. -/
def Memory.read (m : Memory) (a : Nat) : Byte := lookupCell m.cells a

/-- Write one byte. -/
def Memory.write (m : Memory) (a : Nat) (v : Byte) : Memory := ⟨storeCell m.cells a v⟩

/-- `MemRead(space, base, n)` (00_scope.md section 5). -/
def Memory.readBytes (m : Memory) (base n : Nat) : List Byte := (List.range n).map fun i => m.read (base + i)

/-- `MemWrite(space, base, n, bytes)` (00_scope.md section 5). -/
def Memory.writeBytes (m : Memory) (base : Nat) : List Byte → Memory
  | [] => m
  | v :: vs => (m.write base v).writeBytes (base + 1) vs

/-- Write each byte at the address that stands beside it. -/
def Memory.scatter (m : Memory) : List (Nat × Byte) → Memory
  | [] => m
  | (a, v) :: t => (m.write a v).scatter t

/-- Every byte of `[lo, hi)` becomes blank. -/
def Memory.clearRange (m : Memory) (lo hi : Nat) : Memory :=
  ⟨m.cells.filter fun c => decide (c.1 < lo) || decide (hi ≤ c.1)⟩

/-- The canonical form: addresses strictly rising, no cell blank. -/
abbrev Memory.wf (m : Memory) : Prop :=
  m.cells.Pairwise (fun x y => x.1 < y.1) ∧ ∀ c ∈ m.cells, c.2 ≠ Memory.blank

end Sys2Proof.Machine
end

