-- ==== Sys2Proof/Machine/Operands.lean ====
section
/-! DEFINITION. Operand assembly (30_encoding.md R93, R94), address decomposition (20_memory.md R64), the address
bytes of a bus command (30_encoding.md R101 to R103), range tables, capabilities and partition entries. -/

namespace Sys2Proof

/-! ## Parameters: register widths and command bytes -/

/-- A number as a register of `ADDR_W` bits holds it (00_scope.md section 4). -/
def Params.fitAddr (p : Params) (n : Nat) : Addr := BitVec.ofNat 64 (n % p.addrBound)

/-- A number as a register of `ADDR_W + 1` bits holds it (92_eei_decisions.md D4). -/
def Params.fitSize (p : Params) (n : Nat) : Size := BitVec.ofNat 65 (n % p.sizeBound)

/-- The byte that stands for a command (30_encoding.md R100). -/
def CmdBytes.byte (t : CmdBytes) : Cmd → Byte
  | .read0 => t.read0
  | .read1 => t.read1
  | .pageprog => t.pageprog
  | .readstart => t.readstart
  | .readoob => t.readoob
  | .erase1 => t.erase1
  | .status => t.status
  | .seqin => t.seqin
  | .readid => t.readid
  | .erase2 => t.erase2
  | .param => t.param
  | .getfeat => t.getfeat
  | .setfeat => t.setfeat
  | .reset => t.reset
  | .other b => b

/-- The commands of the table of 30_encoding.md R100, in its order. -/
def tableCmds : List Cmd :=
  [.read0, .read1, .pageprog, .readstart, .readoob, .erase1, .status, .seqin, .readid, .erase2, .param, .getfeat, .setfeat,
    .reset]

/-- The command that a byte stands for (30_encoding.md R100). -/
def CmdBytes.read (t : CmdBytes) (b : Byte) : Cmd := (tableCmds.find? fun c => t.byte c == b).getD (.other b)

end Sys2Proof

namespace Sys2Proof.Machine

/-! ## The MODE field -/

/-- The latch of NAND.CTRL by `MODE` (30_encoding.md R93): the bus event of `control(data, ctrl_flags)`; none for the
reserved value 3. -/
def ctrlEvent (data : Byte) (mode : BitVec 2) : Option BusEvent :=
  if mode = 0#2 then some .idle
  else if mode = 1#2 then some (.cle data)
  else if mode = 2#2 then some (.ale data)
  else none

/-- The erase mode by `MODE` (30_encoding.md R93); none for the reserved value 3. -/
def eraseModeOf (mode : BitVec 2) : Option EraseMode :=
  if mode = 0#2 then some .normal
  else if mode = 1#2 then some .force
  else if mode = 2#2 then some .markBadOnError
  else none

/-! ## Numbers -/

/-- A power of two (00_scope.md R8). -/
def isPow2 (n : Nat) : Bool := n != 0 && 2 ^ n.log2 == n

/-- `le16(B, o)` and `le32(B, o)` (41_crc_onfi.md R153). -/
def le16 (b : List Byte) (o : Nat) : Nat := (b.getD o 0).toNat + 256 * (b.getD (o + 1) 0).toNat

@[inherit_doc le16]
def le32 (b : List Byte) (o : Nat) : Nat := le16 b o + 65536 * le16 b (o + 2)

/-- The number whose bytes, least significant first, are given. -/
def natOfBytes : List Byte → Nat
  | [] => 0
  | b :: bs => b.toNat + 256 * natOfBytes bs

/-! ## Command bytes (42_nand_protocol.md R174) -/

/-- The kind of the `row_or_byte` operand of a command byte. -/
inductive RbKind where
  | row
  | singleByte
  | noneExpected
deriving DecidableEq, Repr

/-- The `row_or_byte` kind of a command (42_nand_protocol.md R174; any other byte takes a row). -/
def rbKind : Cmd → RbKind
  | .readid | .param | .getfeat | .setfeat => .singleByte
  | .pageprog | .erase2 | .status | .reset => .noneExpected
  | .read0 | .read1 | .readstart | .readoob | .erase1 | .seqin | .other _ => .row

/-- Does `command` end with a busy-wait for this command? (42_nand_protocol.md R174) -/
def waits : Cmd → Bool
  | .read0 | .read1 | .readoob | .param | .getfeat | .reset => true
  | .pageprog | .readstart | .erase1 | .status | .seqin | .readid | .erase2 | .setfeat | .other _ => false

/-! ## Address bytes on the bus -/

/-- The bus column of column `k`: a word column on a 16-bit bus (30_encoding.md R101, 20_memory.md R65). -/
def busColumn (bus16 : Bool) (k : Nat) : Nat := if bus16 then k / 2 else k

/-- Column address bytes: one by the small-page method, two by the large-page method (30_encoding.md R101). -/
def columnBytes (variant : Variant) (bus16 : Bool) (k : Nat) : List Byte :=
  match variant with
  | .small => [BitVec.ofNat 8 (busColumn bus16 k)]
  | .large => [BitVec.ofNat 8 (busColumn bus16 k), BitVec.ofNat 8 (busColumn bus16 k / 256)]

/-- Row address bytes: two, or three when `ROW3` (30_encoding.md R102); further bits of the row are dropped. -/
def rowAddrBytes (row3 : Bool) (r : Nat) : List Byte :=
  if row3 then [BitVec.ofNat 8 r, BitVec.ofNat 8 (r / 256), BitVec.ofNat 8 (r / 65536)]
  else [BitVec.ofNat 8 r, BitVec.ofNat 8 (r / 256)]

/-- The address bytes of the `row_or_byte` operand (30_encoding.md R102, R103). -/
def rbBytes (cmd : Cmd) (row3 : Bool) : Option Nat → List Byte
  | none => []
  | some rb => if rbKind cmd = .singleByte then [BitVec.ofNat 8 rb] else rowAddrBytes row3 rb

/-! ## Address decomposition (20_memory.md R64) -/

/-- `chip(a)` -/
def Geometry.chipOf (g : Geometry) (a : Nat) : Nat := a >>> g.chipShift.toNat

/-- `row(a)` -/
def Geometry.rowOf (g : Geometry) (a : Nat) : Nat := (a &&& g.chipMask.toNat) >>> g.pageShift.toNat

/-- Is `a` block-aligned: `a & BLOCK_MASK = 0` (20_memory.md R69)? -/
def Geometry.blockAligned (g : Geometry) (a : Nat) : Bool := a &&& g.blockMask.toNat == 0

/-- Is `a` page-aligned: `a & PAGE_MASK = 0` (20_memory.md R69)? -/
def Geometry.pageAligned (g : Geometry) (a : Nat) : Bool := a &&& g.pageMask.toNat == 0

/-- `NCH = PAGE_SIZE / 256`, the number of ECC chunks of a page (44_page_ops.md R242). -/
def Geometry.chunks (g : Geometry) : Nat := g.pageSize.toNat / 256

/-! ## Range tables (30_encoding.md R109) -/

/-- The pairs of a table before its sentinel. -/
def tableRanges (t : RangeTable) : RangeTable := t.takeWhile fun e => e.size != 0

/-- The OOB offsets of a table's bytes, in table order and inside a range ascending: `freepos`, `eccpos`
(44_page_ops.md R242, 45_oob_badblock.md R264). -/
def tablePositions (t : RangeTable) : List Nat :=
  (tableRanges t).flatMap fun e => (List.range e.size.toNat).map fun i => e.off.toNat + i

/-- The number of bytes of a table: the sum of the sizes before the sentinel. -/
def tableBytes (t : RangeTable) : Nat := ((tableRanges t).map fun e => e.size.toNat).sum

/-- Do two ranges share no byte? -/
def rangesDisjoint (x y : RangeEntry) : Bool :=
  decide (x.off.toNat + x.size.toNat ≤ y.off.toNat) || decide (y.off.toNat + y.size.toNat ≤ x.off.toNat)

/-- No two ranges of a list share a byte. -/
def allDisjoint : RangeTable → Bool
  | [] => true
  | x :: xs => xs.all (rangesDisjoint x) && allDisjoint xs

/-- Well-formed range tables (10_state.md R38): both have a sentinel, every pair lies inside the OOB area, and no two
pairs of the two tables overlap. -/
def tablesWellFormed (free ecc : RangeTable) (oobSize : Nat) : Bool :=
  (free.any fun e => e.size == 0) && (ecc.any fun e => e.size == 0) &&
    ((tableRanges free ++ tableRanges ecc).all fun e => decide (e.off.toNat + e.size.toNat ≤ oobSize)) &&
    allDisjoint (tableRanges free ++ tableRanges ecc)

/-- `OOB_FREE_SIZE` (10_state.md R27): always the sum of the sizes of `FREE_TAB`. -/
def State.oobFreeSize (s : State) : Nat := tableBytes s.freeTab

/-- `oob_limit(mode)` (45_oob_badblock.md R261). -/
def State.oobLimit (s : State) : OobMode → Nat
  | .auto => s.oobFreeSize
  | .raw => s.geo.oobSize.toNat

/-- The OOB request check with the 16-bit rule of its operands (45_oob_badblock.md R261, 30_encoding.md R94). -/
def State.oobReqOk (s : State) (mode : OobMode) (off size : Addr) : Bool :=
  decide (off.toNat < 65536) && decide (size.toNat < 65536) && decide (off.toNat + size.toNat ≤ s.oobLimit mode)

/-- The scratch positions of a request's bytes (45_oob_badblock.md R264): through the free table, or flat. -/
def State.oobPositions (s : State) (mode : OobMode) (off size : Nat) : List Nat :=
  match mode with
  | .auto => ((tablePositions s.freeTab).drop off).take size
  | .raw => (List.range size).map fun b => off + b

/-! ## Capabilities and partitions -/

/-- The bits of `CAPS` by name (46_partition_ops.md R294). -/
def Conf.capRead (c : Conf) : Bool := c.caps.getLsbD 0
@[inherit_doc Conf.capRead] def Conf.capWrite (c : Conf) : Bool := c.caps.getLsbD 1
@[inherit_doc Conf.capRead] def Conf.capErase (c : Conf) : Bool := c.caps.getLsbD 2
@[inherit_doc Conf.capRead] def Conf.capIsValid (c : Conf) : Bool := c.caps.getLsbD 3
@[inherit_doc Conf.capRead] def Conf.capMarkBad (c : Conf) : Bool := c.caps.getLsbD 4
@[inherit_doc Conf.capRead] def Conf.capOob (c : Conf) : Bool := c.caps.getLsbD 5

/-- The valid entry `PT[PIDX]`, none when `PIDX ≥ N_PART` or `VALID = 0` (46_partition_ops.md R282 step 2). -/
def State.part (s : State) (pidx : BitVec 4) : Option PartEntry :=
  match s.pt[pidx.toNat]? with
  | some p => if p.valid then some p else none
  | none => none

/-- The marker rows of the block whose first row is `first` (45_oob_badblock.md R265). -/
def State.markerRows (s : State) (first : Nat) : List Nat :=
  if s.conf.bbc = 0b10#2 then [first + s.geo.pagesPerBlock.toNat - 1]
  else if s.conf.bbc = 0b11#2 then [first, first + s.geo.pagesPerBlock.toNat - 1]
  else [first]

end Sys2Proof.Machine
end

