-- ==== Sys2Proof/Machine/Device.lean ====
section
/-! DEFINITION. The reference NAND device (20_memory.md R66, 10_state.md R47) and the bus primitives that reach it
(00_scope.md section 5): what each bus event does to the trace and to the selected chip. -/

namespace Sys2Proof.Machine

/-- The value of `FAILS` at a row (20_memory.md R66 (f)). -/
def Oracle.fails (o : Oracle) (row : Nat) : Bool := o.dflt != o.excepted.contains row

/-- `k` bytes that the spec leaves unspecified, drawn from counter value `n` on. -/
def freeBytes (n k : Nat) : List Byte := (List.range k).map fun i => Config.freeByte (n + i)

/-! ## What a chip makes of its address cycles (log 19)

Address cycles beyond those that the chip expects, of which 20_memory.md R66 says nothing, change nothing: the first ones
are taken (DESIGN CHOICE, log 43). -/

/-- A large-page chip has pages of more than 512 bytes (43_detection.md R217). -/
def Chip.large (ch : Chip) : Bool := decide (512 < ch.pageSize)

/-- Main and spare bytes of a page. -/
def Chip.stride (ch : Chip) : Nat := ch.pageSize + ch.oobSize

/-- Column address cycles of the chip (30_encoding.md R101). -/
def Chip.colCycles (ch : Chip) : Nat := if ch.large then 2 else 1

/-- Row address cycles of the chip (30_encoding.md R102). -/
def Chip.rowCycles (ch : Chip) : Nat := if 65536 < ch.rows then 3 else 2

/-- The byte column that the latched address cycles name (20_memory.md R65; a small-page column counts from the area
pointer). -/
def Chip.colAddr (ch : Chip) : Nat :=
  natOfBytes (ch.addr.take ch.colCycles) * (if ch.bus16 then 2 else 1) + if ch.large then 0 else ch.area

/-- The row that the latched address cycles name after the column cycles. -/
def Chip.rowAddr (ch : Chip) : Nat := natOfBytes ((ch.addr.drop ch.colCycles).take ch.rowCycles)

/-- The row that the latched address cycles of an erase name: the first row cycles, whatever was sent after them, so that
a column sent with ERASE1 is read as row cycles (DESIGN CHOICE, log 43). -/
def Chip.eraseRow (ch : Chip) : Nat := natOfBytes (ch.addr.take ch.rowCycles)

/-- Have all column and row cycles arrived? -/
def Chip.addressed (ch : Chip) : Bool := decide (ch.colCycles + ch.rowCycles ≤ ch.addr.length)

/-- Where column `col` of page `row` stands in the chip's array. -/
def Chip.key (ch : Chip) (row col : Nat) : Nat := row * ch.stride + col

/-- Byte `col` of page `row`: main bytes, then spare bytes (20_memory.md R63, R65). -/
def Chip.flashByte (ch : Chip) (row col : Nat) : Byte := ch.cells.read (ch.key row col)

/-! ## Array operations -/

/-- Start a page read: data-out will be the page from the addressed column on (20_memory.md R66 (d)). -/
def Chip.startRead (ch : Chip) : Chip :=
  { ch with
    busy := true
    dataOut :=
      if ch.rowAddr < ch.rows then
        .bytes (ch.cells.readBytes (ch.key ch.rowAddr ch.colAddr) (ch.stride - ch.colAddr))
      else .none }

/-- Program bytes over what stands there: bits only go from 1 to 0 (20_memory.md R66 (b)). -/
def programCells (m : Memory) (base : Nat) : List Byte → Memory
  | [] => m
  | w :: ws => programCells (m.write base (m.read base &&& w)) (base + 1) ws

/-- The program confirm (20_memory.md R66 (b), (f)); a failed program leaves the page unspecified
(93_implementation_defined.md U9), one of a row the chip has not programs nothing and reports any status (U19; log 21).
Data-in beyond the end of the page, of which R66 and 48_common_semantics.md R322 say nothing, is dropped: DESIGN CHOICE
(log 38). -/
def Chip.program (n : Nat) (ch : Chip) : Chip :=
  if ch.cmd = some .seqin ∧ ch.addressed = true then
    if ch.rowAddr < ch.rows then
      if ch.progFails.fails ch.rowAddr then
        { ch with
          busy := true, failed := true
          cells := ch.cells.writeBytes (ch.key ch.rowAddr 0) (freeBytes n ch.stride) }
      else
        { ch with
          busy := true, failed := false
          cells := programCells ch.cells (ch.key ch.rowAddr ch.colAddr) (ch.dataIn.take (ch.stride - ch.colAddr)) }
    else { ch with busy := true, failed := (Config.freeByte n).getLsbD 0 }
  else ch

/-- The first row of the block that holds a row. -/
def Chip.firstRow (ch : Chip) (row : Nat) : Nat := row - row % ch.pagesPerBlock

/-- The erase confirm (20_memory.md R66 (c), (f)); a failed erase leaves the block unspecified
(93_implementation_defined.md U9), one of a row the chip has not erases nothing and reports any status (U19; log 21). -/
def Chip.erase (n : Nat) (ch : Chip) : Chip :=
  if ch.cmd = some .erase1 ∧ ch.rowCycles ≤ ch.addr.length then
    if ch.eraseRow < ch.rows then
      if ch.eraseFails.fails ch.eraseRow then
        { ch with
          busy := true, failed := true
          cells := ch.cells.writeBytes (ch.key (ch.firstRow ch.eraseRow) 0)
            (freeBytes n (ch.pagesPerBlock * ch.stride)) }
      else
        { ch with
          busy := true, failed := false
          cells := ch.cells.clearRange (ch.key (ch.firstRow ch.eraseRow) 0)
            (ch.key (ch.firstRow ch.eraseRow + ch.pagesPerBlock) 0) }
    else { ch with busy := true, failed := (Config.freeByte n).getLsbD 0 }
  else ch

/-! ## What a chip does on each bus event -/

/-- A new command replaces the last one, its address cycles and its data-out (20_memory.md R77). -/
def Chip.newCommand (c : Cmd) (ch : Chip) : Chip := { ch with cmd := some c, addr := [], dataOut := .none }

/-- A command is latched (30_encoding.md R100; 20_memory.md R66). A byte the table does not list is only remembered
(log 26). -/
def Chip.latchCommand (n : Nat) (c : Cmd) (ch : Chip) : Chip :=
  match c with
  | .read0 => { ch.newCommand c with area := 0 }
  | .read1 => { ch.newCommand c with area := 256 }
  | .readoob => { ch.newCommand c with area := ch.pageSize }
  | .readstart =>
    if ch.large = true ∧ ch.cmd = some .read0 ∧ ch.addressed = true then
      { ch.startRead with cmd := some c, addr := [] }
    else ch.newCommand c
  | .pageprog => (ch.program n).newCommand c
  | .erase2 => (ch.erase n).newCommand c
  | .status => { ch.newCommand c with dataOut := .status }
  | .seqin | .setfeat => { ch.newCommand c with dataIn := [] }
  | .reset => { ch.newCommand c with dataIn := [], busy := true }
  | .erase1 | .readid | .param | .getfeat | .other _ => ch.newCommand c

/-- The parameter bytes of a feature: what was set, else nothing known (20_memory.md R66 (e); log 24). -/
def Chip.featureOut (ch : Chip) (a : Byte) : DataOut :=
  match ch.feats.find? fun p => p.1 == a with
  | some p => .bytes p.2
  | none => .none

/-- What the first address byte of a single-byte command selects as data-out (20_memory.md R66 (e)). READID with an
address other than 0x00 and 0x20, of which R66 says nothing, drives none, so that any value is read: DESIGN CHOICE
(log 39). -/
def Chip.singleByteAddress (b : Byte) (ch : Chip) : Chip :=
  if ch.cmd = some .readid then
    { ch with
      dataOut := if b = 0x00#8 then .bytes ch.idBytes else if b = 0x20#8 then .bytes ch.sigBytes else .none }
  else if ch.cmd = some .param then { ch with busy := true, dataOut := .bytes ch.paramBytes }
  else if ch.cmd = some .getfeat then { ch with busy := true, dataOut := ch.featureOut b }
  else ch

/-- Does the last command start a small-page read with its last address cycle? -/
def Chip.smallRead (ch : Chip) : Bool :=
  !ch.large && (ch.cmd == some .read0 || ch.cmd == some .read1 || ch.cmd == some .readoob)

/-- An address byte is latched. -/
def Chip.latchAddress (b : Byte) (ch : Chip) : Chip :=
  let ch' := { ch with addr := ch.addr ++ [b] }
  if ch.addr = [] then ch'.singleByteAddress b
  else if ch.smallRead = true ∧ ch'.addr.length = ch.colCycles + ch.rowCycles then ch'.startRead
  else ch'

/-- Data-in bytes: program data after SEQIN (42_nand_protocol.md R184), the four parameters after SETFEAT
(30_encoding.md R108). After any other command, of which R184 and 20_memory.md R66 say nothing, the chip ignores them.
Program data sent before or between the address cycles counts as page data from the column addressed in the end; early or
surplus parameter bytes are open too. All this is DESIGN CHOICE (log 44). -/
def Chip.writeData (bytes : List Byte) (ch : Chip) : Chip :=
  if ch.cmd = some .seqin then { ch with dataIn := ch.dataIn ++ bytes }
  else if ch.cmd = some .setfeat then
    let all := ch.dataIn ++ bytes
    match ch.addr with
    | [] => { ch with dataIn := all }
    | a :: _ =>
      if ch.dataIn.length < 4 ∧ 4 ≤ all.length then
        { ch with
          dataIn := all, busy := true
          feats := if ch.featsFixed then ch.feats else (a, all.take 4) :: ch.feats.filter fun p => p.1 != a }
      else { ch with dataIn := all }
  else ch

/-- The status byte (20_memory.md R66 (f), 30_encoding.md R107). -/
def Chip.statusByte (ch : Chip) : Byte :=
  (ch.statusBase &&& ~~~ch.failMask) ||| if ch.failed then ch.failMask else 0#8

/-! ## The bus -/

/-- The chip behind the chip-select driven last, if there is one. -/
def Bus.chip? (b : Bus) : Option Chip := b.selected.bind fun c => b.chips[c.toNat]?

/-- Let the selected chip react. -/
def Bus.onChip (f : Chip → Chip) (b : Bus) : Bus :=
  match b.selected with
  | none => b
  | some c => { b with chips := b.chips.modify c.toNat f }

/-- Append an event to the trace. -/
def Bus.log (e : BusEvent) (b : Bus) : Bus := { b with trace := e :: b.trace }

/-- Use up `k` free values. -/
def Bus.draw (k : Nat) (b : Bus) : Bus := { b with fresh := b.fresh + k }

/-- `Sel(c)`. The spec does not say what a chip that is deselected does with what it has latched: here it keeps its
command, address cycles, data and busy state, and goes on with them when it is selected again. DESIGN CHOICE (log 46). -/
def Bus.sel (c : Byte) (b : Bus) : Bus := { b.log (.sel c) with selected := some c }

/-- How many free values a command may use up: those of a failed program or erase. -/
def Bus.commandDraws (c : Cmd) (b : Bus) : Nat :=
  if c = .pageprog ∨ c = .erase2 then
    match b.chip? with
    | some ch => (ch.pagesPerBlock + 1) * ch.stride + 1
    | none => 0
  else 0

/-- `Ctl(c, CLE)` with the byte of the command `c` (log 35). -/
def Bus.cle (t : CmdBytes) (c : Cmd) (b : Bus) : Bus :=
  ((b.onChip (Chip.latchCommand b.fresh c)).draw (b.commandDraws c)).log (.cle (t.byte c))

/-- `Ctl(a, ALE)` -/
def Bus.ale (a : Byte) (b : Bus) : Bus := (b.onChip (Chip.latchAddress a)).log (.ale a)

/-- `Ctl(-, NONE)` -/
def Bus.idleLatch (b : Bus) : Bus := b.log .idle

/-- Address bytes one after another. -/
def Bus.ales (as : List Byte) (b : Bus) : Bus := as.foldl (fun b a => b.ale a) b

/-- One data-out byte of the selected chip: what the chip drives; any value when it is busy (20_memory.md R74,
93_implementation_defined.md U7) or drives nothing (U13); what an empty chip-select reads as when there is no chip
(U12). R71 says that a read advances the column pointer, R66 (d) that the first byte after the chip becomes ready is the
addressed one; a read from a busy chip leaves the data-out where it was: DESIGN CHOICE (log 45). -/
def Bus.popByte (b : Bus) : Byte × Bus :=
  match b.chip? with
  | none =>
    match b.floatByte with
    | some v => (v, b)
    | none => (Config.freeByte b.fresh, b.draw 1)
  | some ch =>
    if ch.busy then (Config.freeByte b.fresh, b.draw 1)
    else
      match ch.dataOut with
      | .bytes (v :: l) => (v, b.onChip fun ch => { ch with dataOut := .bytes l })
      | .status => (ch.statusByte, b)
      | .bytes [] | .none => (Config.freeByte b.fresh, b.draw 1)

/-- `n` data-out bytes. -/
def Bus.popBytes : Nat → Bus → List Byte × Bus
  | 0, b => ([], b)
  | n + 1, b =>
    let (v, b1) := b.popByte
    let (l, b2) := Bus.popBytes n b1
    (v :: l, b2)

/-- `Rd8()` -/
def Bus.rd8 (b : Bus) : Byte × Bus :=
  let (v, b1) := b.popByte
  (v, b1.log (.rd8 v))

/-- `n` times `Rd8()` -/
def Bus.rd8s : Nat → Bus → List Byte × Bus
  | 0, b => ([], b)
  | n + 1, b =>
    let (v, b1) := b.rd8
    let (l, b2) := Bus.rd8s n b1
    (v :: l, b2)

/-- `Rd16()`: the byte on lines 7:0 first (20_memory.md R68 (d)); with an 8-bit configuration any value
(42_nand_protocol.md R182, 93_implementation_defined.md U10; log 30). -/
def Bus.rd16 (bus16 : Bool) (b : Bus) : BitVec 16 × Bus :=
  let (l, b1) := Bus.popBytes 2 b
  if bus16 then
    let v := BitVec.ofNat 16 (le16 l 0)
    (v, b1.log (.rd16 v))
  else
    let v := BitVec.ofNat 16 (Config.freeWord b1.fresh).toNat
    (v, (b1.draw 1).log (.rd16 v))

/-- `RdBuf(n)` -/
def Bus.rdBuf (n : Nat) (b : Bus) : List Byte × Bus :=
  let (l, b1) := Bus.popBytes n b
  (l, b1.log (.rdBuf l))

/-- `WrBuf(bytes)` -/
def Bus.wrBuf (bytes : List Byte) (b : Bus) : Bus := (b.onChip (Chip.writeData bytes)).log (.wrBuf bytes)

/-- Does `Rdy()` never return 1: a stuck chip, or an empty chip-select whose line floats low? (20_memory.md R66 (g),
95_test_vectors.md V69) -/
def Bus.neverReady (b : Bus) : Bool :=
  match b.chip? with
  | some ch => ch.stuck
  | none => !b.floatReady

/-- The busy-wait that ends (42_nand_protocol.md R172): a busy chip answers 0 a free number of times, then 1. -/
def Bus.waited (b : Bus) : Bus :=
  match b.chip? with
  | some ch =>
    if ch.busy then ((b.onChip fun ch => { ch with busy := false }).draw 1).log (.wait (Config.busyPolls b.fresh))
    else b.log (.wait 0)
  | none => b.log (.wait 0)

end Sys2Proof.Machine
end

