-- ==== Sys2Proof/Machine/Flags.lean ====
section
/-! DEFINITION. BED-CORE has no arithmetic flags (10_state.md R25): its only condition code is `STATUS`. This file holds
the numbers of the status codes, the ways statuses combine, and the bit counts and parities that U-ECC decides by. -/

namespace Sys2Proof.Machine

/-- The number of a status code (60_exceptions.md R330). -/
def Status.code : Status → BitVec 5
  | .success => 0
  | .blockIsBad => 1
  | .invalidAddress => 2
  | .write => 3
  | .erase => 4
  | .eccFixed => 5
  | .eccUncorrectable => 6
  | .eccMicronInternal => 7
  | .noDevice => 8
  | .noOnfiDevice => 9
  | .onfiCrc => 10
  | .onfiRevision => 11
  | .busWidth => 12
  | .system => 13
  | .unsatisfied => 14
  | .opNotSupported => 15
  | .readOnly => 16
  | .stopped => 17

/-- `worst(a, b)` on ECC results (00_scope.md section 5). -/
def worst (a b : Status) : Status :=
  if a = .eccUncorrectable ∨ b = .eccUncorrectable then .eccUncorrectable
  else if a = .eccFixed ∨ b = .eccFixed then .eccFixed
  else .success

/-- The first failure of a sequence wins (45_oob_badblock.md R267): `acc` unless it is SUCCESS. -/
def firstFailure (acc s : Status) : Status := if s ≠ .success ∧ acc = .success then s else acc

/-- The first non-ignorable status of PART.ERASEALL wins; BLOCK_IS_BAD is ignorable (46_partition_ops.md R290). -/
def firstNonIgnorable (acc s : Status) : Status :=
  if s ≠ .success ∧ s ≠ .blockIsBad ∧ acc = .success then s else acc

/-- Is the fail bit of a chip status byte set? (30_encoding.md R107; `ST_FAIL` is a parameter) -/
def failBit (p : Params) (b : Byte) : Bool := b &&& p.stFail != 0#8

/-- The number whose binary digits, least significant first, are the given bits. -/
def natOfBits : List Bool → Nat
  | [] => 0
  | b :: bs => b.toNat + 2 * natOfBits bs

/-- `parity8(b)`: the XOR of the eight bits of a byte (00_scope.md section 5). -/
def parity8 (b : Byte) : Bool :=
  ((b.getLsbD 0 ^^ b.getLsbD 1) ^^ (b.getLsbD 2 ^^ b.getLsbD 3)) ^^
    ((b.getLsbD 4 ^^ b.getLsbD 5) ^^ (b.getLsbD 6 ^^ b.getLsbD 7))

/-- The popcounts of the numbers below `2 ^ n`, in order. -/
def popcountTable : Nat → List Nat
  | 0 => [0]
  | n + 1 => popcountTable n ++ (popcountTable n).map (· + 1)

/-- `POPCNT[b]`: the precomputed table of 256 entries (10_state.md R42). -/
def popcnt (b : Byte) : Nat := (popcountTable 8).getD b.toNat 0

/-- `popcount8(b)`: the number of 1 bits of a byte, counted naively (00_scope.md section 5). -/
def popcount8 (b : Byte) : Nat := ((List.range 8).filter fun i => b.getLsbD i).length

end Sys2Proof.Machine
end

