-- ==== Sys2Proof/Machine/Ops.lean ====
section
/-! DEFINITION. The named operations over registers, buffers and the bus that the meanings of the instructions share:
how an operation runs and ends, the busy-wait, the `command` function, the lock, guards, the OOB scratch buffer. -/

namespace Sys2Proof.Machine

/-! ## How an operation runs -/

/-- What running a part of an operation comes to. -/
inductive Ret (α : Type) where
  /-- it went on, with a value and the state it left -/
  | val (a : α) (s : State)
  /-- the operation never ends: this is the state it stays in (60_exceptions.md R337) -/
  | hang (s : State)
  /-- the model stops with a fault -/
  | fault (r : Fault)
  /-- the model stops with a refusal -/
  | refuse (r : Refusal)

/-- Run one part after another (48_common_semantics.md R321). -/
def Ret.bind {α β : Type} (r : Ret α) (f : α → State → Ret β) : Ret β :=
  match r with
  | .val a s => f a s
  | .hang s => .hang s
  | .fault e => .fault e
  | .refuse e => .refuse e

/-! ## Register updates -/

def State.setBus (s : State) (b : Bus) : State := { s with bus := b }
def State.setRes (s : State) (v : Addr) : State := { s with res := v }
def State.setPhase (s : State) (p : Phase) : State := { s with phase := p }
def State.setLock (s : State) (l : Bool) : State := { s with lock := l }
def State.setDbuf (s : State) (m : Memory) : State := { s with dbuf := m }
def State.setObuf (s : State) (m : Memory) : State := { s with obuf := m }
def State.setOobs (s : State) (m : Memory) : State := { s with oobs := m }
def State.setEccCa (s : State) (t : Triple) : State := { s with eccCa := t }
def State.setEccRd (s : State) (t : Triple) : State := { s with eccRd := t }
def State.setAcc (s : State) (a : EccAcc) : State := { s with acc := a }

/-- Both `CRC` and its readable copy `CRC_OUT` (10_state.md R24, R43). -/
def State.setCrc (s : State) (c : BitVec 16) : State := { s with crc := c, crcOut := c }

/-- The end of an operation, BED-CORE's only "trap entry" (60_exceptions.md R335): `STATUS <- code`, `PHASE <- IDLE`;
nothing is saved and no vector is used. "Trap return" is the host's next request (R336). -/
def State.endOp (s : State) (st : Status) : State := { s with status := st, phase := .idle }

/-- The outcome of a whole operation: its status is written once, at its end (10_state.md R21); one that never ends
leaves the state it stays in and writes no status. -/
def Ret.finish (r : Ret Status) : Host.Outcome State Fault Refusal :=
  match r with
  | .val st s => .next (s.endOp st)
  | .hang s => .next s
  | .fault e => .fault e
  | .refuse e => .refused e

/-- The end of an illegal request: OP_NOT_SUPPORTED and nothing else (30_encoding.md R96). -/
def illegalRequest (s : State) : Host.Outcome State Fault Refusal := .next (s.endOp .opNotSupported)

/-! ## Bus parts of an operation -/

/-- `Sel(c); CUR_CHIP <- c` (42_nand_protocol.md R170). -/
def State.selectChip (s : State) (c : Byte) : State := { s.setBus (s.bus.sel c) with curChip := c }

/-- `select(a)`: select the chip of a device address (46_partition_ops.md R294). -/
def State.select (s : State) (a : Nat) : State := s.selectChip (BitVec.ofNat 8 (s.geo.chipOf a))

/-- The busy-wait (42_nand_protocol.md R172): a chip that never becomes ready leaves `PHASE = WAIT_RDY` for ever. -/
def waitReady (s : State) : Ret Unit :=
  if s.bus.neverReady then .hang ((s.setBus (s.bus.log .notReady)).setPhase .waitRdy)
  else .val () (s.setBus s.bus.waited)

/-- The small-page area pointer before SEQIN: the pointer command and the column that is left
(42_nand_protocol.md R176, 92_eei_decisions.md D34). -/
def areaPointer (pageSize : Nat) (bus16 : Bool) (col : Nat) : Cmd × Nat :=
  if pageSize ≤ col then (.readoob, col - pageSize)
  else if bus16 = true ∨ col < 256 then (.read0, col)
  else (.read1, col - 256)

/-- The address bytes of a command: column bytes, then row bytes or the single byte (30_encoding.md R101 to R103). -/
def commandAddress (s : State) (variant : Variant) (cmd : Cmd) (rb col : Option Nat) : List Byte :=
  (match col with
    | some k => columnBytes variant s.conf.bus16 k
    | none => []) ++ rbBytes cmd s.geo.row3 rb

/-- The bus after `Ctl(c, CLE)`. -/
def State.cle (s : State) (c : Cmd) : Bus := s.bus.cle s.par.cmds c

/-- The bus events of the small-page method `cmd_sp`, without its wait (42_nand_protocol.md R176). -/
def cmdSmall (s : State) (cmd : Cmd) (rb col : Option Nat) : Bus :=
  match col with
  | some k =>
    if cmd = .seqin then
      let (ptr, k') := areaPointer s.geo.pageSize.toNat s.conf.bus16 k
      (((s.cle ptr).cle s.par.cmds cmd).ales (commandAddress s .small cmd rb (some k'))).idleLatch
    else ((s.cle cmd).ales (commandAddress s .small cmd rb (some k))).idleLatch
  | none => ((s.cle cmd).ales (commandAddress s .small cmd rb none)).idleLatch

/-- The large-page redirect of "read OOB" into "read page at column = page_size + oob_offset"
(42_nand_protocol.md R177). -/
def redirectOob (s : State) (cmd : Cmd) (col : Option Nat) : Cmd × Option Nat :=
  if cmd = .readoob then (.read0, some (col.getD 0 + s.geo.pageSize.toNat)) else (cmd, col)

/-- The bus events of the large-page method `cmd_lp` after its redirect, without its wait (42_nand_protocol.md R177). -/
def cmdLarge (s : State) (cmd : Cmd) (rb col : Option Nat) : Bus :=
  let b := ((s.cle cmd).ales (commandAddress s .large cmd rb col)).idleLatch
  if cmd = .read0 then (b.cle s.par.cmds .readstart).idleLatch else b

/-- `command(cmd, row_or_byte, column)` by the selected method (42_nand_protocol.md R173, R175 to R177). -/
def command (s : State) (cmd : Cmd) (rb col : Option Nat) : Ret Unit :=
  match s.variant with
  | .small =>
    if waits cmd then waitReady (s.setBus (cmdSmall s cmd rb col))
    else .val () (s.setBus (cmdSmall s cmd rb col))
  | .large =>
    let (cmd', col') := redirectOob s cmd col
    if waits cmd' then waitReady (s.setBus (cmdLarge s cmd' rb col'))
    else .val () (s.setBus (cmdLarge s cmd' rb col'))

/-- One `Rd8()` (42_nand_protocol.md R181). -/
def State.rd8 (s : State) : Byte × State := ((s.bus.rd8).1, s.setBus (s.bus.rd8).2)

/-- `n` times `Rd8()`. -/
def State.rd8s (s : State) (n : Nat) : List Byte × State := ((s.bus.rd8s n).1, s.setBus (s.bus.rd8s n).2)

/-- `RdBuf(n)`. -/
def State.rdBuf (s : State) (n : Nat) : List Byte × State := ((s.bus.rdBuf n).1, s.setBus (s.bus.rdBuf n).2)

/-- `WrBuf(bytes)`. -/
def State.wrBuf (s : State) (bytes : List Byte) : State := s.setBus (s.bus.wrBuf bytes)

/-- The READID sequence with `n` data-out bytes (42_nand_protocol.md R185, 43_detection.md `readid8`). -/
def readIdBytes (s : State) (a : Byte) (n : Nat) : Ret (List Byte) :=
  (command s .readid (some a.toNat) none).bind fun _ s => .val (s.rd8s n).1 (s.rd8s n).2

/-- The read-status sequence; `RES` takes the status byte (42_nand_protocol.md R186). -/
def readStatus (s : State) : Ret Byte :=
  (command s .status none none).bind fun _ s => .val s.rd8.1 (s.rd8.2.setRes (s.rd8.1.setWidth 64))

/-- The confirm of a program or erase: confirm byte, wait, read status; the fail bit gives `failure`
(44_page_ops.md R243, R244, R247). -/
def confirm (s : State) (cmd : Cmd) (failure : Status) : Ret Status :=
  (command s cmd none none).bind fun _ s =>
    (waitReady s).bind fun _ s =>
      (readStatus s).bind fun b s => .val (if failBit s.par b then failure else .success) s

/-! ## Guards -/

/-- Does a window of `n` bytes at `off` fit `DBUF` (92_eei_decisions.md D9)? -/
def State.dbufFits (s : State) (off n : Nat) : Bool := decide (off + n ≤ s.par.maxPage)

/-- Does the OOB area of a page fit `OOBS` (92_eei_decisions.md D9)? -/
def State.oobFits (s : State) : Bool := decide (s.geo.oobSize.toNat ≤ s.par.maxOob)

/-- Does a page with its OOB area fit `DBUF` and `OOBS` (92_eei_decisions.md D9)? -/
def State.pageFits (s : State) : Bool := s.dbufFits 0 s.geo.pageSize.toNat && s.oobFits

/-- Do the OOB area and its marker byte fit `OOBS` (92_eei_decisions.md D9)? -/
def State.markerFits (s : State) : Bool := s.oobFits && decide (s.bbmPos.toNat < s.par.maxOob)

/-- Do the bytes of an OOB request fit `OBUF`, and their places `OOBS` (92_eei_decisions.md D9)? -/
def State.requestFits (s : State) (mode : OobMode) (off size : Nat) : Bool :=
  decide (size ≤ s.par.maxOob) && (s.oobPositions mode off size).all fun x => decide (x < s.par.maxOob)

/-- `if DETECTED == 0: raise NO_DEVICE` (10_state.md R26); then INVALID_ADDRESS when the operation's buffer windows do not
fit (92_eei_decisions.md D9; log 29), before any bus event or buffer access. -/
def withDevice (s : State) (fits : Bool) (k : Ret Status) : Ret Status :=
  if s.detected then if fits then k else .val .invalidAddress s
  else .val .noDevice s

/-! ## The lock (46_partition_ops.md R280 to R282) -/

/-- `acquire()`: test and set in one step; a held lock stalls the operation. -/
def acquire (s : State) : Ret Unit := if s.lock then .hang (s.setPhase .stallLock) else .val () (s.setLock true)

/-- Take the lock, run one sequence, release it whatever its status. -/
def locked (s : State) (body : State → Ret Status) : Ret Status :=
  (acquire s).bind fun _ s => (body s).bind fun st s => .val st (s.setLock false)

/-! ## The OOB scratch buffer (45_oob_badblock.md) -/

/-- `OOBS[0 .. OOB_SIZE-1] <- 0xFF`. -/
def State.blankOobs (s : State) : State := s.setOobs (s.oobs.clearRange 0 s.geo.oobSize.toNat)

/-- May a request be placed: RAW, empty, or through well-formed tables (93_implementation_defined.md U17; log 12)? -/
def State.placeable (s : State) (mode : OobMode) (size : Nat) : Bool :=
  mode == .raw || size == 0 || tablesWellFormed s.freeTab s.eccTab s.geo.oobSize.toNat

/-- `copy_oob`: gather the request's bytes from `OOBS` into `OBUF` (45_oob_badblock.md R262). -/
def gatherOob (s : State) (mode : OobMode) (off size : Nat) : Ret Status :=
  if s.placeable mode size then
    .val .success (s.setObuf (s.obuf.writeBytes 0 ((s.oobPositions mode off size).map s.oobs.read)))
  else .refuse .rangeTableIllFormed

/-- `fill_oob`: blank `OOBS`, then scatter the request's bytes from `OBUF` (45_oob_badblock.md R263). -/
def scatterOob (s : State) (mode : OobMode) (off size : Nat) : Ret Status :=
  if s.placeable mode size then
    .val .success (s.blankOobs.setOobs
      (s.blankOobs.oobs.scatter ((s.oobPositions mode off size).zip (s.obuf.readBytes 0 size))))
  else .refuse .rangeTableIllFormed

end Sys2Proof.Machine
end

