-- ==== Sys2Proof/Machine/BusCmd.lean ====
section
/-! DEFINITION. The 14 NAND bus command bytes (30_encoding.md R100), each by itself: the bus event `Ctl(byte, CLE)` and the
selected chip's reaction to it. A command byte is no host operation: it writes no status and leaves `PHASE` (log 7). The
byte on the lines is the parameter `CMD_x` (log 35). -/

namespace Sys2Proof.Machine

/-- `Ctl(c, CLE)` and nothing else. -/
def busCommand (c : Cmd) (s : State) : State := s.setBus (s.bus.cle s.par.cmds c)

/-- The command byte `CMD_READ0` (30_encoding.md R100). -/
def execCmdRead0 (s : State) : Host.Outcome State Fault Refusal := .next (busCommand .read0 s)

/-- The command byte `CMD_READ1` (30_encoding.md R100). -/
def execCmdRead1 (s : State) : Host.Outcome State Fault Refusal := .next (busCommand .read1 s)

/-- The command byte `CMD_PAGEPROG` (30_encoding.md R100). -/
def execCmdPageprog (s : State) : Host.Outcome State Fault Refusal := .next (busCommand .pageprog s)

/-- The command byte `CMD_READSTART` (30_encoding.md R100). -/
def execCmdReadstart (s : State) : Host.Outcome State Fault Refusal := .next (busCommand .readstart s)

/-- The command byte `CMD_READOOB` (30_encoding.md R100). -/
def execCmdReadoob (s : State) : Host.Outcome State Fault Refusal := .next (busCommand .readoob s)

/-- The command byte `CMD_ERASE1` (30_encoding.md R100). -/
def execCmdErase1 (s : State) : Host.Outcome State Fault Refusal := .next (busCommand .erase1 s)

/-- The command byte `CMD_STATUS` (30_encoding.md R100). -/
def execCmdStatus (s : State) : Host.Outcome State Fault Refusal := .next (busCommand .status s)

/-- The command byte `CMD_SEQIN` (30_encoding.md R100). -/
def execCmdSeqin (s : State) : Host.Outcome State Fault Refusal := .next (busCommand .seqin s)

/-- The command byte `CMD_READID` (30_encoding.md R100). -/
def execCmdReadid (s : State) : Host.Outcome State Fault Refusal := .next (busCommand .readid s)

/-- The command byte `CMD_ERASE2` (30_encoding.md R100). -/
def execCmdErase2 (s : State) : Host.Outcome State Fault Refusal := .next (busCommand .erase2 s)

/-- The command byte `CMD_PARAM` (30_encoding.md R100). -/
def execCmdParam (s : State) : Host.Outcome State Fault Refusal := .next (busCommand .param s)

/-- The command byte `CMD_GETFEAT` (30_encoding.md R100). -/
def execCmdGetfeat (s : State) : Host.Outcome State Fault Refusal := .next (busCommand .getfeat s)

/-- The command byte `CMD_SETFEAT` (30_encoding.md R100). -/
def execCmdSetfeat (s : State) : Host.Outcome State Fault Refusal := .next (busCommand .setfeat s)

/-- The command byte `CMD_RESET` (30_encoding.md R100). -/
def execCmdReset (s : State) : Host.Outcome State Fault Refusal := .next (busCommand .reset s)

end Sys2Proof.Machine
end

