-- ==== Sys2Proof/Machine/Crc.lean ====
section
/-! DEFINITION. U-CRC: CRC16, ONFI.CHECK, and the functions `onfi_validate` and `onfi_geometry` (41_crc_onfi.md). -/

namespace Sys2Proof.Machine

/-- The seed 0x4F4E (41_crc_onfi.md R150). -/
abbrev crcSeed : BitVec 16 := 0x4F4E#16

/-- One shift of the CRC register, polynomial 0x8005, most significant bit first (41_crc_onfi.md R151). -/
def crcShift (c : BitVec 16) : BitVec 16 := if c.getLsbD 15 then (c <<< 1) ^^^ 0x8005#16 else c <<< 1

/-- `n` shifts. -/
def crcShifts : Nat → BitVec 16 → BitVec 16
  | 0, c => c
  | n + 1, c => crcShifts n (crcShift c)

/-- `crc16_byte(c, b)` (41_crc_onfi.md R151). -/
def crcByte (c : BitVec 16) (b : Byte) : BitVec 16 := crcShifts 8 (c ^^^ (b.setWidth 16 <<< 8))

/-- The CRC of a byte string, from a register value. -/
def crcBytes (c : BitVec 16) (bytes : List Byte) : BitVec 16 := bytes.foldl crcByte c

/-- CRC16 (41_crc_onfi.md R151). -/
def execCrc16 (s : State) : Host.Outcome State Fault Refusal :=
  if s.dbufFits s.a0.toNat s.a1.toNat then
    .next ((s.setCrc (crcBytes crcSeed (s.dbuf.readBytes s.a0.toNat s.a1.toNat))).endOp .success)
  else .next (s.endOp .invalidAddress)

/-- The CRC check of the `ONFI` buffer, as a sub-operation (41_crc_onfi.md R152). -/
def onfiCheck (s : State) : Status × State :=
  let c := crcBytes crcSeed (s.onfi.take 254)
  (if c = BitVec.ofNat 16 (le16 s.onfi 254) then .success else .onfiCrc, s.setCrc c)

/-- ONFI.CHECK (41_crc_onfi.md R152). -/
def execOnfiCheck (s : State) : Host.Outcome State Fault Refusal := .next ((onfiCheck s).2.endOp (onfiCheck s).1)

/-- `onfi_validate(ONFI)`: revision, then bus width (41_crc_onfi.md R154). -/
def onfiValidate (s : State) : Status :=
  if BitVec.ofNat 16 (le16 s.onfi 4) &&& s.par.onfiRevMask = 0#16 then .onfiRevision
  else if (le16 s.onfi 6).testBit 0 ≠ s.conf.bus16 then .busWidth
  else .success

end Sys2Proof.Machine
end

