-- ==== Sys2Proof/Machine/Nand.lean ====
section
/-! DEFINITION. U-NAND: the primitives, NAND.CMD and the named sequences (42_nand_protocol.md). -/

namespace Sys2Proof.Machine

/-- NAND.SELECT (42_nand_protocol.md R170). -/
def execNandSelect (s : State) : Host.Outcome State Fault Refusal :=
  .next ((s.selectChip (s.a0.setWidth 8)).endOp .success)

/-- The bus after one `control` event. -/
def Bus.control (t : CmdBytes) (e : BusEvent) (b : Bus) : Bus :=
  match e with
  | .cle d => b.cle t (t.read d)
  | .ale d => b.ale d
  | _ => b.idleLatch

/-- NAND.CTRL (42_nand_protocol.md R171); `MODE` 3 is an illegal request. -/
def execNandCtrl (data : Byte) (mode : BitVec 2) (s : State) : Host.Outcome State Fault Refusal :=
  match ctrlEvent data mode with
  | some e => .next ((s.setBus (s.bus.control s.par.cmds e)).endOp .success)
  | none => illegalRequest s

/-- NAND.WAIT (42_nand_protocol.md R172). -/
def execNandWait (s : State) : Host.Outcome State Fault Refusal :=
  ((waitReady s).bind fun _ s => .val .success s).finish

/-- Does this `command` read the geometry: a column (42_nand_protocol.md R175), `ROW3` for row bytes, which a command that
expects none sends too when it is given a row (30_encoding.md R102), or `PAGE_SIZE` for the large-page redirect of READOOB
(R177)? 10_state.md R26 refuses every such reader (log 37). -/
def needsGeometry (variant : Variant) (cmd : Cmd) (rb col : Option Nat) : Bool :=
  col.isSome || (rb.isSome && rbKind cmd != .singleByte) || (variant == .large && cmd == .readoob)

/-- NAND.CMD (42_nand_protocol.md R175). -/
def execNandCmd (cmd : Byte) (colV rbV : Bool) (s : State) : Host.Outcome State Fault Refusal :=
  let c := s.par.cmds.read cmd
  let rb := if rbV then some s.a0.toNat else none
  let col := if colV then some s.a1.toNat else none
  if needsGeometry s.variant c rb col = true ∧ s.detected = false then .next (s.endOp .noDevice)
  else ((command s c rb col).bind fun _ s => .val .success s).finish

/-- NAND.RD8 (42_nand_protocol.md R181). -/
def execNandRd8 (s : State) : Host.Outcome State Fault Refusal :=
  .next ((s.rd8.2.setRes (s.rd8.1.setWidth 64)).endOp .success)

/-- NAND.RD16 (42_nand_protocol.md R182; with `BUS16 = 0` the value is free: log 30). -/
def execNandRd16 (s : State) : Host.Outcome State Fault Refusal :=
  let r := s.bus.rd16 s.conf.bus16
  .next (((s.setBus r.2).setRes (r.1.setWidth 64)).endOp .success)

/-- The operand check of the buffer transfers: the window fits `DBUF`, and on a 16-bit bus `n` is even
(42_nand_protocol.md R183). -/
def transferOk (s : State) : Bool := s.dbufFits s.a0.toNat s.a1.toNat && (!s.conf.bus16 || s.a1.toNat % 2 == 0)

/-- NAND.RDBUF (42_nand_protocol.md R183); `n = 0` emits no bus event. -/
def execNandRdbuf (s : State) : Host.Outcome State Fault Refusal :=
  if transferOk s then
    if s.a1.toNat = 0 then .next (s.endOp .success)
    else
      let r := s.rdBuf s.a1.toNat
      .next ((r.2.setDbuf (r.2.dbuf.writeBytes s.a0.toNat r.1)).endOp .success)
  else .next (s.endOp .invalidAddress)

/-- NAND.WRBUF (42_nand_protocol.md R184); `n = 0` emits no bus event. -/
def execNandWrbuf (s : State) : Host.Outcome State Fault Refusal :=
  if s.conf.readOnly then .next (s.endOp .readOnly)
  else if transferOk s then
    if s.a1.toNat = 0 then .next (s.endOp .success)
    else .next ((s.wrBuf (s.dbuf.readBytes s.a0.toNat s.a1.toNat)).endOp .success)
  else .next (s.endOp .invalidAddress)

/-- NAND.RESET as a sub-operation (42_nand_protocol.md R180). -/
def nandReset (s : State) : Ret Status := (command s .reset none none).bind fun _ s => .val .success s

/-- NAND.RESET (42_nand_protocol.md R180). -/
def execNandReset (s : State) : Host.Outcome State Fault Refusal := (nandReset s).finish

/-- NAND.READID (42_nand_protocol.md R185). -/
def execNandReadid (imm : Byte) (s : State) : Host.Outcome State Fault Refusal :=
  if s.a1.toNat < 1 ∨ 8 < s.a1.toNat ∨ s.dbufFits s.a0.toNat s.a1.toNat = false then .next (s.endOp .invalidAddress)
  else
    ((readIdBytes s imm s.a1.toNat).bind fun l t =>
      .val .success (t.setDbuf (t.dbuf.writeBytes s.a0.toNat l))).finish

/-- NAND.STATUS (42_nand_protocol.md R186). -/
def execNandStatus (s : State) : Host.Outcome State Fault Refusal :=
  ((readStatus s).bind fun _ s => .val .success s).finish

/-- The GET FEATURES sequence: its four parameter bytes (42_nand_protocol.md R187, 30_encoding.md R108). -/
def getFeature (s : State) (a : Byte) : Ret (List Byte) :=
  (command s .getfeat (some a.toNat) none).bind fun _ s => .val (s.rd8s 4).1 (s.rd8s 4).2

/-- The SET FEATURES sequence (42_nand_protocol.md R188). -/
def setFeature (s : State) (a : Byte) (p : List Byte) : Ret Unit :=
  (command s .setfeat (some a.toNat) none).bind fun _ s => waitReady (s.wrBuf p)

/-- NAND.GETFEAT (42_nand_protocol.md R187). -/
def execNandGetfeat (imm : Byte) (s : State) : Host.Outcome State Fault Refusal :=
  if s.dbufFits s.a0.toNat 4 then
    ((getFeature s imm).bind fun l t => .val .success (t.setDbuf (t.dbuf.writeBytes s.a0.toNat l))).finish
  else .next (s.endOp .invalidAddress)

/-- NAND.SETFEAT (42_nand_protocol.md R188); not refused under `READ_ONLY`. -/
def execNandSetfeat (imm : Byte) (s : State) : Host.Outcome State Fault Refusal :=
  if s.dbufFits s.a0.toNat 4 then
    ((setFeature s imm (s.dbuf.readBytes s.a0.toNat 4)).bind fun _ s => .val .success s).finish
  else .next (s.endOp .invalidAddress)

end Sys2Proof.Machine
end

