-- ==== Sys2Proof/Machine/Detect.lean ====
section
/-! DEFINITION. U-DET: ONFI.DETECT and DETECT, which turns the reset state into a configured block (43_detection.md). -/

namespace Sys2Proof.Machine

/-! ## Candidate geometries -/

/-- A candidate geometry `geo` of DETECT, in unbounded numbers (43_detection.md R210). -/
structure Candidate where
  pageSize : Nat
  blockSize : Nat
  blocksPerChip : Nat
  oobSize : Nat
  bus16 : Bool
deriving DecidableEq, Repr

/-- Bytes of one chip. -/
def Candidate.chipSize (g : Candidate) : Nat := g.blocksPerChip * g.blockSize

/-- `geometry_ok(g)` (43_detection.md R215); `OOB_SIZE` must also fit its 16-bit register (41_crc_onfi.md R155). -/
def geometryOk (par : Params) (eccMode : EccMode) (g : Candidate) : Bool :=
  isPow2 g.pageSize && (eccMode != .soft || decide (256 ≤ g.pageSize)) && decide (g.pageSize ≤ par.maxPage) &&
    isPow2 g.blockSize && g.blockSize % g.pageSize == 0 && decide (1 ≤ g.blocksPerChip) && isPow2 g.chipSize &&
    decide (g.chipSize < par.addrBound) && decide (g.oobSize ≤ par.maxOob) && decide (g.oobSize < 2 ^ 16) &&
    decide (g.chipSize.log2 - g.pageSize.log2 ≤ 24)

/-- `DEVINFO(code)` (30_encoding.md R110). -/
def devInfo (par : Params) (code : Byte) : Option DevInfo :=
  (par.devInfo.find? fun p => p.1 == code).map fun p => p.2

/-- The table path, step 3: OOB size is page size / 32 (43_detection.md R212). -/
def tableCandidate (e : DevInfo) (page : Nat) : Candidate :=
  ⟨page, e.blockSize, e.chipSize / e.blockSize, page / 32, e.bus16⟩

/-- `onfi_geometry(ONFI)` (41_crc_onfi.md R155); the bus width has been checked against `BUS16` (43_detection.md R210). -/
def onfiGeometry (onfi : List Byte) (bus16 : Bool) : Candidate :=
  ⟨le32 onfi 80, le32 onfi 92 * le32 onfi 80, le32 onfi 96 * (onfi.getD 100 0).toNat, le16 onfi 84, bus16⟩

/-- Step 5: the extended ID gives everything but the chip size, which the table gives (43_detection.md R210). -/
def extCandidate (e : DevInfo) (x : ExtGeometry) : Candidate :=
  ⟨x.pageSize, x.blockSize, e.chipSize / x.blockSize, x.oobSize, x.bus16⟩

/-- The Samsung ID pattern of the alternate layout (43_detection.md R214). -/
def samsungPattern (id : List Byte) : Bool :=
  id.getD 0 0 == id.getD 6 0 && id.getD 1 0 == id.getD 7 0 && id.getD 0 0 == 0xEC#8 &&
    (id.getD 2 0).extractLsb' 2 2 != 0#2 && id.getD 5 0 != 0#8

/-- The alternate OOB-size enumeration by `x[3:2]` (43_detection.md R214). -/
def samsungOob (k : BitVec 2) : Nat :=
  if k = 1#2 then 128 else if k = 2#2 then 218 else if k = 3#2 then 400 else 436

/-- The customary decode of ID byte 3 (43_detection.md R214). -/
def customaryExtId (id : List Byte) : ExtGeometry :=
  let x := id.getD 3 0
  let lo := (x.extractLsb' 0 2).toNat
  if samsungPattern id then
    { pageSize := 2048 <<< lo
      blockSize := 131072 <<< (BitVec.ofBool (x.getLsbD 7) ++ x.extractLsb' 4 2).toNat
      oobSize := samsungOob (x.extractLsb' 2 2)
      bus16 := false }
  else
    { pageSize := 1024 <<< lo
      blockSize := 65536 <<< (x.extractLsb' 4 2).toNat
      oobSize := (8 <<< (x.getLsbD 2).toNat) * ((1024 <<< lo) >>> 9)
      bus16 := x.getLsbD 6 }

/-- `EXTID_DECODE(ID)` (43_detection.md R214; a parameter: log 4). -/
def extIdDecode (p : ExtIdParam) (id : List Byte) : Option ExtGeometry :=
  match p with
  | .customary => some (customaryExtId id)
  | .table rows => (rows.find? fun r => r.1 == id).map fun r => r.2

/-! ## ONFI.DETECT (43_detection.md R213) -/

/-- The signature bytes 0x4F 0x4E 0x46 0x49, "ONFI". -/
abbrev onfiSignature : List Byte := [0x4F#8, 0x4E#8, 0x46#8, 0x49#8]

/-- Up to `n` attempts: read the next 256 bytes byte by byte into `ONFI` and check their CRC. -/
def onfiAttempts : Nat → State → Bool × State
  | 0, s => (false, s)
  | n + 1, s =>
    let c := onfiCheck { (s.rd8s 256).2 with onfi := (s.rd8s 256).1 }
    if c.1 = .success then (true, c.2) else onfiAttempts n c.2

/-- The end of ONFI.DETECT: `ONFI_STATUS` takes the status, `ONFI_VALID` says whether it is SUCCESS. -/
def onfiEnd (st : Status) (s : State) : State := { s with onfiStatus := st, onfiValid := st == .success }

/-- The verdict on the copy that was read: CRC, then revision and bus width (41_crc_onfi.md R154). -/
def onfiVerdict (ok : Bool) (s : State) : Status := if ok then onfiValidate s else .onfiCrc

/-- ONFI.DETECT as a sub-operation (43_detection.md R213). -/
def onfiDetect (s : State) : Ret Status :=
  (readIdBytes { s with onfiValid := false } 0x20#8 4).bind fun sig s =>
    if sig ≠ onfiSignature then .val .noOnfiDevice (onfiEnd .noOnfiDevice s)
    else
      (command s .param (some 0) none).bind fun _ s =>
        let r := onfiAttempts 3 s
        .val (onfiVerdict r.1 r.2) (onfiEnd (onfiVerdict r.1 r.2) r.2)

/-- ONFI.DETECT (43_detection.md R213). -/
def execOnfiDetect (s : State) : Host.Outcome State Fault Refusal := (onfiDetect s).finish

/-! ## The steps of DETECT (43_detection.md R210) -/

/-- Step 0: forget the previous detection. -/
def forget (s : State) : State :=
  { s with
    detected := false, onfiValid := false, onfiStatus := .success, micronEccOn := false, variant := .small
    pt := s.pt.map fun p => { p with valid := false } }

/-- Step 1: reset chip 0 and read its ID twice; SUCCESS writes `ID` (R211). -/
def identify (s : State) : Ret Status :=
  (nandReset (s.selectChip 0#8)).bind fun _ s =>
    (readIdBytes s 0x00#8 8).bind fun ida s =>
      (readIdBytes s 0x00#8 8).bind fun idb s =>
        if ida = idb then .val .success { s with id := ida } else .val .noDevice s

/-- Step 5: the candidate of the extended ID, when the table knows the code. -/
def extIdPath (s : State) (e : Option DevInfo) : Option Candidate :=
  e.bind fun e => (extIdDecode s.par.extId s.id).map fun x => extCandidate e x

/-- Steps 2 to 6: the candidate geometry, and whether it came from the ONFI page. -/
def findGeometry (s : State) : Ret (Option Candidate × Bool) :=
  let e := devInfo s.par (s.id.getD 1 0)
  match e, e.bind fun e => e.pageSize with
  | some e, some page => .val (some (tableCandidate e page), false) s
  | _, _ =>
    (onfiDetect s).bind fun st s =>
      let g := onfiGeometry s.onfi s.conf.bus16
      if st = .success ∧ geometryOk s.par s.conf.eccMode g = true then .val (some g, true) s
      else .val (extIdPath s e, false) s

/-- Commit of the geometry and derived registers (R216, 10_state.md R28); `CHIP_COUNT` and `SIZE` come later. -/
def commitGeometry (g : Candidate) (old : Geometry) : Geometry where
  chipCount := old.chipCount
  blocksPerChip := BitVec.ofNat 64 g.blocksPerChip
  blockSize := BitVec.ofNat 64 g.blockSize
  pageSize := BitVec.ofNat 64 g.pageSize
  oobSize := BitVec.ofNat 16 g.oobSize
  size := old.size
  pageShift := BitVec.ofNat 6 g.pageSize.log2
  blockShift := BitVec.ofNat 6 g.blockSize.log2
  chipShift := BitVec.ofNat 6 g.chipSize.log2
  pageMask := BitVec.ofNat 64 (g.pageSize - 1)
  blockMask := BitVec.ofNat 64 (g.blockSize - 1)
  chipMask := BitVec.ofNat 64 (g.chipSize - 1)
  pagesPerBlock := BitVec.ofNat 64 (g.blockSize >>> g.pageSize.log2)
  row3 := decide (16 < g.chipSize.log2 - g.pageSize.log2)

/-- The default free and ECC tables of an OOB size (45_oob_badblock.md R260). -/
def defaultTables (par : Params) (oobSize : Nat) : RangeTable × RangeTable :=
  if oobSize = 16 then (par.free16, par.ecc16)
  else if oobSize = 64 then (par.free64, par.ecc64)
  else if oobSize = 128 then (par.free128, par.ecc128)
  else ([.sentinel], [.sentinel])

/-- Step 7, first and second part: geometry, method, marker position and layout (R216, R217). `ECC_BITS_512` is ONFI
byte 112, off the ONFI path a free byte (10_state.md R34; log 16). -/
def configure (g : Candidate) (fromOnfi : Bool) (s : State) : State :=
  { s.setBus (s.bus.draw 1) with
    geo := commitGeometry g s.geo
    eccBits512 := if fromOnfi then s.onfi.getD 112 0 else Config.freeByte s.bus.fresh
    variant := if 512 < g.pageSize then .large else .small
    bbmPos := if 512 < g.pageSize ∨ s.conf.bus16 = true then 0 else 5
    freeTab := (defaultTables s.par g.oobSize).1
    eccTab := (defaultTables s.par g.oobSize).2 }

/-- Step 7, third part: the Micron internal-ECC probe (R218). -/
def micronProbe (s : State) : Ret Status :=
  if s.geo.pageSize = 2048#64 ∧ s.id.getD 0 0 = s.par.micronMfr then
    (setFeature s s.par.micronFeatAddr
      [if s.conf.micronEccWant then s.par.micronEccBit else 0#8, 0#8, 0#8, 0#8]).bind fun _ s =>
      (getFeature s s.par.micronFeatAddr).bind fun q s =>
        let on := q.getD 0 0 &&& s.par.micronEccBit != 0#8
        .val (if on = s.conf.micronEccWant then .success else .eccMicronInternal) { s with micronEccOn := on }
  else .val .success s

/-- Step 7, last part: probe chip-selects `c`, `c + 1`, … (`k` of them at most) and count (R219). -/
def countChips : Nat → Nat → Nat → State → Ret Nat
  | 0, _, count, s => .val count s
  | k + 1, c, count, s =>
    (readIdBytes (s.selectChip (BitVec.ofNat 8 c)) 0x00#8 8).bind fun idc s =>
      if idc ≠ s.id then .val count s else countChips k (c + 1) (count + 1) s

/-- A free value of `ADDR_W` bits. -/
def freeAddr (p : Params) (n : Nat) : Addr := p.fitAddr (Config.freeWord n).toNat

/-- A geometry of free register values, drawn from counter value `n` on. -/
def freeGeometry (p : Params) (n : Nat) : Geometry where
  chipCount := (Config.freeWord n).setWidth 8
  blocksPerChip := freeAddr p (n + 1)
  blockSize := freeAddr p (n + 2)
  pageSize := freeAddr p (n + 3)
  oobSize := (Config.freeWord (n + 4)).setWidth 16
  size := p.fitSize (Config.freeWord (n + 5)).toNat
  pageShift := (Config.freeWord (n + 6)).setWidth 6
  blockShift := (Config.freeWord (n + 7)).setWidth 6
  chipShift := (Config.freeWord (n + 8)).setWidth 6
  pageMask := freeAddr p (n + 9)
  blockMask := freeAddr p (n + 10)
  chipMask := freeAddr p (n + 11)
  pagesPerBlock := freeAddr p (n + 12)
  row3 := (Config.freeWord (n + 13)).getLsbD 0

/-- The end of a failed DETECT: the geometry registers are unspecified (R210, 93_implementation_defined.md U30;
log 14). -/
def detectFailed (st : Status) (s : State) : Ret Status :=
  .val st { s.setBus (s.bus.draw 14) with geo := freeGeometry s.par s.bus.fresh }

/-- The end of a successful DETECT: `CHIP_COUNT`, `SIZE`, `PT[0]`, `DETECTED`. A count or size that does not fit its
register is a detection failure (48_common_semantics.md R318; log 15). -/
def detectDone (g : Candidate) (count : Nat) (s : State) : Ret Status :=
  if count < 2 ^ 8 ∧ g.chipSize * count < s.par.sizeBound then
    .val .success
      { s with
        geo := { s.geo with chipCount := BitVec.ofNat 8 count, size := BitVec.ofNat 65 (g.chipSize * count) }
        pt := s.pt.set 0 ⟨true, 0, BitVec.ofNat 65 (g.chipSize * count)⟩
        detected := true }
  else detectFailed .noDevice s

/-- Step 7: configure, probe, count (R216 to R219). -/
def detectStep7 (g : Candidate) (fromOnfi : Bool) (s : State) : Ret Status :=
  (micronProbe (configure g fromOnfi s)).bind fun st s =>
    if st ≠ .success then detectFailed st s
    else (countChips (s.par.maxChips - 1) 1 1 s).bind fun count s => detectDone g count s

/-- DETECT as a sub-operation (R210). -/
def detect (s : State) : Ret Status :=
  (identify (forget s)).bind fun st s =>
    if st ≠ .success then detectFailed st s
    else
      (findGeometry s).bind fun found s =>
        match found.1 with
        | none => detectFailed .noDevice s
        | some g =>
          if geometryOk s.par s.conf.eccMode g = false then detectFailed .noDevice s
          else if g.bus16 ≠ s.conf.bus16 then detectFailed .busWidth s
          else detectStep7 g found.2 s

/-- DETECT (43_detection.md R210). -/
def execDetect (s : State) : Host.Outcome State Fault Refusal := (detect s).finish

end Sys2Proof.Machine
end

