-- ==== Sys2Proof/Machine/Ecc.lean ====
section
/-! DEFINITION. U-ECC: ECC.CALC, ECC.CORRECT, ECC.POPCNT (40_ecc.md), and the pure codec that the page operations use. -/

namespace Sys2Proof.Machine

/-- All accumulators 0 (40_ecc.md R131). -/
def EccAcc.zero : EccAcc := ⟨List.replicate 8 (0, 0), 0⟩

/-- Feed byte `d` of index `i`: XOR it into `T` and, for each address bit `j`, into `RP[j][i[j]]` (40_ecc.md R131). -/
def EccAcc.feed (acc : EccAcc) (i : Nat) (d : Byte) : EccAcc where
  rp := acc.rp.zipIdx.map fun p => if i.testBit p.2 then (p.1.1, p.1.2 ^^^ d) else (p.1.1 ^^^ d, p.1.2)
  t := acc.t ^^^ d

/-- Feed bytes of indices `i`, `i + 1`, … -/
def EccAcc.feedAll (acc : EccAcc) (i : Nat) : List Byte → EccAcc
  | [] => acc
  | d :: ds => (acc.feed i d).feedAll (i + 1) ds

/-- The 16-bit word `R` of the row parities: `R[2j] = parity8(RP[j][0])`, `R[2j+1] = parity8(RP[j][1])` (R131). -/
def EccAcc.rowWord (acc : EccAcc) : BitVec 16 :=
  BitVec.ofNat 16 (natOfBits (acc.rp.flatMap fun p => [parity8 p.1, parity8 p.2]))

/-- The 8-bit word `C` of the column parities, bits 1:0 zero (R131). -/
def EccAcc.columnWord (acc : EccAcc) : Byte :=
  BitVec.ofNat 8 (natOfBits
    [false, false, parity8 (acc.t &&& 0x55), parity8 (acc.t &&& 0xAA), parity8 (acc.t &&& 0x33),
      parity8 (acc.t &&& 0xCC), parity8 (acc.t &&& 0x0F), parity8 (acc.t &&& 0xF0)])

/-- The triple of the accumulators: parities complemented, bits 1:0 of C as `ECC_LOW2` (R131, R104). -/
def EccAcc.triple (acc : EccAcc) (low2 : BitVec 2) : Triple where
  a := ~~~(acc.rowWord.extractLsb' 0 8)
  b := ~~~(acc.rowWord.extractLsb' 8 8)
  c := (~~~acc.columnWord).extractLsb' 2 6 ++ low2

/-- The triple of a chunk: `calculate(data)` (40_ecc.md R130, R131). -/
def eccTriple (low2 : BitVec 2) (chunk : List Byte) : Triple := (EccAcc.zero.feedAll 0 chunk).triple low2

/-- The syndrome `read_ecc ^ calc_ecc` (40_ecc.md R133). -/
def syndrome (rd ca : Triple) : Triple := ⟨rd.a ^^^ ca.a, rd.b ^^^ ca.b, rd.c ^^^ ca.c⟩

/-- The number of 1 bits of a syndrome, by the popcount table (40_ecc.md R133). -/
def synWeight (s : Triple) : Nat := popcnt s.a + popcnt s.b + popcnt s.c

/-- The failing byte index: the odd offsets of `S = s1 ++ s0` (40_ecc.md R133, 90_conflicts.md C1). -/
def synErrorByte (s : Triple) : Nat :=
  natOfBits ((List.range 8).map fun j => (s.b ++ s.a).getLsbD (2 * j + 1))

/-- The failing bit: offsets 3, 5, 7 of `s2` (40_ecc.md R133). -/
def synErrorBit (s : Triple) : Nat := natOfBits [s.c.getLsbD 3, s.c.getLsbD 5, s.c.getLsbD 7]

/-- The 256-byte chunk of `DBUF` at an offset. -/
def State.chunk (s : State) (off : Nat) : List Byte := s.dbuf.readBytes off 256

/-- ECC.CALC on the chunk at `off`, without the window check (40_ecc.md R131). -/
def calcChunk (s : State) (off : Nat) : State :=
  (s.setAcc (EccAcc.zero.feedAll 0 (s.chunk off))).setEccCa (eccTriple s.par.eccLow2 (s.chunk off))

/-- ECC.CORRECT on the chunk at `off`, without the window check (40_ecc.md R133, R134). -/
def correctChunk (s : State) (off : Nat) : Status × State :=
  let syn := syndrome s.eccRd s.eccCa
  if synWeight syn = 0 then (.success, s)
  else if synWeight syn = 11 then
    let p := off + synErrorByte syn
    (.eccFixed, s.setDbuf (s.dbuf.write p (s.dbuf.read p ^^^ (1#8 <<< synErrorBit syn))))
  else if synWeight syn = 1 then (.eccFixed, s)
  else (.eccUncorrectable, s)

/-- ECC.CALC (40_ecc.md R131). -/
def execEccCalc (s : State) : Host.Outcome State Fault Refusal :=
  if s.dbufFits s.a0.toNat 256 then .next ((calcChunk s s.a0.toNat).endOp .success)
  else .next (s.endOp .invalidAddress)

/-- ECC.CORRECT (40_ecc.md R133). -/
def execEccCorrect (s : State) : Host.Outcome State Fault Refusal :=
  if s.dbufFits s.a0.toNat 256 then
    .next ((correctChunk s s.a0.toNat).2.endOp (correctChunk s s.a0.toNat).1)
  else .next (s.endOp .invalidAddress)

/-- ECC.POPCNT (40_ecc.md R135). -/
def execEccPopcnt (imm : Byte) (s : State) : Host.Outcome State Fault Refusal :=
  .next ((s.setRes (BitVec.ofNat 64 (popcnt imm))).endOp .success)

end Sys2Proof.Machine
end

