-- ==== Sys2Proof/Machine/Page.lean ====
section
/-! DEFINITION. The page operations: read, program, read OOB, mark page, erase block (44_page_ops.md). -/

namespace Sys2Proof.Machine

/-! ## Where the triples live (44_page_ops.md R242) -/

/-- `triple_pos(i, k)` for `k = 0, 1, 2` (A, B, C) by `ECC_ORDER`. -/
def triplePos (s : State) (i k : Nat) : Nat :=
  let m := match s.conf.eccOrder with
    | .abc => 3 * i + k
    | .cba => 3 * i + 2 - k
  (tablePositions s.eccTab).getD m 0

/-- `get_triple(i)` -/
def getTriple (s : State) (i : Nat) : Triple :=
  ⟨s.oobs.read (triplePos s i 0), s.oobs.read (triplePos s i 1), s.oobs.read (triplePos s i 2)⟩

/-- `put_triple(i, e)` -/
def putTriple (s : State) (i : Nat) (e : Triple) : State :=
  s.setOobs (((s.oobs.write (triplePos s i 0) e.a).write (triplePos s i 1) e.b).write (triplePos s i 2) e.c)

/-- Does a page operation in this mode guard the data with software ECC? -/
def State.eccActive (s : State) (mode : OobMode) : Bool := mode == .auto && s.conf.eccMode == .soft

/-- Run `k`, unless software ECC has no place for its triples: tables ill-formed (93_implementation_defined.md U17) or
`ECC_TAB` shorter than `3 * NCH` bytes (44_page_ops.md R242, U6; log 12). -/
def withEccTable (s : State) (k : Ret Status) : Ret Status :=
  if tablesWellFormed s.freeTab s.eccTab s.geo.oobSize.toNat then
    if 3 * s.geo.chunks ≤ tableBytes s.eccTab then k else .refuse .eccTableTooShort
  else .refuse .rangeTableIllFormed

/-! ## PAGE.READ (44_page_ops.md R240) -/

/-- Check and repair chunk `i`: compute its triple, fetch the stored one, correct. -/
def checkChunk (s : State) (i : Nat) : Status × State :=
  let s1 := calcChunk s (256 * i)
  correctChunk (s1.setEccRd (getTriple s1 i)) (256 * i)

/-- Check and repair chunks `i`, `i + 1`, … (`n` of them), combining their statuses by `worst`. -/
def checkChunks : Nat → Nat → Status → State → Status × State
  | 0, _, st, s => (st, s)
  | n + 1, i, st, s => checkChunks n (i + 1) (worst st (checkChunk s i).1) (checkChunk s i).2

/-- The bus part of PAGE.READ: the read command and both transfers. With `OOB_SIZE = 0` the second transfer is an empty
`RdBuf` event, as the pseudocode of R240 reads; only NAND.RDBUF and NAND.WRBUF say that `n = 0` emits none
(42_nand_protocol.md R183, R184): DEDUCED (log 40). With an odd `OOB_SIZE` or `PAGE_SIZE` on a 16-bit bus, which
20_memory.md R68 (d) and 93_implementation_defined.md U20 do not expect, the odd number of bytes is moved: DESIGN CHOICE
(log 42). -/
def fetchPage (s : State) (row : Nat) : Ret Unit :=
  (command s .read0 (some row) (some 0)).bind fun _ s =>
    let r := s.rdBuf s.geo.pageSize.toNat
    let s1 := r.2.setDbuf (r.2.dbuf.writeBytes 0 r.1)
    let q := s1.rdBuf s1.geo.oobSize.toNat
    .val () (q.2.setOobs (q.2.oobs.writeBytes 0 q.1))

/-- PAGE.READ as a sub-operation (44_page_ops.md R240). -/
def pageRead (s : State) (row : Nat) (mode : OobMode) : Ret Status :=
  withDevice s s.pageFits
    (if s.eccActive mode then
      withEccTable s ((fetchPage s row).bind fun _ s =>
        .val (checkChunks s.geo.chunks 0 .success s).1 (checkChunks s.geo.chunks 0 .success s).2)
    else (fetchPage s row).bind fun _ s => .val .success s)

/-- PAGE.READ (44_page_ops.md R240). -/
def execPageRead (mode : OobMode) (s : State) : Host.Outcome State Fault Refusal :=
  (pageRead s s.a0.toNat mode).finish

/-! ## PAGE.WRITE (44_page_ops.md R243) -/

/-- Compute the triples of chunks `i`, `i + 1`, … (`n` of them) and place them in `OOBS`. -/
def placeTriples : Nat → Nat → State → State
  | 0, _, s => s
  | n + 1, i, s =>
    placeTriples n (i + 1) (putTriple (calcChunk s (256 * i)) i (calcChunk s (256 * i)).eccCa)

/-- The bus part of PAGE.WRITE: setup, both transfers, confirm. -/
def programPage (s : State) (row : Nat) : Ret Status :=
  (command s .seqin (some row) (some 0)).bind fun _ s =>
    let s1 := s.wrBuf (s.dbuf.readBytes 0 s.geo.pageSize.toNat)
    let s2 := s1.wrBuf (s1.oobs.readBytes 0 s1.geo.oobSize.toNat)
    confirm s2 .pageprog .write

/-- PAGE.WRITE as a sub-operation (44_page_ops.md R243). -/
def pageWrite (s : State) (row : Nat) (mode : OobMode) : Ret Status :=
  if s.conf.readOnly then .val .readOnly s
  else
    withDevice s s.pageFits
      (if s.eccActive mode then withEccTable s (programPage (placeTriples s.geo.chunks 0 s) row)
      else programPage s row)

/-- PAGE.WRITE (44_page_ops.md R243). -/
def execPageWrite (mode : OobMode) (s : State) : Host.Outcome State Fault Refusal :=
  (pageWrite s s.a0.toNat mode).finish

/-- The helper `prog_oob(row)` (44_page_ops.md R244). -/
def programOob (s : State) (row : Nat) : Ret Status :=
  (command s .seqin (some row) (some s.geo.pageSize.toNat)).bind fun _ s =>
    confirm (s.wrBuf (s.oobs.readBytes 0 s.geo.oobSize.toNat)) .pageprog .write

/-! ## PAGE.READOOB, PAGE.MARKBAD, BLOCK.ERASE -/

/-- PAGE.READOOB as a sub-operation (44_page_ops.md R245). -/
def pageReadoob (s : State) (row : Nat) : Ret Status :=
  withDevice s s.oobFits
    ((command s .readoob (some row) (some 0)).bind fun _ s =>
      let r := s.rdBuf s.geo.oobSize.toNat
      .val .success (r.2.setOobs (r.2.oobs.writeBytes 0 r.1)))

/-- PAGE.READOOB (44_page_ops.md R245). -/
def execPageReadoob (s : State) : Host.Outcome State Fault Refusal := (pageReadoob s s.a0.toNat).finish

/-- `OOBS` with every byte of the OOB area 0xFF but the marker byte 0x00 (44_page_ops.md R246). -/
def markerOobs (s : State) : State := s.blankOobs.setOobs (s.blankOobs.oobs.write s.bbmPos.toNat 0x00#8)

/-- PAGE.MARKBAD as a sub-operation (44_page_ops.md R246). -/
def pageMarkbad (s : State) (row : Nat) : Ret Status :=
  if s.conf.readOnly then .val .readOnly s
  else
    withDevice s s.markerFits (programOob (markerOobs s) row)

/-- PAGE.MARKBAD (44_page_ops.md R246). -/
def execPageMarkbad (s : State) : Host.Outcome State Fault Refusal := (pageMarkbad s s.a0.toNat).finish

/-- BLOCK.ERASE as a sub-operation (44_page_ops.md R247). -/
def blockErase (s : State) (row : Nat) : Ret Status :=
  if s.conf.readOnly then .val .readOnly s
  else
    withDevice s true
      ((command s .erase1 (some row) none).bind fun _ s => confirm s .erase2 .erase)

/-- BLOCK.ERASE (44_page_ops.md R247). -/
def execBlockErase (s : State) : Host.Outcome State Fault Refusal := (blockErase s s.a0.toNat).finish

end Sys2Proof.Machine
end

