-- ==== Sys2Proof/Machine/Oob.lean ====
section
/-! DEFINITION. U-OOB and U-BB: OOB.COPY, OOB.FILL, DEV.ISVALID, DEV.MARKBAD (45_oob_badblock.md). -/

namespace Sys2Proof.Machine

/-- OOB.COPY (45_oob_badblock.md R262). -/
def execOobCopy (mode : OobMode) (s : State) : Host.Outcome State Fault Refusal :=
  (withDevice s (s.oobReqOk mode s.a2 s.a3 && s.requestFits mode s.a2.toNat s.a3.toNat)
    (gatherOob s mode s.a2.toNat s.a3.toNat)).finish

/-- OOB.FILL (45_oob_badblock.md R263). -/
def execOobFill (mode : OobMode) (s : State) : Host.Outcome State Fault Refusal :=
  (withDevice s (s.oobReqOk mode s.a2 s.a3 && s.oobFits && s.requestFits mode s.a2.toNat s.a3.toNat)
    (scatterOob s mode s.a2.toNat s.a3.toNat)).finish

/-- Read the marker of each row in turn; the first that is not 0xFF makes the block bad (45_oob_badblock.md R266). -/
def checkMarkers : List Nat → State → Ret Status
  | [], s => .val .success s
  | r :: rs, s =>
    (pageReadoob s r).bind fun _ s =>
      if s.oobs.read s.bbmPos.toNat ≠ 0xFF#8 then .val .blockIsBad s else checkMarkers rs s

/-- DEV.ISVALID as a sub-operation (45_oob_badblock.md R266). -/
def devIsvalid (s : State) (a : Nat) : Ret Status :=
  withDevice s s.markerFits
    (if s.geo.size.toNat ≤ a ∨ s.geo.blockAligned a = false then .val .invalidAddress s
    else checkMarkers (s.markerRows (s.geo.rowOf a)) (s.select a))

/-- DEV.ISVALID (45_oob_badblock.md R266). -/
def execDevIsvalid (s : State) : Host.Outcome State Fault Refusal := (devIsvalid s s.a0.toNat).finish

/-- Mark each row; the first failure is the result, all rows are tried (45_oob_badblock.md R267). -/
def markRows : List Nat → Status → State → Ret Status
  | [], res, s => .val res s
  | r :: rs, res, s => (pageMarkbad s r).bind fun st s => markRows rs (firstFailure res st) s

/-- DEV.MARKBAD as a sub-operation (45_oob_badblock.md R267). -/
def devMarkbad (s : State) (a : Nat) : Ret Status :=
  if s.conf.readOnly then .val .readOnly s
  else
    (devIsvalid s a).bind fun st s =>
      if st = .blockIsBad then .val .success s
      else if st ≠ .success then .val st s
      else
        (blockErase s (s.geo.rowOf a)).bind fun _ s =>
          markRows (s.markerRows (s.geo.rowOf a)) .success s

/-- DEV.MARKBAD (45_oob_badblock.md R267). -/
def execDevMarkbad (s : State) : Host.Outcome State Fault Refusal := (devMarkbad s s.a0.toNat).finish

end Sys2Proof.Machine
end

