-- ==== Sys2Proof/Machine/Part.lean ====
section
/-! DEFINITION. U-PART: the lock, partitions and the partition-level operations (46_partition_ops.md). -/

namespace Sys2Proof.Machine

/-! ## The lock -/

/-- LOCK.OBTAIN (46_partition_ops.md R280). -/
def execLockObtain (s : State) : Host.Outcome State Fault Refusal :=
  ((acquire s).bind fun _ s => .val .success s).finish

/-- LOCK.RELEASE (46_partition_ops.md R281). -/
def execLockRelease (s : State) : Host.Outcome State Fault Refusal := .next ((s.setLock false).endOp .success)

/-! ## Partitions -/

/-- A free block-aligned `BEGIN` for a partition of `size` bytes that keeps it inside the device (10_state.md R39). -/
def freeBegin (s : State) (size : Nat) : Addr :=
  let v := s.par.fitAddr (Config.freeWord s.bus.fresh).toNat &&& ~~~s.geo.blockMask
  if v.toNat + size ≤ s.geo.size.toNat then v else 0

/-- The absolute `BEGIN` of a new partition. A sum that does not fit the `ADDR_W` bits of the register has no stated
value: a free one that keeps the invariant of 10_state.md R39 (log 18). -/
def childBegin (s : State) (parent : PartEntry) (begin size : Addr) : Addr :=
  if parent.begin.toNat + begin.toNat < s.par.addrBound then parent.begin + begin else freeBegin s size.toNat

/-- The checks of PART.CREATE, in order; none when the request is good (46_partition_ops.md R283). -/
def createRefusal (s : State) (pidx pdst : BitVec 4) : Option Status :=
  if s.detected = false then some .noDevice
  else
    match s.part pidx with
    | none => some .invalidAddress
    | some p =>
      if s.pt.length ≤ pdst.toNat ∨ pdst = 0#4 then some .invalidAddress
      else if p.psize.toNat < s.a0.toNat + s.a1.toNat then some .invalidAddress
      else if s.geo.blockAligned s.a0.toNat = false ∨ s.geo.blockAligned s.a1.toNat = false then some .invalidAddress
      else none

/-- The state with partition `pdst` carved out of `parent` (46_partition_ops.md R283). -/
def createPartition (s : State) (parent : PartEntry) (pdst : BitVec 4) : State :=
  { s.setBus (s.bus.draw 1) with
    pt := s.pt.set pdst.toNat ⟨true, childBegin s parent s.a0 s.a1, s.a1.setWidth 65⟩
    res := pdst.setWidth 64 }

/-- PART.CREATE (46_partition_ops.md R283). -/
def execPartCreate (pidx pdst : BitVec 4) (s : State) : Host.Outcome State Fault Refusal :=
  match createRefusal s pidx pdst, s.part pidx with
  | some st, _ => .next (s.endOp st)
  | none, some p => .next ((createPartition s p pdst).endOp .success)
  | none, none => .next (s.endOp .invalidAddress)

/-! ## Validation (46_partition_ops.md R282, R284; capabilities and device class R295) -/

/-- Is the request of an OOB operation out of bounds (46_partition_ops.md R284)? An operation without OOB request has
none. -/
def State.oobOutOfBounds (s : State) : Option OobMode → Bool
  | some mode => !s.oobReqOk mode s.a2 s.a3
  | none => false

/-- `rw_validate`: none when the request goes on, else the status it ends with (46_partition_ops.md R284).
`oob` says whether it is an OOB operation, and in which mode. -/
def rwValidate (s : State) (pidx : BitVec 4) (oob : Option OobMode) (cap writes : Bool) : Option Status :=
  if s.detected = false then some .noDevice
  else
    match s.part pidx with
    | none => some .invalidAddress
    | some p =>
      if s.conf.nandClass = true ∧ s.a1 ≠ 0 ∧ s.a1 ≠ s.geo.pageSize then some .invalidAddress
      else if p.psize.toNat < s.a0.toNat + s.a1.toNat then some .invalidAddress
      else if s.oobOutOfBounds oob then some .invalidAddress
      else if s.a1 = 0 ∧ (oob.isNone = true ∨ s.a3 = 0) then some .success
      else if cap = false ∨ (oob.isSome = true ∧ s.conf.capOob = false) ∨ s.conf.nandClass = false then
        some .opNotSupported
      else if s.geo.pageAligned s.a0.toNat = false then some .invalidAddress
      else if s.a1 = 0 ∧ p.psize.toNat ≤ s.a0.toNat then some .invalidAddress
      else if writes = true ∧ s.conf.readOnly = true then some .readOnly
      else none

/-- The validation shared by PART.ERASE, PART.ISVALID and PART.MARKBAD (46_partition_ops.md R289, R291, R292). The
device class is checked with the capability, as R295 says (log 17). The block alignment comes after the capability, as
step 8 of R282, R289, R291 and 60_exceptions.md R334 have it; 92_eei_decisions.md D21 names it at step 3: DEDUCED
(log 41). -/
def blockValidate (s : State) (pidx : BitVec 4) (cap writes : Bool) : Option Status :=
  if s.detected = false then some .noDevice
  else
    match s.part pidx with
    | none => some .invalidAddress
    | some p =>
      if p.psize.toNat < s.a0.toNat + s.geo.blockSize.toNat then some .invalidAddress
      else if cap = false ∨ s.conf.nandClass = false then some .opNotSupported
      else if s.geo.blockAligned s.a0.toNat = false then some .invalidAddress
      else if writes = true ∧ s.conf.readOnly = true then some .readOnly
      else none

/-- `dev(A0)`: the device address of the partition-relative address `A0` (46_partition_ops.md R294). -/
def State.dev (s : State) (pidx : BitVec 4) : Nat :=
  match s.part pidx with
  | some p => p.begin.toNat + s.a0.toNat
  | none => s.a0.toNat

/-- Validate, and last of all check the buffer windows (92_eei_decisions.md D9; log 29); then take the lock, delegate,
release (46_partition_ops.md R282). -/
def partOp (s : State) (refusal : Option Status) (fits : Bool) (body : State → Ret Status) :
    Host.Outcome State Fault Refusal :=
  match refusal with
  | some st => .next (s.endOp st)
  | none => if fits then (locked s body).finish else .next (s.endOp .invalidAddress)

/-- The windows of PART.READOOB and PART.WRITEOOB: those of their transfer, a page or only its OOB area, and those of the
OOB request (92_eei_decisions.md D9; log 29). -/
def State.oobTransferFits (s : State) (mode : OobMode) : Bool :=
  (if s.a1 = s.geo.pageSize then s.pageFits else s.oobFits) && s.requestFits mode s.a2.toNat s.a3.toNat

/-- The windows of the erase family: the marker reads, where the mode makes them (92_eei_decisions.md D9; log 29). -/
def State.eraseFits (s : State) (mode : EraseMode) : Bool := mode == .force || !s.conf.capIsValid || s.markerFits

/-! ## Read and write -/

/-- PART.READ (46_partition_ops.md R285). -/
def execPartRead (pidx : BitVec 4) (s : State) : Host.Outcome State Fault Refusal :=
  partOp s (rwValidate s pidx none s.conf.capRead false) s.pageFits fun s =>
    pageRead (s.select (s.dev pidx)) (s.geo.rowOf (s.dev pidx)) .auto

/-- PART.WRITE (46_partition_ops.md R286). -/
def execPartWrite (pidx : BitVec 4) (s : State) : Host.Outcome State Fault Refusal :=
  partOp s (rwValidate s pidx none s.conf.capWrite true) s.pageFits fun s =>
    pageWrite (s.select (s.dev pidx)).blankOobs (s.geo.rowOf (s.dev pidx)) .auto

/-- The transfer of PART.READOOB: a whole page, or only its OOB area (46_partition_ops.md R287). -/
def readForOob (s : State) (row : Nat) (mode : OobMode) : Ret Status :=
  if s.a1 = s.geo.pageSize then pageRead s row mode else pageReadoob s row

/-- PART.READOOB (46_partition_ops.md R287). -/
def execPartReadoob (pidx : BitVec 4) (mode : OobMode) (s : State) : Host.Outcome State Fault Refusal :=
  partOp s (rwValidate s pidx (some mode) s.conf.capRead false) (s.oobTransferFits mode) fun s =>
    (readForOob (s.select (s.dev pidx)) (s.geo.rowOf (s.dev pidx)) mode).bind fun st s =>
      (gatherOob s mode s.a2.toNat s.a3.toNat).bind fun _ s => .val st s

/-- The transfer of PART.WRITEOOB: a whole page, or only its OOB area (46_partition_ops.md R288). -/
def writeForOob (s : State) (row : Nat) (mode : OobMode) : Ret Status :=
  if s.a1 = s.geo.pageSize then pageWrite s row mode else withDevice s s.oobFits (programOob s row)

/-- PART.WRITEOOB (46_partition_ops.md R288). -/
def execPartWriteoob (pidx : BitVec 4) (mode : OobMode) (s : State) : Host.Outcome State Fault Refusal :=
  partOp s (rwValidate s pidx (some mode) s.conf.capWrite true) (s.oobTransferFits mode) fun s =>
    (scatterOob (s.select (s.dev pidx)) mode s.a2.toNat s.a3.toNat).bind fun _ t =>
      writeForOob t (s.geo.rowOf (s.dev pidx)) mode

/-! ## Erase -/

/-- The erase itself, and the mark-bad recovery (46_partition_ops.md R293). -/
def eraseThenMark (s : State) (a : Nat) (mode : EraseMode) : Ret Status :=
  (blockErase s (s.geo.rowOf a)).bind fun e s =>
    if e = .erase ∧ mode = .markBadOnError ∧ s.conf.capMarkBad = true then
      (devMarkbad s a).bind fun _ s => .val e s
    else .val e s

/-- The helper `erase_block(a, mode)` (46_partition_ops.md R293). -/
def eraseBlock (s : State) (a : Nat) (mode : EraseMode) : Ret Status :=
  if mode = .force then eraseThenMark (s.select a) a mode
  else if s.conf.capIsValid = false then .val .opNotSupported s
  else
    (devIsvalid s a).bind fun v s => if v ≠ .success then .val v s else eraseThenMark s a mode

/-- PART.ERASE (46_partition_ops.md R289); `MODE` 3 is an illegal request. -/
def execPartErase (pidx : BitVec 4) (mode : BitVec 2) (s : State) : Host.Outcome State Fault Refusal :=
  match eraseModeOf mode with
  | none => illegalRequest s
  | some m => partOp s (blockValidate s pidx s.conf.capErase true) (s.eraseFits m) fun s => eraseBlock s (s.dev pidx) m

/-- The validation of PART.ERASEALL (46_partition_ops.md R290; device class as in R295, log 17). -/
def eraseallValidate (s : State) (pidx : BitVec 4) : Option Status :=
  if s.detected = false then some .noDevice
  else
    match s.part pidx with
    | none => some .invalidAddress
    | some _ =>
      if s.conf.capErase = false ∨ s.conf.nandClass = false then some .opNotSupported
      else if s.conf.readOnly = true then some .readOnly
      else none

/-- Erase `n` blocks from device address `a` on, keeping the first non-ignorable status (46_partition_ops.md R290). -/
def eraseBlocks (mode : EraseMode) : Nat → Nat → Status → State → Ret Status
  | 0, _, st, s => .val st s
  | n + 1, a, st, s =>
    (eraseBlock s a mode).bind fun e s =>
      eraseBlocks mode n (a + s.geo.blockSize.toNat) (firstNonIgnorable st e) s

/-- How many blocks the scan of PART.ERASEALL visits: the offsets `0, BLOCK_SIZE, …` below `PSIZE`. -/
def blocksIn (blockSize psize : Nat) : Nat := (psize + blockSize - 1) / blockSize

/-- PART.ERASEALL (46_partition_ops.md R290); `MODE` 3 is an illegal request. -/
def execPartEraseall (pidx : BitVec 4) (mode : BitVec 2) (s : State) : Host.Outcome State Fault Refusal :=
  match eraseModeOf mode, s.part pidx with
  | none, _ => illegalRequest s
  | some m, some p =>
    partOp s (eraseallValidate s pidx)
      (blocksIn s.geo.blockSize.toNat p.psize.toNat == 0 || s.eraseFits m) fun s =>
      eraseBlocks m (blocksIn s.geo.blockSize.toNat p.psize.toNat) p.begin.toNat .success s
  | some _, none => partOp s (eraseallValidate s pidx) true fun s => .val .invalidAddress s

/-! ## Bad blocks -/

/-- PART.ISVALID (46_partition_ops.md R291). -/
def execPartIsvalid (pidx : BitVec 4) (s : State) : Host.Outcome State Fault Refusal :=
  partOp s (blockValidate s pidx s.conf.capIsValid false) s.markerFits fun s => devIsvalid s (s.dev pidx)

/-- PART.MARKBAD (46_partition_ops.md R292). -/
def execPartMarkbad (pidx : BitVec 4) (s : State) : Host.Outcome State Fault Refusal :=
  partOp s (blockValidate s pidx s.conf.capMarkBad true) s.markerFits fun s => devMarkbad s (s.dev pidx)

end Sys2Proof.Machine
end

