-- ==== Sys2Proof/Machine/Dispatch.lean ====
section
/-! DEFINITION. Which meaning each instruction has: one arm per constructor of `Instr`. -/

namespace Sys2Proof.Machine

/-- Run one instruction. -/
def exec (i : Instr) (s : State) : Host.Outcome State Fault Refusal :=
  match i with
  | .eccCalc => Sys2Proof.Machine.execEccCalc s
  | .eccCorrect => Sys2Proof.Machine.execEccCorrect s
  | .eccPopcnt imm => Sys2Proof.Machine.execEccPopcnt imm s
  | .crc16 => Sys2Proof.Machine.execCrc16 s
  | .onfiCheck => Sys2Proof.Machine.execOnfiCheck s
  | .nandSelect => Sys2Proof.Machine.execNandSelect s
  | .nandCtrl data mode => Sys2Proof.Machine.execNandCtrl data mode s
  | .nandWait => Sys2Proof.Machine.execNandWait s
  | .nandCmd cmd colV rbV => Sys2Proof.Machine.execNandCmd cmd colV rbV s
  | .nandRd8 => Sys2Proof.Machine.execNandRd8 s
  | .nandRd16 => Sys2Proof.Machine.execNandRd16 s
  | .nandRdbuf => Sys2Proof.Machine.execNandRdbuf s
  | .nandWrbuf => Sys2Proof.Machine.execNandWrbuf s
  | .nandReset => Sys2Proof.Machine.execNandReset s
  | .nandReadid imm => Sys2Proof.Machine.execNandReadid imm s
  | .nandStatus => Sys2Proof.Machine.execNandStatus s
  | .nandGetfeat imm => Sys2Proof.Machine.execNandGetfeat imm s
  | .nandSetfeat imm => Sys2Proof.Machine.execNandSetfeat imm s
  | .detect => Sys2Proof.Machine.execDetect s
  | .onfiDetect => Sys2Proof.Machine.execOnfiDetect s
  | .pageRead mode => Sys2Proof.Machine.execPageRead mode s
  | .pageWrite mode => Sys2Proof.Machine.execPageWrite mode s
  | .pageReadoob => Sys2Proof.Machine.execPageReadoob s
  | .pageMarkbad => Sys2Proof.Machine.execPageMarkbad s
  | .blockErase => Sys2Proof.Machine.execBlockErase s
  | .oobCopy mode => Sys2Proof.Machine.execOobCopy mode s
  | .oobFill mode => Sys2Proof.Machine.execOobFill mode s
  | .devIsvalid => Sys2Proof.Machine.execDevIsvalid s
  | .devMarkbad => Sys2Proof.Machine.execDevMarkbad s
  | .lockObtain => Sys2Proof.Machine.execLockObtain s
  | .lockRelease => Sys2Proof.Machine.execLockRelease s
  | .partCreate pidx pdst => Sys2Proof.Machine.execPartCreate pidx pdst s
  | .partRead pidx => Sys2Proof.Machine.execPartRead pidx s
  | .partWrite pidx => Sys2Proof.Machine.execPartWrite pidx s
  | .partReadoob pidx mode => Sys2Proof.Machine.execPartReadoob pidx mode s
  | .partWriteoob pidx mode => Sys2Proof.Machine.execPartWriteoob pidx mode s
  | .partErase pidx mode => Sys2Proof.Machine.execPartErase pidx mode s
  | .partEraseall pidx mode => Sys2Proof.Machine.execPartEraseall pidx mode s
  | .partIsvalid pidx => Sys2Proof.Machine.execPartIsvalid pidx s
  | .partMarkbad pidx => Sys2Proof.Machine.execPartMarkbad pidx s
  | .cmdRead0 => Sys2Proof.Machine.execCmdRead0 s
  | .cmdRead1 => Sys2Proof.Machine.execCmdRead1 s
  | .cmdPageprog => Sys2Proof.Machine.execCmdPageprog s
  | .cmdReadstart => Sys2Proof.Machine.execCmdReadstart s
  | .cmdReadoob => Sys2Proof.Machine.execCmdReadoob s
  | .cmdErase1 => Sys2Proof.Machine.execCmdErase1 s
  | .cmdStatus => Sys2Proof.Machine.execCmdStatus s
  | .cmdSeqin => Sys2Proof.Machine.execCmdSeqin s
  | .cmdReadid => Sys2Proof.Machine.execCmdReadid s
  | .cmdErase2 => Sys2Proof.Machine.execCmdErase2 s
  | .cmdParam => Sys2Proof.Machine.execCmdParam s
  | .cmdGetfeat => Sys2Proof.Machine.execCmdGetfeat s
  | .cmdSetfeat => Sys2Proof.Machine.execCmdSetfeat s
  | .cmdReset => Sys2Proof.Machine.execCmdReset s

end Sys2Proof.Machine
end

