-- ==== Sys2Proof/Machine/HostPort.lean ====
section
/-! DEFINITION. The host port: what the host and other requesters do to BED-CORE between operations (30_encoding.md R91,
10_state.md R20, R37, R38, R40, R45, R49). -/

namespace Sys2Proof.Machine

/-- A write of `A0`, `A1`, `A2` or `A3`, registers of `ADDR_W` bits (10_state.md R20). -/
def State.setOperand (s : State) (n : Fin 4) (v : Addr) : State :=
  let w := s.par.fitAddr v.toNat
  match n with
  | 0 => { s with a0 := w }
  | 1 => { s with a1 := w }
  | 2 => { s with a2 := w }
  | 3 => { s with a3 := w }

/-- The reset event `RST` (10_state.md R49): every register at its reset value; it sends nothing on the bus and leaves
the chips, the trace, the parameters and what the host will do. -/
def State.rst (s : State) : State :=
  { State.reset with
    pt := List.replicate s.pt.length ⟨false, 0, 0⟩, bus := s.bus, par := s.par, hostIn := s.hostIn }

/-- A host write that is defined only while `PHASE = IDLE` (93_implementation_defined.md U8, U16; log 13). -/
def whileIdle (s : State) (o : Host.Outcome State Fault Refusal) : Host.Outcome State Fault Refusal :=
  if s.phase = .idle then o else .refused .hostWriteWhileBusy

/-- What one host action does. The LOCK.RELEASE of another requester clears `LOCK` and writes neither `CW` nor `STATUS`,
which belong to the operation that stalls (10_state.md R40, 30_encoding.md R91; log 10). -/
def hostAct (a : HostAction) (s : State) : Host.Outcome State Fault Refusal :=
  match a with
  | .writeA n v => whileIdle s (.next (s.setOperand n v))
  | .writeCw v => if s.phase = .idle then .next { s with cw := v, phase := .run } else .next s
  | .writeEccRd t => whileIdle s (.next (s.setEccRd t))
  | .writeEccCa t => whileIdle s (.next (s.setEccCa t))
  | .writeConf c =>
    whileIdle s
      (if s.detected = true ∧ c.bus16 ≠ s.conf.bus16 then .refused .busWidthChangedAfterDetect
      else .next { s with conf := c })
  | .writeTables free ecc => whileIdle s (.next { s with freeTab := free, eccTab := ecc })
  | .writeDbuf off bytes =>
    whileIdle s
      (if off + bytes.length ≤ s.par.maxPage then .next (s.setDbuf (s.dbuf.writeBytes off bytes))
      else .fault .noSuchBufferByte)
  | .writeObuf off bytes =>
    whileIdle s
      (if off + bytes.length ≤ s.par.maxOob then .next (s.setObuf (s.obuf.writeBytes off bytes))
      else .fault .noSuchBufferByte)
  | .reset => .next s.rst
  | .otherRelease => .next (if s.phase = .stallLock then s.setLock false else s)

/-- Take the next host action; nothing happens when there is none. -/
def takeHost (s : State) (otherwise : State) : Host.Outcome State Fault Refusal :=
  match s.hostIn with
  | [] => .next otherwise
  | a :: rest => hostAct a { s with hostIn := rest }

end Sys2Proof.Machine
end

