-- ==== Sys2Proof/Machine/Sequencer.lean ====
section
/-! DEFINITION. What BED-CORE does in each phase (10_state.md R22, 30_encoding.md R91): run the request in `CW`, wait for
the lock, poll a chip that is not ready, or take what the host does; and how a word reaches the place it is run from. -/

namespace Sys2Proof.Machine

/-- Run the request in `CW`; an illegal one ends with OP_NOT_SUPPORTED and no other effect (30_encoding.md R96). -/
def runRequest (s : State) : Host.Outcome State Fault Refusal :=
  match decode (.request s.cw) with
  | .ok i => exec i s
  | .error _ => illegalRequest s

/-- Run a command byte from the bus port: the port names a command by its default byte in the table of 30_encoding.md R100;
any other byte goes on the lines as it is (log 7, 26, 35). -/
def runPort (b : Byte) (s : State) : Host.Outcome State Fault Refusal :=
  match decode (.bus b) with
  | .ok i => exec i { s with busPort := none }
  | .error _ => .next (busCommand (s.par.cmds.read b) { s with busPort := none })

/-- The stall on a lock: when it is free the request runs, else only the host or another requester can act
(46_partition_ops.md R280; log 10). -/
def retryLock (s : State) : Host.Outcome State Fault Refusal :=
  if s.lock then takeHost s s else runRequest (s.setPhase .run)

/-- The busy-wait on a chip that never becomes ready: one more poll, unless the host acts (60_exceptions.md R337;
log 9). -/
def pollAgain (s : State) : Host.Outcome State Fault Refusal := takeHost s (s.setBus (s.bus.log .notReady))

/-- What happens in each phase. -/
def phaseStep (s : State) : Host.Outcome State Fault Refusal :=
  match s.phase with
  | .idle => takeHost s s
  | .run => runRequest s
  | .stallLock => retryLock s
  | .waitRdy => pollAgain s

/-- Put a word where it is run from: a byte on the bus port, a command word in `CW` with the operation started
(30_encoding.md R91; log 6, 7). -/
def placeWord (s : State) (nbits w : Nat) : State :=
  if nbits = 8 then { s with busPort := some (BitVec.ofNat 8 w) }
  else { s with busPort := none, cw := BitVec.ofNat 32 w, phase := .run }

end Sys2Proof.Machine
end

