-- ==== Sys2Proof/Safety.lean ====
section
/-! DEFINITION. The terms that claims about BED-CORE use: traces, frames, invariants of the state, when the attached chip is
the one the geometry describes, and the statuses an operation may end with. -/

namespace Sys2Proof.Machine

/-! ## Traces and flash bytes -/

/-- From `s` to `t` exactly these bus events were emitted, in this order (00_scope.md section 5, bus trace). -/
abbrev emits (s t : State) (events : List BusEvent) : Prop := t.bus.trace = events.reverse ++ s.bus.trace

/-- Byte `a` of the flash array of the chip with index `c`; blank where there is no such chip. -/
def Bus.flash (b : Bus) (c a : Nat) : Byte :=
  match b.chips[c]? with
  | some ch => ch.cells.read a
  | none => Memory.blank

@[inherit_doc Bus.flash] def State.flash (s : State) (c a : Nat) : Byte := s.bus.flash c a

/-- No byte of any flash array differs. -/
abbrev sameFlash (s t : State) : Prop := ∀ c a, t.flash c a = s.flash c a

/-! ## Encodings -/

/-- `match` and `mask` of a row of spec/opcode_table.json: the row is selected by `CW & mask = match`. -/
structure MaskRow where
  value : BitVec 32
  mask : BitVec 32
deriving DecidableEq, Repr

/-- The 40 request rows of spec/opcode_table.json, first part. -/
def maskRowsLow : List MaskRow :=
  [ ⟨0x00000001#32, 0xFFFFFFFF#32⟩, ⟨0x00000002#32, 0xFFFFFFFF#32⟩, ⟨0x00000003#32, 0xFF00FFFF#32⟩,
    ⟨0x00000010#32, 0xFFFFFFFF#32⟩, ⟨0x00000011#32, 0xFFFFFFFF#32⟩, ⟨0x00000020#32, 0xFFFFFFFF#32⟩,
    ⟨0x00000021#32, 0xFF00FCFF#32⟩, ⟨0x00000022#32, 0xFFFFFFFF#32⟩, ⟨0x00000023#32, 0xFF00F3FF#32⟩,
    ⟨0x00000024#32, 0xFFFFFFFF#32⟩, ⟨0x00000025#32, 0xFFFFFFFF#32⟩, ⟨0x00000026#32, 0xFFFFFFFF#32⟩,
    ⟨0x00000027#32, 0xFFFFFFFF#32⟩, ⟨0x00000028#32, 0xFFFFFFFF#32⟩, ⟨0x00000029#32, 0xFF00FFFF#32⟩,
    ⟨0x0000002A#32, 0xFFFFFFFF#32⟩, ⟨0x0000002B#32, 0xFF00FFFF#32⟩, ⟨0x0000002C#32, 0xFF00FFFF#32⟩,
    ⟨0x00000030#32, 0xFFFFFFFF#32⟩, ⟨0x00000031#32, 0xFFFFFFFF#32⟩, ⟨0x00000040#32, 0xFFFFFEFF#32⟩ ]

/-- The 40 request rows of spec/opcode_table.json, second part. -/
def maskRowsHigh : List MaskRow :=
  [ ⟨0x00000041#32, 0xFFFFFEFF#32⟩, ⟨0x00000042#32, 0xFFFFFFFF#32⟩, ⟨0x00000043#32, 0xFFFFFFFF#32⟩,
    ⟨0x00000044#32, 0xFFFFFFFF#32⟩, ⟨0x00000050#32, 0xFFFFFEFF#32⟩, ⟨0x00000051#32, 0xFFFFFEFF#32⟩,
    ⟨0x00000060#32, 0xFFFFFFFF#32⟩, ⟨0x00000061#32, 0xFFFFFFFF#32⟩, ⟨0x00000070#32, 0xFFFFFFFF#32⟩,
    ⟨0x00000071#32, 0xFFFFFFFF#32⟩, ⟨0x00000072#32, 0x00FFFFFF#32⟩, ⟨0x00000073#32, 0xF0FFFFFF#32⟩,
    ⟨0x00000074#32, 0xF0FFFFFF#32⟩, ⟨0x00000075#32, 0xF0FFFEFF#32⟩, ⟨0x00000076#32, 0xF0FFFEFF#32⟩,
    ⟨0x00000077#32, 0xF0FFFCFF#32⟩, ⟨0x00000078#32, 0xF0FFFCFF#32⟩, ⟨0x00000079#32, 0xF0FFFFFF#32⟩,
    ⟨0x0000007A#32, 0xF0FFFFFF#32⟩ ]

/-- `CW` selects no row, or has the reserved `MODE` value 3 in a row that reserves it (30_encoding.md R96, R93). -/
abbrev illegalWord (cw : BitVec 32) : Prop :=
  (∀ r ∈ List.append maskRowsLow maskRowsHigh, cw &&& r.mask ≠ r.value) ∨
    (cw.extractLsb' 0 8 ∈ [0x21#8, 0x77#8, 0x78#8] ∧ cw.extractLsb' 8 2 = 3#2)

/-! ## Bus sequences -/

/-- `Ctl(CMD_x, CLE)`: the parameter that stands for the command is on the lines (30_encoding.md R100). -/
abbrev State.latch (s : State) (c : Cmd) : BusEvent := .cle (s.par.cmds.byte c)

/-- Column cycles: one byte by the small-page method, two by the large-page one; word columns on a 16-bit bus
(30_encoding.md R101). -/
def columnEvents (s : State) (v : Variant) (k : Nat) : List BusEvent :=
  let kb := if s.conf.bus16 then k / 2 else k
  match v with
  | .small => [.ale (BitVec.ofNat 8 kb)]
  | .large => [.ale (BitVec.ofNat 8 kb), .ale (BitVec.ofNat 8 (kb / 256))]

/-- Row cycles, low byte first, the third only when `ROW3` (30_encoding.md R102). -/
def rowEvents (s : State) (r : Nat) : List BusEvent :=
  [.ale (BitVec.ofNat 8 r), .ale (BitVec.ofNat 8 (r / 256))] ++
    if s.geo.row3 then [.ale (BitVec.ofNat 8 (r / 65536))] else []

/-- The commands whose operand is a single byte, not a row (42_nand_protocol.md R174). -/
abbrev byteCommands : List Cmd := [.readid, .param, .getfeat, .setfeat]

/-- The cycles of `row_or_byte` (30_encoding.md R102, R103). -/
def operandEvents (s : State) (cmd : Cmd) (rb : Nat) : List BusEvent :=
  if cmd ∈ byteCommands then [.ale (BitVec.ofNat 8 rb)] else rowEvents s rb

/-- The area pointer of a small-page program (42_nand_protocol.md R176): its command, and the column left. -/
def pointerOf (s : State) (k : Nat) : Cmd × Nat :=
  if s.geo.pageSize.toNat ≤ k then (.readoob, k - s.geo.pageSize.toNat)
  else if s.conf.bus16 = true ∨ k < 256 then (.read0, k)
  else (.read1, k - 256)

/-- The events of `cmd_sp` before its wait (42_nand_protocol.md R176). -/
def smallEvents (s : State) (cmd : Cmd) (rb col : Option Nat) : List BusEvent :=
  (match col with
    | some k =>
      if cmd = .seqin then [s.latch (pointerOf s k).1, s.latch cmd] ++ columnEvents s .small (pointerOf s k).2
      else s.latch cmd :: columnEvents s .small k
    | none => [s.latch cmd]) ++
    (rb.map (operandEvents s cmd)).getD [] ++ [.idle]

/-- The events of `cmd_lp` before its wait, for a command that is not redirected (42_nand_protocol.md R177). -/
def largeEventsOf (s : State) (cmd : Cmd) (rb col : Option Nat) : List BusEvent :=
  s.latch cmd :: (col.map (columnEvents s .large)).getD [] ++ (rb.map (operandEvents s cmd)).getD [] ++ [.idle] ++
    if cmd = .read0 then [s.latch .readstart, .idle] else []

/-- The events of `cmd_lp` before its wait (42_nand_protocol.md R177). -/
def largeEvents (s : State) (cmd : Cmd) (rb col : Option Nat) : List BusEvent :=
  if cmd = .readoob then largeEventsOf s .read0 rb (some (col.getD 0 + s.geo.pageSize.toNat))
  else largeEventsOf s cmd rb col

/-- The events of `command(cmd, row_or_byte, column)` before its wait, by the selected method (R175). -/
def commandEvents (s : State) (cmd : Cmd) (rb col : Option Nat) : List BusEvent :=
  match s.variant with
  | .small => smallEvents s cmd rb col
  | .large => largeEvents s cmd rb col

/-- The commands that `command` follows by a busy-wait (42_nand_protocol.md R174). -/
def waitingCommands : List Cmd := [.read0, .read1, .readoob, .param, .getfeat, .reset]

/-- Confirm byte, wait of `n` polls, status byte `b` (44_page_ops.md R243, R247). -/
def confirmEvents (s : State) (c : Cmd) (n : Nat) (b : Byte) : List BusEvent :=
  [s.latch c, .idle, .wait n, s.latch .status, .idle, .rd8 b]

/-- A read of one OOB area (44_page_ops.md R245). -/
def oobReadEvents (s : State) (row n : Nat) (oob : List Byte) : List BusEvent :=
  commandEvents s .readoob (some row) (some 0) ++ [.wait n, .rdBuf oob]

/-- A page read (44_page_ops.md R240). -/
def pageReadEvents (s : State) (row n : Nat) (main oob : List Byte) : List BusEvent :=
  commandEvents s .read0 (some row) (some 0) ++ [.wait n, .rdBuf main, .rdBuf oob]

/-- A page program (44_page_ops.md R243). -/
def pageWriteEvents (s : State) (row : Nat) (main oob : List Byte) (n : Nat) (b : Byte) : List BusEvent :=
  commandEvents s .seqin (some row) (some 0) ++ [.wrBuf main, .wrBuf oob] ++ confirmEvents s .pageprog n b

/-- A program of one OOB area (44_page_ops.md R244). -/
def oobWriteEvents (s : State) (row : Nat) (oob : List Byte) (n : Nat) (b : Byte) : List BusEvent :=
  commandEvents s .seqin (some row) (some s.geo.pageSize.toNat) ++ [.wrBuf oob] ++ confirmEvents s .pageprog n b

/-- A block erase (44_page_ops.md R247). -/
def eraseEvents (s : State) (row n : Nat) (b : Byte) : List BusEvent :=
  commandEvents s .erase1 (some row) none ++ confirmEvents s .erase2 n b

/-- Does the status byte `b` tell a failure: a bit of the parameter `ST_FAIL` is set (30_encoding.md R107)? -/
abbrev State.tellsFailure (s : State) (b : Byte) : Bool := b &&& s.par.stFail != 0#8

/-- What `PHASE` is at each bus event of an operation, and at each poll of a busy-wait: WAIT_RDY at the polls, RUN at
every other event (10_state.md R22, 42_nand_protocol.md R172). The place in the list is the position within the operation;
one step of the machine runs through all of it (log 1). -/
def phasesDuring (events : List BusEvent) : List Phase :=
  events.flatMap fun e =>
    match e with
    | .wait polls => List.replicate (polls + 1) .waitRdy
    | .notReady => [.waitRdy]
    | _ => [.run]

/-- The OOB bytes that PAGE.MARKBAD programs (44_page_ops.md R246). -/
def markerBytes (s : State) : List Byte := (List.replicate s.geo.oobSize.toNat 0xFF#8).set s.bbmPos.toNat 0x00#8

/-! ## Invariants -/

/-- Every memory of the machine and of the chips is in canonical form. -/
abbrev State.memoryWf (s : State) : Prop :=
  s.dbuf.wf ∧ s.obuf.wf ∧ s.oobs.wf ∧ ∀ ch ∈ s.bus.chips, ch.cells.wf

/-- The geometry registers of a detected device agree with each other and fit the buffers (10_state.md R27, R28,
43_detection.md R215). -/
abbrev Geometry.valid (g : Geometry) (par : Params) : Prop :=
  isPow2 g.pageSize.toNat = true ∧ isPow2 g.blockSize.toNat = true ∧ g.blockSize.toNat % g.pageSize.toNat = 0 ∧
    isPow2 (g.blocksPerChip.toNat * g.blockSize.toNat) = true ∧ g.blocksPerChip.toNat * g.blockSize.toNat < par.addrBound ∧
    g.pageSize.toNat ≤ par.maxPage ∧ g.oobSize.toNat ≤ par.maxOob ∧ 1 ≤ g.chipCount.toNat ∧
    g.size.toNat = g.blocksPerChip.toNat * g.blockSize.toNat * g.chipCount.toNat ∧
    g.pageShift.toNat = g.pageSize.toNat.log2 ∧ g.blockShift.toNat = g.blockSize.toNat.log2 ∧
    g.chipShift.toNat = (g.blocksPerChip.toNat * g.blockSize.toNat).log2 ∧
    g.pageMask.toNat = g.pageSize.toNat - 1 ∧ g.blockMask.toNat = g.blockSize.toNat - 1 ∧
    g.chipMask.toNat = g.blocksPerChip.toNat * g.blockSize.toNat - 1 ∧
    g.pagesPerBlock.toNat = g.blockSize.toNat / g.pageSize.toNat ∧
    g.row3 = decide (16 < g.chipShift.toNat - g.pageShift.toNat)

/-- While `DETECTED = 1` the geometry is valid (00_scope.md R8). -/
abbrev State.geometryInv (s : State) : Prop := s.detected = true → s.geo.valid s.par

/-- Every valid partition entry is block-aligned and lies inside the detected device (10_state.md R39). -/
abbrev State.partitionInv (s : State) : Prop :=
  ∀ p ∈ s.pt, p.valid = true →
    s.detected = true ∧ p.begin.toNat % s.geo.blockSize.toNat = 0 ∧ p.psize.toNat % s.geo.blockSize.toNat = 0 ∧
      p.begin.toNat + p.psize.toNat ≤ s.geo.size.toNat

/-- No register holds more than its `ADDR_W`, or `ADDR_W + 1`, bits (48_common_semantics.md R318, 00_scope.md section 4). -/
abbrev State.widthInv (s : State) : Prop :=
  s.a0.toNat < s.par.addrBound ∧ s.a1.toNat < s.par.addrBound ∧ s.a2.toNat < s.par.addrBound ∧
    s.a3.toNat < s.par.addrBound ∧ s.res.toNat < s.par.addrBound ∧ s.geo.blocksPerChip.toNat < s.par.addrBound ∧
    s.geo.blockSize.toNat < s.par.addrBound ∧ s.geo.pageSize.toNat < s.par.addrBound ∧
    s.geo.pageMask.toNat < s.par.addrBound ∧ s.geo.blockMask.toNat < s.par.addrBound ∧
    s.geo.chipMask.toNat < s.par.addrBound ∧ s.geo.pagesPerBlock.toNat < s.par.addrBound ∧
    s.geo.size.toNat < s.par.sizeBound ∧
    ∀ p ∈ s.pt, p.begin.toNat < s.par.addrBound ∧ p.psize.toNat < s.par.sizeBound

/-- The device invariant: geometry, partitions and register widths. -/
abbrev State.deviceInv (s : State) : Prop := s.geometryInv ∧ s.partitionInv ∧ s.widthInv

/-! ## The attached chip -/

/-- The chip behind the selected index becomes ready (its absence is 93_implementation_defined.md U1). -/
abbrev State.answers (s : State) : Prop := s.bus.neverReady = false

/-- The chip of device address `a` becomes ready once it is selected. -/
abbrev State.answersAt (s : State) (a : Nat) : Prop := (s.select a).bus.neverReady = false

/-- The chip is of the geometry that DETECT committed, is addressed as the chip expects (20_memory.md R66), and tells a
failure in the bits of `ST_FAIL` (30_encoding.md R107). -/
abbrev Chip.matches (ch : Chip) (s : State) : Prop :=
  ch.stuck = false ∧ ch.pageSize = s.geo.pageSize.toNat ∧ ch.oobSize = s.geo.oobSize.toNat ∧
    ch.pagesPerBlock = s.geo.pagesPerBlock.toNat ∧ ch.bus16 = s.conf.bus16 ∧
    (ch.large = true ↔ s.variant = .large) ∧ ch.rowCycles = (if s.geo.row3 then 3 else 2) ∧ ch.rows ≤ 2 ^ 24 ∧
    ch.failMask = s.par.stFail ∧ s.par.stFail ≠ 0#8

/-- Operations on a detected device that answers. -/
abbrev State.deviceReady (s : State) : Prop := s.detected = true ∧ s.answers

/-- Page operations on a detected device whose pages fit the buffers (92_eei_decisions.md D9). -/
abbrev State.pageReady (s : State) : Prop := s.deviceReady ∧ s.pageFits = true

/-- Software ECC has a well-formed table that is long enough (10_state.md R38, 44_page_ops.md R242). -/
abbrev State.eccReady (s : State) : Prop :=
  tablesWellFormed s.freeTab s.eccTab s.geo.oobSize.toNat = true ∧ 3 * s.geo.chunks ≤ tableBytes s.eccTab

/-! ## Bits -/

/-- The XOR of `f 0`, …, `f (n - 1)`. -/
def xorAll (n : Nat) (f : Nat → Bool) : Bool := (List.range n).foldl (fun x i => x ^^ f i) false

/-- A byte string with bit `k` of byte `b` flipped. -/
def flipBit (d : List Byte) (b k : Nat) : List Byte := d.set b (d.getD b 0 ^^^ (1#8 <<< k))

/-- The bits of a byte string, most significant bit of each byte first (41_crc_onfi.md R150). -/
def bitsMsbFirst (l : List Byte) : List Bool := l.flatMap fun b => (List.range 8).map fun i => b.getLsbD (7 - i)

/-- The CRC register after one more bit, polynomial 0x8005 (41_crc_onfi.md R150). -/
def serialCrc (c : BitVec 16) (bit : Bool) : BitVec 16 :=
  if c.getLsbD 15 ^^ bit then (c <<< 1) ^^^ 0x8005#16 else c <<< 1

/-! ## What a page read and a page program leave -/

/-- Does a page operation in mode `m` guard the data with software ECC (44_page_ops.md R240, R243)? -/
abbrev State.softEcc (s : State) (m : OobMode) : Prop := m = .auto ∧ s.conf.eccMode = .soft

/-- Chunk `i` of a page. -/
abbrev chunkOf (page : List Byte) (i : Nat) : List Byte := (page.drop (256 * i)).take 256

/-- The triples that `t` holds in `OOBS` are those of `page` (44_page_ops.md R242). -/
abbrev triplesOf (s t : State) (page : List Byte) : Prop :=
  ∀ i, i < s.geo.chunks → getTriple t i = eccTriple s.par.eccLow2 (chunkOf page i)

/-- The software ECC of a page read, on the main bytes `main` that came from the bus: when they differ from some page
`orig`, whose triples are stored, in at most one bit of each chunk, `DBUF` holds `orig` and the status says whether a bit
was repaired; when some chunk differs in exactly two bits, the status is ECC_UNCORRECTABLE. -/
abbrev eccChecked (s t : State) (main : List Byte) : Prop :=
  t.status ∈ [.success, .eccFixed, .eccUncorrectable] ∧
    ∀ orig : List Byte, s.geo.pageSize.toNat % 256 = 0 → orig.length = s.geo.pageSize.toNat → triplesOf s t orig →
      ((∀ i, i < s.geo.chunks → chunkOf main i = chunkOf orig i ∨
          ∃ b k, b < 256 ∧ k < 8 ∧ chunkOf main i = flipBit (chunkOf orig i) b k) →
        t.dbuf.readBytes 0 s.geo.pageSize.toNat = orig ∧ t.status = if main = orig then .success else .eccFixed) ∧
      ((∃ i b k b' k', i < s.geo.chunks ∧ b < 256 ∧ k < 8 ∧ b' < 256 ∧ k' < 8 ∧ (b, k) ≠ (b', k') ∧
          chunkOf main i = flipBit (flipBit (chunkOf orig i) b k) b' k') → t.status = .eccUncorrectable)

/-- What a page read in mode `m` leaves in the buffers, the ECC registers and the status (44_page_ops.md R240). -/
abbrev pageReadLeaves (s t : State) (m : OobMode) (main oob : List Byte) : Prop :=
  main.length = s.geo.pageSize.toNat ∧ oob.length = s.geo.oobSize.toNat ∧
    t.oobs.readBytes 0 s.geo.oobSize.toNat = oob ∧
    (∀ a, s.geo.pageSize.toNat ≤ a → t.dbuf.read a = s.dbuf.read a) ∧
    (∀ a, s.geo.oobSize.toNat ≤ a → t.oobs.read a = s.oobs.read a) ∧
    (s.softEcc m → eccChecked s t main) ∧
    (¬ s.softEcc m → t.status = .success ∧ t.dbuf.readBytes 0 s.geo.pageSize.toNat = main ∧ t.eccCa = s.eccCa ∧
      t.eccRd = s.eccRd ∧ t.acc = s.acc)

/-- What a page program in mode `m` leaves in `OOBS` and the ECC registers, when `OOBS` held `before` as it began
(44_page_ops.md R242, R243). -/
abbrev pageWriteLeaves (s t : State) (m : OobMode) (before : Nat → Byte) : Prop :=
  (s.softEcc m → triplesOf s t (s.dbuf.readBytes 0 s.geo.pageSize.toNat) ∧
    ∀ a, a ∉ tablePositions s.eccTab → t.oobs.read a = before a) ∧
  (¬ s.softEcc m → (∀ a, t.oobs.read a = before a) ∧ t.eccCa = s.eccCa ∧ t.acc = s.acc)

/-! ## Marker pages -/

/-- The first row of the block at device address `a` (20_memory.md R64). -/
abbrev State.firstRowOf (s : State) (a : Nat) : Nat := (a &&& s.geo.chipMask.toNat) >>> s.geo.pageShift.toNat

/-- The chip index of device address `a` (20_memory.md R64). -/
abbrev State.chipIndexOf (s : State) (a : Nat) : Byte := BitVec.ofNat 8 (a >>> s.geo.chipShift.toNat)

/-- The marker rows of the block at device address `a`, by `BBC` (45_oob_badblock.md R265). -/
def State.markerRowsOf (s : State) (a : Nat) : List Nat :=
  if s.conf.bbc = 0b10#2 then [s.firstRowOf a + s.geo.pagesPerBlock.toNat - 1]
  else if s.conf.bbc = 0b11#2 then [s.firstRowOf a, s.firstRowOf a + s.geo.pagesPerBlock.toNat - 1]
  else [s.firstRowOf a]

/-- All the OOB areas read have the marker byte FF. A read is the number of its polls and the OOB bytes. -/
abbrev goodMarkers (s : State) (reads : List (Nat × List Byte)) : Prop :=
  ∀ x ∈ reads, x.2.getD s.bbmPos.toNat 0 = 0xFF#8

/-- The marker rows are read in turn, at least one, up to the first whose marker is not FF (45_oob_badblock.md R266). -/
abbrev markerReads (s : State) (rows : List Nat) (reads : List (Nat × List Byte)) : Prop :=
  reads ≠ [] ∧ reads.length ≤ rows.length ∧ (∀ x ∈ reads, x.2.length = s.geo.oobSize.toNat) ∧
    goodMarkers s reads.dropLast ∧ (goodMarkers s reads → reads.length = rows.length)

/-- The bus events of those reads. -/
def markerReadEvents (s : State) (rows : List Nat) (reads : List (Nat × List Byte)) : List BusEvent :=
  (rows.zip reads).flatMap fun x => oobReadEvents s x.1 x.2.1 x.2.2

/-- The bus events of marking every row. A mark is the number of its polls and its status byte. -/
def markEvents (s : State) (rows : List Nat) (marks : List (Nat × Byte)) : List BusEvent :=
  (rows.zip marks).flatMap fun x => oobWriteEvents s x.1 (markerBytes s) x.2.1 x.2.2

/-- A list of status bytes: did any operation fail? -/
abbrev anyFailed (s : State) (l : List (Nat × Byte)) : Bool := l.any fun x => s.tellsFailure x.2

/-- Blocks can be checked and marked: a detected device whose markers fit the buffers, inside the OOB area. -/
abbrev State.blockReady (s : State) : Prop :=
  s.detected = true ∧ s.markerFits = true ∧ s.bbmPos.toNat < s.geo.oobSize.toNat

/-- `a` is the device address of a block. -/
abbrev State.isBlock (s : State) (a : Nat) : Prop := a < s.geo.size.toNat ∧ a &&& s.geo.blockMask.toNat = 0

/-- What erasing the block at device address `a` comes to, its bus events and its status (46_partition_ops.md R293): in
FORCE mode the erase; in the other modes OP_NOT_SUPPORTED without `CAPS.is_block_valid`, else the marker reads, then
BLOCK_IS_BAD for a bad block and the erase for a good one; a failed erase is followed in mode MARK_BAD_ON_ERROR, with
`CAPS.mark_block_bad`, by DEV.MARKBAD, and is ERASE all the same. -/
def eraseOutcome (s : State) (mode : EraseMode) (a : Nat) (events : List BusEvent) (st : Status) : Prop :=
  let row := s.firstRowOf a
  let rows := s.markerRowsOf a
  let sel := BusEvent.sel (s.chipIndexOf a)
  if mode = .force then
    ∃ n b, events = sel :: eraseEvents s row n b ∧ st = if s.tellsFailure b then .erase else .success
  else if s.conf.capIsValid = false then events = [] ∧ st = .opNotSupported
  else
    ∃ reads, markerReads s rows reads ∧
      if goodMarkers s reads then
        ∃ n b more, events = sel :: markerReadEvents s rows reads ++ eraseEvents s row n b ++ more ∧
          (st = if s.tellsFailure b then .erase else .success) ∧
          if s.tellsFailure b = true ∧ mode = .markBadOnError ∧ s.conf.capMarkBad = true then
            ∃ again, markerReads s rows again ∧
              if goodMarkers s again then
                ∃ n' b' marks, marks.length = rows.length ∧
                  more = sel :: markerReadEvents s rows again ++ eraseEvents s row n' b' ++ markEvents s rows marks
              else more = sel :: markerReadEvents s rows again
          else more = []
      else events = sel :: markerReadEvents s rows reads ∧ st = .blockIsBad

/-! ## The order of validation -/

/-- The first step of a validation that refuses, with its status; each step is whether it refuses, and with what. -/
def firstRefusal (steps : List (Bool × Status)) : Option Status := (steps.find? fun x => x.1).map fun x => x.2

/-- `PSIZE` of the partition of a request. -/
def State.psizeOf (s : State) (p : BitVec 4) : Nat := ((s.part p).map fun e => e.psize.toNat).getD 0

/-- Is a request of the OOB family out of bounds (45_oob_badblock.md R261, 46_partition_ops.md R284)? -/
def State.oobRequestBad (s : State) (m : OobMode) : Bool :=
  decide (65536 ≤ s.a2.toNat) || decide (65536 ≤ s.a3.toNat) ||
    decide ((match m with | .auto => tableBytes s.freeTab | .raw => s.geo.oobSize.toNat) < s.a2.toNat + s.a3.toNat)

/-- The validation of the read and write family in the nine steps of 46_partition_ops.md R282 and R284, and after them the
buffer windows (92_eei_decisions.md D9; log 29). `oob` is the mode of an OOB operation; `cap` says whether the capability
is there, `writes` whether the operation programs. -/
def rwSteps (s : State) (p : BitVec 4) (oob : Option OobMode) (cap writes : Bool) : List (Bool × Status) :=
  [ (!s.detected, .noDevice),
    ((s.part p).isNone, .invalidAddress),
    (s.conf.nandClass && s.a1 != 0 && s.a1 != s.geo.pageSize, .invalidAddress),
    (decide (s.psizeOf p < s.a0.toNat + s.a1.toNat), .invalidAddress),
    ((oob.map s.oobRequestBad).getD false, .invalidAddress),
    (s.a1 == 0 && (oob.isNone || s.a3 == 0), .success),
    (!cap || (oob.isSome && !s.conf.capOob) || !s.conf.nandClass, .opNotSupported),
    (s.a0.toNat &&& s.geo.pageMask.toNat != 0, .invalidAddress),
    (s.a1 == 0 && decide (s.psizeOf p ≤ s.a0.toNat), .invalidAddress),
    (writes && s.conf.readOnly, .readOnly),
    (decide (s.par.maxOob < s.geo.oobSize.toNat) ||
      ((oob.isNone || s.a1 == s.geo.pageSize) && decide (s.par.maxPage < s.geo.pageSize.toNat)), .invalidAddress),
    ((oob.map fun m => !s.requestFits m s.a2.toNat s.a3.toNat).getD false, .invalidAddress) ]

/-- The validation of PART.ERASE, PART.ISVALID and PART.MARKBAD (46_partition_ops.md R282, R289, R291, R292, the device
class as R295 has it: log 17), and after it the windows of the marker reads, where `markers` are read. -/
def blockSteps (s : State) (p : BitVec 4) (cap writes markers : Bool) : List (Bool × Status) :=
  [ (!s.detected, .noDevice),
    ((s.part p).isNone, .invalidAddress),
    (decide (s.psizeOf p < s.a0.toNat + s.geo.blockSize.toNat), .invalidAddress),
    (!cap || !s.conf.nandClass, .opNotSupported),
    (s.a0.toNat &&& s.geo.blockMask.toNat != 0, .invalidAddress),
    (writes && s.conf.readOnly, .readOnly),
    (markers && (decide (s.par.maxOob < s.geo.oobSize.toNat) || decide (s.par.maxOob ≤ s.bbmPos.toNat)),
      .invalidAddress) ]

/-- The validation of PART.ERASEALL (46_partition_ops.md R282, R290, the device class as R295 has it: log 17), and after
it the windows of the marker reads, where there are blocks and `markers` are read. -/
def eraseallSteps (s : State) (p : BitVec 4) (markers : Bool) : List (Bool × Status) :=
  [ (!s.detected, .noDevice),
    ((s.part p).isNone, .invalidAddress),
    (!s.conf.capErase || !s.conf.nandClass, .opNotSupported),
    (s.conf.readOnly, .readOnly),
    (decide (blocksIn s.geo.blockSize.toNat (s.psizeOf p) ≠ 0) && markers &&
      (decide (s.par.maxOob < s.geo.oobSize.toNat) || decide (s.par.maxOob ≤ s.bbmPos.toNat)), .invalidAddress) ]

/-! ## What DETECT finds -/

/-- Where DETECT finds a candidate geometry (43_detection.md R210, steps 2 to 5). -/
inductive Source where
  | table
  | onfi
  | extId
deriving DecidableEq, Repr

/-- The chip has no ONFI signature. -/
abbrev Chip.noOnfi (ch : Chip) : Prop := 4 ≤ ch.sigBytes.length ∧ ch.sigBytes.take 4 ≠ [0x4F#8, 0x4E#8, 0x46#8, 0x49#8]

/-- The chip's ONFI parameter page is `onfi`: the signature, and a first copy with a matching CRC, an accepted revision and
the configured bus width (41_crc_onfi.md R150 to R154). -/
abbrev Chip.goodOnfi (ch : Chip) (s : State) (onfi : List Byte) : Prop :=
  ch.sigBytes = [0x4F#8, 0x4E#8, 0x46#8, 0x49#8] ∧ onfi.length = 256 ∧ (∃ rest, ch.paramBytes = onfi ++ rest) ∧
    crcBytes 0x4F4E#16 (onfi.take 254) = BitVec.ofNat 16 (le16 onfi 254) ∧
    BitVec.ofNat 16 (le16 onfi 4) &&& s.par.onfiRevMask ≠ 0#16 ∧ (le16 onfi 6).testBit 0 = s.conf.bus16

/-- DETECT on chip `ch` comes to the candidate geometry `g` by the path `src` (43_detection.md R210 to R214): the table
gives the page size; else a good ONFI page gives a legal geometry; else the extended ID of a code in the table does. -/
def offers (s : State) (ch : Chip) (onfi : List Byte) (src : Source) (g : Candidate) : Prop :=
  let entry := devInfo s.par (ch.idBytes.getD 1 0)
  match src with
  | .table => ∃ e page, entry = some e ∧ e.pageSize = some page ∧ g = tableCandidate e page
  | .onfi =>
    (∀ e, entry = some e → e.pageSize = none) ∧ ch.goodOnfi s onfi ∧ g = onfiGeometry onfi s.conf.bus16 ∧
      geometryOk s.par s.conf.eccMode g = true
  | .extId =>
    ch.noOnfi ∧ ∃ e x, entry = some e ∧ e.pageSize = none ∧ extIdDecode s.par.extId ch.idBytes = some x ∧
      g = extCandidate e x

/-- DETECT on chip `ch` comes to no candidate geometry (43_detection.md R210, R214). -/
abbrev offersNone (s : State) (ch : Chip) : Prop :=
  let entry := devInfo s.par (ch.idBytes.getD 1 0)
  ch.noOnfi ∧ (entry = none ∨ ∃ e, entry = some e ∧ e.pageSize = none ∧ extIdDecode s.par.extId ch.idBytes = none)

/-- Does the Micron probe run (43_detection.md R218)? -/
abbrev micronProbed (s : State) (ch : Chip) (g : Candidate) : Prop :=
  g.pageSize = 2048 ∧ ch.idBytes.getD 0 0 = s.par.micronMfr

/-- What READID reads behind chip-select `c`, where an empty one reads as `v`. -/
def idBehind (s : State) (v : Byte) (c : Nat) : List Byte :=
  match s.bus.chips[c]? with
  | some ch => ch.idBytes
  | none => List.replicate 8 v

/-- The chips that DETECT counts: chip 0, and those behind chip-selects 1, 2, … up to the first whose ID is another, at
most MAX_CHIPS (43_detection.md R219). -/
def countedChips (s : State) (v : Byte) (id : List Byte) : Nat :=
  1 + ((List.range (s.par.maxChips - 1)).takeWhile fun k => idBehind s v (k + 1) == id).length

/-! ## Statuses -/

/-- The statuses an operation can end with (60_exceptions.md R332, with SUCCESS and the answer of an illegal encoding). -/
def listedStatuses : Instr → List Status
  | .eccCalc | .crc16 | .nandRdbuf | .nandReadid _ | .nandGetfeat _ | .nandSetfeat _ => [.success, .invalidAddress]
  | .eccCorrect => [.success, .invalidAddress, .eccFixed, .eccUncorrectable]
  | .eccPopcnt _ | .nandSelect | .nandWait | .nandReset | .nandRd8 | .nandRd16 | .nandStatus | .lockObtain
  | .lockRelease => [.success]
  | .nandCtrl _ mode => if modeLegal mode then [.success] else [.opNotSupported]
  | .onfiCheck => [.success, .onfiCrc]
  | .nandCmd _ _ _ | .pageReadoob => [.success, .noDevice]
  | .nandWrbuf => [.success, .readOnly, .invalidAddress]
  | .detect => [.success, .noDevice, .busWidth, .eccMicronInternal]
  | .onfiDetect => [.success, .noOnfiDevice, .onfiCrc, .onfiRevision, .busWidth]
  | .pageRead _ => [.success, .noDevice, .eccFixed, .eccUncorrectable]
  | .pageWrite _ | .pageMarkbad => [.success, .readOnly, .noDevice, .write]
  | .blockErase => [.success, .readOnly, .noDevice, .erase]
  | .oobCopy _ | .oobFill _ | .partCreate _ _ => [.success, .noDevice, .invalidAddress]
  | .devIsvalid => [.success, .noDevice, .invalidAddress, .blockIsBad]
  | .devMarkbad => [.success, .readOnly, .noDevice, .invalidAddress, .write]
  | .partRead _ | .partReadoob _ _ =>
    [.success, .noDevice, .invalidAddress, .opNotSupported, .eccFixed, .eccUncorrectable]
  | .partWrite _ | .partWriteoob _ _ => [.success, .noDevice, .invalidAddress, .opNotSupported, .readOnly, .write]
  | .partErase _ mode =>
    if modeLegal mode then
      [.success, .noDevice, .invalidAddress, .opNotSupported, .readOnly, .blockIsBad, .erase]
    else [.opNotSupported]
  | .partEraseall _ mode =>
    if modeLegal mode then [.success, .noDevice, .invalidAddress, .opNotSupported, .readOnly, .erase]
    else [.opNotSupported]
  | .partIsvalid _ => [.success, .noDevice, .invalidAddress, .opNotSupported, .blockIsBad]
  | .partMarkbad _ => [.success, .noDevice, .invalidAddress, .opNotSupported, .readOnly, .write]
  | .cmdRead0 | .cmdRead1 | .cmdPageprog | .cmdReadstart | .cmdReadoob | .cmdErase1 | .cmdStatus | .cmdSeqin
  | .cmdReadid | .cmdErase2 | .cmdParam | .cmdGetfeat | .cmdSetfeat | .cmdReset => []

end Sys2Proof.Machine
end

