-- ==== Sys2Proof/Certificates/Slice0/Obligations.lean ====
section
/-! DEFINITION. The statements for the provers. `t = { s with … }` is a frame: every field that it does not name is
unchanged. `emits s t l` says that exactly the bus events `l` happened, and `sameFlash s t` that no byte of any flash
array changed. `answers` rules out a chip that never becomes ready (a hang, 60_exceptions.md R337), `memoryWf` states
that no run reaches. -/

open Sys2Proof Sys2Proof.Machine

/-! ## Encoding and stepping -/

/-- Every well-formed instruction is what its own encoding decodes to. -/
def Obligations.EncodeThenDecodeReturnsInstruction : Prop :=
  ∀ i : Instr, i.wellFormed = true → decode (encode i) = .ok i

/-- Each legal word or byte has one instruction, whose encoding it is: no two words share a meaning. -/
def Obligations.DecodeThenEncodeReturnsCode : Prop :=
  ∀ (c : Code) (i : Instr), decode c = .ok i → encode i = c ∧ i.wellFormed = true

/-- Words written out from 30_encoding.md and 95_test_vectors.md decode to the requests they stand for. -/
def Obligations.WrittenOutWordsDecode : Prop :=
  decode (.request 0x00A50003#32) = .ok (.eccPopcnt 0xA5#8) ∧ decode (.request 0x00000010#32) = .ok .crc16 ∧
    decode (.request 0x00900121#32) = .ok (.nandCtrl 0x90#8 1#2) ∧
    decode (.request 0x00500C23#32) = .ok (.nandCmd 0x50#8 true true) ∧
    decode (.request 0x00000030#32) = .ok .detect ∧ decode (.request 0x00000140#32) = .ok (.pageRead .raw) ∧
    decode (.request 0x00000051#32) = .ok (.oobFill .auto) ∧ decode (.request 0x21000072#32) = .ok (.partCreate 1#4 2#4) ∧
    decode (.request 0x02000175#32) = .ok (.partReadoob 2#4 .raw) ∧
    decode (.request 0x00000061#32) = .ok .devMarkbad ∧
    decode (.request 0x00000277#32) = .ok (.partErase 0#4 2#2) ∧ decode (.bus 0xD0#8) = .ok .cmdErase2

/-- A started request, or a command byte on the bus port, runs the instruction it decodes to, and nothing else
(30_encoding.md R91; that a command byte runs by itself through a port is the model's choice, log 7). -/
def Obligations.StepRunsDecodedInstruction : Prop :=
  (∀ (s : State) (i : Instr), s.busPort = none → s.phase = .run → decode (.request s.cw) = .ok i → step s = exec i s) ∧
    ∀ (s : State) (b : Byte) (i : Instr),
      s.busPort = some b → decode (.bus b) = .ok i → step s = exec i { s with busPort := none }

/-- R96: exactly the words of the rule are illegal, and an illegal request changes `STATUS` and `PHASE` only. -/
def Obligations.IllegalRequestOnlyWritesStatus : Prop :=
  ∀ s : State, s.busPort = none → s.phase = .run →
    (illegalWord s.cw → step s = .next { s with status := .opNotSupported, phase := .idle }) ∧
      (¬ illegalWord s.cw → ∃ i, decode (.request s.cw) = .ok i)

/-- R49: the values that `RST` gives, as the machine comes up and as the event `RST` at any time; the flash arrays and
the bus are not touched. -/
def Obligations.ResetGivesTheStatedValues : Prop :=
  (∀ s : State, (s = State.reset ∨ ∃ s0, hostAct .reset s0 = .next s) →
    s.cw = 0 ∧ s.a0 = 0 ∧ s.a1 = 0 ∧ s.a2 = 0 ∧ s.a3 = 0 ∧ s.status = .success ∧ s.phase = .idle ∧
      s.detected = false ∧ s.onfiValid = false ∧ s.lock = false ∧ s.micronEccOn = false ∧
      s.conf.micronEccWant = false ∧ s.conf.eccCoversOob = false ∧ s.onfiStatus = .success ∧ s.variant = .small ∧
      s.conf.bbc = 0b01#2 ∧ s.conf.bus16 = false ∧ s.conf.eccMode = .soft ∧ s.conf.eccOrder = .abc ∧
      s.conf.readOnly = false ∧ s.conf.nandClass = true ∧ s.conf.caps = 0b111111#6 ∧
      s.freeTab = [⟨0, 0⟩] ∧ s.eccTab = [⟨0, 0⟩] ∧ ∀ p ∈ s.pt, p.valid = false) ∧
    ∀ s t : State, hostAct .reset s = .next t → t.bus = s.bus

/-! ## U-ECC -/

/-- R131, R104: ECC.CALC stores every row and column parity complemented, with the fixed low bits, and writes nothing but
`ECC_CA`, the accumulators and `STATUS`. -/
def Obligations.EccCalcStoresComplementedParities : Prop :=
  ∀ s : State, s.a0.toNat + 256 ≤ s.par.maxPage →
    ∃ t, exec .eccCalc s = .next t ∧
      t = { s with eccCa := t.eccCa, acc := t.acc, status := .success, phase := .idle } ∧
      (∀ j v, j < 8 → v < 2 →
        (t.eccCa.b ++ t.eccCa.a).getLsbD (2 * j + v) =
          !(xorAll 256 fun i => (i.testBit j == (v == 1)) && xorAll 8 fun k => (s.dbuf.read (s.a0.toNat + i)).getLsbD k)) ∧
      (∀ m v, m < 3 → v < 2 →
        t.eccCa.c.getLsbD (2 * m + 2 + v) =
          !(xorAll 256 fun i => xorAll 8 fun k =>
            (k.testBit m == (v == 1)) && (s.dbuf.read (s.a0.toNat + i)).getLsbD k)) ∧
      t.eccCa.c.extractLsb' 0 2 = s.par.eccLow2

/-- R133: what ECC.CORRECT does for every syndrome weight; it writes at most one byte of `DBUF` and never the triples; a
chunk that does not fit `DBUF` is refused. -/
def Obligations.EccCorrectFollowsTheSyndromeWeight : Prop :=
  decode (.request 0x00000002#32) = .ok .eccCorrect ∧
  (∀ s : State, s.par.maxPage < s.a0.toNat + 256 →
    exec .eccCorrect s = .next { s with status := .invalidAddress, phase := .idle }) ∧
  ∀ s : State, s.memoryWf → s.a0.toNat + 256 ≤ s.par.maxPage →
    ∃ t, exec .eccCorrect s = .next t ∧ t = { s with dbuf := t.dbuf, status := t.status, phase := .idle } ∧
      (let s0 := s.eccRd.a ^^^ s.eccCa.a
       let s1 := s.eccRd.b ^^^ s.eccCa.b
       let s2 := s.eccRd.c ^^^ s.eccCa.c
       let ones := popcount8 s0 + popcount8 s1 + popcount8 s2
       let row := s1 ++ s0
       let byte := natOfBits [row.getLsbD 1, row.getLsbD 3, row.getLsbD 5, row.getLsbD 7, row.getLsbD 9, row.getLsbD 11,
         row.getLsbD 13, row.getLsbD 15]
       let bit := natOfBits [s2.getLsbD 3, s2.getLsbD 5, s2.getLsbD 7]
       (ones = 0 → t.status = .success ∧ t.dbuf = s.dbuf) ∧
         (ones = 11 → t.status = .eccFixed ∧
           t.dbuf.read (s.a0.toNat + byte) = s.dbuf.read (s.a0.toNat + byte) ^^^ (1#8 <<< bit) ∧
           ∀ a, a ≠ s.a0.toNat + byte → t.dbuf.read a = s.dbuf.read a) ∧
         (ones = 1 → t.status = .eccFixed ∧ t.dbuf = s.dbuf) ∧
         (ones ≠ 0 → ones ≠ 1 → ones ≠ 11 → t.status = .eccUncorrectable ∧ t.dbuf = s.dbuf))

/-- R136: one flipped data bit, wherever it is, is repaired, whichever of the two triples is the stored one. -/
def Obligations.SingleBitErrorIsRepaired : Prop :=
  ∀ (s : State) (d : List Byte) (b k : Nat), s.memoryWf → s.a0.toNat + 256 ≤ s.par.maxPage → d.length = 256 →
    b < 256 → k < 8 → s.dbuf.readBytes s.a0.toNat 256 = flipBit d b k →
    (s.eccRd = eccTriple s.par.eccLow2 d ∧ s.eccCa = eccTriple s.par.eccLow2 (flipBit d b k) ∨
      s.eccRd = eccTriple s.par.eccLow2 (flipBit d b k) ∧ s.eccCa = eccTriple s.par.eccLow2 d) →
    ∃ t, exec .eccCorrect s = .next t ∧ t = { s with dbuf := t.dbuf, status := .eccFixed, phase := .idle } ∧
      t.dbuf.readBytes s.a0.toNat 256 = d ∧
      ∀ a, (a < s.a0.toNat ∨ s.a0.toNat + 256 ≤ a) → t.dbuf.read a = s.dbuf.read a

/-- R137: every double data-bit error is detected, and the data is left as it was given. -/
def Obligations.DoubleBitErrorIsDetected : Prop :=
  ∀ (s : State) (d : List Byte) (b1 k1 b2 k2 : Nat), s.a0.toNat + 256 ≤ s.par.maxPage → d.length = 256 →
    b1 < 256 → k1 < 8 → b2 < 256 → k2 < 8 → (b1, k1) ≠ (b2, k2) →
    (s.eccRd = eccTriple s.par.eccLow2 d ∧ s.eccCa = eccTriple s.par.eccLow2 (flipBit (flipBit d b1 k1) b2 k2) ∨
      s.eccRd = eccTriple s.par.eccLow2 (flipBit (flipBit d b1 k1) b2 k2) ∧ s.eccCa = eccTriple s.par.eccLow2 d) →
    exec .eccCorrect s = .next { s with status := .eccUncorrectable, phase := .idle }

/-- R138: equal triples give SUCCESS, and a flip of any one of the 24 stored bits gives ECC_FIXED, both with the data
unchanged. -/
def Obligations.StoredTripleBitFlipLeavesTheData : Prop :=
  ∀ s : State, s.a0.toNat + 256 ≤ s.par.maxPage →
    (s.eccRd = s.eccCa → exec .eccCorrect s = .next { s with status := .success, phase := .idle }) ∧
      ∀ k, k < 24 → (s.eccRd.c ++ s.eccRd.b ++ s.eccRd.a : BitVec 24) =
          (s.eccCa.c ++ s.eccCa.b ++ s.eccCa.a : BitVec 24) ^^^ (1#24 <<< k) →
        exec .eccCorrect s = .next { s with status := .eccFixed, phase := .idle }

/-- R135: ECC.POPCNT reads the number of 1 bits of its immediate. -/
def Obligations.PopcntReadsTheBitCount : Prop :=
  ∀ (s : State) (b : Byte), decode (.request (0x00#8 ++ b ++ 0x0003#16)) = .ok (.eccPopcnt b) ∧
    exec (.eccPopcnt b) s = .next { s with res := BitVec.ofNat 64 (popcount8 b), status := .success, phase := .idle }

/-! ## U-CRC -/

/-- R151: CRC16 is the bit-serial CRC of polynomial 0x8005 and seed 0x4F4E, most significant bit first, without final
XOR; nothing but the CRC registers and `STATUS` is written; a string that does not fit `DBUF` is refused. -/
def Obligations.CrcIsTheBitSerialCrc : Prop :=
  decode (.request 0x00000010#32) = .ok .crc16 ∧
  (∀ s : State, s.par.maxPage < s.a0.toNat + s.a1.toNat →
    exec .crc16 s = .next { s with status := .invalidAddress, phase := .idle }) ∧
  ∀ s : State, s.a0.toNat + s.a1.toNat ≤ s.par.maxPage →
    let c := (bitsMsbFirst (s.dbuf.readBytes s.a0.toNat s.a1.toNat)).foldl serialCrc 0x4F4E#16
    exec .crc16 s = .next { s with crc := c, crcOut := c, status := .success, phase := .idle }

/-- R152: ONFI.CHECK compares the CRC of bytes 0 to 253 of the `ONFI` buffer with the little-endian trailer. -/
def Obligations.OnfiCheckComparesTheTrailer : Prop :=
  decode (.request 0x00000011#32) = .ok .onfiCheck ∧ ∀ s : State,
    let c := (bitsMsbFirst (s.onfi.take 254)).foldl serialCrc 0x4F4E#16
    exec .onfiCheck s =
      .next { s with
        crc := c, crcOut := c, phase := .idle
        status := if c.toNat = (s.onfi.getD 254 0).toNat + 256 * (s.onfi.getD 255 0).toNat then .success else .onfiCrc }

/-! ## U-NAND -/

/-- R170: NAND.SELECT drives the chip-select and records it. -/
def Obligations.SelectDrivesTheChipSelect : Prop :=
  decode (.request 0x00000020#32) = .ok .nandSelect ∧ ∀ s : State,
    exec .nandSelect s =
      .next { s with
        bus := { s.bus with selected := some (s.a0.setWidth 8), trace := .sel (s.a0.setWidth 8) :: s.bus.trace }
        curChip := s.a0.setWidth 8, status := .success, phase := .idle }

/-- R171: NAND.CTRL emits exactly the one control event its `MODE` names; `MODE` 3 is illegal. -/
def Obligations.CtrlEmitsOneControlEvent : Prop :=
  (∀ (d : Byte) (m : BitVec 2), decode (.request (0x00#8 ++ d ++ 0#6 ++ m ++ 0x21#8)) =
    if m = 3#2 then .error .reservedMode else .ok (.nandCtrl d m)) ∧
  ∀ (s : State) (d : Byte),
    (∃ t, exec (.nandCtrl d 0#2) s = .next t ∧ emits s t [.idle] ∧ sameFlash s t ∧
      t = { s with bus := t.bus, status := .success, phase := .idle }) ∧
    (∃ t, exec (.nandCtrl d 1#2) s = .next t ∧ emits s t [.cle d] ∧
      (s.par.cmds.read d ≠ .pageprog → s.par.cmds.read d ≠ .erase2 → sameFlash s t) ∧
      t = { s with bus := t.bus, status := .success, phase := .idle }) ∧
    (∃ t, exec (.nandCtrl d 2#2) s = .next t ∧ emits s t [.ale d] ∧ sameFlash s t ∧
      t = { s with bus := t.bus, status := .success, phase := .idle }) ∧
    exec (.nandCtrl d 3#2) s = .next { s with status := .opNotSupported, phase := .idle }

/-- R172, R22: NAND.WAIT returns when the chip is ready: at each of its `n + 1` polls `PHASE` is WAIT_RDY, and then the
operation ends in IDLE; it hangs in `WAIT_RDY`, writing no status, when the chip never is ready. (That `PHASE` at the
polls is read off the trace is the model's choice, log 1.) -/
def Obligations.WaitEndsWhenTheChipIsReady : Prop :=
  ∀ s : State,
    (s.answers → ∃ t n, exec .nandWait s = .next t ∧ emits s t [.wait n] ∧ sameFlash s t ∧
      phasesDuring [.wait n] = List.replicate (n + 1) .waitRdy ∧
      t = { s with bus := t.bus, status := .success, phase := .idle } ∧ ∀ ch, t.bus.chip? = some ch → ch.busy = false) ∧
    (¬ s.answers → exec .nandWait s =
      .next { s with bus := { s.bus with trace := .notReady :: s.bus.trace }, phase := .waitRdy })

/-- R337: a machine stuck on a chip that never becomes ready, or on a lock that nobody releases, stays there: no status
is written and the lock stays as it is, for any number of steps. -/
def Obligations.HangNeverEnds : Prop :=
  ∀ (s : State) (n : Nat), s.busPort = none → s.hostIn = [] →
    (s.phase = .waitRdy → ∃ t, core.run n s = .next t ∧
      t = { s with bus := t.bus } ∧ emits s t (List.replicate n .notReady)) ∧
    (s.phase = .stallLock → s.lock = true → core.run n s = .next s)

/-- R175 to R177, R26: NAND.CMD puts its immediate byte on the lines and emits the sequence of the selected method, with a
wait exactly where R174 says so; before detection everything that reads the geometry is refused: a column, row bytes, and
the large-page redirect of READOOB (that the last, and a row given to a command that expects none, are refused rests on
R26 against the shorter list of R175: log 37). -/
def Obligations.CmdEmitsTheSequenceOfTheMethod : Prop :=
  ∀ (s : State) (cmd : Byte) (colV rbV : Bool),
    let c := s.par.cmds.read cmd
    let rb := if rbV then some s.a0.toNat else none
    let col := if colV then some s.a1.toNat else none
    let geometry := colV = true ∨ (rbV = true ∧ c ∉ byteCommands) ∨ (s.variant = .large ∧ c = .readoob)
    s.latch c = .cle cmd ∧
    (s.detected = false → geometry →
      exec (.nandCmd cmd colV rbV) s = .next { s with status := .noDevice, phase := .idle }) ∧
    ((s.detected = true ∨ ¬ geometry) → (c ∈ waitingCommands → s.answers) →
      ∃ t, exec (.nandCmd cmd colV rbV) s = .next t ∧ t = { s with bus := t.bus, status := .success, phase := .idle } ∧
        (c ≠ .pageprog → c ≠ .erase2 → sameFlash s t) ∧
        if c ∈ waitingCommands then ∃ n, emits s t (commandEvents s c rb col ++ [.wait n])
        else emits s t (commandEvents s c rb col))

/-- R181, R182: NAND.RD8 and NAND.RD16 put what the bus returned into `RES`; a chip that is ready and drives bytes gives
them in order, one for NAND.RD8 and, on a 16-bit bus, two for NAND.RD16, the first on the low lines (R66 (d), R68 (d)).
That NAND.RD8 drops exactly one byte on a 16-bit bus too is the model's choice, log 20. -/
def Obligations.ReadCyclesFillRes : Prop :=
  ∀ s : State,
    (∃ t v, exec .nandRd8 s = .next t ∧ emits s t [.rd8 v] ∧ sameFlash s t ∧
      t = { s with bus := t.bus, res := v.setWidth 64, status := .success, phase := .idle } ∧
      ∀ (ch : Chip) (x : Byte) (l : List Byte), s.bus.chip? = some ch → ch.busy = false → ch.dataOut = .bytes (x :: l) →
        v = x ∧ t.bus.chip? = some { ch with dataOut := .bytes l }) ∧
    ∃ t v, exec .nandRd16 s = .next t ∧ emits s t [.rd16 v] ∧ sameFlash s t ∧
      t = { s with bus := t.bus, res := v.setWidth 64, status := .success, phase := .idle } ∧
      ∀ (ch : Chip) (x y : Byte) (l : List Byte), s.conf.bus16 = true → s.bus.chip? = some ch → ch.busy = false →
        ch.dataOut = .bytes (x :: y :: l) → v = y ++ x ∧ t.bus.chip? = some { ch with dataOut := .bytes l }

/-- R183, R184: the buffer transfers move the window of `DBUF` that `A0`, `A1` name; `n = 0` emits nothing. -/
def Obligations.BufferTransfersMoveTheWindow : Prop :=
  ∀ s : State, s.memoryWf → s.a0.toNat + s.a1.toNat ≤ s.par.maxPage →
    (s.conf.bus16 = true → s.a1.toNat % 2 = 0) →
    (s.a1.toNat = 0 → exec .nandRdbuf s = .next { s with status := .success, phase := .idle } ∧
      (s.conf.readOnly = false → exec .nandWrbuf s = .next { s with status := .success, phase := .idle })) ∧
    (s.a1.toNat ≠ 0 →
      (∃ t l, exec .nandRdbuf s = .next t ∧ l.length = s.a1.toNat ∧ emits s t [.rdBuf l] ∧ sameFlash s t ∧
        t = { s with bus := t.bus, dbuf := t.dbuf, status := .success, phase := .idle } ∧
        t.dbuf.readBytes s.a0.toNat s.a1.toNat = l ∧
        ∀ a, (a < s.a0.toNat ∨ s.a0.toNat + s.a1.toNat ≤ a) → t.dbuf.read a = s.dbuf.read a) ∧
      (s.conf.readOnly = false → ∃ t, exec .nandWrbuf s = .next t ∧ sameFlash s t ∧
        emits s t [.wrBuf (s.dbuf.readBytes s.a0.toNat s.a1.toNat)] ∧
        t = { s with bus := t.bus, status := .success, phase := .idle }))

/-- R180, R185, R186: the reset, ID and status sequences, event by event. -/
def Obligations.ResetIdAndStatusSequences : Prop :=
  ∀ (s : State) (a : Byte), s.memoryWf →
    (s.answers → ∃ t n, exec .nandReset s = .next t ∧ emits s t [s.latch .reset, .idle, .wait n] ∧ sameFlash s t ∧
      t = { s with bus := t.bus, status := .success, phase := .idle }) ∧
    (1 ≤ s.a1.toNat → s.a1.toNat ≤ 8 → s.a0.toNat + s.a1.toNat ≤ s.par.maxPage →
      ∃ t l, exec (.nandReadid a) s = .next t ∧ l.length = s.a1.toNat ∧ sameFlash s t ∧
        emits s t ([s.latch .readid, .ale a, .idle] ++ l.map .rd8) ∧
        t = { s with bus := t.bus, dbuf := t.dbuf, status := .success, phase := .idle } ∧
        t.dbuf.readBytes s.a0.toNat s.a1.toNat = l ∧
        ∀ x, (x < s.a0.toNat ∨ s.a0.toNat + s.a1.toNat ≤ x) → t.dbuf.read x = s.dbuf.read x) ∧
    ∃ t v, exec .nandStatus s = .next t ∧ emits s t [s.latch .status, .idle, .rd8 v] ∧ sameFlash s t ∧
      t = { s with bus := t.bus, res := v.setWidth 64, status := .success, phase := .idle }

/-- R187, R188: the feature sequences; SET FEATURES is not refused under `READ_ONLY`. -/
def Obligations.FeatureSequencesMoveFourBytes : Prop :=
  ∀ (s : State) (a : Byte), s.memoryWf → s.answers → s.a0.toNat + 4 ≤ s.par.maxPage →
    (∃ t l n, exec (.nandGetfeat a) s = .next t ∧ l.length = 4 ∧ sameFlash s t ∧
      emits s t ([s.latch .getfeat, .ale a, .idle, .wait n] ++ l.map .rd8) ∧
      t = { s with bus := t.bus, dbuf := t.dbuf, status := .success, phase := .idle } ∧
      t.dbuf.readBytes s.a0.toNat 4 = l ∧
      ∀ x, (x < s.a0.toNat ∨ s.a0.toNat + 4 ≤ x) → t.dbuf.read x = s.dbuf.read x) ∧
    ∃ t n, exec (.nandSetfeat a) s = .next t ∧ sameFlash s t ∧
      emits s t [s.latch .setfeat, .ale a, .idle, .wrBuf (s.dbuf.readBytes s.a0.toNat 4), .wait n] ∧
      t = { s with bus := t.bus, status := .success, phase := .idle }

/-- R92_eei D9, R131, R133, R151, R183 to R188: a window that does not fit `DBUF`, `OOBS` or `OBUF`, an odd transfer on a
16-bit bus or a bad ID length is refused with INVALID_ADDRESS before any bus event. (The windows that follow from the
geometry, the marker position and the OOB request are D9 applied to them, log 29; those of the PART operations stand in
PartValidationFollowsItsOrder.) -/
def Obligations.BadBufferWindowIsRefused : Prop :=
  ∀ (s : State) (a : Byte) (m : OobMode),
    let refused := Host.Outcome.next { s with status := Status.invalidAddress, phase := Phase.idle }
    (s.par.maxPage < s.a0.toNat + 256 → exec .eccCalc s = refused ∧ exec .eccCorrect s = refused) ∧
    (s.par.maxPage < s.a0.toNat + s.a1.toNat → exec .crc16 s = refused) ∧
    ((s.par.maxPage < s.a0.toNat + s.a1.toNat ∨ s.conf.bus16 = true ∧ s.a1.toNat % 2 = 1) →
      exec .nandRdbuf s = refused ∧ (s.conf.readOnly = false → exec .nandWrbuf s = refused)) ∧
    ((s.par.maxPage < s.a0.toNat + s.a1.toNat ∨ s.a1.toNat = 0 ∨ 8 < s.a1.toNat) →
      exec (.nandReadid a) s = refused) ∧
    (s.par.maxPage < s.a0.toNat + 4 → exec (.nandGetfeat a) s = refused ∧ exec (.nandSetfeat a) s = refused) ∧
    (s.detected = true →
      ((s.par.maxPage < s.geo.pageSize.toNat ∨ s.par.maxOob < s.geo.oobSize.toNat) →
        exec (.pageRead m) s = refused ∧ (s.conf.readOnly = false → exec (.pageWrite m) s = refused)) ∧
      (s.par.maxOob < s.geo.oobSize.toNat → exec .pageReadoob s = refused ∧ exec (.oobFill m) s = refused) ∧
      ((s.par.maxOob < s.geo.oobSize.toNat ∨ s.par.maxOob ≤ s.bbmPos.toNat) → exec .devIsvalid s = refused ∧
        (s.conf.readOnly = false → exec .pageMarkbad s = refused ∧ exec .devMarkbad s = refused)) ∧
      ((s.par.maxOob < s.a3.toNat ∨ ∃ x ∈ s.oobPositions m s.a2.toNat s.a3.toNat, s.par.maxOob ≤ x) →
        exec (.oobCopy m) s = refused ∧ exec (.oobFill m) s = refused))

/-- R26, R72 (c), R339 (b): before a successful DETECT every operation that reads the geometry is refused with NO_DEVICE,
and under `READ_ONLY` those that program or erase with READ_ONLY, before any bus event. -/
def Obligations.GuardsRefuseBeforeAnyBusEvent : Prop :=
  ∀ (s : State) (m : OobMode) (p q : BitVec 4) (e : BitVec 2),
    (s.detected = false → e ≠ 3#2 →
      ∀ i ∈ [.pageRead m, .pageReadoob, .oobCopy m, .oobFill m, .devIsvalid, .partCreate p q, .partRead p, .partWrite p,
        .partReadoob p m, .partWriteoob p m, .partErase p e, .partEraseall p e, .partIsvalid p, .partMarkbad p],
        exec i s = .next { s with status := .noDevice, phase := .idle }) ∧
    (s.detected = false → s.conf.readOnly = false → ∀ i ∈ [Instr.pageWrite m, .pageMarkbad, .blockErase, .devMarkbad],
      exec i s = .next { s with status := .noDevice, phase := .idle }) ∧
    (s.conf.readOnly = true → ∀ i ∈ [Instr.nandWrbuf, .pageWrite m, .pageMarkbad, .blockErase, .devMarkbad],
      exec i s = .next { s with status := .readOnly, phase := .idle })

/-- R339 (b): under `READ_ONLY` no operation changes a byte of any flash array, but for the unfiltered NAND.CMD and
NAND.CTRL and the bare command bytes. -/
def Obligations.ReadOnlyProtectsTheArray : Prop :=
  ∀ (i : Instr) (s t : State), s.conf.readOnly = true → exec i s = .next t →
    (∀ c x y, i ≠ .nandCmd c x y) → (∀ d m, i ≠ .nandCtrl d m) → i ≠ .cmdPageprog → i ≠ .cmdErase2 →
    sameFlash s t

/-! ## U-DET -/

/-- R213: ONFI.DETECT accepts an ONFI chip whose first parameter-page copy has a good CRC, an accepted revision and the
configured bus width; it writes no geometry. -/
def Obligations.OnfiDetectAcceptsAGoodPage : Prop :=
  ∀ (s : State) (ch : Chip) (page rest : List Byte), s.bus.chip? = some ch → ch.stuck = false → ch.busy = false →
    ch.sigBytes = [0x4F#8, 0x4E#8, 0x46#8, 0x49#8] → ch.paramBytes = page ++ rest → page.length = 256 →
    crcBytes 0x4F4E#16 (page.take 254) = BitVec.ofNat 16 (le16 page 254) →
    BitVec.ofNat 16 (le16 page 4) &&& s.par.onfiRevMask ≠ 0#16 → (le16 page 6).testBit 0 = s.conf.bus16 →
    ∃ t n, exec .onfiDetect s = .next t ∧ sameFlash s t ∧
      emits s t ([s.latch .readid, .ale 0x20#8, .idle, .rd8 0x4F#8, .rd8 0x4E#8, .rd8 0x46#8, .rd8 0x49#8,
        s.latch .param, .ale 0x00#8, .idle, .wait n] ++ page.map .rd8) ∧
      t = { s with
        bus := t.bus, onfi := page, onfiValid := true, onfiStatus := .success, crc := t.crc, crcOut := t.crcOut
        status := .success, phase := .idle }

/-- R213, R31, R154: however ONFI.DETECT ends, `ONFI_STATUS` holds its status, `ONFI_VALID` says whether it is SUCCESS,
and SUCCESS means that `ONFI` holds a page with a matching CRC, an accepted revision and the configured bus width. -/
def Obligations.OnfiDetectRecordsItsVerdict : Prop :=
  ∀ s : State, s.answers → ∃ t, exec .onfiDetect s = .next t ∧ t.phase = .idle ∧ t.onfiStatus = t.status ∧
    (t.onfiValid = true ↔ t.status = .success) ∧
    (t.status = .success → crcBytes 0x4F4E#16 (t.onfi.take 254) = BitVec.ofNat 16 (le16 t.onfi 254) ∧
      BitVec.ofNat 16 (le16 t.onfi 4) &&& s.par.onfiRevMask ≠ 0#16 ∧ (le16 t.onfi 6).testBit 0 = s.conf.bus16) ∧
    t = { s with
      bus := t.bus, onfi := t.onfi, onfiValid := t.onfiValid, onfiStatus := t.onfiStatus, crc := t.crc, crcOut := t.crcOut
      status := t.status, phase := .idle } ∧ sameFlash s t

/-- R210, R212 to R219: DETECT on a chip 0 that answers. A candidate geometry of the table, of the ONFI page or of the
extended ID that is not legal, or no candidate, ends it with NO_DEVICE, one of another bus width with BUS_WIDTH, a Micron
chip that does not confirm the wanted internal-ECC state with ECC_MICRON_INTERNAL, `DETECTED` 0 and no partition valid.
Otherwise it commits every geometry and derived register, the method, the marker position, the default tables and
`PT[0]`, and counts the chips of the same ID; chips behind further chip-selects may be anything. The extended ID, or no
candidate, is what a chip without the ONFI signature comes to. (The chip's reactions to the ID, parameter-page and feature
commands are those of the reference device as log 19, 23 and 24 complete it.) -/
def Obligations.DetectCommitsTheGeometryFound : Prop :=
  ∀ (s : State) (ch : Chip) (others : List Chip) (onfi : List Byte), s.bus.chips = ch :: others → ch.stuck = false →
    ch.idBytes.length = 8 →
    let fails := fun st => ∃ t, exec .detect s = .next t ∧ t.status = st ∧ t.phase = .idle ∧ t.detected = false ∧
      (∀ p ∈ t.pt, p.valid = false) ∧ t.id = ch.idBytes ∧ t.lock = s.lock ∧ t.conf = s.conf ∧ sameFlash s t
    (offersNone s ch → fails .noDevice) ∧
    ∀ src g, offers s ch onfi src g →
      (geometryOk s.par s.conf.eccMode g = false → fails .noDevice) ∧
      (geometryOk s.par s.conf.eccMode g = true → g.bus16 ≠ s.conf.bus16 → fails .busWidth) ∧
      (geometryOk s.par s.conf.eccMode g = true → g.bus16 = s.conf.bus16 → micronProbed s ch g →
        (∃ q l, ch.featsFixed = true ∧ (ch.feats.find? fun p => p.1 == s.par.micronFeatAddr) =
          some (s.par.micronFeatAddr, q :: l) ∧ (q &&& s.par.micronEccBit != 0#8) ≠ s.conf.micronEccWant) →
        fails .eccMicronInternal) ∧
      (geometryOk s.par s.conf.eccMode g = true → g.bus16 = s.conf.bus16 →
        (micronProbed s ch g → ch.featsFixed = false ∧ s.par.micronEccBit ≠ 0#8) → s.par.maxChips < 256 →
        g.chipSize * s.par.maxChips < s.par.sizeBound →
        ∃ t, exec .detect s = .next t ∧ t.status = .success ∧ t.phase = .idle ∧ t.detected = true ∧ t.id = ch.idBytes ∧
          t.geo.valid s.par ∧ t.geo.pageSize.toNat = g.pageSize ∧ t.geo.blockSize.toNat = g.blockSize ∧
          t.geo.blocksPerChip.toNat = g.blocksPerChip ∧ t.geo.oobSize.toNat = g.oobSize ∧
          t.geo.chipCount.toNat ≤ max 1 s.par.maxChips ∧
          (∀ v, s.bus.floatByte = some v → (∀ o ∈ others, o.busy = false ∧ o.idBytes.length = 8) →
            t.geo.chipCount.toNat = countedChips s v ch.idBytes) ∧
          t.variant = (if 512 < g.pageSize then .large else .small) ∧
          t.bbmPos = (if 512 < g.pageSize ∨ s.conf.bus16 = true then 0 else 5) ∧
          (t.freeTab, t.eccTab) = defaultTables s.par g.oobSize ∧
          (micronProbed s ch g → t.micronEccOn = s.conf.micronEccWant) ∧
          (¬ micronProbed s ch g → t.micronEccOn = false) ∧
          t.onfiValid = decide (src = .onfi) ∧
          t.onfiStatus = (if src = .extId then .noOnfiDevice else .success) ∧
          (src = .onfi → t.onfi = onfi ∧ t.eccBits512 = onfi.getD 112 0) ∧
          (∀ p ∈ t.pt.tail, p.valid = false) ∧ (s.pt ≠ [] → t.pt.head? = some ⟨true, 0, t.geo.size⟩) ∧
          t.lock = s.lock ∧ t.conf = s.conf ∧ sameFlash s t)

/-- R8, R20, R26, R37: no operation but DETECT changes the geometry, the derived registers, `DETECTED`, the method, the
marker position, the ID or the tables; none writes `CW`, the operands, the configuration or the parameters; and after a
DETECT, `DETECTED` is 1 exactly when it ended with SUCCESS, else no partition is valid. -/
def Obligations.OnlyDetectChangesTheGeometry : Prop :=
  ∀ (i : Instr) (s t : State), exec i s = .next t →
    (i ≠ .detect → t.geo = s.geo ∧ t.detected = s.detected ∧ t.variant = s.variant ∧ t.bbmPos = s.bbmPos ∧ t.id = s.id ∧
      t.freeTab = s.freeTab ∧ t.eccTab = s.eccTab) ∧
    t.cw = s.cw ∧ t.a0 = s.a0 ∧ t.a1 = s.a1 ∧ t.a2 = s.a2 ∧ t.a3 = s.a3 ∧ t.conf = s.conf ∧ t.par = s.par ∧
    (i = .detect → (t.detected = true ↔ t.status = .success ∧ t.phase = .idle) ∧
      (t.detected = false → ∀ p ∈ t.pt, p.valid = false) ∧ t.lock = s.lock ∧ sameFlash s t)

/-- R332: every operation that ends writes one of the statuses of its row, and a page operation otherwise only
INVALID_ADDRESS for a buffer window that does not fit (92_eei_decisions.md D9, log 29); a command byte by itself writes
none. -/
def Obligations.EveryOperationEndsWithAListedStatus : Prop :=
  ∀ (i : Instr) (s t : State), exec i s = .next t →
    (listedStatuses i ≠ [] → t.phase = .idle → t.status ∈ listedStatuses i ∨
      t.status = .invalidAddress ∧ ((∃ m, i = .pageRead m ∨ i = .pageWrite m) ∧ s.pageFits = false ∨
        i = .pageReadoob ∧ s.oobFits = false ∨ i = .pageMarkbad ∧ s.markerFits = false)) ∧
      (listedStatuses i = [] → t.status = s.status ∧ t.phase = s.phase)

/-! ## Page operations -/

/-- R240, R242, R136, R137: a page read moves the page and its OOB bytes as the bus returns them and, in AUTO mode with
software ECC, checks every chunk: one flipped bit in each is repaired, two in one are detected. -/
def Obligations.PageReadMovesAndChecksThePage : Prop :=
  ∀ (s : State) (m : OobMode), s.memoryWf → s.pageReady → (s.softEcc m → s.eccReady) →
    ∃ t n main oob, exec (.pageRead m) s = .next t ∧ emits s t (pageReadEvents s s.a0.toNat n main oob) ∧
      sameFlash s t ∧ pageReadLeaves s t m main oob ∧
      t = { s with
        bus := t.bus, dbuf := t.dbuf, oobs := t.oobs, eccCa := t.eccCa, eccRd := t.eccRd, acc := t.acc
        status := t.status, phase := .idle }

/-- R242, R243: a page program sends the main bytes of `DBUF` and the OOB bytes of `OOBS`, in AUTO mode with software ECC
with the triple of every chunk put into its place first; the fail bit of the status byte decides the status. -/
def Obligations.PageWriteSendsThePage : Prop :=
  ∀ (s : State) (m : OobMode), s.memoryWf → s.pageReady → s.conf.readOnly = false → (s.softEcc m → s.eccReady) →
    ∃ t n b, exec (.pageWrite m) s = .next t ∧ pageWriteLeaves s t m (fun a => s.oobs.read a) ∧
      emits s t (pageWriteEvents s s.a0.toNat (s.dbuf.readBytes 0 s.geo.pageSize.toNat)
        (t.oobs.readBytes 0 s.geo.oobSize.toNat) n b) ∧
      t = { s with
        bus := t.bus, oobs := t.oobs, eccCa := t.eccCa, acc := t.acc, res := b.setWidth 64
        status := if s.tellsFailure b then .write else .success, phase := .idle }

/-- R245: PAGE.READOOB moves the OOB bytes of the page into `OOBS`. -/
def Obligations.PageReadoobMovesTheSpareBytes : Prop :=
  ∀ s : State, s.memoryWf → s.deviceReady → s.oobFits = true →
    ∃ t n oob, exec .pageReadoob s = .next t ∧ oob.length = s.geo.oobSize.toNat ∧
      emits s t (oobReadEvents s s.a0.toNat n oob) ∧ sameFlash s t ∧
      t = { s with bus := t.bus, oobs := t.oobs, status := .success, phase := .idle } ∧
      t.oobs.readBytes 0 s.geo.oobSize.toNat = oob ∧ ∀ a, s.geo.oobSize.toNat ≤ a → t.oobs.read a = s.oobs.read a

/-- R246, R244: PAGE.MARKBAD programs an OOB area of FF with 00 at `BBM_POS`, and addresses no main byte. -/
def Obligations.PageMarkbadProgramsTheMarker : Prop :=
  ∀ s : State, s.memoryWf → s.deviceReady → s.markerFits = true → s.conf.readOnly = false →
    ∃ t n b, exec .pageMarkbad s = .next t ∧ emits s t (oobWriteEvents s s.a0.toNat (markerBytes s) n b) ∧
      t.status = (if s.tellsFailure b then .write else .success) ∧
      t = { s with bus := t.bus, oobs := t.oobs, res := b.setWidth 64, status := t.status, phase := .idle } ∧
      t.oobs.read s.bbmPos.toNat = 0x00#8 ∧
      ∀ a, a < s.geo.oobSize.toNat → a ≠ s.bbmPos.toNat → t.oobs.read a = 0xFF#8

/-- R247: BLOCK.ERASE sends the row, confirms, and takes ERASE from the fail bit. -/
def Obligations.BlockEraseSendsTheRow : Prop :=
  ∀ s : State, s.deviceReady → s.conf.readOnly = false →
    ∃ t n b, exec .blockErase s = .next t ∧ emits s t (eraseEvents s s.a0.toNat n b) ∧
      t = { s with
        bus := t.bus, res := b.setWidth 64, status := if s.tellsFailure b then .erase else .success, phase := .idle }

/-- R66 (d), R65, R240: on the chip that DETECT saw, a RAW page read returns the bytes of the addressed page. -/
def Obligations.PageReadReturnsTheFlashBytes : Prop :=
  ∀ (s : State) (ch : Chip), s.memoryWf → s.detected = true → s.pageFits = true → s.bus.chip? = some ch →
    ch.matches s → s.a0.toNat < ch.rows →
    ∃ t, exec (.pageRead .raw) s = .next t ∧ t.status = .success ∧ sameFlash s t ∧
      (∀ k, k < s.geo.pageSize.toNat → t.dbuf.read k = ch.flashByte s.a0.toNat k) ∧
      ∀ k, k < s.geo.oobSize.toNat → t.oobs.read k = ch.flashByte s.a0.toNat (s.geo.pageSize.toNat + k)

/-- R66 (b), (f), R243: on that chip a RAW page program that does not fail leaves `old & new` in the addressed page and
every other byte of every array as it was. -/
def Obligations.PageWriteProgramsByAnd : Prop :=
  ∀ (s : State) (ch : Chip) (c : Byte), s.memoryWf → s.detected = true → s.pageFits = true →
    s.conf.readOnly = false → s.bus.selected = some c → s.bus.chip? = some ch → ch.matches s → s.a0.toNat < ch.rows →
    ch.progFails.fails s.a0.toNat = false →
    ∃ t, exec (.pageWrite .raw) s = .next t ∧ t.status = .success ∧
      (∀ k, k < s.geo.pageSize.toNat → t.flash c.toNat (ch.key s.a0.toNat k) =
        ch.flashByte s.a0.toNat k &&& s.dbuf.read k) ∧
      (∀ k, k < s.geo.oobSize.toNat → t.flash c.toNat (ch.key s.a0.toNat (s.geo.pageSize.toNat + k)) =
        ch.flashByte s.a0.toNat (s.geo.pageSize.toNat + k) &&& s.oobs.read k) ∧
      ∀ d a, (d ≠ c.toNat ∨ a < ch.key s.a0.toNat 0 ∨ ch.key (s.a0.toNat + 1) 0 ≤ a) → t.flash d a = s.flash d a

/-- R66 (c), (f), R247: on that chip an erase that does not fail sets every byte of the block to FF and leaves every other
byte of every array as it was. -/
def Obligations.BlockEraseSetsTheBlockToOnes : Prop :=
  ∀ (s : State) (ch : Chip) (c : Byte), s.detected = true → s.conf.readOnly = false →
    s.bus.selected = some c → s.bus.chip? = some ch → ch.matches s → s.a0.toNat < ch.rows →
    ch.eraseFails.fails s.a0.toNat = false →
    ∃ t, exec .blockErase s = .next t ∧ t.status = .success ∧
      (∀ a, ch.key (ch.firstRow s.a0.toNat) 0 ≤ a → a < ch.key (ch.firstRow s.a0.toNat + ch.pagesPerBlock) 0 →
        t.flash c.toNat a = 0xFF#8) ∧
      ∀ d a, (d ≠ c.toNat ∨ a < ch.key (ch.firstRow s.a0.toNat) 0 ∨
        ch.key (ch.firstRow s.a0.toNat + ch.pagesPerBlock) 0 ≤ a) → t.flash d a = s.flash d a

/-! ## U-OOB and U-BB -/

/-- R261, R262, R264: OOB.COPY gathers the request's bytes, through the free table or flat; an out-of-bounds request is
refused and moves nothing. -/
def Obligations.OobCopyGathersTheRequest : Prop :=
  ∀ (s : State) (m : OobMode), s.memoryWf → s.detected = true →
    let limit := match m with | .auto => tableBytes s.freeTab | .raw => s.geo.oobSize.toNat
    ((65536 ≤ s.a2.toNat ∨ 65536 ≤ s.a3.toNat ∨ limit < s.a2.toNat + s.a3.toNat) →
      exec (.oobCopy m) s = .next { s with status := .invalidAddress, phase := .idle }) ∧
    (s.a2.toNat < 65536 → s.a3.toNat < 65536 → s.a2.toNat + s.a3.toNat ≤ limit →
      s.requestFits m s.a2.toNat s.a3.toNat = true →
      (m = .auto → s.a3 ≠ 0 → tablesWellFormed s.freeTab s.eccTab s.geo.oobSize.toNat = true) →
      ∃ t, exec (.oobCopy m) s = .next t ∧ t = { s with obuf := t.obuf, status := .success, phase := .idle } ∧
        (∀ b, b < s.a3.toNat → t.obuf.read b = s.oobs.read (match m with
          | .auto => (tablePositions s.freeTab).getD (s.a2.toNat + b) 0
          | .raw => s.a2.toNat + b)) ∧
        ∀ a, s.a3.toNat ≤ a → t.obuf.read a = s.obuf.read a)

/-- R261, R263, R264: OOB.FILL sets the OOB area to FF and scatters the request's bytes into it. -/
def Obligations.OobFillScattersTheRequest : Prop :=
  ∀ (s : State) (m : OobMode), s.memoryWf → s.detected = true →
    let limit := match m with | .auto => tableBytes s.freeTab | .raw => s.geo.oobSize.toNat
    let place := fun b => match m with
      | .auto => (tablePositions s.freeTab).getD (s.a2.toNat + b) 0
      | .raw => s.a2.toNat + b
    ((65536 ≤ s.a2.toNat ∨ 65536 ≤ s.a3.toNat ∨ limit < s.a2.toNat + s.a3.toNat) →
      exec (.oobFill m) s = .next { s with status := .invalidAddress, phase := .idle }) ∧
    (s.a2.toNat < 65536 → s.a3.toNat < 65536 → s.a2.toNat + s.a3.toNat ≤ limit → s.oobFits = true →
      s.requestFits m s.a2.toNat s.a3.toNat = true →
      (m = .auto → s.a3 ≠ 0 → tablesWellFormed s.freeTab s.eccTab s.geo.oobSize.toNat = true) →
      ∃ t, exec (.oobFill m) s = .next t ∧ t = { s with oobs := t.oobs, status := .success, phase := .idle } ∧
        (∀ b, b < s.a3.toNat → t.oobs.read (place b) = s.obuf.read b) ∧
        (∀ a, a < s.geo.oobSize.toNat → (∀ b, b < s.a3.toNat → a ≠ place b) → t.oobs.read a = 0xFF#8) ∧
        ∀ a, s.geo.oobSize.toNat ≤ a → t.oobs.read a = s.oobs.read a)

/-- R265, R266: DEV.ISVALID refuses what is no block, and otherwise reads the marker byte of each marker page in turn; the
first that is not FF makes the block bad, and later pages are then not read. -/
def Obligations.IsvalidReadsTheMarkers : Prop :=
  ∀ s : State, s.memoryWf → s.blockReady →
    let a := s.a0.toNat
    (¬ s.isBlock a → exec .devIsvalid s = .next { s with status := .invalidAddress, phase := .idle }) ∧
    (s.isBlock a → s.answersAt a →
      ∃ t reads, exec .devIsvalid s = .next t ∧ markerReads s (s.markerRowsOf a) reads ∧ sameFlash s t ∧
        emits s t (.sel (s.chipIndexOf a) :: markerReadEvents s (s.markerRowsOf a) reads) ∧
        t = { s with
          bus := t.bus, curChip := s.chipIndexOf a, oobs := t.oobs
          status := if goodMarkers s reads then .success else .blockIsBad, phase := .idle })

/-- R265, R267: DEV.MARKBAD leaves a block that is already bad, and otherwise erases it, whatever the erase reports, and
marks every marker page; a failure of any mark is the status. -/
def Obligations.MarkbadErasesThenMarks : Prop :=
  ∀ s : State, s.memoryWf → s.blockReady → s.conf.readOnly = false →
    let a := s.a0.toNat
    (¬ s.isBlock a → exec .devMarkbad s = .next { s with status := .invalidAddress, phase := .idle }) ∧
    (s.isBlock a → s.answersAt a →
      ∃ t reads, exec .devMarkbad s = .next t ∧ markerReads s (s.markerRowsOf a) reads ∧
        t = { s with
          bus := t.bus, curChip := s.chipIndexOf a, oobs := t.oobs, res := t.res, status := t.status, phase := .idle } ∧
        if goodMarkers s reads then
          ∃ n b marks, marks.length = (s.markerRowsOf a).length ∧
            emits s t (.sel (s.chipIndexOf a) :: markerReadEvents s (s.markerRowsOf a) reads ++
              eraseEvents s (s.firstRowOf a) n b ++ markEvents s (s.markerRowsOf a) marks) ∧
            t.status = (if anyFailed s marks then .write else .success) ∧
            ∀ x, marks.getLast? = some x → t.res = x.2.setWidth 64
        else
          emits s t (.sel (s.chipIndexOf a) :: markerReadEvents s (s.markerRowsOf a) reads) ∧ t.status = .success ∧
            t.res = s.res ∧ sameFlash s t)

/-- R265 to R267, on the chip that DETECT saw: a block that DEV.MARKBAD marked with SUCCESS is bad at the next query. -/
def Obligations.MarkedBlockIsBad : Prop :=
  ∀ (s t u : State) (ch : Chip), s.memoryWf → s.geometryInv → s.bbmPos.toNat < s.geo.oobSize.toNat →
    (s.select s.a0.toNat).bus.chip? = some ch → ch.matches s →
    ch.rows = s.geo.blocksPerChip.toNat * s.geo.pagesPerBlock.toNat → (∀ r, ch.progFails.fails r = false) →
    exec .devMarkbad s = .next t → t.status = .success → t.phase = .idle → exec .devIsvalid t = .next u →
    u.status = .blockIsBad

/-! ## U-PART -/

/-- R280, R281: the lock. Obtaining a free lock takes it; obtaining a held one stalls without a status; a release clears
it, and a requester that was stalled then proceeds (by running its request again, the model's choice of log 10); neither
emits a bus event. -/
def Obligations.LockIsTestAndSet : Prop :=
  decode (.request 0x00000070#32) = .ok .lockObtain ∧ decode (.request 0x00000071#32) = .ok .lockRelease ∧
  ∀ s : State,
    (s.busPort = none → s.phase = .stallLock → s.lock = false →
      (∀ i, decode (.request s.cw) = .ok i → step s = exec i { s with phase := .run }) ∧
        (s.cw = 0x00000070#32 → step s = .next { s with lock := true, status := .success, phase := .idle })) ∧
    (s.lock = false → exec .lockObtain s = .next { s with lock := true, status := .success, phase := .idle }) ∧
      (s.lock = true → exec .lockObtain s = .next { s with phase := .stallLock }) ∧
      exec .lockRelease s = .next { s with lock := false, status := .success, phase := .idle }

/-- R283: PART.CREATE refuses a bad request with nothing else changed, and writes exactly one entry otherwise. -/
def Obligations.CreateCarvesAPartition : Prop :=
  ∀ (s : State) (p d : BitVec 4), s.detected = true →
    ((s.part p = none ∨ s.pt.length ≤ d.toNat ∨ d = 0#4 ∨
        (∃ e, s.part p = some e ∧ e.psize.toNat < s.a0.toNat + s.a1.toNat) ∨
        s.a0.toNat &&& s.geo.blockMask.toNat ≠ 0 ∨ s.a1.toNat &&& s.geo.blockMask.toNat ≠ 0) →
      exec (.partCreate p d) s = .next { s with status := .invalidAddress, phase := .idle }) ∧
    ∀ e, s.part p = some e → d.toNat < s.pt.length → d ≠ 0#4 → s.a0.toNat + s.a1.toNat ≤ e.psize.toNat →
      s.a0.toNat &&& s.geo.blockMask.toNat = 0 → s.a1.toNat &&& s.geo.blockMask.toNat = 0 →
      ∃ t, exec (.partCreate p d) s = .next t ∧ emits s t [] ∧ sameFlash s t ∧
        t = { s with bus := t.bus, pt := t.pt, res := d.setWidth 64, status := .success, phase := .idle } ∧
        (∀ k, k ≠ d.toNat → t.pt[k]? = s.pt[k]?) ∧
        ∃ n, t.pt[d.toNat]? = some n ∧ n.valid = true ∧ n.psize.toNat = s.a1.toNat ∧
          (e.begin.toNat + s.a0.toNat < s.par.addrBound → n.begin.toNat = e.begin.toNat + s.a0.toNat)

/-- R282, R284: a zero-size request at or below the end of the partition is SUCCESS without lock or bus event, even with
no capabilities, under `READ_ONLY` or with the lock held; one beyond the end is refused. -/
def Obligations.ZeroSizeRequestTouchesNothing : Prop :=
  ∀ (s : State) (p : BitVec 4) (m : OobMode) (e : PartEntry), s.detected = true → s.part p = some e → s.a1 = 0 →
    (s.a0.toNat ≤ e.psize.toNat →
      exec (.partRead p) s = .next { s with status := .success, phase := .idle } ∧
      exec (.partWrite p) s = .next { s with status := .success, phase := .idle } ∧
      (s.a3 = 0 → s.oobReqOk m s.a2 s.a3 = true →
        exec (.partReadoob p m) s = .next { s with status := .success, phase := .idle } ∧
        exec (.partWriteoob p m) s = .next { s with status := .success, phase := .idle })) ∧
    (e.psize.toNat < s.a0.toNat → ∀ i ∈ [Instr.partRead p, .partWrite p, .partReadoob p m, .partWriteoob p m],
      exec i s = .next { s with status := .invalidAddress, phase := .idle })

/-- R285, R282, R294: PART.READ takes the lock, selects the chip of the rebased address, reads the page in AUTO mode and
releases the lock. -/
def Obligations.PartReadReadsTheRebasedPage : Prop :=
  ∀ (s : State) (p : BitVec 4) (e : PartEntry), s.memoryWf → s.detected = true → s.pageFits = true → s.part p = some e →
    s.a1 = s.geo.pageSize → s.a1 ≠ 0 → s.a0.toNat + s.a1.toNat ≤ e.psize.toNat → s.conf.capRead = true →
    s.conf.nandClass = true → s.a0.toNat &&& s.geo.pageMask.toNat = 0 → s.lock = false →
    (s.softEcc .auto → s.eccReady) →
    let a := e.begin.toNat + s.a0.toNat
    s.answersAt a →
    ∃ t n main oob, exec (.partRead p) s = .next t ∧ sameFlash s t ∧ pageReadLeaves s t .auto main oob ∧
      emits s t (.sel (s.chipIndexOf a) :: pageReadEvents s (s.firstRowOf a) n main oob) ∧
      t = { s with
        bus := t.bus, curChip := s.chipIndexOf a, dbuf := t.dbuf, oobs := t.oobs, eccCa := t.eccCa, eccRd := t.eccRd
        acc := t.acc, status := t.status, phase := .idle }

/-- R286, R282, R294: PART.WRITE takes the lock, selects the chip, blanks `OOBS`, programs the page in AUTO mode and
releases the lock. -/
def Obligations.PartWriteProgramsTheRebasedPage : Prop :=
  ∀ (s : State) (p : BitVec 4) (e : PartEntry), s.memoryWf → s.detected = true → s.pageFits = true → s.part p = some e →
    s.a1 = s.geo.pageSize → s.a1 ≠ 0 → s.a0.toNat + s.a1.toNat ≤ e.psize.toNat → s.conf.capWrite = true →
    s.conf.nandClass = true → s.a0.toNat &&& s.geo.pageMask.toNat = 0 → s.conf.readOnly = false → s.lock = false →
    (s.softEcc .auto → s.eccReady) →
    let a := e.begin.toNat + s.a0.toNat
    s.answersAt a →
    ∃ t n b, exec (.partWrite p) s = .next t ∧
      pageWriteLeaves s t .auto (fun x => if x < s.geo.oobSize.toNat then 0xFF#8 else s.oobs.read x) ∧
      emits s t (.sel (s.chipIndexOf a) :: pageWriteEvents s (s.firstRowOf a)
        (s.dbuf.readBytes 0 s.geo.pageSize.toNat) (t.oobs.readBytes 0 s.geo.oobSize.toNat) n b) ∧
      t = { s with
        bus := t.bus, curChip := s.chipIndexOf a, oobs := t.oobs, eccCa := t.eccCa, acc := t.acc, res := b.setWidth 64
        status := if s.tellsFailure b then .write else .success, phase := .idle }

/-- R287, R282, R264: PART.READOOB reads the page, or with `n = 0` only its OOB area, and gathers the request from it,
also after an ECC status. -/
def Obligations.PartReadoobGathersTheRequest : Prop :=
  ∀ (s : State) (p : BitVec 4) (m : OobMode) (e : PartEntry), s.memoryWf → s.detected = true →
    s.oobTransferFits m = true → s.part p = some e → (s.a1 = s.geo.pageSize ∧ s.a1 ≠ 0 ∧ s.a0.toNat + s.a1.toNat ≤ e.psize.toNat ∨
      s.a1 = 0 ∧ s.geo.pageSize ≠ 0 ∧ s.a0.toNat < e.psize.toNat ∧ s.a3 ≠ 0) →
    s.oobReqOk m s.a2 s.a3 = true → s.conf.capRead = true → s.conf.capOob = true → s.conf.nandClass = true →
    s.a0.toNat &&& s.geo.pageMask.toNat = 0 → s.lock = false → (s.softEcc m → s.a1 ≠ 0 → s.eccReady) →
    (m = .auto → s.a3 ≠ 0 → tablesWellFormed s.freeTab s.eccTab s.geo.oobSize.toNat = true) →
    let a := e.begin.toNat + s.a0.toNat
    s.answersAt a →
    ∃ t n main oob, exec (.partReadoob p m) s = .next t ∧ oob.length = s.geo.oobSize.toNat ∧ sameFlash s t ∧
      emits s t (.sel (s.chipIndexOf a) ::
        if s.a1 = 0 then oobReadEvents s (s.firstRowOf a) n oob else pageReadEvents s (s.firstRowOf a) n main oob) ∧
      t = { s with
        bus := t.bus, curChip := s.chipIndexOf a, dbuf := t.dbuf, oobs := t.oobs, obuf := t.obuf, eccCa := t.eccCa
        eccRd := t.eccRd, acc := t.acc, status := t.status, phase := .idle } ∧
      (if s.a1 = 0 then t.status = .success ∧ t.dbuf = s.dbuf ∧ t.eccCa = s.eccCa ∧ t.eccRd = s.eccRd ∧ t.acc = s.acc ∧
          t.oobs.readBytes 0 s.geo.oobSize.toNat = oob ∧ ∀ x, s.geo.oobSize.toNat ≤ x → t.oobs.read x = s.oobs.read x
        else pageReadLeaves s t m main oob) ∧
      (∀ b, b < s.a3.toNat → t.obuf.read b = oob.getD (match m with
        | .auto => (tablePositions s.freeTab).getD (s.a2.toNat + b) 0
        | .raw => s.a2.toNat + b) 0) ∧
      ∀ x, s.a3.toNat ≤ x → t.obuf.read x = s.obuf.read x

/-- R288, R282, R264: PART.WRITEOOB scatters the request over a blank OOB area and programs the page, or with `n = 0` only
its OOB area. -/
def Obligations.PartWriteoobProgramsTheRequest : Prop :=
  ∀ (s : State) (p : BitVec 4) (m : OobMode) (e : PartEntry), s.memoryWf → s.detected = true →
    s.oobTransferFits m = true → s.part p = some e → (s.a1 = s.geo.pageSize ∧ s.a1 ≠ 0 ∧ s.a0.toNat + s.a1.toNat ≤ e.psize.toNat ∨
      s.a1 = 0 ∧ s.geo.pageSize ≠ 0 ∧ s.a0.toNat < e.psize.toNat ∧ s.a3 ≠ 0) →
    s.oobReqOk m s.a2 s.a3 = true → s.conf.capWrite = true → s.conf.capOob = true → s.conf.nandClass = true →
    s.a0.toNat &&& s.geo.pageMask.toNat = 0 → s.conf.readOnly = false → s.lock = false →
    (s.softEcc m → s.a1 ≠ 0 → s.eccReady) →
    (m = .auto → s.a3 ≠ 0 → tablesWellFormed s.freeTab s.eccTab s.geo.oobSize.toNat = true) →
    let a := e.begin.toNat + s.a0.toNat
    let place := fun b => match m with
      | .auto => (tablePositions s.freeTab).getD (s.a2.toNat + b) 0
      | .raw => s.a2.toNat + b
    s.answersAt a →
    ∃ t n v before, exec (.partWriteoob p m) s = .next t ∧
      emits s t (.sel (s.chipIndexOf a) ::
        if s.a1 = 0 then oobWriteEvents s (s.firstRowOf a) (t.oobs.readBytes 0 s.geo.oobSize.toNat) n v
        else pageWriteEvents s (s.firstRowOf a) (s.dbuf.readBytes 0 s.geo.pageSize.toNat)
          (t.oobs.readBytes 0 s.geo.oobSize.toNat) n v) ∧
      t = { s with
        bus := t.bus, curChip := s.chipIndexOf a, oobs := t.oobs, eccCa := t.eccCa, acc := t.acc, res := v.setWidth 64
        status := if s.tellsFailure v then .write else .success, phase := .idle } ∧
      (∀ b, b < s.a3.toNat → before (place b) = s.obuf.read b) ∧
      (∀ x, x < s.geo.oobSize.toNat → (∀ b, b < s.a3.toNat → x ≠ place b) → before x = 0xFF#8) ∧
      (∀ x, s.geo.oobSize.toNat ≤ x → before x = s.oobs.read x) ∧
      (∀ b, b < s.a3.toNat → t.oobs.read (place b) = s.obuf.read b) ∧
      if s.a1 = 0 then (∀ x, t.oobs.read x = before x) ∧ t.eccCa = s.eccCa ∧ t.acc = s.acc
      else pageWriteLeaves s t m before

/-- R289, R293: PART.ERASE in FORCE mode selects and erases; in the other modes it erases only a block whose markers say
it is good, and in mode MARK_BAD_ON_ERROR a failed erase is followed by DEV.MARKBAD's own check, erase and marks, ERASE
still being the status; without `CAPS.is_block_valid` those modes answer OP_NOT_SUPPORTED. -/
def Obligations.PartEraseErasesTheBlock : Prop :=
  ∀ (s : State) (p : BitVec 4) (e : PartEntry), s.memoryWf → s.detected = true → s.part p = some e →
    s.a0.toNat + s.geo.blockSize.toNat ≤ e.psize.toNat → s.conf.capErase = true → s.conf.nandClass = true →
    s.a0.toNat &&& s.geo.blockMask.toNat = 0 → s.conf.readOnly = false → s.lock = false →
    let a := e.begin.toNat + s.a0.toNat
    let row := s.firstRowOf a
    let rows := s.markerRowsOf a
    let sel := BusEvent.sel (s.chipIndexOf a)
    s.isBlock a → s.answersAt a →
    (∃ t n b, exec (.partErase p 1#2) s = .next t ∧ emits s t (sel :: eraseEvents s row n b) ∧
      t = { s with
        bus := t.bus, curChip := s.chipIndexOf a, res := b.setWidth 64, status := if s.tellsFailure b then .erase else .success
        phase := .idle }) ∧
    ∀ k, (k = 0#2 ∨ k = 2#2) →
      (s.conf.capIsValid = false → exec (.partErase p k) s = .next { s with status := .opNotSupported, phase := .idle }) ∧
      (s.conf.capIsValid = true → s.blockReady →
        ∃ t reads, exec (.partErase p k) s = .next t ∧ markerReads s rows reads ∧
          t = { s with
            bus := t.bus, curChip := s.chipIndexOf a, oobs := t.oobs, res := t.res, status := t.status, phase := .idle } ∧
          if goodMarkers s reads then
            ∃ n b more, emits s t (sel :: markerReadEvents s rows reads ++ eraseEvents s row n b ++ more) ∧
              t.status = (if s.tellsFailure b then .erase else .success) ∧
              if s.tellsFailure b = true ∧ k = 2#2 ∧ s.conf.capMarkBad = true then
                ∃ again, markerReads s rows again ∧
                  if goodMarkers s again then
                    ∃ n' b' marks, marks.length = rows.length ∧
                      more = sel :: markerReadEvents s rows again ++ eraseEvents s row n' b' ++ markEvents s rows marks
                  else more = sel :: markerReadEvents s rows again
              else more = [] ∧ t.res = b.setWidth 64
          else
            emits s t (sel :: markerReadEvents s rows reads) ∧ t.status = .blockIsBad ∧ t.res = s.res ∧ sameFlash s t)

/-- R290, R293: PART.ERASEALL erases every block of the partition in turn, in every mode: the scan goes on after a bad
block and after a failed erase, the lock is released, and the status is the first that is neither SUCCESS nor
BLOCK_IS_BAD, which is never reported. `done` lists what each block came to. -/
def Obligations.EraseallScansEveryBlock : Prop :=
  ∀ (s : State) (p : BitVec 4) (e : PartEntry) (k : BitVec 2) (mode : EraseMode), s.memoryWf → s.detected = true →
    s.part p = some e → eraseModeOf k = some mode → s.conf.capErase = true → s.conf.nandClass = true →
    s.conf.readOnly = false → s.lock = false → (∀ ch ∈ s.bus.chips, ch.stuck = false) → s.bus.floatReady = true →
    let blocks := (e.psize.toNat + s.geo.blockSize.toNat - 1) / s.geo.blockSize.toNat
    let block := fun j => e.begin.toNat + j * s.geo.blockSize.toNat
    (mode ≠ .force → s.conf.capIsValid = true → s.blockReady ∧ ∀ j, j < blocks → s.isBlock (block j)) →
    ∃ (t : State) (done : List (List BusEvent × Status)), exec (.partEraseall p k) s = .next t ∧ done.length = blocks ∧
      (∀ d ∈ done.zipIdx, eraseOutcome s mode (block d.2) d.1.1 d.1.2) ∧
      emits s t (done.flatMap fun d => d.1) ∧ t.status ≠ .blockIsBad ∧
      t.status = ((done.map fun d => d.2).find? fun st => st != .success && st != .blockIsBad).getD .success ∧
      (mode = .force → t.oobs = s.oobs) ∧
      t = { s with
        bus := t.bus, curChip := t.curChip, oobs := t.oobs, res := t.res, status := t.status, phase := .idle }

/-- R291, R292: PART.ISVALID and PART.MARKBAD take the lock, run the controller operation at the rebased address and
release the lock. -/
def Obligations.PartBadBlockOperationsDelegate : Prop :=
  ∀ (s : State) (p : BitVec 4) (e : PartEntry), s.memoryWf → s.blockReady → s.part p = some e →
    s.a0.toNat + s.geo.blockSize.toNat ≤ e.psize.toNat → s.conf.nandClass = true →
    s.a0.toNat &&& s.geo.blockMask.toNat = 0 → s.lock = false →
    let a := e.begin.toNat + s.a0.toNat
    let rows := s.markerRowsOf a
    let sel := BusEvent.sel (s.chipIndexOf a)
    s.isBlock a → s.answersAt a →
    (s.conf.capIsValid = true →
      ∃ t reads, exec (.partIsvalid p) s = .next t ∧ markerReads s rows reads ∧ sameFlash s t ∧
        emits s t (sel :: markerReadEvents s rows reads) ∧
        t = { s with
          bus := t.bus, curChip := s.chipIndexOf a, oobs := t.oobs
          status := if goodMarkers s reads then .success else .blockIsBad, phase := .idle }) ∧
    (s.conf.capMarkBad = true → s.conf.readOnly = false →
      ∃ t reads, exec (.partMarkbad p) s = .next t ∧ markerReads s rows reads ∧
        t = { s with
          bus := t.bus, curChip := s.chipIndexOf a, oobs := t.oobs, res := t.res, status := t.status, phase := .idle } ∧
        if goodMarkers s reads then
          ∃ n b marks, marks.length = rows.length ∧
            emits s t (sel :: markerReadEvents s rows reads ++ eraseEvents s (s.firstRowOf a) n b ++
              markEvents s rows marks) ∧
            t.status = (if anyFailed s marks then .write else .success)
        else emits s t (sel :: markerReadEvents s rows reads) ∧ t.status = .success ∧ sameFlash s t)

/-- R282, R335: a PART operation with the lock free ends with the lock free; with the lock held it is either answered by
its validation, with nothing but `STATUS` and `PHASE` changed, or stalls. -/
def Obligations.PartOperationsReleaseTheLock : Prop :=
  ∀ (s t : State) (p : BitVec 4) (m : OobMode) (k : BitVec 2),
    ∀ i ∈ [.partRead p, .partWrite p, .partReadoob p m, .partWriteoob p m, .partErase p k, .partEraseall p k,
        .partIsvalid p, .partMarkbad p], exec i s = .next t →
      (s.lock = false → t.phase = .idle → t.lock = false) ∧
        (s.lock = true → t = { s with status := t.status, phase := .idle } ∨ t = { s with phase := .stallLock })

/-- R282, R284, R289 to R292: the validation of every PART operation but PART.CREATE: the first of its steps that refuses
decides the status, nothing but `STATUS` and `PHASE` changes, and no lock is taken. `rwSteps`, `blockSteps` and
`eraseallSteps` list the steps in order: detection, partition, size, bounds, OOB request, nothing to do, capability and
class, alignment, `READ_ONLY`. That the class is a refusal of the erase family too is log 17, where the block alignment
stands log 41, and that the buffer windows (D9) come last log 29. -/
def Obligations.PartValidationFollowsItsOrder : Prop :=
  ∀ (s : State) (p : BitVec 4) (m : OobMode) (k : BitVec 2) (mode : EraseMode) (st : Status), eraseModeOf k = some mode →
    let refused := Host.Outcome.next { s with status := st, phase := Phase.idle }
    let markers := mode != .force && s.conf.capIsValid
    (firstRefusal (rwSteps s p none s.conf.capRead false) = some st → exec (.partRead p) s = refused) ∧
    (firstRefusal (rwSteps s p none s.conf.capWrite true) = some st → exec (.partWrite p) s = refused) ∧
    (firstRefusal (rwSteps s p (some m) s.conf.capRead false) = some st → exec (.partReadoob p m) s = refused) ∧
    (firstRefusal (rwSteps s p (some m) s.conf.capWrite true) = some st → exec (.partWriteoob p m) s = refused) ∧
    (firstRefusal (blockSteps s p s.conf.capErase true markers) = some st → exec (.partErase p k) s = refused) ∧
    (firstRefusal (blockSteps s p s.conf.capIsValid false true) = some st → exec (.partIsvalid p) s = refused) ∧
    (firstRefusal (blockSteps s p s.conf.capMarkBad true true) = some st → exec (.partMarkbad p) s = refused) ∧
    (firstRefusal (eraseallSteps s p markers) = some st → exec (.partEraseall p k) s = refused)

/-! ## Bus command bytes -/

/-- R100: each command byte presented by itself is the one event `Ctl(CMD_x, CLE)` with the parameter's byte, by default
the byte of the table; no register of BED-CORE changes, and only the two confirm bytes can change a flash array (that such
a byte can be presented by itself, and then names the command by its default byte, is the model's choice, log 7, 35). -/
def Obligations.CommandByteIsLatched : Prop :=
  ∀ s : State, ∀ i ∈ [(Instr.cmdRead0, Cmd.read0), (.cmdRead1, .read1), (.cmdPageprog, .pageprog),
      (.cmdReadstart, .readstart), (.cmdReadoob, .readoob), (.cmdErase1, .erase1), (.cmdStatus, .status),
      (.cmdSeqin, .seqin), (.cmdReadid, .readid), (.cmdErase2, .erase2), (.cmdParam, .param), (.cmdGetfeat, .getfeat),
      (.cmdSetfeat, .setfeat), (.cmdReset, .reset)],
    ∃ t, exec i.1 s = .next t ∧ emits s t [s.latch i.2] ∧ t = { s with bus := t.bus } ∧
      t.bus.selected = s.bus.selected ∧ (i.1 ≠ .cmdPageprog → i.1 ≠ .cmdErase2 → sameFlash s t) ∧
      ∀ ch, t.bus.chip? = some ch → ch.cmd = some i.2

/-! ## Invariants -/

/-- Every step keeps every memory, buffers and flash arrays, in canonical form. -/
def Obligations.EveryStepKeepsMemoryCanonical : Prop :=
  ∀ s t : State, s.memoryWf → step s = .next t → t.memoryWf

/-- R8, R28, R39, R318: every step keeps the geometry consistent while a device is detected, every valid partition aligned
and inside the device, and every number within the `ADDR_W`, or `ADDR_W + 1`, bits of its register. Where PART.CREATE adds
up to `2 ^ ADDR_W` or more, the spec states no `BEGIN`; that the free value then taken keeps the invariant is the model's
choice, log 18. `16 ≤ ADDR_W` is the model's own bound, log 36. -/
def Obligations.EveryStepKeepsTheDeviceInvariant : Prop :=
  ∀ s t : State, 16 ≤ s.par.addrW.val → s.deviceInv → step s = .next t → t.deviceInv

/-- The machine after reset satisfies the invariants. -/
def Obligations.ResetSatisfiesTheInvariants : Prop :=
  State.reset.memoryWf ∧ State.reset.deviceInv
end

