-- ==== Sys2Proof/Laws/Ecc.lean ====
section
/-! SUPPORT. The codec of U-ECC is linear: a flipped data bit changes the triple by a syndrome that depends only on where
the bit stands, and the decode of that syndrome is the place (40_ecc.md R131, R133). -/

namespace Sys2Proof.Machine

/-! ## Parities -/

theorem parity8_xor (a b : Byte) : parity8 (a ^^^ b) = (parity8 a ^^ parity8 b) := by
  have h (w x y z : Bool) : ((w ^^ x) ^^ (y ^^ z)) = ((w ^^ y) ^^ (x ^^ z)) := by
    cases w <;> cases x <;> cases y <;> cases z <;> rfl
  have h2 (i j : Nat) : ((a.getLsbD i ^^ b.getLsbD i) ^^ (a.getLsbD j ^^ b.getLsbD j)) =
      ((a.getLsbD i ^^ a.getLsbD j) ^^ (b.getLsbD i ^^ b.getLsbD j)) := h _ _ _ _
  simp only [parity8, BitVec.getLsbD_xor, h2]
  rw [h (a.getLsbD 0 ^^ a.getLsbD 1), h (a.getLsbD 4 ^^ a.getLsbD 5), h]

theorem parity8_popcnt (a : Byte) : (popcnt a % 2 == 1) = parity8 a := by revert a; decide

/-- The number of ones of an XOR is even exactly when the numbers of ones have the same parity. -/
theorem popcnt_xor (a b : Byte) : popcnt (a ^^^ b) % 2 = (popcnt a + popcnt b) % 2 := by
  have h := parity8_xor a b
  rw [← parity8_popcnt, ← parity8_popcnt, ← parity8_popcnt] at h
  have h1 := Nat.mod_two_eq_zero_or_one (popcnt (a ^^^ b))
  have h2 := Nat.mod_two_eq_zero_or_one (popcnt a)
  have h3 := Nat.mod_two_eq_zero_or_one (popcnt b)
  rcases h1 with h1 | h1 <;> rcases h2 with h2 | h2 <;> rcases h3 with h3 | h3 <;> simp [h1, h2, h3] at h <;> omega

theorem popcnt_eq_zero (a : Byte) : popcnt a = 0 ↔ a = 0#8 := by revert a; decide

/-! ## Linearity -/

/-- The XOR of two sets of accumulators. -/
def EccAcc.xor (x y : EccAcc) : EccAcc :=
  ⟨List.zipWith (fun p q => (p.1 ^^^ q.1, p.2 ^^^ q.2)) x.rp y.rp, x.t ^^^ y.t⟩

/-- The accumulators after one byte `m` of index `i` alone. -/
def EccAcc.single (i : Nat) (m : Byte) : EccAcc := EccAcc.zero.feed i m

theorem EccAcc.rp_ext {x y : EccAcc} (hx : x.rp.length = 8) (hy : y.rp.length = 8)
    (h : ∀ j, j < 8 → x.rp[j]? = y.rp[j]?) (ht : x.t = y.t) : x = y := by
  obtain ⟨rx, tx⟩ := x
  obtain ⟨ry, ty⟩ := y
  simp only at hx hy ht h
  rw [ht, List.ext_getElem? (l₁ := rx) (l₂ := ry)]
  intro j
  by_cases hj : j < 8
  · exact h j hj
  · rw [List.getElem?_eq_none (by omega), List.getElem?_eq_none (by omega)]

@[simp] theorem EccAcc.length_feed (acc : EccAcc) (i : Nat) (d : Byte) : (acc.feed i d).rp.length = acc.rp.length := by
  simp [EccAcc.feed]

theorem EccAcc.length_xor {x y : EccAcc} (hx : x.rp.length = 8) (hy : y.rp.length = 8) : (x.xor y).rp.length = 8 := by
  simp [EccAcc.xor, hx, hy]

@[simp] theorem EccAcc.length_single (i : Nat) (m : Byte) : (EccAcc.single i m).rp.length = 8 := by
  simp [EccAcc.single, EccAcc.zero]

theorem EccAcc.feed_getElem? (acc : EccAcc) (i : Nat) (d : Byte) (j : Nat) :
    (acc.feed i d).rp[j]? =
      acc.rp[j]?.map fun p => if i.testBit j then (p.1, p.2 ^^^ d) else (p.1 ^^^ d, p.2) := by
  simp only [EccAcc.feed, List.getElem?_map, List.getElem?_zipIdx]
  cases acc.rp[j]? <;> simp

theorem EccAcc.xor_getElem? (x y : EccAcc) (j : Nat) :
    (x.xor y).rp[j]? = (x.rp[j]?.bind fun p => y.rp[j]?.map fun q => (p.1 ^^^ q.1, p.2 ^^^ q.2)) := by
  simp only [EccAcc.xor, List.getElem?_zipWith]
  cases x.rp[j]? <;> cases y.rp[j]? <;> rfl

theorem EccAcc.single_getElem? (i : Nat) (m : Byte) {j : Nat} (hj : j < 8) :
    (EccAcc.single i m).rp[j]? = some (if i.testBit j then (0#8, m) else (m, 0#8)) := by
  have h0 : EccAcc.zero.rp[j]? = some (0#8, 0#8) := by
    have : EccAcc.zero.rp = List.replicate 8 (0#8, 0#8) := rfl
    rw [this, List.getElem?_replicate, if_pos hj]
  rw [EccAcc.single, EccAcc.feed_getElem?, h0]
  simp

/-- A change of the accumulators is carried through the next byte. -/
theorem EccAcc.feed_xor {acc d : EccAcc} (ha : acc.rp.length = 8) (hd : d.rp.length = 8) (i : Nat) (v : Byte) :
    (acc.xor d).feed i v = (acc.feed i v).xor d := by
  refine EccAcc.rp_ext (by simp [EccAcc.length_xor ha hd]) (EccAcc.length_xor (by simpa using ha) hd) ?_ ?_
  · intro j hj
    rw [EccAcc.feed_getElem?, EccAcc.xor_getElem?, EccAcc.xor_getElem?, EccAcc.feed_getElem?]
    rw [List.getElem?_eq_getElem (by omega), List.getElem?_eq_getElem (by omega)]
    simp only [Option.bind_some, Option.map_some]
    split <;> simp only [BitVec.xor_assoc, BitVec.xor_comm v]
  · simp only [EccAcc.feed, EccAcc.xor, BitVec.xor_assoc, BitVec.xor_comm v]

/-- A changed byte changes the accumulators as it would alone. -/
theorem EccAcc.feed_changed {acc : EccAcc} (ha : acc.rp.length = 8) (i : Nat) (v m : Byte) :
    acc.feed i (v ^^^ m) = (acc.feed i v).xor (EccAcc.single i m) := by
  refine EccAcc.rp_ext (by simpa using ha) (EccAcc.length_xor (by simpa using ha) (by simp)) ?_ ?_
  · intro j hj
    rw [EccAcc.xor_getElem?, EccAcc.feed_getElem?, EccAcc.feed_getElem?, EccAcc.single_getElem? _ _ hj,
      List.getElem?_eq_getElem (by omega)]
    simp only [Option.bind_some, Option.map_some]
    split <;> simp [BitVec.xor_assoc]
  · simp [EccAcc.feed, EccAcc.xor, EccAcc.single, EccAcc.zero, BitVec.xor_assoc]

theorem EccAcc.length_feedAll (acc : EccAcc) (i : Nat) (l : List Byte) :
    (acc.feedAll i l).rp.length = acc.rp.length := by
  induction l generalizing acc i with
  | nil => rfl
  | cons v l ih => rw [EccAcc.feedAll, ih, EccAcc.length_feed]

theorem EccAcc.feedAll_xor {acc d : EccAcc} (ha : acc.rp.length = 8) (hd : d.rp.length = 8) (i : Nat) (l : List Byte) :
    (acc.xor d).feedAll i l = (acc.feedAll i l).xor d := by
  induction l generalizing acc i with
  | nil => rfl
  | cons v l ih => rw [EccAcc.feedAll, EccAcc.feedAll, EccAcc.feed_xor ha hd, ih (by simpa using ha)]

/-- The accumulators of a chunk with one changed byte. -/
theorem EccAcc.feedAll_changed {acc : EccAcc} (ha : acc.rp.length = 8) (i : Nat) (l : List Byte) (b : Nat) (m : Byte)
    (hb : b < l.length) :
    acc.feedAll i (l.set b (l.getD b 0 ^^^ m)) = (acc.feedAll i l).xor (EccAcc.single (i + b) m) := by
  induction l generalizing acc i b with
  | nil => simp at hb
  | cons v l ih =>
    cases b with
    | zero =>
      rw [List.set_cons_zero, List.getD_cons_zero, EccAcc.feedAll, EccAcc.feedAll, EccAcc.feed_changed ha,
        EccAcc.feedAll_xor (by simpa using ha) (by simp)]
      rfl
    | succ b =>
      rw [List.set_cons_succ, List.getD_cons_succ, EccAcc.feedAll, EccAcc.feedAll,
        ih (by simpa using ha) (i + 1) b (by simpa using hb), show i + 1 + b = i + (b + 1) by omega]

/-! ## From accumulators to syndromes -/

theorem natOfBits_xor (l m : List Bool) (h : l.length = m.length) :
    natOfBits (List.zipWith Bool.xor l m) = natOfBits l ^^^ natOfBits m := by
  induction l generalizing m with
  | nil =>
    cases m with
    | nil => rfl
    | cons => simp at h
  | cons a l ih =>
    cases m with
    | nil => simp at h
    | cons b m =>
      rw [List.zipWith_cons_cons, natOfBits, natOfBits, natOfBits, ih m (by simpa using h)]
      apply Nat.eq_of_testBit_eq
      intro k
      rw [Nat.testBit_xor]
      have hb (c : Bool) (n : Nat) : c.toNat + 2 * n = Nat.bit c n := by cases c <;> simp [Nat.bit]; omega
      rw [hb, hb, hb]
      cases k with
      | zero => cases a <;> cases b <;> simp
      | succ k => simp [Nat.testBit_bit_succ]

theorem EccAcc.rowWord_xor {x y : EccAcc} (hx : x.rp.length = 8) (hy : y.rp.length = 8) :
    (x.xor y).rowWord = x.rowWord ^^^ y.rowWord := by
  have hz (l m : List (Byte × Byte)) (h : l.length = m.length) :
      (List.zipWith (fun p q => (p.1 ^^^ q.1, p.2 ^^^ q.2)) l m).flatMap (fun p => [parity8 p.1, parity8 p.2]) =
        List.zipWith Bool.xor (l.flatMap fun p => [parity8 p.1, parity8 p.2])
          (m.flatMap fun p => [parity8 p.1, parity8 p.2]) := by
    induction l generalizing m with
    | nil => cases m <;> rfl
    | cons a l ih =>
      cases m with
      | nil => simp at h
      | cons b m => simp [parity8_xor, ih m (by simpa using h)]
  simp only [EccAcc.rowWord, EccAcc.xor]
  rw [hz x.rp y.rp (by omega), natOfBits_xor _ _ (by simp [hx, hy])]
  simp [BitVec.ofNat_xor]

theorem EccAcc.columnWord_xor (x y : EccAcc) : (x.xor y).columnWord = x.columnWord ^^^ y.columnWord := by
  have h (m : Byte) : parity8 ((x.t ^^^ y.t) &&& m) = (parity8 (x.t &&& m) ^^ parity8 (y.t &&& m)) := by
    rw [← parity8_xor]; congr 1
    apply BitVec.eq_of_getLsbD_eq
    intro i _
    simp only [BitVec.getLsbD_and, BitVec.getLsbD_xor]
    cases x.t.getLsbD i <;> cases y.t.getLsbD i <;> simp
  simp only [EccAcc.columnWord, EccAcc.xor, h]
  rw [← BitVec.ofNat_xor, ← natOfBits_xor
    [false, false, parity8 (x.t &&& 0x55), parity8 (x.t &&& 0xAA), parity8 (x.t &&& 0x33), parity8 (x.t &&& 0xCC),
      parity8 (x.t &&& 0x0F), parity8 (x.t &&& 0xF0)] _ (by rfl)]
  rfl

/-- The syndrome that a change of the accumulators makes. -/
def EccAcc.syn (d : EccAcc) : Triple :=
  ⟨d.rowWord.extractLsb' 0 8, d.rowWord.extractLsb' 8 8, d.columnWord.extractLsb' 2 6 ++ 0#2⟩

theorem EccAcc.syn_xor {x y : EccAcc} (hx : x.rp.length = 8) (hy : y.rp.length = 8) :
    (x.xor y).syn = syndrome x.syn y.syn := by
  simp only [EccAcc.syn, syndrome, EccAcc.rowWord_xor hx hy, EccAcc.columnWord_xor, Triple.mk.injEq]
  refine ⟨?_, ?_, ?_⟩ <;> apply BitVec.eq_of_getLsbD_eq <;> intro i hi
  · simp [hi]
  · simp [hi]
  · simp only [BitVec.getLsbD_append, BitVec.getLsbD_xor, BitVec.getLsbD_extractLsb']
    split
    · simp
    · simp [show i - 2 < 6 by omega]

/-- The triple of changed accumulators. -/
theorem EccAcc.triple_xor {x d : EccAcc} (hx : x.rp.length = 8) (hd : d.rp.length = 8) (low2 : BitVec 2) :
    (x.xor d).triple low2 = syndrome (x.triple low2) d.syn := by
  simp only [EccAcc.triple, syndrome, EccAcc.syn, EccAcc.rowWord_xor hx hd, EccAcc.columnWord_xor, Triple.mk.injEq]
  refine ⟨?_, ?_, ?_⟩ <;> apply BitVec.eq_of_getLsbD_eq <;> intro i hi
  · simp [hi]
  · simp [hi, show 8 + i < 16 by omega]
  · simp only [BitVec.getLsbD_append, BitVec.getLsbD_xor, BitVec.getLsbD_extractLsb', BitVec.getLsbD_not]
    split
    · simp
    · simp [show i - 2 < 6 by omega, show 2 + (i - 2) < 8 by omega]

/-- The syndrome of bit `k` of byte `b` alone. -/
def synAt (b k : Nat) : Triple := (EccAcc.single b (1#8 <<< k)).syn

/-- A flipped data bit changes the triple by the syndrome of its place. -/
theorem eccTriple_flip (low2 : BitVec 2) (d : List Byte) (b k : Nat) (hb : b < d.length) :
    eccTriple low2 (d.set b (d.getD b 0 ^^^ (1#8 <<< k))) = syndrome (eccTriple low2 d) (synAt b k) := by
  rw [eccTriple, EccAcc.feedAll_changed (by simp [EccAcc.zero]) 0 d b _ hb,
    EccAcc.triple_xor (by simp [EccAcc.length_feedAll, EccAcc.zero]) (by simp), Nat.zero_add]
  rfl

theorem syndrome_comm (x y : Triple) : syndrome x y = syndrome y x := by simp [syndrome, BitVec.xor_comm]

theorem syndrome_cancel (x y : Triple) : syndrome x (syndrome x y) = y := by
  simp [syndrome]

/-- The parity of the weight of an XOR. -/
theorem synWeight_syndrome (x y : Triple) : synWeight (syndrome x y) % 2 = (synWeight x + synWeight y) % 2 := by
  have ha := popcnt_xor x.a y.a
  have hb := popcnt_xor x.b y.b
  have hc := popcnt_xor x.c y.c
  simp only [synWeight, syndrome]
  omega

theorem synWeight_eq_zero (x y : Triple) : synWeight (syndrome x y) = 0 ↔ x = y := by
  obtain ⟨xa, xb, xc⟩ := x
  obtain ⟨ya, yb, yc⟩ := y
  simp only [synWeight, syndrome, Nat.add_eq_zero_iff, popcnt_eq_zero, Triple.mk.injEq]
  have h (u v : Byte) : u ^^^ v = 0#8 ↔ u = v := by
    constructor
    · intro h
      have : u ^^^ (u ^^^ v) = u ^^^ 0#8 := by rw [h]
      simpa [← BitVec.xor_assoc, eq_comm] using this
    · rintro rfl; simp
  simp only [h, and_assoc]

/-! ## The syndrome of one bit -/

/-- The row part of `synAt b k` depends on `b` only: one of each pair, the odd one when the address bit is 1. -/
theorem synAt_row {b k : Nat} (hk : k < 8) :
    (synAt b k).b ++ (synAt b k).a =
      BitVec.ofNat 16 (natOfBits ((List.range 8).flatMap fun j => [!b.testBit j, b.testBit j])) := by
  have hp : parity8 (1#8 <<< k) = true := by revert hk; revert k; decide
  have h0 : parity8 0#8 = false := rfl
  have hr : (EccAcc.single b (1#8 <<< k)).rp =
      (List.range 8).map fun j => if b.testBit j then (0#8, 1#8 <<< k) else (1#8 <<< k, 0#8) := by
    apply List.ext_getElem?
    intro j
    by_cases hj : j < 8
    · rw [EccAcc.single_getElem? _ _ hj]; simp [hj]
    · rw [List.getElem?_eq_none (by simp; omega), List.getElem?_eq_none (by simp; omega)]
  have hw : (EccAcc.single b (1#8 <<< k)).rowWord =
      BitVec.ofNat 16 (natOfBits ((List.range 8).flatMap fun j => [!b.testBit j, b.testBit j])) := by
    rw [EccAcc.rowWord, hr, List.flatMap_map]
    congr 3
    funext j
    split <;> rename_i hj <;> simp [hp, h0, hj]
  rw [← hw]
  simp only [synAt, EccAcc.syn]
  apply BitVec.eq_of_getLsbD_eq
  intro i hi
  simp only [BitVec.getLsbD_append, BitVec.getLsbD_extractLsb']
  split
  · simp [*]
  · simp [show i - 8 < 8 by omega, show 8 + (i - 8) = i by omega]

/-- The column part of `synAt b k` depends on `k` only. -/
theorem synAt_column (b : Nat) {k : Nat} (hk : k < 8) :
    popcnt (synAt b k).c = 3 ∧ synErrorBit (synAt b k) = k := by
  have hc : (synAt b k).c = (synAt 0 k).c := by
    simp [synAt, EccAcc.syn, EccAcc.columnWord, EccAcc.single, EccAcc.feed]
  rw [synErrorBit, hc]
  clear hc
  revert hk; revert k; decide

/-- A single flipped bit gives 11 ones, and the decode finds its place (40_ecc.md R133). -/
theorem synAt_decode {b k : Nat} (hb : b < 256) (hk : k < 8) :
    synWeight (synAt b k) = 11 ∧ synErrorByte (synAt b k) = b ∧ synErrorBit (synAt b k) = k := by
  have hrow := synAt_row (b := b) hk
  have hr : ∀ b' : Byte,
      let b := b'.toNat
      let r : BitVec 16 := BitVec.ofNat 16 (natOfBits ((List.range 8).flatMap fun j => [!b.testBit j, b.testBit j]))
      popcnt (r.extractLsb' 0 8) + popcnt (r.extractLsb' 8 8) = 8 ∧
        natOfBits ((List.range 8).map fun j => r.getLsbD (2 * j + 1)) = b := by decide
  obtain ⟨h1, h2⟩ := hr (BitVec.ofNat 8 b)
  rw [BitVec.toNat_ofNat, Nat.mod_eq_of_lt (show b < 2 ^ 8 by omega), ← hrow] at h1 h2
  obtain ⟨h3, h4⟩ := synAt_column b hk
  have ha : ((synAt b k).b ++ (synAt b k).a : BitVec 16).extractLsb' 0 8 = (synAt b k).a := by
    apply BitVec.eq_of_getLsbD_eq
    intro i hi
    simp only [BitVec.getLsbD_extractLsb', BitVec.getLsbD_append]
    simp [show i < 8 from hi]
  have hb : ((synAt b k).b ++ (synAt b k).a : BitVec 16).extractLsb' 8 8 = (synAt b k).b := by
    apply BitVec.eq_of_getLsbD_eq
    intro i hi
    simp only [BitVec.getLsbD_extractLsb', BitVec.getLsbD_append]
    simp [show i < 8 from hi]
  rw [ha, hb] at h1
  exact ⟨by rw [synWeight, h3]; omega, h2, h4⟩

end Sys2Proof.Machine
end

