-- ==== Sys2Proof/Laws/Memory.lean ====
section
/-! SUPPORT. Reading after writing, and the canonical form: what every memory operation does and keeps. -/

namespace Sys2Proof.Machine

/-! ## Lists of cells -/

theorem lookupCell_blank (l : List Host.Cell) (a : Nat) (h : ∀ c ∈ l, a < c.1) : lookupCell l a = Memory.blank := by
  induction l with
  | nil => rfl
  | cons c t ih =>
    have hc := h c (by simp)
    rw [lookupCell, if_neg (by omega), ih fun d hd => h d (by simp [hd])]

theorem lookupCell_storeCell_ne (l : List Host.Cell) (a b : Nat) (v : Byte) (h : b ≠ a) :
    lookupCell (storeCell l a v) b = lookupCell l b := by
  induction l with
  | nil => rw [storeCell]; split <;> simp [lookupCell, h.symm]
  | cons c t ih =>
    have h' : a ≠ b := h.symm
    rw [storeCell]
    repeat' split
    all_goals simp_all [lookupCell]

theorem lookupCell_storeCell_same (l : List Host.Cell) (a : Nat) (v : Byte)
    (h : l.Pairwise fun x y => x.1 < y.1) : lookupCell (storeCell l a v) a = v := by
  induction l with
  | nil => rw [storeCell]; split <;> simp_all [lookupCell]
  | cons c t ih =>
    obtain ⟨hc, ht⟩ := List.pairwise_cons.1 h
    rw [storeCell]
    split
    · rw [lookupCell, if_neg (by omega), ih ht]
    · split
      · split
        · rename_i h1 h2; rw [lookupCell_blank _ _ fun d hd => h1 ▸ hc d hd]; exact h2.symm
        · simp [lookupCell]
      · split
        · rename_i h1 h2
          have : a < c.1 := by omega
          rw [lookupCell_blank]; · exact h2.symm
          intro d hd
          rcases List.mem_cons.1 hd with rfl | hd
          · exact this
          · exact lt_trans this (hc d hd)
        · simp [lookupCell]

theorem mem_storeCell (l : List Host.Cell) (a : Nat) (v : Byte) (c : Host.Cell) (h : c ∈ storeCell l a v) :
    c ∈ l ∨ c = (a, v) ∧ v ≠ Memory.blank := by
  induction l with
  | nil => rw [storeCell] at h; split at h <;> simp_all
  | cons d t ih =>
    rw [storeCell] at h
    repeat' split at h
    all_goals simp only [List.mem_cons] at h ⊢
    all_goals tauto

theorem storeCell_pairwise (l : List Host.Cell) (a : Nat) (v : Byte) (h : l.Pairwise fun x y => x.1 < y.1) :
    (storeCell l a v).Pairwise fun x y => x.1 < y.1 := by
  induction l with
  | nil => rw [storeCell]; split <;> simp
  | cons c t ih =>
    obtain ⟨hc, ht⟩ := List.pairwise_cons.1 h
    rw [storeCell]
    split
    · refine List.pairwise_cons.2 ⟨fun d hd => ?_, ih ht⟩
      rcases mem_storeCell _ _ _ _ hd with hd | ⟨rfl, -⟩
      · exact hc d hd
      · assumption
    · split
      · split
        · exact ht
        · rename_i h1 _
          refine List.pairwise_cons.2 ⟨fun d hd => ?_, ht⟩
          have := hc d hd; show a < d.1; omega
      · split
        · exact h
        · refine List.pairwise_cons.2 ⟨fun d hd => ?_, h⟩
          rcases List.mem_cons.1 hd with hd | hd
          · show a < d.1; rw [hd]; omega
          · have := hc d hd; show a < d.1; omega

/-! ## The canonical form -/

theorem Memory.wf_write {m : Memory} (h : m.wf) (a : Nat) (v : Byte) : (m.write a v).wf := by
  refine ⟨storeCell_pairwise _ _ _ h.1, fun c hc => ?_⟩
  rcases mem_storeCell _ _ _ _ hc with hc | ⟨rfl, hv⟩
  · exact h.2 c hc
  · exact hv

theorem Memory.wf_empty : (⟨[]⟩ : Memory).wf := ⟨List.Pairwise.nil, fun _ hc => nomatch hc⟩

theorem Memory.wf_writeBytes {m : Memory} (h : m.wf) (base : Nat) (l : List Byte) : (m.writeBytes base l).wf := by
  induction l generalizing m base with
  | nil => exact h
  | cons v t ih => exact ih (Memory.wf_write h _ _) _

theorem Memory.wf_scatter {m : Memory} (h : m.wf) (l : List (Nat × Byte)) : (m.scatter l).wf := by
  induction l generalizing m with
  | nil => exact h
  | cons p t ih => exact ih (Memory.wf_write h _ _)

theorem Memory.wf_clearRange {m : Memory} (h : m.wf) (lo hi : Nat) : (m.clearRange lo hi).wf :=
  ⟨h.1.filter _, fun c hc => h.2 c (List.mem_filter.1 hc).1⟩

theorem programCells_wf {m : Memory} (h : m.wf) (base : Nat) (l : List Byte) : (programCells m base l).wf := by
  induction l generalizing m base with
  | nil => exact h
  | cons v t ih => exact ih (Memory.wf_write h _ _) _

/-! ## Reading after writing -/

@[simp] theorem Memory.read_empty (a : Nat) : (⟨[]⟩ : Memory).read a = Memory.blank := rfl

theorem Memory.read_write_same {m : Memory} (h : m.wf) (a : Nat) (v : Byte) : (m.write a v).read a = v :=
  lookupCell_storeCell_same _ _ _ h.1

theorem Memory.read_write_ne (m : Memory) (a b : Nat) (v : Byte) (h : b ≠ a) : (m.write a v).read b = m.read b :=
  lookupCell_storeCell_ne _ _ _ _ h

theorem Memory.read_write {m : Memory} (h : m.wf) (a b : Nat) (v : Byte) :
    (m.write a v).read b = if b = a then v else m.read b := by
  split
  · subst b; exact read_write_same h _ _
  · exact read_write_ne _ _ _ _ ‹_›

theorem Memory.read_writeBytes_outside (m : Memory) (base b : Nat) (l : List Byte)
    (h : b < base ∨ base + l.length ≤ b) : (m.writeBytes base l).read b = m.read b := by
  induction l generalizing m base with
  | nil => rfl
  | cons v t ih =>
    rw [List.length_cons] at h
    rw [writeBytes, ih _ _ (by omega), read_write_ne _ _ _ _ (by omega)]

theorem Memory.read_writeBytes_inside {m : Memory} (h : m.wf) (base i : Nat) (l : List Byte) (hi : i < l.length) :
    (m.writeBytes base l).read (base + i) = l[i] := by
  induction l generalizing m base i with
  | nil => simp at hi
  | cons v t ih =>
    rw [writeBytes]
    cases i with
    | zero =>
      rw [read_writeBytes_outside _ _ _ _ (by omega)]
      simpa using read_write_same h base v
    | succ i =>
      have := ih (Memory.wf_write h base v) (base + 1) i (by simpa using hi)
      rw [show base + (i + 1) = base + 1 + i by omega, this]; rfl

theorem Memory.read_writeBytes {m : Memory} (h : m.wf) (base b : Nat) (l : List Byte) :
    (m.writeBytes base l).read b = if base ≤ b ∧ b < base + l.length then l.getD (b - base) 0 else m.read b := by
  split
  · rename_i hb
    obtain ⟨i, rfl⟩ := Nat.exists_eq_add_of_le hb.1
    rw [read_writeBytes_inside h _ _ _ (by omega)]
    simp [List.getD_eq_getElem?_getD, List.getElem?_eq_getElem (show i < l.length by omega)]
  · exact read_writeBytes_outside _ _ _ _ (by omega)

theorem Memory.read_scatter_outside (m : Memory) (l : List (Nat × Byte)) (b : Nat) (h : ∀ p ∈ l, p.1 ≠ b) :
    (m.scatter l).read b = m.read b := by
  induction l generalizing m with
  | nil => rfl
  | cons p t ih =>
    rw [scatter, ih _ fun q hq => h q (by simp [hq]), read_write_ne _ _ _ _ (h p (by simp)).symm]

theorem Memory.read_scatter_inside {m : Memory} (h : m.wf) (l : List (Nat × Byte)) (hn : (l.map Prod.fst).Nodup)
    (p : Nat × Byte) (hp : p ∈ l) : (m.scatter l).read p.1 = p.2 := by
  induction l generalizing m with
  | nil => simp at hp
  | cons q t ih =>
    rw [List.map_cons, List.nodup_cons] at hn
    rw [scatter]
    rcases List.mem_cons.1 hp with rfl | hp
    · rw [read_scatter_outside _ _ _ fun r hr he => hn.1 (by rw [← he]; exact List.mem_map_of_mem hr)]
      exact read_write_same h _ _
    · exact ih (Memory.wf_write h _ _) hn.2 hp

theorem lookupCell_filter (l : List Host.Cell) (p : Nat → Bool) (a : Nat) :
    lookupCell (l.filter fun c => p c.1) a = if p a then lookupCell l a else Memory.blank := by
  induction l with
  | nil => simp [lookupCell]
  | cons c t ih =>
    rw [List.filter_cons, lookupCell]
    by_cases hc : c.1 = a
    · subst hc
      cases hp : p c.1 <;> simp_all [lookupCell]
    · cases hp : p c.1 <;> simp_all [lookupCell]

theorem Memory.read_clearRange (m : Memory) (lo hi a : Nat) :
    (m.clearRange lo hi).read a = if lo ≤ a ∧ a < hi then Memory.blank else m.read a := by
  have := lookupCell_filter m.cells (fun k => decide (k < lo) || decide (hi ≤ k)) a
  rw [Memory.read, Memory.clearRange, this]
  by_cases h : lo ≤ a ∧ a < hi
  · rw [if_pos h, if_neg (by simp; omega)]
  · rw [if_neg h, if_pos (by simp; omega)]; rfl

theorem read_programCells_outside (m : Memory) (base b : Nat) (l : List Byte)
    (h : b < base ∨ base + l.length ≤ b) : (programCells m base l).read b = m.read b := by
  induction l generalizing m base with
  | nil => rfl
  | cons v t ih =>
    rw [List.length_cons] at h
    rw [programCells, ih _ _ (by omega), Memory.read_write_ne _ _ _ _ (by omega)]

/-- A program leaves `old & new` in every byte it addresses (20_memory.md R66 (b)). -/
theorem read_programCells_inside {m : Memory} (h : m.wf) (base i : Nat) (l : List Byte) (hi : i < l.length) :
    (programCells m base l).read (base + i) = m.read (base + i) &&& l[i] := by
  induction l generalizing m base i with
  | nil => simp at hi
  | cons v t ih =>
    rw [programCells]
    cases i with
    | zero =>
      rw [read_programCells_outside _ _ _ _ (by omega)]
      simpa using Memory.read_write_same h base _
    | succ i =>
      have := ih (Memory.wf_write h base (m.read base &&& v)) (base + 1) i (by simpa using hi)
      rw [show base + (i + 1) = base + 1 + i by omega, this, Memory.read_write_ne _ _ _ _ (by omega)]
      rfl

/-! ## Byte strings -/

@[simp] theorem Memory.length_readBytes (m : Memory) (base n : Nat) : (m.readBytes base n).length = n := by
  simp [Memory.readBytes]

@[simp] theorem Memory.getElem_readBytes (m : Memory) (base n i : Nat) (h : i < (m.readBytes base n).length) :
    (m.readBytes base n)[i] = m.read (base + i) := by
  simp [Memory.readBytes]

/-! ## Equal reads are equal memories -/

theorem Memory.readBytes_congr {m n : Memory} {base k : Nat} (h : ∀ i, i < k → m.read (base + i) = n.read (base + i)) :
    m.readBytes base k = n.readBytes base k :=
  List.map_congr_left fun i hi => h i (List.mem_range.1 hi)

/-- What was written is read back. -/
theorem Memory.readBytes_writeBytes {m : Memory} (h : m.wf) (base : Nat) (l : List Byte) {n : Nat} (hn : l.length = n) :
    (m.writeBytes base l).readBytes base n = l := by
  apply List.ext_getElem (by simp [hn])
  intro i h1 h2
  rw [Memory.getElem_readBytes, Memory.read_writeBytes_inside h _ _ _ h2]

theorem lookupCell_mem (l : List Host.Cell) (h : l.Pairwise fun x y => x.1 < y.1) (c : Host.Cell) (hc : c ∈ l) :
    lookupCell l c.1 = c.2 := by
  induction l with
  | nil => simp at hc
  | cons d t ih =>
    obtain ⟨hd, ht⟩ := List.pairwise_cons.1 h
    rcases List.mem_cons.1 hc with rfl | hc
    · simp [lookupCell]
    · rw [lookupCell, if_neg (ne_of_lt (hd c hc)), ih ht hc]

theorem lookupCell_ne_blank (l : List Host.Cell) (a : Nat) (h : lookupCell l a ≠ Memory.blank) :
    (a, lookupCell l a) ∈ l := by
  induction l with
  | nil => simp [lookupCell] at h
  | cons c t ih =>
    obtain ⟨k, w⟩ := c
    rw [lookupCell] at h ⊢
    split
    · rename_i hk; subst hk; simp
    · rename_i hk; rw [if_neg hk] at h; simp [ih h]

/-- In canonical form, memories that read alike are one. -/
theorem Memory.ext_read {m n : Memory} (hm : m.wf) (hn : n.wf) (h : ∀ a, m.read a = n.read a) : m = n := by
  obtain ⟨l⟩ := m
  obtain ⟨k⟩ := n
  have sub : ∀ (x y : List Host.Cell), Memory.wf ⟨x⟩ → (∀ a, lookupCell x a = lookupCell y a) → ∀ c ∈ x, c ∈ y := by
    intro x y hx hxy c hc
    have h1 := lookupCell_mem x hx.1 c hc
    have h2 := lookupCell_ne_blank y c.1 (by rw [← hxy, h1]; exact hx.2 c hc)
    rw [← hxy, h1] at h2
    exact h2
  have nd : ∀ x : List Host.Cell, Memory.wf ⟨x⟩ → x.Nodup := fun x hx =>
    hx.1.imp fun {a b} hab he => by subst he; exact lt_irrefl _ hab
  have hp : l.Perm k := (List.perm_ext_iff_of_nodup (nd l hm) (nd k hn)).2 fun c =>
    ⟨sub l k hm h c, sub k l hn (fun a => (h a).symm) c⟩
  congr 1
  exact hp.eq_of_pairwise (le := fun x y => x.1 < y.1)
    (fun a b _ _ h1 h2 => absurd h1 (by omega)) hm.1 hn.1

end Sys2Proof.Machine
end

