-- ==== Sys2Proof/Laws/Bus.lean ====
section
/-! SUPPORT. What the bus primitives do, said once: `Bus.Ran events b b'` names the events that were emitted, the
chip-select they leave, and what they never touch. -/

namespace Sys2Proof.Machine

/-! ## What a chip never changes -/

/-- A chip without what its commands change. -/
def Chip.fixed (ch : Chip) : Chip :=
  { ch with
    cells := ⟨[]⟩, busy := false, failed := false, feats := [], cmd := none, addr := [], area := 0, dataIn := []
    dataOut := .none }

theorem Chip.stuck_of_fixed {x y : Chip} (h : x.fixed = y.fixed) : x.stuck = y.stuck := by
  have e : x.fixed.stuck = y.fixed.stuck := congrArg Chip.stuck h
  exact e

@[simp] theorem Chip.newCommand_fixed (ch : Chip) (c : Cmd) : (ch.newCommand c).fixed = ch.fixed := rfl
@[simp] theorem Chip.newCommand_cells (ch : Chip) (c : Cmd) : (ch.newCommand c).cells = ch.cells := rfl
@[simp] theorem Chip.startRead_fixed (ch : Chip) : ch.startRead.fixed = ch.fixed := rfl
@[simp] theorem Chip.startRead_cells (ch : Chip) : ch.startRead.cells = ch.cells := rfl

@[simp] theorem Chip.program_fixed (ch : Chip) (n : Nat) : (ch.program n).fixed = ch.fixed := by
  unfold Chip.program
  repeat' split
  all_goals rfl

@[simp] theorem Chip.erase_fixed (ch : Chip) (n : Nat) : (ch.erase n).fixed = ch.fixed := by
  unfold Chip.erase
  repeat' split
  all_goals rfl

theorem Chip.program_wf {ch : Chip} (h : ch.cells.wf) (n : Nat) : (ch.program n).cells.wf := by
  unfold Chip.program
  repeat' split
  · exact Memory.wf_writeBytes h _ _
  · exact programCells_wf h _ _
  all_goals exact h

theorem Chip.erase_wf {ch : Chip} (h : ch.cells.wf) (n : Nat) : (ch.erase n).cells.wf := by
  unfold Chip.erase
  repeat' split
  · exact Memory.wf_writeBytes h _ _
  · exact Memory.wf_clearRange h _ _
  all_goals exact h

@[simp] theorem Chip.latchCommand_fixed (ch : Chip) (n : Nat) (c : Cmd) :
    (ch.latchCommand n c).fixed = ch.fixed := by
  cases c
  all_goals first | rfl | exact Chip.program_fixed _ _ | exact Chip.erase_fixed _ _ | skip
  simp only [Chip.latchCommand]
  split_ifs <;> rfl

/-- A command that changes no flash array: every one but the two confirms. -/
def quietCmd : Cmd → Bool
  | .pageprog | .erase2 => false
  | .read0 | .read1 | .readstart | .readoob | .erase1 | .status | .seqin | .readid | .param | .getfeat | .setfeat | .reset
  | .other _ => true

theorem quietCmd_of_ne {c : Cmd} (hp : c ≠ .pageprog) (he : c ≠ .erase2) : quietCmd c = true := by
  cases c <;> first | rfl | contradiction

theorem Chip.latchCommand_cells (ch : Chip) (n : Nat) {c : Cmd} (hq : quietCmd c = true) :
    (ch.latchCommand n c).cells = ch.cells := by
  cases c
  all_goals first | rfl | contradiction | skip
  simp only [Chip.latchCommand]
  split_ifs <;> rfl

theorem Chip.latchCommand_wf {ch : Chip} (h : ch.cells.wf) (n : Nat) (c : Cmd) : (ch.latchCommand n c).cells.wf := by
  by_cases hq : quietCmd c = true
  · rw [Chip.latchCommand_cells _ _ hq]; exact h
  · cases c
    all_goals first | exact Chip.program_wf h n | exact Chip.erase_wf h n | exact absurd rfl hq

@[simp] theorem Chip.singleByteAddress_fixed (ch : Chip) (b : Byte) : (ch.singleByteAddress b).fixed = ch.fixed := by
  unfold Chip.singleByteAddress
  repeat' split
  all_goals rfl

@[simp] theorem Chip.singleByteAddress_cells (ch : Chip) (b : Byte) : (ch.singleByteAddress b).cells = ch.cells := by
  unfold Chip.singleByteAddress
  repeat' split
  all_goals rfl

@[simp] theorem Chip.latchAddress_fixed (ch : Chip) (b : Byte) : (ch.latchAddress b).fixed = ch.fixed := by
  simp only [Chip.latchAddress]
  repeat' split
  · rw [Chip.singleByteAddress_fixed]; rfl
  all_goals rfl

@[simp] theorem Chip.latchAddress_cells (ch : Chip) (b : Byte) : (ch.latchAddress b).cells = ch.cells := by
  simp only [Chip.latchAddress]
  repeat' split
  · rw [Chip.singleByteAddress_cells]
  all_goals rfl

@[simp] theorem Chip.writeData_fixed (ch : Chip) (l : List Byte) : (ch.writeData l).fixed = ch.fixed := by
  unfold Chip.writeData
  dsimp only
  repeat' split
  all_goals rfl

@[simp] theorem Chip.writeData_cells (ch : Chip) (l : List Byte) : (ch.writeData l).cells = ch.cells := by
  unfold Chip.writeData
  dsimp only
  repeat' split
  all_goals rfl

/-! ## A run of bus events -/

/-- The chip-select after an event. -/
def BusEvent.pick (x : Option Byte) : BusEvent → Option Byte
  | .sel c => some c
  | _ => x

/-- No chip-select. -/
abbrev BusEvent.stays (e : BusEvent) : Prop := ∀ x, BusEvent.pick x e = x

theorem foldl_pick {l : List BusEvent} (h : ∀ e ∈ l, e.stays) (x : Option Byte) : l.foldl BusEvent.pick x = x := by
  induction l with
  | nil => rfl
  | cons e l ih =>
    rw [List.foldl_cons, h e (by simp)]
    exact ih fun e he => h e (by simp [he])

/-- Every cell list of the chips on the bus is in canonical form. -/
abbrev Bus.wf (b : Bus) : Prop := ∀ ch ∈ b.chips, ch.cells.wf

/-- From `b` to `b'` the bus emitted `events`: what follows for the chip-select, the chips and their arrays. `quiet` says
that no confirm was among the commands. -/
structure Bus.Ran (quiet : Bool) (events : List BusEvent) (b b' : Bus) : Prop where
  trace : b'.trace = events.reverse ++ b.trace
  selected : b'.selected = events.foldl BusEvent.pick b.selected
  floatReady : b'.floatReady = b.floatReady
  fixed : b'.chips.map Chip.fixed = b.chips.map Chip.fixed
  cells : quiet = true → b'.chips.map Chip.cells = b.chips.map Chip.cells
  wf : b.wf → b'.wf
  others : (∀ e ∈ events, e.stays) → ∀ d, (∀ c, b.selected = some c → c.toNat ≠ d) → b'.chips[d]? = b.chips[d]?

theorem Bus.Ran.refl (b : Bus) : Bus.Ran true [] b b := ⟨rfl, rfl, rfl, rfl, fun _ => rfl, id, fun _ _ _ => rfl⟩

theorem Bus.Ran.trans {q q' : Bool} {l l' : List BusEvent} {a b c : Bus} (h : Bus.Ran q l a b)
    (h' : Bus.Ran q' l' b c) : Bus.Ran (q && q') (l ++ l') a c where
  trace := by simp [h'.trace, h.trace]
  selected := by simp [h'.selected, h.selected]
  floatReady := h'.floatReady.trans h.floatReady
  fixed := h'.fixed.trans h.fixed
  cells hq := (h'.cells (Bool.and_eq_true_iff.1 hq).2).trans (h.cells (Bool.and_eq_true_iff.1 hq).1)
  wf := h'.wf ∘ h.wf
  others hl d hd := by
    have hs : b.selected = a.selected := h.selected.trans (foldl_pick (fun e he => hl e (by simp [he])) _)
    rw [h'.others (fun e he => hl e (by simp [he])) d (hs ▸ hd), h.others (fun e he => hl e (by simp [he])) d hd]

/-- A run that is known to be quiet may be taken for one that is not. -/
theorem Bus.Ran.weaken {q q' : Bool} {l : List BusEvent} {b b' : Bus} (h : Bus.Ran q l b b') (hq : q' = true → q = true) :
    Bus.Ran q' l b b' :=
  ⟨h.trace, h.selected, h.floatReady, h.fixed, fun e => h.cells (hq e), h.wf, h.others⟩

theorem Bus.Ran.flash {l : List BusEvent} {b b' : Bus} (h : Bus.Ran true l b b') (c a : Nat) :
    b'.flash c a = b.flash c a := by
  have e : (b'.chips.map Chip.cells)[c]? = (b.chips.map Chip.cells)[c]? := by rw [h.cells rfl]
  simp only [List.getElem?_map] at e
  unfold Bus.flash
  cases h1 : b'.chips[c]? <;> cases h2 : b.chips[c]? <;> simp_all

/-- Whether `Rdy()` never returns 1 depends on the chip-select and on what never changes. -/
theorem Bus.neverReady_congr {b b' : Bus} (hs : b'.selected = b.selected) (hr : b'.floatReady = b.floatReady)
    (hf : b'.chips.map Chip.fixed = b.chips.map Chip.fixed) : b'.neverReady = b.neverReady := by
  have e (c : Nat) : (b'.chips.map Chip.fixed)[c]? = (b.chips.map Chip.fixed)[c]? := by rw [hf]
  simp only [List.getElem?_map] at e
  unfold Bus.neverReady Bus.chip?
  rw [hs, hr]
  cases b.selected with
  | none => rfl
  | some c =>
    have := e c.toNat
    cases h1 : b'.chips[c.toNat]? <;> cases h2 : b.chips[c.toNat]? <;> simp_all
    exact Chip.stuck_of_fixed this

theorem Bus.Ran.neverReady {q : Bool} {l : List BusEvent} {b b' : Bus} (h : Bus.Ran q l b b')
    (hs : l.foldl BusEvent.pick b.selected = b.selected) : b'.neverReady = b.neverReady :=
  Bus.neverReady_congr (h.selected.trans hs) h.floatReady h.fixed

/-! ## The primitives -/

@[simp] theorem Bus.onChip_trace (b : Bus) (f : Chip → Chip) : (b.onChip f).trace = b.trace := by
  unfold Bus.onChip; split <;> rfl
@[simp] theorem Bus.onChip_selected (b : Bus) (f : Chip → Chip) : (b.onChip f).selected = b.selected := by
  unfold Bus.onChip; split <;> simp_all
@[simp] theorem Bus.onChip_floatReady (b : Bus) (f : Chip → Chip) : (b.onChip f).floatReady = b.floatReady := by
  unfold Bus.onChip; split <;> rfl
@[simp] theorem Bus.onChip_floatByte (b : Bus) (f : Chip → Chip) : (b.onChip f).floatByte = b.floatByte := by
  unfold Bus.onChip; split <;> rfl
@[simp] theorem Bus.onChip_fresh (b : Bus) (f : Chip → Chip) : (b.onChip f).fresh = b.fresh := by
  unfold Bus.onChip; split <;> rfl

theorem map_modify_eq {α β : Type} (g : α → β) (f : α → α) (h : ∀ x, g (f x) = g x) (l : List α) (i : Nat) :
    (l.modify i f).map g = l.map g := by
  apply List.ext_getElem? ; intro j
  simp only [List.getElem?_map, List.getElem?_modify]
  split <;> cases l[j]? <;> simp [h]

theorem Bus.onChip_map {β : Type} (g : Chip → β) {f : Chip → Chip} (h : ∀ x, g (f x) = g x) (b : Bus) :
    (b.onChip f).chips.map g = b.chips.map g := by
  unfold Bus.onChip; split
  · rfl
  · exact map_modify_eq g f h _ _

theorem Bus.onChip_wf {f : Chip → Chip} (h : ∀ x : Chip, x.cells.wf → (f x).cells.wf) {b : Bus} (hb : b.wf) :
    (b.onChip f).wf := by
  intro ch hch
  unfold Bus.onChip at hch
  split at hch
  · exact hb ch hch
  · rename_i c _
    obtain ⟨j, hj, rfl⟩ := List.getElem_of_mem hch
    rw [List.getElem_modify]
    have hj' : j < b.chips.length := by simpa using hj
    split
    · exact h _ (hb _ (List.getElem_mem hj'))
    · exact hb _ (List.getElem_mem hj')

/-- The chips that are not selected stay as they are. -/
theorem Bus.onChip_others (b : Bus) (f : Chip → Chip) (d : Nat) (hd : ∀ c, b.selected = some c → c.toNat ≠ d) :
    (b.onChip f).chips[d]? = b.chips[d]? := by
  unfold Bus.onChip
  split
  · rfl
  · rename_i c hc
    simp [hd c hc]

/-- What the selected chip becomes. -/
theorem Bus.chip?_onChip (b : Bus) (f : Chip → Chip) : (b.onChip f).chip? = b.chip?.map f := by
  unfold Bus.chip?
  rw [Bus.onChip_selected]
  unfold Bus.onChip
  cases h : b.selected with
  | none => rfl
  | some c => simp [List.getElem?_modify]

@[simp] theorem Bus.chip?_log (b : Bus) (e : BusEvent) : (b.log e).chip? = b.chip? := rfl
@[simp] theorem Bus.chip?_draw (b : Bus) (k : Nat) : (b.draw k).chip? = b.chip? := rfl

/-- A chip reacts and one event is logged. -/
theorem Bus.ran_onChip {q : Bool} {f : Chip → Chip} {e : BusEvent} (b : Bus) (hp : ∀ x, BusEvent.pick x e = x)
    (hf : ∀ x : Chip, (f x).fixed = x.fixed) (hc : q = true → ∀ x : Chip, (f x).cells = x.cells)
    (hw : ∀ x : Chip, x.cells.wf → (f x).cells.wf) (k : Nat) : Bus.Ran q [e] b (((b.onChip f).draw k).log e) where
  trace := by simp [Bus.log, Bus.draw]
  selected := by simp [Bus.log, Bus.draw, hp]
  floatReady := by simp [Bus.log, Bus.draw]
  fixed := Bus.onChip_map _ hf b
  cells hq := Bus.onChip_map _ (hc hq) b
  wf := Bus.onChip_wf hw
  others _ d hd := Bus.onChip_others b f d hd

theorem Bus.ran_log {e : BusEvent} (b : Bus) (hp : ∀ x, BusEvent.pick x e = x) : Bus.Ran true [e] b (b.log e) :=
  ⟨rfl, (hp _).symm, rfl, rfl, fun _ => rfl, id, fun _ _ _ => rfl⟩

theorem Bus.ran_draw (b : Bus) (k : Nat) : Bus.Ran true [] b (b.draw k) :=
  ⟨rfl, rfl, rfl, rfl, fun _ => rfl, id, fun _ _ _ => rfl⟩

theorem Bus.ran_sel (b : Bus) (c : Byte) : Bus.Ran true [.sel c] b (b.sel c) :=
  ⟨rfl, rfl, rfl, rfl, fun _ => rfl, id, fun _ _ _ => rfl⟩

theorem Bus.ran_cle (t : CmdBytes) (b : Bus) (c : Cmd) : Bus.Ran (quietCmd c) [.cle (t.byte c)] b (b.cle t c) :=
  Bus.ran_onChip b (fun _ => rfl) (fun x => Chip.latchCommand_fixed x _ _) (fun h x => Chip.latchCommand_cells x _ h)
    (fun x h => Chip.latchCommand_wf h _ _) _

theorem Bus.ran_ale (b : Bus) (a : Byte) : Bus.Ran true [.ale a] b (b.ale a) :=
  Bus.ran_onChip (q := true) b (fun _ => rfl) (fun x => Chip.latchAddress_fixed x _) (fun _ x => Chip.latchAddress_cells x _)
    (fun x h => by rw [Chip.latchAddress_cells]; exact h) 0

theorem Bus.ran_idleLatch (b : Bus) : Bus.Ran true [.idle] b b.idleLatch := Bus.ran_log b fun _ => rfl

theorem Bus.ran_ales (l : List Byte) (b : Bus) : Bus.Ran true (l.map .ale) b (b.ales l) := by
  induction l generalizing b with
  | nil => exact Bus.Ran.refl b
  | cons a l ih => exact (Bus.ran_ale b a).trans (ih (b.ale a))

theorem Bus.ran_wrBuf (b : Bus) (l : List Byte) : Bus.Ran true [.wrBuf l] b (b.wrBuf l) :=
  Bus.ran_onChip b (fun _ => rfl) (fun x => Chip.writeData_fixed x _) (fun _ x => Chip.writeData_cells x _)
    (fun x h => by rw [Chip.writeData_cells]; exact h) 0

theorem Bus.ran_popByte (b : Bus) : Bus.Ran true [] b b.popByte.2 := by
  have hd : Bus.Ran true [] b (b.draw 1) := Bus.ran_draw b 1
  unfold Bus.popByte
  cases b.chip? with
  | none =>
    dsimp only
    split
    · exact Bus.Ran.refl b
    · exact hd
  | some ch =>
    dsimp only
    split
    · exact hd
    · split
      · rename_i l _
        exact ⟨by simp, by simp, by simp, Bus.onChip_map Chip.fixed (f := fun ch => { ch with dataOut := .bytes l })
            (fun _ => rfl) b, fun _ => Bus.onChip_map Chip.cells (f := fun ch => { ch with dataOut := .bytes l })
            (fun _ => rfl) b,
          fun hb => Bus.onChip_wf (f := fun ch => { ch with dataOut := .bytes l }) (fun _ h => h) hb,
          fun _ d hd => Bus.onChip_others b _ d hd⟩
      · exact Bus.Ran.refl b
      · exact hd
      · exact hd

theorem Bus.ran_popBytes (n : Nat) (b : Bus) : Bus.Ran true [] b (Bus.popBytes n b).2 := by
  induction n generalizing b with
  | zero => exact Bus.Ran.refl b
  | succ n ih => exact (Bus.ran_popByte b).trans (ih _)

@[simp] theorem Bus.length_popBytes (n : Nat) (b : Bus) : (Bus.popBytes n b).1.length = n := by
  induction n generalizing b with
  | zero => rfl
  | succ n ih => simp [Bus.popBytes, ih]

theorem Bus.ran_rd8 (b : Bus) : Bus.Ran true [.rd8 b.rd8.1] b b.rd8.2 :=
  (Bus.ran_popByte b).trans (Bus.ran_log _ fun _ => rfl)

theorem Bus.ran_rd8s (n : Nat) (b : Bus) : Bus.Ran true ((b.rd8s n).1.map .rd8) b (b.rd8s n).2 := by
  induction n generalizing b with
  | zero => exact Bus.Ran.refl b
  | succ n ih => exact (Bus.ran_rd8 b).trans (ih _)

@[simp] theorem Bus.length_rd8s (n : Nat) (b : Bus) : (b.rd8s n).1.length = n := by
  induction n generalizing b with
  | zero => rfl
  | succ n ih => simp [Bus.rd8s, ih]

theorem Bus.ran_rd16 (w : Bool) (b : Bus) : Bus.Ran true [.rd16 (b.rd16 w).1] b (b.rd16 w).2 := by
  unfold Bus.rd16
  cases w
  · exact ((Bus.ran_popBytes 2 b).trans (Bus.ran_draw _ 1)).trans (Bus.ran_log _ fun _ => rfl)
  · exact (Bus.ran_popBytes 2 b).trans (Bus.ran_log _ fun _ => rfl)

theorem Bus.ran_rdBuf (n : Nat) (b : Bus) : Bus.Ran true [.rdBuf (b.rdBuf n).1] b (b.rdBuf n).2 :=
  (Bus.ran_popBytes n b).trans (Bus.ran_log _ fun _ => rfl)

@[simp] theorem Bus.length_rdBuf (n : Nat) (b : Bus) : (b.rdBuf n).1.length = n := Bus.length_popBytes n b

/-- How many polls answer 0 in a busy-wait that ends. -/
def Bus.polls (b : Bus) : Nat :=
  match b.chip? with
  | some ch => if ch.busy then Config.busyPolls b.fresh else 0
  | none => 0

theorem Bus.ran_waited (b : Bus) : Bus.Ran true [.wait b.polls] b b.waited := by
  have hl : Bus.Ran true [.wait 0] b (b.log (.wait 0)) := Bus.ran_log b fun _ => rfl
  unfold Bus.waited Bus.polls
  cases b.chip? with
  | none => exact hl
  | some ch =>
    cases hb : ch.busy
    · simpa [hb] using hl
    · simpa [hb] using Bus.ran_onChip (e := .wait (Config.busyPolls b.fresh)) (f := fun ch => { ch with busy := false })
        b (fun _ => rfl) (fun _ => rfl) (fun _ _ => rfl) (fun _ h => h) 1

/-- After a busy-wait the selected chip is not busy, and otherwise as it was. -/
theorem Bus.chip?_waited (b : Bus) : b.waited.chip? = b.chip?.map fun ch => { ch with busy := false } := by
  unfold Bus.waited
  cases h : b.chip? with
  | none => simp [h]
  | some ch =>
    obtain hb | hb : ch.busy = true ∨ ch.busy = false := by cases ch.busy <;> simp
    · simp only [hb, if_true, Bus.chip?_log, Bus.chip?_draw, Bus.chip?_onChip, h]
    · simp only [hb, Bool.false_eq_true, if_false, Bus.chip?_log, h, Option.map_some]
      rw [← hb]

/-! ## What the selected chip becomes -/

theorem Bus.chip?_cle (t : CmdBytes) (b : Bus) (c : Cmd) : (b.cle t c).chip? = b.chip?.map (Chip.latchCommand b.fresh c) := by
  simp [Bus.cle, Bus.chip?_onChip]

theorem Bus.chip?_ale (b : Bus) (a : Byte) : (b.ale a).chip? = b.chip?.map (Chip.latchAddress a) := by
  simp [Bus.ale, Bus.chip?_onChip]

theorem Bus.chip?_ales (l : List Byte) (b : Bus) :
    (b.ales l).chip? = b.chip?.map fun ch => l.foldl (fun ch a => ch.latchAddress a) ch := by
  induction l generalizing b with
  | nil => simp [Bus.ales]
  | cons a l ih =>
    have := ih (b.ale a)
    simp only [Bus.ales, List.foldl_cons] at this ⊢
    rw [this, Bus.chip?_ale]; cases b.chip? <;> rfl

@[simp] theorem Bus.chip?_idleLatch (b : Bus) : b.idleLatch.chip? = b.chip? := rfl

theorem Bus.chip?_wrBuf (b : Bus) (l : List Byte) : (b.wrBuf l).chip? = b.chip?.map (Chip.writeData l) := by
  simp [Bus.wrBuf, Bus.chip?_onChip]

/-- A ready chip that drives bytes gives the first of them. -/
theorem Bus.popByte_bytes {b : Bus} {ch : Chip} {v : Byte} {l : List Byte} (h : b.chip? = some ch)
    (hb : ch.busy = false) (hd : ch.dataOut = .bytes (v :: l)) :
    b.popByte.1 = v ∧ b.popByte.2.chip? = some { ch with dataOut := .bytes l } := by
  unfold Bus.popByte
  simp [h, hb, hd, Bus.chip?_onChip]

/-- A ready chip that drives at least `n` bytes gives the first `n` of them. -/
theorem Bus.popBytes_bytes (n : Nat) {b : Bus} {ch : Chip} {l : List Byte} (h : b.chip? = some ch)
    (hb : ch.busy = false) (hd : ch.dataOut = .bytes l) (hn : n ≤ l.length) :
    (Bus.popBytes n b).1 = l.take n ∧ (Bus.popBytes n b).2.chip? = some { ch with dataOut := .bytes (l.drop n) } := by
  induction n generalizing b ch l with
  | zero => simp [Bus.popBytes, h, ← hd]
  | succ n ih =>
    cases l with
    | nil => simp at hn
    | cons v l =>
      obtain ⟨h1, h2⟩ := Bus.popByte_bytes h hb hd
      obtain ⟨h3, h4⟩ := ih h2 hb rfl (by simpa using hn)
      simp [Bus.popBytes, h1, h3, h4]

/-- `n` times `Rd8()` on a ready chip that drives at least `n` bytes. -/
theorem Bus.rd8s_bytes (n : Nat) {b : Bus} {ch : Chip} {l : List Byte} (h : b.chip? = some ch)
    (hb : ch.busy = false) (hd : ch.dataOut = .bytes l) (hn : n ≤ l.length) :
    (b.rd8s n).1 = l.take n ∧ (b.rd8s n).2.chip? = some { ch with dataOut := .bytes (l.drop n) } := by
  induction n generalizing b ch l with
  | zero => simp [Bus.rd8s, h, ← hd]
  | succ n ih =>
    cases l with
    | nil => simp at hn
    | cons v l =>
      obtain ⟨h1, h2⟩ := Bus.popByte_bytes h hb hd
      obtain ⟨h3, h4⟩ := ih (b := b.rd8.2) (ch := { ch with dataOut := .bytes l }) h2 hb rfl (by simpa using hn)
      have h5 : b.rd8.1 = v := h1
      simp [Bus.rd8s, h3, h4, h5]

/-- A ready chip in its status phase drives its status byte. -/
theorem Bus.rd8_status {b : Bus} {ch : Chip} (h : b.chip? = some ch) (hb : ch.busy = false)
    (hd : ch.dataOut = .status) : b.rd8.1 = ch.statusByte := by
  simp [Bus.rd8, Bus.popByte, h, hb, hd]

theorem Bus.rd8_status_chip {b : Bus} {ch : Chip} (h : b.chip? = some ch) (hb : ch.busy = false)
    (hd : ch.dataOut = .status) : b.rd8.2.chip? = b.chip? := by
  simp [Bus.rd8, Bus.popByte, h, hb, hd]

end Sys2Proof.Machine
end

