-- ==== Sys2Proof/Laws/State.lean ====
section
/-! SUPPORT. One lemma per field per named update of the state, so that no proof unfolds a record update. -/

namespace Sys2Proof.Machine.State

variable (s : State)

/-! `setBus` -/

@[simp] theorem setBus_cw (b : Bus) : (s.setBus b).cw = s.cw := rfl
@[simp] theorem setBus_a0 (b : Bus) : (s.setBus b).a0 = s.a0 := rfl
@[simp] theorem setBus_a1 (b : Bus) : (s.setBus b).a1 = s.a1 := rfl
@[simp] theorem setBus_a2 (b : Bus) : (s.setBus b).a2 = s.a2 := rfl
@[simp] theorem setBus_a3 (b : Bus) : (s.setBus b).a3 = s.a3 := rfl
@[simp] theorem setBus_status (b : Bus) : (s.setBus b).status = s.status := rfl
@[simp] theorem setBus_res (b : Bus) : (s.setBus b).res = s.res := rfl
@[simp] theorem setBus_phase (b : Bus) : (s.setBus b).phase = s.phase := rfl
@[simp] theorem setBus_eccCa (b : Bus) : (s.setBus b).eccCa = s.eccCa := rfl
@[simp] theorem setBus_eccRd (b : Bus) : (s.setBus b).eccRd = s.eccRd := rfl
@[simp] theorem setBus_crcOut (b : Bus) : (s.setBus b).crcOut = s.crcOut := rfl
@[simp] theorem setBus_detected (b : Bus) : (s.setBus b).detected = s.detected := rfl
@[simp] theorem setBus_geo (b : Bus) : (s.setBus b).geo = s.geo := rfl
@[simp] theorem setBus_curChip (b : Bus) : (s.setBus b).curChip = s.curChip := rfl
@[simp] theorem setBus_id (b : Bus) : (s.setBus b).id = s.id := rfl
@[simp] theorem setBus_onfi (b : Bus) : (s.setBus b).onfi = s.onfi := rfl
@[simp] theorem setBus_onfiValid (b : Bus) : (s.setBus b).onfiValid = s.onfiValid := rfl
@[simp] theorem setBus_onfiStatus (b : Bus) : (s.setBus b).onfiStatus = s.onfiStatus := rfl
@[simp] theorem setBus_bbmPos (b : Bus) : (s.setBus b).bbmPos = s.bbmPos := rfl
@[simp] theorem setBus_variant (b : Bus) : (s.setBus b).variant = s.variant := rfl
@[simp] theorem setBus_eccBits512 (b : Bus) : (s.setBus b).eccBits512 = s.eccBits512 := rfl
@[simp] theorem setBus_micronEccOn (b : Bus) : (s.setBus b).micronEccOn = s.micronEccOn := rfl
@[simp] theorem setBus_conf (b : Bus) : (s.setBus b).conf = s.conf := rfl
@[simp] theorem setBus_freeTab (b : Bus) : (s.setBus b).freeTab = s.freeTab := rfl
@[simp] theorem setBus_eccTab (b : Bus) : (s.setBus b).eccTab = s.eccTab := rfl
@[simp] theorem setBus_pt (b : Bus) : (s.setBus b).pt = s.pt := rfl
@[simp] theorem setBus_lock (b : Bus) : (s.setBus b).lock = s.lock := rfl
@[simp] theorem setBus_acc (b : Bus) : (s.setBus b).acc = s.acc := rfl
@[simp] theorem setBus_crc (b : Bus) : (s.setBus b).crc = s.crc := rfl
@[simp] theorem setBus_oobs (b : Bus) : (s.setBus b).oobs = s.oobs := rfl
@[simp] theorem setBus_dbuf (b : Bus) : (s.setBus b).dbuf = s.dbuf := rfl
@[simp] theorem setBus_obuf (b : Bus) : (s.setBus b).obuf = s.obuf := rfl
@[simp] theorem setBus_bus (b : Bus) : (s.setBus b).bus = b := rfl
@[simp] theorem setBus_par (b : Bus) : (s.setBus b).par = s.par := rfl
@[simp] theorem setBus_hostIn (b : Bus) : (s.setBus b).hostIn = s.hostIn := rfl
@[simp] theorem setBus_busPort (b : Bus) : (s.setBus b).busPort = s.busPort := rfl

/-! `setRes` -/

@[simp] theorem setRes_cw (v : Addr) : (s.setRes v).cw = s.cw := rfl
@[simp] theorem setRes_a0 (v : Addr) : (s.setRes v).a0 = s.a0 := rfl
@[simp] theorem setRes_a1 (v : Addr) : (s.setRes v).a1 = s.a1 := rfl
@[simp] theorem setRes_a2 (v : Addr) : (s.setRes v).a2 = s.a2 := rfl
@[simp] theorem setRes_a3 (v : Addr) : (s.setRes v).a3 = s.a3 := rfl
@[simp] theorem setRes_status (v : Addr) : (s.setRes v).status = s.status := rfl
@[simp] theorem setRes_res (v : Addr) : (s.setRes v).res = v := rfl
@[simp] theorem setRes_phase (v : Addr) : (s.setRes v).phase = s.phase := rfl
@[simp] theorem setRes_eccCa (v : Addr) : (s.setRes v).eccCa = s.eccCa := rfl
@[simp] theorem setRes_eccRd (v : Addr) : (s.setRes v).eccRd = s.eccRd := rfl
@[simp] theorem setRes_crcOut (v : Addr) : (s.setRes v).crcOut = s.crcOut := rfl
@[simp] theorem setRes_detected (v : Addr) : (s.setRes v).detected = s.detected := rfl
@[simp] theorem setRes_geo (v : Addr) : (s.setRes v).geo = s.geo := rfl
@[simp] theorem setRes_curChip (v : Addr) : (s.setRes v).curChip = s.curChip := rfl
@[simp] theorem setRes_id (v : Addr) : (s.setRes v).id = s.id := rfl
@[simp] theorem setRes_onfi (v : Addr) : (s.setRes v).onfi = s.onfi := rfl
@[simp] theorem setRes_onfiValid (v : Addr) : (s.setRes v).onfiValid = s.onfiValid := rfl
@[simp] theorem setRes_onfiStatus (v : Addr) : (s.setRes v).onfiStatus = s.onfiStatus := rfl
@[simp] theorem setRes_bbmPos (v : Addr) : (s.setRes v).bbmPos = s.bbmPos := rfl
@[simp] theorem setRes_variant (v : Addr) : (s.setRes v).variant = s.variant := rfl
@[simp] theorem setRes_eccBits512 (v : Addr) : (s.setRes v).eccBits512 = s.eccBits512 := rfl
@[simp] theorem setRes_micronEccOn (v : Addr) : (s.setRes v).micronEccOn = s.micronEccOn := rfl
@[simp] theorem setRes_conf (v : Addr) : (s.setRes v).conf = s.conf := rfl
@[simp] theorem setRes_freeTab (v : Addr) : (s.setRes v).freeTab = s.freeTab := rfl
@[simp] theorem setRes_eccTab (v : Addr) : (s.setRes v).eccTab = s.eccTab := rfl
@[simp] theorem setRes_pt (v : Addr) : (s.setRes v).pt = s.pt := rfl
@[simp] theorem setRes_lock (v : Addr) : (s.setRes v).lock = s.lock := rfl
@[simp] theorem setRes_acc (v : Addr) : (s.setRes v).acc = s.acc := rfl
@[simp] theorem setRes_crc (v : Addr) : (s.setRes v).crc = s.crc := rfl
@[simp] theorem setRes_oobs (v : Addr) : (s.setRes v).oobs = s.oobs := rfl
@[simp] theorem setRes_dbuf (v : Addr) : (s.setRes v).dbuf = s.dbuf := rfl
@[simp] theorem setRes_obuf (v : Addr) : (s.setRes v).obuf = s.obuf := rfl
@[simp] theorem setRes_bus (v : Addr) : (s.setRes v).bus = s.bus := rfl
@[simp] theorem setRes_par (v : Addr) : (s.setRes v).par = s.par := rfl
@[simp] theorem setRes_hostIn (v : Addr) : (s.setRes v).hostIn = s.hostIn := rfl
@[simp] theorem setRes_busPort (v : Addr) : (s.setRes v).busPort = s.busPort := rfl

/-! `setPhase` -/

@[simp] theorem setPhase_cw (p : Phase) : (s.setPhase p).cw = s.cw := rfl
@[simp] theorem setPhase_a0 (p : Phase) : (s.setPhase p).a0 = s.a0 := rfl
@[simp] theorem setPhase_a1 (p : Phase) : (s.setPhase p).a1 = s.a1 := rfl
@[simp] theorem setPhase_a2 (p : Phase) : (s.setPhase p).a2 = s.a2 := rfl
@[simp] theorem setPhase_a3 (p : Phase) : (s.setPhase p).a3 = s.a3 := rfl
@[simp] theorem setPhase_status (p : Phase) : (s.setPhase p).status = s.status := rfl
@[simp] theorem setPhase_res (p : Phase) : (s.setPhase p).res = s.res := rfl
@[simp] theorem setPhase_phase (p : Phase) : (s.setPhase p).phase = p := rfl
@[simp] theorem setPhase_eccCa (p : Phase) : (s.setPhase p).eccCa = s.eccCa := rfl
@[simp] theorem setPhase_eccRd (p : Phase) : (s.setPhase p).eccRd = s.eccRd := rfl
@[simp] theorem setPhase_crcOut (p : Phase) : (s.setPhase p).crcOut = s.crcOut := rfl
@[simp] theorem setPhase_detected (p : Phase) : (s.setPhase p).detected = s.detected := rfl
@[simp] theorem setPhase_geo (p : Phase) : (s.setPhase p).geo = s.geo := rfl
@[simp] theorem setPhase_curChip (p : Phase) : (s.setPhase p).curChip = s.curChip := rfl
@[simp] theorem setPhase_id (p : Phase) : (s.setPhase p).id = s.id := rfl
@[simp] theorem setPhase_onfi (p : Phase) : (s.setPhase p).onfi = s.onfi := rfl
@[simp] theorem setPhase_onfiValid (p : Phase) : (s.setPhase p).onfiValid = s.onfiValid := rfl
@[simp] theorem setPhase_onfiStatus (p : Phase) : (s.setPhase p).onfiStatus = s.onfiStatus := rfl
@[simp] theorem setPhase_bbmPos (p : Phase) : (s.setPhase p).bbmPos = s.bbmPos := rfl
@[simp] theorem setPhase_variant (p : Phase) : (s.setPhase p).variant = s.variant := rfl
@[simp] theorem setPhase_eccBits512 (p : Phase) : (s.setPhase p).eccBits512 = s.eccBits512 := rfl
@[simp] theorem setPhase_micronEccOn (p : Phase) : (s.setPhase p).micronEccOn = s.micronEccOn := rfl
@[simp] theorem setPhase_conf (p : Phase) : (s.setPhase p).conf = s.conf := rfl
@[simp] theorem setPhase_freeTab (p : Phase) : (s.setPhase p).freeTab = s.freeTab := rfl
@[simp] theorem setPhase_eccTab (p : Phase) : (s.setPhase p).eccTab = s.eccTab := rfl
@[simp] theorem setPhase_pt (p : Phase) : (s.setPhase p).pt = s.pt := rfl
@[simp] theorem setPhase_lock (p : Phase) : (s.setPhase p).lock = s.lock := rfl
@[simp] theorem setPhase_acc (p : Phase) : (s.setPhase p).acc = s.acc := rfl
@[simp] theorem setPhase_crc (p : Phase) : (s.setPhase p).crc = s.crc := rfl
@[simp] theorem setPhase_oobs (p : Phase) : (s.setPhase p).oobs = s.oobs := rfl
@[simp] theorem setPhase_dbuf (p : Phase) : (s.setPhase p).dbuf = s.dbuf := rfl
@[simp] theorem setPhase_obuf (p : Phase) : (s.setPhase p).obuf = s.obuf := rfl
@[simp] theorem setPhase_bus (p : Phase) : (s.setPhase p).bus = s.bus := rfl
@[simp] theorem setPhase_par (p : Phase) : (s.setPhase p).par = s.par := rfl
@[simp] theorem setPhase_hostIn (p : Phase) : (s.setPhase p).hostIn = s.hostIn := rfl
@[simp] theorem setPhase_busPort (p : Phase) : (s.setPhase p).busPort = s.busPort := rfl

/-! `setLock` -/

@[simp] theorem setLock_cw (l : Bool) : (s.setLock l).cw = s.cw := rfl
@[simp] theorem setLock_a0 (l : Bool) : (s.setLock l).a0 = s.a0 := rfl
@[simp] theorem setLock_a1 (l : Bool) : (s.setLock l).a1 = s.a1 := rfl
@[simp] theorem setLock_a2 (l : Bool) : (s.setLock l).a2 = s.a2 := rfl
@[simp] theorem setLock_a3 (l : Bool) : (s.setLock l).a3 = s.a3 := rfl
@[simp] theorem setLock_status (l : Bool) : (s.setLock l).status = s.status := rfl
@[simp] theorem setLock_res (l : Bool) : (s.setLock l).res = s.res := rfl
@[simp] theorem setLock_phase (l : Bool) : (s.setLock l).phase = s.phase := rfl
@[simp] theorem setLock_eccCa (l : Bool) : (s.setLock l).eccCa = s.eccCa := rfl
@[simp] theorem setLock_eccRd (l : Bool) : (s.setLock l).eccRd = s.eccRd := rfl
@[simp] theorem setLock_crcOut (l : Bool) : (s.setLock l).crcOut = s.crcOut := rfl
@[simp] theorem setLock_detected (l : Bool) : (s.setLock l).detected = s.detected := rfl
@[simp] theorem setLock_geo (l : Bool) : (s.setLock l).geo = s.geo := rfl
@[simp] theorem setLock_curChip (l : Bool) : (s.setLock l).curChip = s.curChip := rfl
@[simp] theorem setLock_id (l : Bool) : (s.setLock l).id = s.id := rfl
@[simp] theorem setLock_onfi (l : Bool) : (s.setLock l).onfi = s.onfi := rfl
@[simp] theorem setLock_onfiValid (l : Bool) : (s.setLock l).onfiValid = s.onfiValid := rfl
@[simp] theorem setLock_onfiStatus (l : Bool) : (s.setLock l).onfiStatus = s.onfiStatus := rfl
@[simp] theorem setLock_bbmPos (l : Bool) : (s.setLock l).bbmPos = s.bbmPos := rfl
@[simp] theorem setLock_variant (l : Bool) : (s.setLock l).variant = s.variant := rfl
@[simp] theorem setLock_eccBits512 (l : Bool) : (s.setLock l).eccBits512 = s.eccBits512 := rfl
@[simp] theorem setLock_micronEccOn (l : Bool) : (s.setLock l).micronEccOn = s.micronEccOn := rfl
@[simp] theorem setLock_conf (l : Bool) : (s.setLock l).conf = s.conf := rfl
@[simp] theorem setLock_freeTab (l : Bool) : (s.setLock l).freeTab = s.freeTab := rfl
@[simp] theorem setLock_eccTab (l : Bool) : (s.setLock l).eccTab = s.eccTab := rfl
@[simp] theorem setLock_pt (l : Bool) : (s.setLock l).pt = s.pt := rfl
@[simp] theorem setLock_lock (l : Bool) : (s.setLock l).lock = l := rfl
@[simp] theorem setLock_acc (l : Bool) : (s.setLock l).acc = s.acc := rfl
@[simp] theorem setLock_crc (l : Bool) : (s.setLock l).crc = s.crc := rfl
@[simp] theorem setLock_oobs (l : Bool) : (s.setLock l).oobs = s.oobs := rfl
@[simp] theorem setLock_dbuf (l : Bool) : (s.setLock l).dbuf = s.dbuf := rfl
@[simp] theorem setLock_obuf (l : Bool) : (s.setLock l).obuf = s.obuf := rfl
@[simp] theorem setLock_bus (l : Bool) : (s.setLock l).bus = s.bus := rfl
@[simp] theorem setLock_par (l : Bool) : (s.setLock l).par = s.par := rfl
@[simp] theorem setLock_hostIn (l : Bool) : (s.setLock l).hostIn = s.hostIn := rfl
@[simp] theorem setLock_busPort (l : Bool) : (s.setLock l).busPort = s.busPort := rfl

/-! `setDbuf` -/

@[simp] theorem setDbuf_cw (m : Memory) : (s.setDbuf m).cw = s.cw := rfl
@[simp] theorem setDbuf_a0 (m : Memory) : (s.setDbuf m).a0 = s.a0 := rfl
@[simp] theorem setDbuf_a1 (m : Memory) : (s.setDbuf m).a1 = s.a1 := rfl
@[simp] theorem setDbuf_a2 (m : Memory) : (s.setDbuf m).a2 = s.a2 := rfl
@[simp] theorem setDbuf_a3 (m : Memory) : (s.setDbuf m).a3 = s.a3 := rfl
@[simp] theorem setDbuf_status (m : Memory) : (s.setDbuf m).status = s.status := rfl
@[simp] theorem setDbuf_res (m : Memory) : (s.setDbuf m).res = s.res := rfl
@[simp] theorem setDbuf_phase (m : Memory) : (s.setDbuf m).phase = s.phase := rfl
@[simp] theorem setDbuf_eccCa (m : Memory) : (s.setDbuf m).eccCa = s.eccCa := rfl
@[simp] theorem setDbuf_eccRd (m : Memory) : (s.setDbuf m).eccRd = s.eccRd := rfl
@[simp] theorem setDbuf_crcOut (m : Memory) : (s.setDbuf m).crcOut = s.crcOut := rfl
@[simp] theorem setDbuf_detected (m : Memory) : (s.setDbuf m).detected = s.detected := rfl
@[simp] theorem setDbuf_geo (m : Memory) : (s.setDbuf m).geo = s.geo := rfl
@[simp] theorem setDbuf_curChip (m : Memory) : (s.setDbuf m).curChip = s.curChip := rfl
@[simp] theorem setDbuf_id (m : Memory) : (s.setDbuf m).id = s.id := rfl
@[simp] theorem setDbuf_onfi (m : Memory) : (s.setDbuf m).onfi = s.onfi := rfl
@[simp] theorem setDbuf_onfiValid (m : Memory) : (s.setDbuf m).onfiValid = s.onfiValid := rfl
@[simp] theorem setDbuf_onfiStatus (m : Memory) : (s.setDbuf m).onfiStatus = s.onfiStatus := rfl
@[simp] theorem setDbuf_bbmPos (m : Memory) : (s.setDbuf m).bbmPos = s.bbmPos := rfl
@[simp] theorem setDbuf_variant (m : Memory) : (s.setDbuf m).variant = s.variant := rfl
@[simp] theorem setDbuf_eccBits512 (m : Memory) : (s.setDbuf m).eccBits512 = s.eccBits512 := rfl
@[simp] theorem setDbuf_micronEccOn (m : Memory) : (s.setDbuf m).micronEccOn = s.micronEccOn := rfl
@[simp] theorem setDbuf_conf (m : Memory) : (s.setDbuf m).conf = s.conf := rfl
@[simp] theorem setDbuf_freeTab (m : Memory) : (s.setDbuf m).freeTab = s.freeTab := rfl
@[simp] theorem setDbuf_eccTab (m : Memory) : (s.setDbuf m).eccTab = s.eccTab := rfl
@[simp] theorem setDbuf_pt (m : Memory) : (s.setDbuf m).pt = s.pt := rfl
@[simp] theorem setDbuf_lock (m : Memory) : (s.setDbuf m).lock = s.lock := rfl
@[simp] theorem setDbuf_acc (m : Memory) : (s.setDbuf m).acc = s.acc := rfl
@[simp] theorem setDbuf_crc (m : Memory) : (s.setDbuf m).crc = s.crc := rfl
@[simp] theorem setDbuf_oobs (m : Memory) : (s.setDbuf m).oobs = s.oobs := rfl
@[simp] theorem setDbuf_dbuf (m : Memory) : (s.setDbuf m).dbuf = m := rfl
@[simp] theorem setDbuf_obuf (m : Memory) : (s.setDbuf m).obuf = s.obuf := rfl
@[simp] theorem setDbuf_bus (m : Memory) : (s.setDbuf m).bus = s.bus := rfl
@[simp] theorem setDbuf_par (m : Memory) : (s.setDbuf m).par = s.par := rfl
@[simp] theorem setDbuf_hostIn (m : Memory) : (s.setDbuf m).hostIn = s.hostIn := rfl
@[simp] theorem setDbuf_busPort (m : Memory) : (s.setDbuf m).busPort = s.busPort := rfl

/-! `setObuf` -/

@[simp] theorem setObuf_cw (m : Memory) : (s.setObuf m).cw = s.cw := rfl
@[simp] theorem setObuf_a0 (m : Memory) : (s.setObuf m).a0 = s.a0 := rfl
@[simp] theorem setObuf_a1 (m : Memory) : (s.setObuf m).a1 = s.a1 := rfl
@[simp] theorem setObuf_a2 (m : Memory) : (s.setObuf m).a2 = s.a2 := rfl
@[simp] theorem setObuf_a3 (m : Memory) : (s.setObuf m).a3 = s.a3 := rfl
@[simp] theorem setObuf_status (m : Memory) : (s.setObuf m).status = s.status := rfl
@[simp] theorem setObuf_res (m : Memory) : (s.setObuf m).res = s.res := rfl
@[simp] theorem setObuf_phase (m : Memory) : (s.setObuf m).phase = s.phase := rfl
@[simp] theorem setObuf_eccCa (m : Memory) : (s.setObuf m).eccCa = s.eccCa := rfl
@[simp] theorem setObuf_eccRd (m : Memory) : (s.setObuf m).eccRd = s.eccRd := rfl
@[simp] theorem setObuf_crcOut (m : Memory) : (s.setObuf m).crcOut = s.crcOut := rfl
@[simp] theorem setObuf_detected (m : Memory) : (s.setObuf m).detected = s.detected := rfl
@[simp] theorem setObuf_geo (m : Memory) : (s.setObuf m).geo = s.geo := rfl
@[simp] theorem setObuf_curChip (m : Memory) : (s.setObuf m).curChip = s.curChip := rfl
@[simp] theorem setObuf_id (m : Memory) : (s.setObuf m).id = s.id := rfl
@[simp] theorem setObuf_onfi (m : Memory) : (s.setObuf m).onfi = s.onfi := rfl
@[simp] theorem setObuf_onfiValid (m : Memory) : (s.setObuf m).onfiValid = s.onfiValid := rfl
@[simp] theorem setObuf_onfiStatus (m : Memory) : (s.setObuf m).onfiStatus = s.onfiStatus := rfl
@[simp] theorem setObuf_bbmPos (m : Memory) : (s.setObuf m).bbmPos = s.bbmPos := rfl
@[simp] theorem setObuf_variant (m : Memory) : (s.setObuf m).variant = s.variant := rfl
@[simp] theorem setObuf_eccBits512 (m : Memory) : (s.setObuf m).eccBits512 = s.eccBits512 := rfl
@[simp] theorem setObuf_micronEccOn (m : Memory) : (s.setObuf m).micronEccOn = s.micronEccOn := rfl
@[simp] theorem setObuf_conf (m : Memory) : (s.setObuf m).conf = s.conf := rfl
@[simp] theorem setObuf_freeTab (m : Memory) : (s.setObuf m).freeTab = s.freeTab := rfl
@[simp] theorem setObuf_eccTab (m : Memory) : (s.setObuf m).eccTab = s.eccTab := rfl
@[simp] theorem setObuf_pt (m : Memory) : (s.setObuf m).pt = s.pt := rfl
@[simp] theorem setObuf_lock (m : Memory) : (s.setObuf m).lock = s.lock := rfl
@[simp] theorem setObuf_acc (m : Memory) : (s.setObuf m).acc = s.acc := rfl
@[simp] theorem setObuf_crc (m : Memory) : (s.setObuf m).crc = s.crc := rfl
@[simp] theorem setObuf_oobs (m : Memory) : (s.setObuf m).oobs = s.oobs := rfl
@[simp] theorem setObuf_dbuf (m : Memory) : (s.setObuf m).dbuf = s.dbuf := rfl
@[simp] theorem setObuf_obuf (m : Memory) : (s.setObuf m).obuf = m := rfl
@[simp] theorem setObuf_bus (m : Memory) : (s.setObuf m).bus = s.bus := rfl
@[simp] theorem setObuf_par (m : Memory) : (s.setObuf m).par = s.par := rfl
@[simp] theorem setObuf_hostIn (m : Memory) : (s.setObuf m).hostIn = s.hostIn := rfl
@[simp] theorem setObuf_busPort (m : Memory) : (s.setObuf m).busPort = s.busPort := rfl

/-! `setOobs` -/

@[simp] theorem setOobs_cw (m : Memory) : (s.setOobs m).cw = s.cw := rfl
@[simp] theorem setOobs_a0 (m : Memory) : (s.setOobs m).a0 = s.a0 := rfl
@[simp] theorem setOobs_a1 (m : Memory) : (s.setOobs m).a1 = s.a1 := rfl
@[simp] theorem setOobs_a2 (m : Memory) : (s.setOobs m).a2 = s.a2 := rfl
@[simp] theorem setOobs_a3 (m : Memory) : (s.setOobs m).a3 = s.a3 := rfl
@[simp] theorem setOobs_status (m : Memory) : (s.setOobs m).status = s.status := rfl
@[simp] theorem setOobs_res (m : Memory) : (s.setOobs m).res = s.res := rfl
@[simp] theorem setOobs_phase (m : Memory) : (s.setOobs m).phase = s.phase := rfl
@[simp] theorem setOobs_eccCa (m : Memory) : (s.setOobs m).eccCa = s.eccCa := rfl
@[simp] theorem setOobs_eccRd (m : Memory) : (s.setOobs m).eccRd = s.eccRd := rfl
@[simp] theorem setOobs_crcOut (m : Memory) : (s.setOobs m).crcOut = s.crcOut := rfl
@[simp] theorem setOobs_detected (m : Memory) : (s.setOobs m).detected = s.detected := rfl
@[simp] theorem setOobs_geo (m : Memory) : (s.setOobs m).geo = s.geo := rfl
@[simp] theorem setOobs_curChip (m : Memory) : (s.setOobs m).curChip = s.curChip := rfl
@[simp] theorem setOobs_id (m : Memory) : (s.setOobs m).id = s.id := rfl
@[simp] theorem setOobs_onfi (m : Memory) : (s.setOobs m).onfi = s.onfi := rfl
@[simp] theorem setOobs_onfiValid (m : Memory) : (s.setOobs m).onfiValid = s.onfiValid := rfl
@[simp] theorem setOobs_onfiStatus (m : Memory) : (s.setOobs m).onfiStatus = s.onfiStatus := rfl
@[simp] theorem setOobs_bbmPos (m : Memory) : (s.setOobs m).bbmPos = s.bbmPos := rfl
@[simp] theorem setOobs_variant (m : Memory) : (s.setOobs m).variant = s.variant := rfl
@[simp] theorem setOobs_eccBits512 (m : Memory) : (s.setOobs m).eccBits512 = s.eccBits512 := rfl
@[simp] theorem setOobs_micronEccOn (m : Memory) : (s.setOobs m).micronEccOn = s.micronEccOn := rfl
@[simp] theorem setOobs_conf (m : Memory) : (s.setOobs m).conf = s.conf := rfl
@[simp] theorem setOobs_freeTab (m : Memory) : (s.setOobs m).freeTab = s.freeTab := rfl
@[simp] theorem setOobs_eccTab (m : Memory) : (s.setOobs m).eccTab = s.eccTab := rfl
@[simp] theorem setOobs_pt (m : Memory) : (s.setOobs m).pt = s.pt := rfl
@[simp] theorem setOobs_lock (m : Memory) : (s.setOobs m).lock = s.lock := rfl
@[simp] theorem setOobs_acc (m : Memory) : (s.setOobs m).acc = s.acc := rfl
@[simp] theorem setOobs_crc (m : Memory) : (s.setOobs m).crc = s.crc := rfl
@[simp] theorem setOobs_oobs (m : Memory) : (s.setOobs m).oobs = m := rfl
@[simp] theorem setOobs_dbuf (m : Memory) : (s.setOobs m).dbuf = s.dbuf := rfl
@[simp] theorem setOobs_obuf (m : Memory) : (s.setOobs m).obuf = s.obuf := rfl
@[simp] theorem setOobs_bus (m : Memory) : (s.setOobs m).bus = s.bus := rfl
@[simp] theorem setOobs_par (m : Memory) : (s.setOobs m).par = s.par := rfl
@[simp] theorem setOobs_hostIn (m : Memory) : (s.setOobs m).hostIn = s.hostIn := rfl
@[simp] theorem setOobs_busPort (m : Memory) : (s.setOobs m).busPort = s.busPort := rfl

/-! `setEccCa` -/

@[simp] theorem setEccCa_cw (t : Triple) : (s.setEccCa t).cw = s.cw := rfl
@[simp] theorem setEccCa_a0 (t : Triple) : (s.setEccCa t).a0 = s.a0 := rfl
@[simp] theorem setEccCa_a1 (t : Triple) : (s.setEccCa t).a1 = s.a1 := rfl
@[simp] theorem setEccCa_a2 (t : Triple) : (s.setEccCa t).a2 = s.a2 := rfl
@[simp] theorem setEccCa_a3 (t : Triple) : (s.setEccCa t).a3 = s.a3 := rfl
@[simp] theorem setEccCa_status (t : Triple) : (s.setEccCa t).status = s.status := rfl
@[simp] theorem setEccCa_res (t : Triple) : (s.setEccCa t).res = s.res := rfl
@[simp] theorem setEccCa_phase (t : Triple) : (s.setEccCa t).phase = s.phase := rfl
@[simp] theorem setEccCa_eccCa (t : Triple) : (s.setEccCa t).eccCa = t := rfl
@[simp] theorem setEccCa_eccRd (t : Triple) : (s.setEccCa t).eccRd = s.eccRd := rfl
@[simp] theorem setEccCa_crcOut (t : Triple) : (s.setEccCa t).crcOut = s.crcOut := rfl
@[simp] theorem setEccCa_detected (t : Triple) : (s.setEccCa t).detected = s.detected := rfl
@[simp] theorem setEccCa_geo (t : Triple) : (s.setEccCa t).geo = s.geo := rfl
@[simp] theorem setEccCa_curChip (t : Triple) : (s.setEccCa t).curChip = s.curChip := rfl
@[simp] theorem setEccCa_id (t : Triple) : (s.setEccCa t).id = s.id := rfl
@[simp] theorem setEccCa_onfi (t : Triple) : (s.setEccCa t).onfi = s.onfi := rfl
@[simp] theorem setEccCa_onfiValid (t : Triple) : (s.setEccCa t).onfiValid = s.onfiValid := rfl
@[simp] theorem setEccCa_onfiStatus (t : Triple) : (s.setEccCa t).onfiStatus = s.onfiStatus := rfl
@[simp] theorem setEccCa_bbmPos (t : Triple) : (s.setEccCa t).bbmPos = s.bbmPos := rfl
@[simp] theorem setEccCa_variant (t : Triple) : (s.setEccCa t).variant = s.variant := rfl
@[simp] theorem setEccCa_eccBits512 (t : Triple) : (s.setEccCa t).eccBits512 = s.eccBits512 := rfl
@[simp] theorem setEccCa_micronEccOn (t : Triple) : (s.setEccCa t).micronEccOn = s.micronEccOn := rfl
@[simp] theorem setEccCa_conf (t : Triple) : (s.setEccCa t).conf = s.conf := rfl
@[simp] theorem setEccCa_freeTab (t : Triple) : (s.setEccCa t).freeTab = s.freeTab := rfl
@[simp] theorem setEccCa_eccTab (t : Triple) : (s.setEccCa t).eccTab = s.eccTab := rfl
@[simp] theorem setEccCa_pt (t : Triple) : (s.setEccCa t).pt = s.pt := rfl
@[simp] theorem setEccCa_lock (t : Triple) : (s.setEccCa t).lock = s.lock := rfl
@[simp] theorem setEccCa_acc (t : Triple) : (s.setEccCa t).acc = s.acc := rfl
@[simp] theorem setEccCa_crc (t : Triple) : (s.setEccCa t).crc = s.crc := rfl
@[simp] theorem setEccCa_oobs (t : Triple) : (s.setEccCa t).oobs = s.oobs := rfl
@[simp] theorem setEccCa_dbuf (t : Triple) : (s.setEccCa t).dbuf = s.dbuf := rfl
@[simp] theorem setEccCa_obuf (t : Triple) : (s.setEccCa t).obuf = s.obuf := rfl
@[simp] theorem setEccCa_bus (t : Triple) : (s.setEccCa t).bus = s.bus := rfl
@[simp] theorem setEccCa_par (t : Triple) : (s.setEccCa t).par = s.par := rfl
@[simp] theorem setEccCa_hostIn (t : Triple) : (s.setEccCa t).hostIn = s.hostIn := rfl
@[simp] theorem setEccCa_busPort (t : Triple) : (s.setEccCa t).busPort = s.busPort := rfl

/-! `setEccRd` -/

@[simp] theorem setEccRd_cw (t : Triple) : (s.setEccRd t).cw = s.cw := rfl
@[simp] theorem setEccRd_a0 (t : Triple) : (s.setEccRd t).a0 = s.a0 := rfl
@[simp] theorem setEccRd_a1 (t : Triple) : (s.setEccRd t).a1 = s.a1 := rfl
@[simp] theorem setEccRd_a2 (t : Triple) : (s.setEccRd t).a2 = s.a2 := rfl
@[simp] theorem setEccRd_a3 (t : Triple) : (s.setEccRd t).a3 = s.a3 := rfl
@[simp] theorem setEccRd_status (t : Triple) : (s.setEccRd t).status = s.status := rfl
@[simp] theorem setEccRd_res (t : Triple) : (s.setEccRd t).res = s.res := rfl
@[simp] theorem setEccRd_phase (t : Triple) : (s.setEccRd t).phase = s.phase := rfl
@[simp] theorem setEccRd_eccCa (t : Triple) : (s.setEccRd t).eccCa = s.eccCa := rfl
@[simp] theorem setEccRd_eccRd (t : Triple) : (s.setEccRd t).eccRd = t := rfl
@[simp] theorem setEccRd_crcOut (t : Triple) : (s.setEccRd t).crcOut = s.crcOut := rfl
@[simp] theorem setEccRd_detected (t : Triple) : (s.setEccRd t).detected = s.detected := rfl
@[simp] theorem setEccRd_geo (t : Triple) : (s.setEccRd t).geo = s.geo := rfl
@[simp] theorem setEccRd_curChip (t : Triple) : (s.setEccRd t).curChip = s.curChip := rfl
@[simp] theorem setEccRd_id (t : Triple) : (s.setEccRd t).id = s.id := rfl
@[simp] theorem setEccRd_onfi (t : Triple) : (s.setEccRd t).onfi = s.onfi := rfl
@[simp] theorem setEccRd_onfiValid (t : Triple) : (s.setEccRd t).onfiValid = s.onfiValid := rfl
@[simp] theorem setEccRd_onfiStatus (t : Triple) : (s.setEccRd t).onfiStatus = s.onfiStatus := rfl
@[simp] theorem setEccRd_bbmPos (t : Triple) : (s.setEccRd t).bbmPos = s.bbmPos := rfl
@[simp] theorem setEccRd_variant (t : Triple) : (s.setEccRd t).variant = s.variant := rfl
@[simp] theorem setEccRd_eccBits512 (t : Triple) : (s.setEccRd t).eccBits512 = s.eccBits512 := rfl
@[simp] theorem setEccRd_micronEccOn (t : Triple) : (s.setEccRd t).micronEccOn = s.micronEccOn := rfl
@[simp] theorem setEccRd_conf (t : Triple) : (s.setEccRd t).conf = s.conf := rfl
@[simp] theorem setEccRd_freeTab (t : Triple) : (s.setEccRd t).freeTab = s.freeTab := rfl
@[simp] theorem setEccRd_eccTab (t : Triple) : (s.setEccRd t).eccTab = s.eccTab := rfl
@[simp] theorem setEccRd_pt (t : Triple) : (s.setEccRd t).pt = s.pt := rfl
@[simp] theorem setEccRd_lock (t : Triple) : (s.setEccRd t).lock = s.lock := rfl
@[simp] theorem setEccRd_acc (t : Triple) : (s.setEccRd t).acc = s.acc := rfl
@[simp] theorem setEccRd_crc (t : Triple) : (s.setEccRd t).crc = s.crc := rfl
@[simp] theorem setEccRd_oobs (t : Triple) : (s.setEccRd t).oobs = s.oobs := rfl
@[simp] theorem setEccRd_dbuf (t : Triple) : (s.setEccRd t).dbuf = s.dbuf := rfl
@[simp] theorem setEccRd_obuf (t : Triple) : (s.setEccRd t).obuf = s.obuf := rfl
@[simp] theorem setEccRd_bus (t : Triple) : (s.setEccRd t).bus = s.bus := rfl
@[simp] theorem setEccRd_par (t : Triple) : (s.setEccRd t).par = s.par := rfl
@[simp] theorem setEccRd_hostIn (t : Triple) : (s.setEccRd t).hostIn = s.hostIn := rfl
@[simp] theorem setEccRd_busPort (t : Triple) : (s.setEccRd t).busPort = s.busPort := rfl

/-! `setAcc` -/

@[simp] theorem setAcc_cw (a : EccAcc) : (s.setAcc a).cw = s.cw := rfl
@[simp] theorem setAcc_a0 (a : EccAcc) : (s.setAcc a).a0 = s.a0 := rfl
@[simp] theorem setAcc_a1 (a : EccAcc) : (s.setAcc a).a1 = s.a1 := rfl
@[simp] theorem setAcc_a2 (a : EccAcc) : (s.setAcc a).a2 = s.a2 := rfl
@[simp] theorem setAcc_a3 (a : EccAcc) : (s.setAcc a).a3 = s.a3 := rfl
@[simp] theorem setAcc_status (a : EccAcc) : (s.setAcc a).status = s.status := rfl
@[simp] theorem setAcc_res (a : EccAcc) : (s.setAcc a).res = s.res := rfl
@[simp] theorem setAcc_phase (a : EccAcc) : (s.setAcc a).phase = s.phase := rfl
@[simp] theorem setAcc_eccCa (a : EccAcc) : (s.setAcc a).eccCa = s.eccCa := rfl
@[simp] theorem setAcc_eccRd (a : EccAcc) : (s.setAcc a).eccRd = s.eccRd := rfl
@[simp] theorem setAcc_crcOut (a : EccAcc) : (s.setAcc a).crcOut = s.crcOut := rfl
@[simp] theorem setAcc_detected (a : EccAcc) : (s.setAcc a).detected = s.detected := rfl
@[simp] theorem setAcc_geo (a : EccAcc) : (s.setAcc a).geo = s.geo := rfl
@[simp] theorem setAcc_curChip (a : EccAcc) : (s.setAcc a).curChip = s.curChip := rfl
@[simp] theorem setAcc_id (a : EccAcc) : (s.setAcc a).id = s.id := rfl
@[simp] theorem setAcc_onfi (a : EccAcc) : (s.setAcc a).onfi = s.onfi := rfl
@[simp] theorem setAcc_onfiValid (a : EccAcc) : (s.setAcc a).onfiValid = s.onfiValid := rfl
@[simp] theorem setAcc_onfiStatus (a : EccAcc) : (s.setAcc a).onfiStatus = s.onfiStatus := rfl
@[simp] theorem setAcc_bbmPos (a : EccAcc) : (s.setAcc a).bbmPos = s.bbmPos := rfl
@[simp] theorem setAcc_variant (a : EccAcc) : (s.setAcc a).variant = s.variant := rfl
@[simp] theorem setAcc_eccBits512 (a : EccAcc) : (s.setAcc a).eccBits512 = s.eccBits512 := rfl
@[simp] theorem setAcc_micronEccOn (a : EccAcc) : (s.setAcc a).micronEccOn = s.micronEccOn := rfl
@[simp] theorem setAcc_conf (a : EccAcc) : (s.setAcc a).conf = s.conf := rfl
@[simp] theorem setAcc_freeTab (a : EccAcc) : (s.setAcc a).freeTab = s.freeTab := rfl
@[simp] theorem setAcc_eccTab (a : EccAcc) : (s.setAcc a).eccTab = s.eccTab := rfl
@[simp] theorem setAcc_pt (a : EccAcc) : (s.setAcc a).pt = s.pt := rfl
@[simp] theorem setAcc_lock (a : EccAcc) : (s.setAcc a).lock = s.lock := rfl
@[simp] theorem setAcc_acc (a : EccAcc) : (s.setAcc a).acc = a := rfl
@[simp] theorem setAcc_crc (a : EccAcc) : (s.setAcc a).crc = s.crc := rfl
@[simp] theorem setAcc_oobs (a : EccAcc) : (s.setAcc a).oobs = s.oobs := rfl
@[simp] theorem setAcc_dbuf (a : EccAcc) : (s.setAcc a).dbuf = s.dbuf := rfl
@[simp] theorem setAcc_obuf (a : EccAcc) : (s.setAcc a).obuf = s.obuf := rfl
@[simp] theorem setAcc_bus (a : EccAcc) : (s.setAcc a).bus = s.bus := rfl
@[simp] theorem setAcc_par (a : EccAcc) : (s.setAcc a).par = s.par := rfl
@[simp] theorem setAcc_hostIn (a : EccAcc) : (s.setAcc a).hostIn = s.hostIn := rfl
@[simp] theorem setAcc_busPort (a : EccAcc) : (s.setAcc a).busPort = s.busPort := rfl

/-! `setCrc` -/

@[simp] theorem setCrc_cw (c : BitVec 16) : (s.setCrc c).cw = s.cw := rfl
@[simp] theorem setCrc_a0 (c : BitVec 16) : (s.setCrc c).a0 = s.a0 := rfl
@[simp] theorem setCrc_a1 (c : BitVec 16) : (s.setCrc c).a1 = s.a1 := rfl
@[simp] theorem setCrc_a2 (c : BitVec 16) : (s.setCrc c).a2 = s.a2 := rfl
@[simp] theorem setCrc_a3 (c : BitVec 16) : (s.setCrc c).a3 = s.a3 := rfl
@[simp] theorem setCrc_status (c : BitVec 16) : (s.setCrc c).status = s.status := rfl
@[simp] theorem setCrc_res (c : BitVec 16) : (s.setCrc c).res = s.res := rfl
@[simp] theorem setCrc_phase (c : BitVec 16) : (s.setCrc c).phase = s.phase := rfl
@[simp] theorem setCrc_eccCa (c : BitVec 16) : (s.setCrc c).eccCa = s.eccCa := rfl
@[simp] theorem setCrc_eccRd (c : BitVec 16) : (s.setCrc c).eccRd = s.eccRd := rfl
@[simp] theorem setCrc_crcOut (c : BitVec 16) : (s.setCrc c).crcOut = c := rfl
@[simp] theorem setCrc_detected (c : BitVec 16) : (s.setCrc c).detected = s.detected := rfl
@[simp] theorem setCrc_geo (c : BitVec 16) : (s.setCrc c).geo = s.geo := rfl
@[simp] theorem setCrc_curChip (c : BitVec 16) : (s.setCrc c).curChip = s.curChip := rfl
@[simp] theorem setCrc_id (c : BitVec 16) : (s.setCrc c).id = s.id := rfl
@[simp] theorem setCrc_onfi (c : BitVec 16) : (s.setCrc c).onfi = s.onfi := rfl
@[simp] theorem setCrc_onfiValid (c : BitVec 16) : (s.setCrc c).onfiValid = s.onfiValid := rfl
@[simp] theorem setCrc_onfiStatus (c : BitVec 16) : (s.setCrc c).onfiStatus = s.onfiStatus := rfl
@[simp] theorem setCrc_bbmPos (c : BitVec 16) : (s.setCrc c).bbmPos = s.bbmPos := rfl
@[simp] theorem setCrc_variant (c : BitVec 16) : (s.setCrc c).variant = s.variant := rfl
@[simp] theorem setCrc_eccBits512 (c : BitVec 16) : (s.setCrc c).eccBits512 = s.eccBits512 := rfl
@[simp] theorem setCrc_micronEccOn (c : BitVec 16) : (s.setCrc c).micronEccOn = s.micronEccOn := rfl
@[simp] theorem setCrc_conf (c : BitVec 16) : (s.setCrc c).conf = s.conf := rfl
@[simp] theorem setCrc_freeTab (c : BitVec 16) : (s.setCrc c).freeTab = s.freeTab := rfl
@[simp] theorem setCrc_eccTab (c : BitVec 16) : (s.setCrc c).eccTab = s.eccTab := rfl
@[simp] theorem setCrc_pt (c : BitVec 16) : (s.setCrc c).pt = s.pt := rfl
@[simp] theorem setCrc_lock (c : BitVec 16) : (s.setCrc c).lock = s.lock := rfl
@[simp] theorem setCrc_acc (c : BitVec 16) : (s.setCrc c).acc = s.acc := rfl
@[simp] theorem setCrc_crc (c : BitVec 16) : (s.setCrc c).crc = c := rfl
@[simp] theorem setCrc_oobs (c : BitVec 16) : (s.setCrc c).oobs = s.oobs := rfl
@[simp] theorem setCrc_dbuf (c : BitVec 16) : (s.setCrc c).dbuf = s.dbuf := rfl
@[simp] theorem setCrc_obuf (c : BitVec 16) : (s.setCrc c).obuf = s.obuf := rfl
@[simp] theorem setCrc_bus (c : BitVec 16) : (s.setCrc c).bus = s.bus := rfl
@[simp] theorem setCrc_par (c : BitVec 16) : (s.setCrc c).par = s.par := rfl
@[simp] theorem setCrc_hostIn (c : BitVec 16) : (s.setCrc c).hostIn = s.hostIn := rfl
@[simp] theorem setCrc_busPort (c : BitVec 16) : (s.setCrc c).busPort = s.busPort := rfl

/-! `endOp` -/

@[simp] theorem endOp_cw (st : Status) : (s.endOp st).cw = s.cw := rfl
@[simp] theorem endOp_a0 (st : Status) : (s.endOp st).a0 = s.a0 := rfl
@[simp] theorem endOp_a1 (st : Status) : (s.endOp st).a1 = s.a1 := rfl
@[simp] theorem endOp_a2 (st : Status) : (s.endOp st).a2 = s.a2 := rfl
@[simp] theorem endOp_a3 (st : Status) : (s.endOp st).a3 = s.a3 := rfl
@[simp] theorem endOp_status (st : Status) : (s.endOp st).status = st := rfl
@[simp] theorem endOp_res (st : Status) : (s.endOp st).res = s.res := rfl
@[simp] theorem endOp_phase (st : Status) : (s.endOp st).phase = .idle := rfl
@[simp] theorem endOp_eccCa (st : Status) : (s.endOp st).eccCa = s.eccCa := rfl
@[simp] theorem endOp_eccRd (st : Status) : (s.endOp st).eccRd = s.eccRd := rfl
@[simp] theorem endOp_crcOut (st : Status) : (s.endOp st).crcOut = s.crcOut := rfl
@[simp] theorem endOp_detected (st : Status) : (s.endOp st).detected = s.detected := rfl
@[simp] theorem endOp_geo (st : Status) : (s.endOp st).geo = s.geo := rfl
@[simp] theorem endOp_curChip (st : Status) : (s.endOp st).curChip = s.curChip := rfl
@[simp] theorem endOp_id (st : Status) : (s.endOp st).id = s.id := rfl
@[simp] theorem endOp_onfi (st : Status) : (s.endOp st).onfi = s.onfi := rfl
@[simp] theorem endOp_onfiValid (st : Status) : (s.endOp st).onfiValid = s.onfiValid := rfl
@[simp] theorem endOp_onfiStatus (st : Status) : (s.endOp st).onfiStatus = s.onfiStatus := rfl
@[simp] theorem endOp_bbmPos (st : Status) : (s.endOp st).bbmPos = s.bbmPos := rfl
@[simp] theorem endOp_variant (st : Status) : (s.endOp st).variant = s.variant := rfl
@[simp] theorem endOp_eccBits512 (st : Status) : (s.endOp st).eccBits512 = s.eccBits512 := rfl
@[simp] theorem endOp_micronEccOn (st : Status) : (s.endOp st).micronEccOn = s.micronEccOn := rfl
@[simp] theorem endOp_conf (st : Status) : (s.endOp st).conf = s.conf := rfl
@[simp] theorem endOp_freeTab (st : Status) : (s.endOp st).freeTab = s.freeTab := rfl
@[simp] theorem endOp_eccTab (st : Status) : (s.endOp st).eccTab = s.eccTab := rfl
@[simp] theorem endOp_pt (st : Status) : (s.endOp st).pt = s.pt := rfl
@[simp] theorem endOp_lock (st : Status) : (s.endOp st).lock = s.lock := rfl
@[simp] theorem endOp_acc (st : Status) : (s.endOp st).acc = s.acc := rfl
@[simp] theorem endOp_crc (st : Status) : (s.endOp st).crc = s.crc := rfl
@[simp] theorem endOp_oobs (st : Status) : (s.endOp st).oobs = s.oobs := rfl
@[simp] theorem endOp_dbuf (st : Status) : (s.endOp st).dbuf = s.dbuf := rfl
@[simp] theorem endOp_obuf (st : Status) : (s.endOp st).obuf = s.obuf := rfl
@[simp] theorem endOp_bus (st : Status) : (s.endOp st).bus = s.bus := rfl
@[simp] theorem endOp_par (st : Status) : (s.endOp st).par = s.par := rfl
@[simp] theorem endOp_hostIn (st : Status) : (s.endOp st).hostIn = s.hostIn := rfl
@[simp] theorem endOp_busPort (st : Status) : (s.endOp st).busPort = s.busPort := rfl

/-! `selectChip` -/

@[simp] theorem selectChip_cw (c : Byte) : (s.selectChip c).cw = s.cw := rfl
@[simp] theorem selectChip_a0 (c : Byte) : (s.selectChip c).a0 = s.a0 := rfl
@[simp] theorem selectChip_a1 (c : Byte) : (s.selectChip c).a1 = s.a1 := rfl
@[simp] theorem selectChip_a2 (c : Byte) : (s.selectChip c).a2 = s.a2 := rfl
@[simp] theorem selectChip_a3 (c : Byte) : (s.selectChip c).a3 = s.a3 := rfl
@[simp] theorem selectChip_status (c : Byte) : (s.selectChip c).status = s.status := rfl
@[simp] theorem selectChip_res (c : Byte) : (s.selectChip c).res = s.res := rfl
@[simp] theorem selectChip_phase (c : Byte) : (s.selectChip c).phase = s.phase := rfl
@[simp] theorem selectChip_eccCa (c : Byte) : (s.selectChip c).eccCa = s.eccCa := rfl
@[simp] theorem selectChip_eccRd (c : Byte) : (s.selectChip c).eccRd = s.eccRd := rfl
@[simp] theorem selectChip_crcOut (c : Byte) : (s.selectChip c).crcOut = s.crcOut := rfl
@[simp] theorem selectChip_detected (c : Byte) : (s.selectChip c).detected = s.detected := rfl
@[simp] theorem selectChip_geo (c : Byte) : (s.selectChip c).geo = s.geo := rfl
@[simp] theorem selectChip_curChip (c : Byte) : (s.selectChip c).curChip = c := rfl
@[simp] theorem selectChip_id (c : Byte) : (s.selectChip c).id = s.id := rfl
@[simp] theorem selectChip_onfi (c : Byte) : (s.selectChip c).onfi = s.onfi := rfl
@[simp] theorem selectChip_onfiValid (c : Byte) : (s.selectChip c).onfiValid = s.onfiValid := rfl
@[simp] theorem selectChip_onfiStatus (c : Byte) : (s.selectChip c).onfiStatus = s.onfiStatus := rfl
@[simp] theorem selectChip_bbmPos (c : Byte) : (s.selectChip c).bbmPos = s.bbmPos := rfl
@[simp] theorem selectChip_variant (c : Byte) : (s.selectChip c).variant = s.variant := rfl
@[simp] theorem selectChip_eccBits512 (c : Byte) : (s.selectChip c).eccBits512 = s.eccBits512 := rfl
@[simp] theorem selectChip_micronEccOn (c : Byte) : (s.selectChip c).micronEccOn = s.micronEccOn := rfl
@[simp] theorem selectChip_conf (c : Byte) : (s.selectChip c).conf = s.conf := rfl
@[simp] theorem selectChip_freeTab (c : Byte) : (s.selectChip c).freeTab = s.freeTab := rfl
@[simp] theorem selectChip_eccTab (c : Byte) : (s.selectChip c).eccTab = s.eccTab := rfl
@[simp] theorem selectChip_pt (c : Byte) : (s.selectChip c).pt = s.pt := rfl
@[simp] theorem selectChip_lock (c : Byte) : (s.selectChip c).lock = s.lock := rfl
@[simp] theorem selectChip_acc (c : Byte) : (s.selectChip c).acc = s.acc := rfl
@[simp] theorem selectChip_crc (c : Byte) : (s.selectChip c).crc = s.crc := rfl
@[simp] theorem selectChip_oobs (c : Byte) : (s.selectChip c).oobs = s.oobs := rfl
@[simp] theorem selectChip_dbuf (c : Byte) : (s.selectChip c).dbuf = s.dbuf := rfl
@[simp] theorem selectChip_obuf (c : Byte) : (s.selectChip c).obuf = s.obuf := rfl
@[simp] theorem selectChip_bus (c : Byte) : (s.selectChip c).bus = s.bus.sel c := rfl
@[simp] theorem selectChip_par (c : Byte) : (s.selectChip c).par = s.par := rfl
@[simp] theorem selectChip_hostIn (c : Byte) : (s.selectChip c).hostIn = s.hostIn := rfl
@[simp] theorem selectChip_busPort (c : Byte) : (s.selectChip c).busPort = s.busPort := rfl

/-! Combinations -/

@[simp] theorem setBus_setBus (b c : Bus) : (s.setBus b).setBus c = s.setBus c := rfl
@[simp] theorem setDbuf_setDbuf (m n : Memory) : (s.setDbuf m).setDbuf n = s.setDbuf n := rfl
@[simp] theorem setOobs_setOobs (m n : Memory) : (s.setOobs m).setOobs n = s.setOobs n := rfl
@[simp] theorem setPhase_setPhase (p q : Phase) : (s.setPhase p).setPhase q = s.setPhase q := rfl
@[simp] theorem rd8_fst : s.rd8.1 = s.bus.rd8.1 := rfl
@[simp] theorem rd8_snd : s.rd8.2 = s.setBus s.bus.rd8.2 := rfl
@[simp] theorem rd8s_fst (n : Nat) : (s.rd8s n).1 = (s.bus.rd8s n).1 := rfl
@[simp] theorem rd8s_snd (n : Nat) : (s.rd8s n).2 = s.setBus (s.bus.rd8s n).2 := rfl
@[simp] theorem rdBuf_fst (n : Nat) : (s.rdBuf n).1 = (s.bus.rdBuf n).1 := rfl
@[simp] theorem rdBuf_snd (n : Nat) : (s.rdBuf n).2 = s.setBus (s.bus.rdBuf n).2 := rfl
@[simp] theorem wrBuf_eq (l : List Byte) : s.wrBuf l = s.setBus (s.bus.wrBuf l) := rfl

/-! Updates in a row -/

theorem setRes_setRes (v v' : Addr) : (s.setRes v).setRes v' = s.setRes v' := rfl
theorem setOobs_setBus (o : Memory) (b : Bus) : (s.setOobs o).setBus b = (s.setBus b).setOobs o := rfl
theorem setRes_setBus (v : Addr) (b : Bus) : (s.setRes v).setBus b = (s.setBus b).setRes v := rfl
theorem setRes_setOobs (v : Addr) (o : Memory) : (s.setRes v).setOobs o = (s.setOobs o).setRes v := rfl

end Sys2Proof.Machine.State
end

