-- ==== Sys2Proof/Laws/Ops.lean ====
section
/-! SUPPORT. What the shared operations of Machine/Ops.lean do, one lemma for each: the bus events they emit, the value
they give and the state they leave. -/

namespace Sys2Proof.Machine

/-! ## Running parts of an operation -/

@[simp] theorem Ret.bind_val {α β : Type} (a : α) (s : State) (f : α → State → Ret β) : (Ret.val a s).bind f = f a s := rfl
@[simp] theorem Ret.bind_hang {α β : Type} (s : State) (f : α → State → Ret β) : (Ret.hang s).bind f = .hang s := rfl
@[simp] theorem Ret.bind_fault {α β : Type} (e : Fault) (f : α → State → Ret β) : (Ret.fault e).bind f = .fault e := rfl
@[simp] theorem Ret.bind_refuse {α β : Type} (e : Refusal) (f : α → State → Ret β) :
    (Ret.refuse e).bind f = .refuse e := rfl
@[simp] theorem Ret.finish_val (st : Status) (s : State) : (Ret.val st s).finish = .next (s.endOp st) := rfl
@[simp] theorem Ret.finish_hang (s : State) : (Ret.hang s).finish = .next s := rfl
@[simp] theorem Ret.finish_fault (e : Fault) : (Ret.fault e).finish = .fault e := rfl
@[simp] theorem Ret.finish_refuse (e : Refusal) : (Ret.refuse e).finish = .refused e := rfl

/-- An operation that answers a next state ended with a status, or hangs. -/
theorem Ret.finish_next {r : Ret Status} {t : State} (h : r.finish = .next t) :
    (∃ st s, r = .val st s ∧ t = s.endOp st) ∨ r = .hang t := by
  cases r <;> simp_all [Ret.finish]

/-- Every state that a part can leave, whether it ends or hangs. -/
def Ret.Leaves {α : Type} (r : Ret α) (P : State → Prop) : Prop :=
  (∀ a s, r = .val a s → P s) ∧ ∀ s, r = .hang s → P s

theorem Ret.leaves_val {α : Type} {a : α} {s : State} {P : State → Prop} (h : P s) : (Ret.val a s).Leaves P :=
  ⟨fun _ _ e => by cases e; exact h, fun _ e => nomatch e⟩

theorem Ret.leaves_hang {α : Type} {s : State} {P : State → Prop} (h : P s) : (Ret.hang (α := α) s).Leaves P :=
  ⟨fun _ _ e => (nomatch e), fun _ e => by cases e; exact h⟩

theorem Ret.leaves_fault {α : Type} {e : Fault} {P : State → Prop} : (Ret.fault (α := α) e).Leaves P :=
  ⟨fun _ _ e => (nomatch e), fun _ e => nomatch e⟩

theorem Ret.leaves_refuse {α : Type} {e : Refusal} {P : State → Prop} : (Ret.refuse (α := α) e).Leaves P :=
  ⟨fun _ _ e => (nomatch e), fun _ e => nomatch e⟩

theorem Ret.Leaves.bind {α β : Type} {r : Ret α} {f : α → State → Ret β} {P : State → Prop} (h : r.Leaves P)
    (hf : ∀ a s, P s → (f a s).Leaves P) : (r.bind f).Leaves P := by
  cases r with
  | val a s => exact hf a s (h.1 a s rfl)
  | hang s => exact Ret.leaves_hang (h.2 s rfl)
  | fault e => exact Ret.leaves_fault
  | refuse e => exact Ret.leaves_refuse

theorem Ret.Leaves.mono {α : Type} {r : Ret α} {P Q : State → Prop} (h : r.Leaves P) (hpq : ∀ s, P s → Q s) :
    r.Leaves Q := ⟨fun a s e => hpq s (h.1 a s e), fun s e => hpq s (h.2 s e)⟩

theorem Ret.leaves_ite {α : Type} {c : Prop} [Decidable c] {x y : Ret α} {P : State → Prop} (hx : c → x.Leaves P)
    (hy : ¬ c → y.Leaves P) : (if c then x else y).Leaves P := by
  split
  · exact hx ‹_›
  · exact hy ‹_›

/-- The statuses that a part can end with. -/
def Ret.Gives (r : Ret Status) (l : List Status) : Prop := ∀ st s, r = .val st s → st ∈ l

theorem Ret.gives_val {st : Status} {s : State} {l : List Status} (h : st ∈ l) : (Ret.val st s).Gives l :=
  fun _ _ e => by cases e; exact h

theorem Ret.gives_bind {α : Type} {r : Ret α} {f : α → State → Ret Status} {l : List Status}
    (h : ∀ a s, r = .val a s → (f a s).Gives l) : (r.bind f).Gives l := by
  cases r with
  | val a s => exact h a s rfl
  | hang s => exact fun _ _ e => nomatch e
  | fault e => exact fun _ _ e => nomatch e
  | refuse e => exact fun _ _ e => nomatch e

theorem Ret.gives_ite {c : Prop} [Decidable c] {x y : Ret Status} {l : List Status} (hx : c → x.Gives l)
    (hy : ¬ c → y.Gives l) : (if c then x else y).Gives l := by
  split
  · exact hx ‹_›
  · exact hy ‹_›

/-! ## The busy-wait -/

theorem waitReady_val {s : State} (h : s.answers) : waitReady s = .val () (s.setBus s.bus.waited) := by
  simp [waitReady, h]

theorem waitReady_hang {s : State} (h : ¬ s.answers) :
    waitReady s = .hang ((s.setBus (s.bus.log .notReady)).setPhase .waitRdy) := by
  simp only [State.answers, Bool.not_eq_false] at h
  simp [waitReady, h]

/-! ## The events of `command` -/

theorem map_ale_columnBytes (s : State) (v : Variant) (k : Nat) :
    (columnBytes v s.conf.bus16 k).map BusEvent.ale = columnEvents s v k := by
  cases v <;> simp [columnBytes, columnEvents, busColumn]

theorem map_ale_rowAddrBytes (s : State) (r : Nat) :
    (rowAddrBytes s.geo.row3 r).map BusEvent.ale = rowEvents s r := by
  cases h : s.geo.row3 <;> simp [rowAddrBytes, rowEvents, h]

theorem map_ale_rbBytes (s : State) (cmd : Cmd) (rb : Option Nat) :
    (rbBytes cmd s.geo.row3 rb).map BusEvent.ale = (rb.map (operandEvents s cmd)).getD [] := by
  cases rb with
  | none => rfl
  | some r =>
    have hk : (rbKind cmd = .singleByte) ↔ cmd ∈ byteCommands := by cases cmd <;> simp [rbKind]
    simp only [rbBytes, operandEvents, Option.map_some, Option.getD_some]
    by_cases h : rbKind cmd = .singleByte
    · rw [if_pos h, if_pos (hk.1 h)]; rfl
    · rw [if_neg h, if_neg fun e => h (hk.2 e)]; exact map_ale_rowAddrBytes s r

/-- The bus after the events of `command`, before its wait. -/
def methodBus (s : State) (cmd : Cmd) (rb col : Option Nat) : Bus :=
  match s.variant with
  | .small => cmdSmall s cmd rb col
  | .large => cmdLarge s (redirectOob s cmd col).1 rb (redirectOob s cmd col).2

theorem waits_eq (cmd : Cmd) : waits cmd = decide (cmd ∈ waitingCommands) := by
  cases cmd <;> simp [waits, waitingCommands]

theorem command_eq (s : State) (cmd : Cmd) (rb col : Option Nat) :
    command s cmd rb col =
      if cmd ∈ waitingCommands then waitReady (s.setBus (methodBus s cmd rb col))
      else .val () (s.setBus (methodBus s cmd rb col)) := by
  have hw (c : Cmd) : (waits c = true) ↔ c ∈ waitingCommands := by simp [waits_eq]
  unfold command methodBus
  cases s.variant with
  | small => simp only [hw]
  | large =>
    unfold redirectOob
    by_cases h : cmd = .readoob
    · subst h; simp [hw, waitingCommands]
    · simp only [if_neg h, hw]

theorem areaPointer_quiet (p : Nat) (w : Bool) (k : Nat) : quietCmd (areaPointer p w k).1 = true := by
  unfold areaPointer
  repeat' split
  all_goals rfl

theorem ran_cmdSmall (s : State) (cmd : Cmd) (rb col : Option Nat) :
    Bus.Ran (quietCmd cmd) (smallEvents s cmd rb col) s.bus (cmdSmall s cmd rb col) := by
  have hp (k : Nat) : pointerOf s k = areaPointer s.geo.pageSize.toNat s.conf.bus16 k := rfl
  cases col with
  | none =>
    have := ((Bus.ran_cle s.par.cmds s.bus cmd).trans (Bus.ran_ales (commandAddress s .small cmd rb none) _)).trans
      (Bus.ran_idleLatch _)
    simpa [cmdSmall, smallEvents, commandAddress, map_ale_rbBytes, State.cle] using this
  | some k =>
    by_cases h : cmd = .seqin
    · have := (((Bus.ran_cle s.par.cmds s.bus (pointerOf s k).1).trans (Bus.ran_cle s.par.cmds _ cmd)).trans
        (Bus.ran_ales (commandAddress s .small cmd rb (some (pointerOf s k).2)) _)).trans (Bus.ran_idleLatch _)
      simpa [cmdSmall, smallEvents, commandAddress, map_ale_rbBytes, map_ale_columnBytes, h, hp, State.cle,
        areaPointer_quiet] using this
    · have := ((Bus.ran_cle s.par.cmds s.bus cmd).trans (Bus.ran_ales (commandAddress s .small cmd rb (some k)) _)).trans
        (Bus.ran_idleLatch _)
      simpa [cmdSmall, smallEvents, commandAddress, map_ale_rbBytes, map_ale_columnBytes, h, State.cle] using this

theorem ran_cmdLarge (s : State) (cmd : Cmd) (rb col : Option Nat) :
    Bus.Ran (quietCmd cmd) (largeEventsOf s cmd rb col) s.bus (cmdLarge s cmd rb col) := by
  have hb := ((Bus.ran_cle s.par.cmds s.bus cmd).trans (Bus.ran_ales (commandAddress s .large cmd rb col) _)).trans
    (Bus.ran_idleLatch _)
  have he : [s.latch cmd] ++ (commandAddress s .large cmd rb col).map .ale ++ [.idle] =
      s.latch cmd :: (col.map (columnEvents s .large)).getD [] ++ (rb.map (operandEvents s cmd)).getD [] ++ [.idle] := by
    cases col <;> simp [commandAddress, map_ale_rbBytes, map_ale_columnBytes]
  rw [he] at hb
  unfold cmdLarge largeEventsOf
  by_cases h : cmd = .read0
  · subst h
    exact hb.trans ((Bus.ran_cle s.par.cmds _ .readstart).trans (Bus.ran_idleLatch _))
  · simpa [h, State.cle] using hb

/-- `command` emits the events of the selected method, then waits when its command asks for it. -/
theorem ran_methodBus (s : State) (cmd : Cmd) (rb col : Option Nat) :
    Bus.Ran (quietCmd cmd) (commandEvents s cmd rb col) s.bus (methodBus s cmd rb col) := by
  unfold methodBus commandEvents
  cases s.variant with
  | small => exact ran_cmdSmall s cmd rb col
  | large =>
    unfold largeEvents redirectOob
    by_cases h : cmd = .readoob
    · subst h
      exact ran_cmdLarge s .read0 rb (some (col.getD 0 + s.geo.pageSize.toNat))
    · simpa [h] using ran_cmdLarge s cmd rb col

/-! ### What those events are not -/

theorem columnEvents_stays (s : State) (v : Variant) (k : Nat) : ∀ e ∈ columnEvents s v k, e.stays := by
  intro e he
  cases v <;> simp [columnEvents] at he
  · subst he; exact fun _ => rfl
  · rcases he with rfl | rfl <;> exact fun _ => rfl

theorem operandEvents_stays (s : State) (cmd : Cmd) (rb : Option Nat) :
    ∀ e ∈ (rb.map (operandEvents s cmd)).getD [], e.stays := by
  intro e he
  rw [← map_ale_rbBytes] at he
  obtain ⟨b, -, rfl⟩ := List.mem_map.1 he
  exact fun _ => rfl

/-- No event of `command` is a chip-select. -/
theorem commandEvents_stays (s : State) (cmd : Cmd) (rb col : Option Nat) : ∀ e ∈ commandEvents s cmd rb col, e.stays := by
  have hc (c : Cmd) : (s.latch c).stays := fun _ => rfl
  have hi : BusEvent.idle.stays := fun _ => rfl
  have hlarge (cmd : Cmd) (col : Option Nat) : ∀ e ∈ largeEventsOf s cmd rb col, e.stays := by
    have hcol : ∀ e ∈ (col.map (columnEvents s .large)).getD [], e.stays := by
      cases col with
      | none => simp
      | some k => exact columnEvents_stays s .large k
    have hop := operandEvents_stays s cmd rb
    intro e hm
    simp only [largeEventsOf, List.cons_append, List.mem_cons, List.mem_append, List.not_mem_nil, or_false] at hm
    rcases hm with rfl | ((hm | hm) | rfl) | hm
    · exact hc _
    · exact hcol e hm
    · exact hop e hm
    · exact hi
    · split at hm
      · simp only [List.mem_cons, List.not_mem_nil, or_false] at hm
        rcases hm with rfl | rfl
        · exact hc _
        · exact hi
      · simp at hm
  unfold commandEvents
  cases s.variant with
  | large =>
    unfold largeEvents
    dsimp only
    split
    · exact hlarge _ _
    · exact hlarge _ _
  | small =>
    have hop := operandEvents_stays s cmd rb
    intro e hm
    simp only [smallEvents, List.mem_append, List.mem_singleton] at hm
    rcases hm with (hm | hm) | rfl
    · cases col with
      | none => simp only [List.mem_singleton] at hm; subst hm; exact hc _
      | some k =>
        dsimp only at hm
        split at hm
        · simp only [List.cons_append, List.nil_append, List.mem_cons] at hm
          rcases hm with rfl | rfl | hm
          · exact hc _
          · exact hc _
          · exact columnEvents_stays s .small _ e hm
        · rcases List.mem_cons.1 hm with rfl | hm
          · exact hc _
          · exact columnEvents_stays s .small _ e hm
    · exact hop e hm
    · exact hi

/-- A command without operands is its latch and the latch becoming idle, by either method. -/
theorem commandEvents_bare (s : State) {cmd : Cmd} (h0 : cmd ≠ .read0) (h5 : cmd ≠ .readoob) :
    commandEvents s cmd none none = [s.latch cmd, .idle] := by
  unfold commandEvents
  cases s.variant <;> simp [smallEvents, largeEvents, largeEventsOf, h0, h5]

/-- A command with a single-byte operand, by either method. -/
theorem commandEvents_single (s : State) {cmd : Cmd} (a : Nat) (h : cmd ∈ byteCommands) :
    commandEvents s cmd (some a) none = [s.latch cmd, .ale (BitVec.ofNat 8 a), .idle] := by
  have h0 : cmd ≠ .read0 := by rintro rfl; simp at h
  have h5 : cmd ≠ .readoob := by rintro rfl; simp at h
  unfold commandEvents
  cases s.variant <;> simp only [smallEvents, largeEvents, largeEventsOf, h0, h5, if_false, operandEvents, h, if_true,
    Option.map_some, Option.map_none, Option.getD_some, Option.getD_none, List.append_nil] <;> rfl

/-! ## `command` and the sequences built on it -/

/-- A run of events that selects no other chip leaves the selected chip as ready as it was. -/
theorem Bus.Ran.answers {q : Bool} {s : State} {l : List BusEvent} {b : Bus} (h : Bus.Ran q l s.bus b)
    (hl : ∀ e ∈ l, e.stays) (ha : s.answers) : (s.setBus b).answers := by
  exact (h.neverReady (foldl_pick hl _)).trans ha

/-- `command` on a chip that becomes ready: its events, then the wait when its command asks for one. -/
theorem command_val {s : State} {cmd : Cmd} {rb col : Option Nat} (ha : cmd ∈ waitingCommands → s.answers) :
    ∃ n b, command s cmd rb col = .val () (s.setBus b) ∧
      Bus.Ran (quietCmd cmd) (commandEvents s cmd rb col ++ if cmd ∈ waitingCommands then [.wait n] else []) s.bus b := by
  have hr := ran_methodBus s cmd rb col
  rw [command_eq]
  by_cases hw : cmd ∈ waitingCommands
  · refine ⟨(methodBus s cmd rb col).polls, (methodBus s cmd rb col).waited, ?_, ?_⟩
    · rw [if_pos hw, waitReady_val (hr.answers (commandEvents_stays _ _ _ _) (ha hw))]; rfl
    · rw [if_pos hw]; exact (hr.trans (Bus.ran_waited _)).weaken fun h => by simp [h]
  · exact ⟨0, methodBus s cmd rb col, by rw [if_neg hw], by rw [if_neg hw, List.append_nil]; exact hr⟩

/-- `command` that does not wait. -/
theorem command_noWait (s : State) {cmd : Cmd} (rb col : Option Nat) (hw : cmd ∉ waitingCommands) :
    command s cmd rb col = .val () (s.setBus (methodBus s cmd rb col)) := by rw [command_eq, if_neg hw]

/-- The read-status sequence. -/
theorem readStatus_val (s : State) :
    ∃ v b, readStatus s = .val v ((s.setBus b).setRes (v.setWidth 64)) ∧
      Bus.Ran true [s.latch .status, .idle, .rd8 v] s.bus b := by
  have hr := ran_methodBus s .status none none
  rw [commandEvents_bare s (by decide) (by decide)] at hr
  refine ⟨_, _, ?_, hr.trans (Bus.ran_rd8 _)⟩
  simp only [readStatus, command_noWait s none none (cmd := .status) (by decide), Ret.bind_val]
  rfl

/-- The confirm of a program or an erase on a chip that becomes ready. -/
theorem confirm_val {s : State} {c : Cmd} {failure : Status} (ha : s.answers) (hc : c = .pageprog ∨ c = .erase2) :
    ∃ n v b, confirm s c failure = .val (if s.tellsFailure v then failure else .success)
        ((s.setBus b).setRes (v.setWidth 64)) ∧ Bus.Ran false (confirmEvents s c n v) s.bus b := by
  have hw : c ∉ waitingCommands := by rcases hc with rfl | rfl <;> decide
  have h0 : c ≠ .read0 := by rcases hc with rfl | rfl <;> decide
  have h5 : c ≠ .readoob := by rcases hc with rfl | rfl <;> decide
  have hr := ran_methodBus s c none none
  rw [commandEvents_bare s h0 h5] at hr
  have ha1 := hr.answers (by intro e he; simp at he; rcases he with rfl | rfl <;> exact fun _ => rfl) ha
  have hr2 := hr.trans (Bus.ran_waited _)
  obtain ⟨v, b, h1, h2⟩ := readStatus_val (s.setBus (methodBus s c none none).waited)
  refine ⟨_, v, b, ?_, (hr2.trans h2).weaken (by simp)⟩
  have h1' : readStatus ((s.setBus (methodBus s c none none)).setBus (methodBus s c none none).waited) =
      .val v ((s.setBus b).setRes (v.setWidth 64)) := h1
  simp only [confirm, command_noWait s none none hw, Ret.bind_val, waitReady_val ha1, State.setBus_bus, h1']
  rfl

/-- The READID sequence. -/
theorem readIdBytes_val (s : State) (a : Byte) (n : Nat) :
    ∃ l b, readIdBytes s a n = .val l (s.setBus b) ∧ l.length = n ∧
      Bus.Ran true ([s.latch .readid, .ale a, .idle] ++ l.map .rd8) s.bus b := by
  have hr := ran_methodBus s .readid (some a.toNat) none
  rw [commandEvents_single s a.toNat (by decide)] at hr
  simp only [BitVec.ofNat_toNat, BitVec.setWidth_eq] at hr
  refine ⟨_, _, ?_, Bus.length_rd8s _ _, hr.trans (Bus.ran_rd8s n _)⟩
  simp only [readIdBytes, command_noWait s (some a.toNat) none (cmd := .readid) (by decide), Ret.bind_val]
  rfl

/-- The GET FEATURES sequence. -/
theorem getFeature_val {s : State} (ha : s.answers) (a : Byte) :
    ∃ n l b, getFeature s a = .val l (s.setBus b) ∧ l.length = 4 ∧
      Bus.Ran true ([s.latch .getfeat, .ale a, .idle, .wait n] ++ l.map .rd8) s.bus b := by
  obtain ⟨n, b, h1, h2⟩ := command_val (cmd := .getfeat) (rb := some a.toNat) (col := none) fun _ => ha
  rw [commandEvents_single s a.toNat (by decide)] at h2
  simp only [BitVec.ofNat_toNat, BitVec.setWidth_eq, waitingCommands] at h2
  refine ⟨n, _, _, ?_, Bus.length_rd8s _ _, h2.trans (Bus.ran_rd8s 4 b)⟩
  simp only [getFeature, h1, Ret.bind_val]
  rfl

/-- The SET FEATURES sequence. -/
theorem setFeature_val {s : State} (ha : s.answers) (a : Byte) (p : List Byte) :
    ∃ n b, setFeature s a p = .val () (s.setBus b) ∧
      Bus.Ran true [s.latch .setfeat, .ale a, .idle, .wrBuf p, .wait n] s.bus b := by
  have hr := ran_methodBus s .setfeat (some a.toNat) none
  rw [commandEvents_single s a.toNat (by decide)] at hr
  simp only [BitVec.ofNat_toNat, BitVec.setWidth_eq] at hr
  have hr2 := hr.trans (Bus.ran_wrBuf _ p)
  have ha1 := hr2.answers (by intro e he; simp at he; rcases he with rfl | rfl | rfl | rfl <;> exact fun _ => rfl) ha
  refine ⟨_, _, ?_, hr2.trans (Bus.ran_waited _)⟩
  simp only [setFeature, command_noWait s (some a.toNat) none (cmd := .setfeat) (by decide), Ret.bind_val, State.wrBuf,
    State.setBus_bus]
  exact waitReady_val ha1

/-- The reset sequence. -/
theorem nandReset_events {s : State} (ha : s.answers) :
    ∃ n b, command s .reset none none = .val () (s.setBus b) ∧
      Bus.Ran true [s.latch .reset, .idle, .wait n] s.bus b := by
  obtain ⟨n, b, h1, h2⟩ := command_val (cmd := .reset) (rb := none) (col := none) fun _ => ha
  rw [commandEvents_bare s (by decide) (by decide)] at h2
  exact ⟨n, b, h1, h2⟩

/-- The command of a byte has that byte. -/
@[simp] theorem byte_read (t : CmdBytes) (b : Byte) : t.byte (t.read b) = b := by
  unfold CmdBytes.read
  cases h : tableCmds.find? fun c => t.byte c == b with
  | none => rfl
  | some c => simpa using List.find?_some h

/-! ## Guards and the lock -/

theorem withDevice_pos {s : State} {fits : Bool} {k : Ret Status} (hd : s.detected = true) (hb : fits = true) :
    withDevice s fits k = k := by simp [withDevice, hd, hb]

theorem withDevice_misfit {s : State} {fits : Bool} {k : Ret Status} (hd : s.detected = true) (hb : fits = false) :
    withDevice s fits k = .val .invalidAddress s := by simp [withDevice, hd, hb]

theorem withDevice_none {s : State} {fits : Bool} {k : Ret Status} (hd : s.detected = false) :
    withDevice s fits k = .val .noDevice s := by
  simp [withDevice, hd]

/-- A sequence under the lock: taken before, released after. -/
theorem locked_val {s t : State} {body : State → Ret Status} {st : Status} (hl : s.lock = false)
    (hb : body (s.setLock true) = .val st t) : locked s body = .val st (t.setLock false) := by
  simp [locked, acquire, hl, hb]

/-! ## The OOB scratch buffer -/

theorem tablePositions_length (t : RangeTable) : (tablePositions t).length = tableBytes t := by
  simp only [tablePositions, tableBytes, List.length_flatMap, List.length_map, List.length_range]

/-- How many bytes a request moves. -/
theorem oobPositions_length {s : State} {m : OobMode} {off size : Nat} (h : m = .auto → off + size ≤ tableBytes s.freeTab) :
    (s.oobPositions m off size).length = size := by
  cases m with
  | raw => simp [State.oobPositions]
  | auto =>
    have := h rfl
    simp [State.oobPositions, tablePositions_length]
    omega

/-- Where byte `b` of a request stands. -/
theorem oobPositions_getD {s : State} {m : OobMode} {off size b : Nat} (hb : b < size)
    (h : m = .auto → off + size ≤ tableBytes s.freeTab) :
    (s.oobPositions m off size).getD b 0 =
      match m with
      | .auto => (tablePositions s.freeTab).getD (off + b) 0
      | .raw => off + b := by
  cases m with
  | raw => simp [State.oobPositions, List.getD, hb]
  | auto => simp [State.oobPositions, List.getD, hb]

/-- Gathering: the bytes, and the frame. -/
theorem gatherOob_val {s : State} {m : OobMode} {off size : Nat} (hw : s.obuf.wf) (hp : s.placeable m size = true)
    (h : m = .auto → off + size ≤ tableBytes s.freeTab) :
    ∃ o, gatherOob s m off size = .val .success (s.setObuf o) ∧ o.wf ∧
      (∀ b, b < size → o.read b = s.oobs.read ((s.oobPositions m off size).getD b 0)) ∧
      ∀ a, size ≤ a → o.read a = s.obuf.read a := by
  refine ⟨_, by rw [gatherOob, if_pos hp], Memory.wf_writeBytes hw _ _, ?_, ?_⟩
  · intro b hb
    have hlen := oobPositions_length (s := s) h
    have := Memory.read_writeBytes_inside hw 0 b ((s.oobPositions m off size).map s.oobs.read) (by simp [hlen, hb])
    rw [Nat.zero_add] at this
    have hb' : b < (s.oobPositions m off size).length := by omega
    rw [this, List.getElem_map, List.getD_eq_getElem?_getD, List.getElem?_eq_getElem hb', Option.getD_some]
  · intro a ha
    exact Memory.read_writeBytes_outside _ _ _ _ (by simp [oobPositions_length (s := s) h]; omega)

end Sys2Proof.Machine
end

