-- ==== Sys2Proof/Laws/Oob.lean ====
section
/-! SUPPORT. The range tables, the OOB scratch buffer, and the places of the ECC triples in it. -/

namespace Sys2Proof.Machine

/-! ## Range tables -/

/-- The offsets of one pair of a table. -/
def entryPositions (e : RangeEntry) : List Nat := (List.range e.size.toNat).map fun i => e.off.toNat + i

theorem tablePositions_eq (t : RangeTable) : tablePositions t = (tableRanges t).flatMap entryPositions := rfl

theorem mem_entryPositions {e : RangeEntry} {a : Nat} :
    a ∈ entryPositions e ↔ e.off.toNat ≤ a ∧ a < e.off.toNat + e.size.toNat := by
  simp only [entryPositions, List.mem_map, List.mem_range]
  constructor
  · rintro ⟨i, hi, rfl⟩; omega
  · rintro ⟨h1, h2⟩; exact ⟨a - e.off.toNat, by omega, by omega⟩

theorem pairwise_of_allDisjoint {l : RangeTable} (h : allDisjoint l = true) :
    l.Pairwise fun x y => (entryPositions x).Disjoint (entryPositions y) := by
  induction l with
  | nil => exact List.Pairwise.nil
  | cons x l ih =>
    simp only [allDisjoint, Bool.and_eq_true, List.all_eq_true] at h
    refine List.Pairwise.cons (fun y hy a hx ha => ?_) (ih h.2)
    have := h.1 y hy
    simp only [rangesDisjoint, Bool.or_eq_true, decide_eq_true_eq] at this
    rw [mem_entryPositions] at hx ha
    omega

/-- In well-formed tables no OOB byte belongs to two places, and every place is a byte of the OOB area. -/
theorem tables_nodup {free ecc : RangeTable} {n : Nat} (h : tablesWellFormed free ecc n = true) :
    (tablePositions free ++ tablePositions ecc).Nodup ∧
      ∀ a ∈ tablePositions free ++ tablePositions ecc, a < n := by
  simp only [tablesWellFormed, Bool.and_eq_true, List.all_eq_true, decide_eq_true_eq] at h
  have he : tablePositions free ++ tablePositions ecc = (tableRanges free ++ tableRanges ecc).flatMap entryPositions := by
    rw [List.flatMap_append]; rfl
  rw [he]
  constructor
  · rw [List.nodup_flatMap]
    refine ⟨fun e _ => ?_, pairwise_of_allDisjoint h.2⟩
    exact List.Nodup.map (fun a b hab => by simpa using hab) List.nodup_range
  · intro a ha
    obtain ⟨e, he, hae⟩ := List.mem_flatMap.1 ha
    have := h.1.2 e he
    rw [mem_entryPositions] at hae
    omega

theorem free_nodup {free ecc : RangeTable} {n : Nat} (h : tablesWellFormed free ecc n = true) :
    (tablePositions free).Nodup := (List.nodup_append.1 (tables_nodup h).1).1

theorem ecc_nodup {free ecc : RangeTable} {n : Nat} (h : tablesWellFormed free ecc n = true) :
    (tablePositions ecc).Nodup := (List.nodup_append.1 (tables_nodup h).1).2.1

theorem free_not_ecc {free ecc : RangeTable} {n : Nat} (h : tablesWellFormed free ecc n = true) {a : Nat}
    (ha : a ∈ tablePositions free) : a ∉ tablePositions ecc := fun hb =>
  (List.nodup_append.1 (tables_nodup h).1).2.2 a ha a hb rfl

/-! ## Requests -/

/-- The places of a request are distinct bytes of the OOB area. -/
theorem oobPositions_nodup {s : State} {m : OobMode} {off size : Nat} (hp : s.placeable m size = true) :
    (s.oobPositions m off size).Nodup := by
  cases m with
  | raw => exact List.Nodup.map (fun a b hab => by simpa using hab) List.nodup_range
  | auto =>
    simp only [State.placeable, Bool.or_eq_true, beq_iff_eq, reduceCtorEq, false_or] at hp
    rcases hp with rfl | hp
    · simp [State.oobPositions]
    · exact ((free_nodup hp).sublist (List.drop_sublist _ _)).sublist (List.take_sublist _ _)

theorem oobPositions_lt {s : State} {m : OobMode} {off size a : Nat} (hp : s.placeable m size = true)
    (h : m = .raw → off + size ≤ s.geo.oobSize.toNat) (ha : a ∈ s.oobPositions m off size) : a < s.geo.oobSize.toNat := by
  cases m with
  | raw =>
    simp only [State.oobPositions, List.mem_map, List.mem_range] at ha
    obtain ⟨b, hb, rfl⟩ := ha
    have := h rfl
    omega
  | auto =>
    simp only [State.placeable, Bool.or_eq_true, beq_iff_eq, reduceCtorEq, false_or] at hp
    rcases hp with rfl | hp
    · simp [State.oobPositions] at ha
    · exact (tables_nodup hp).2 a (List.mem_append_left _ (List.mem_of_mem_drop (List.mem_of_mem_take ha)))

/-- What blanking the OOB area leaves. -/
theorem read_blankOobs (s : State) (a : Nat) :
    s.blankOobs.oobs.read a = if a < s.geo.oobSize.toNat then 0xFF#8 else s.oobs.read a := by
  simp [State.blankOobs, Memory.read_clearRange]

theorem blankOobs_wf {s : State} (h : s.oobs.wf) : s.blankOobs.oobs.wf := Memory.wf_clearRange h _ _

/-- Scattering: the bytes, the blank rest of the OOB area, and the frame. -/
theorem scatterOob_val {s : State} {m : OobMode} {off size : Nat} (hw : s.oobs.wf) (hp : s.placeable m size = true)
    (h : m = .auto → off + size ≤ tableBytes s.freeTab) (hr : m = .raw → off + size ≤ s.geo.oobSize.toNat) :
    ∃ o, scatterOob s m off size = .val .success (s.setOobs o) ∧ o.wf ∧
      (∀ b, b < size → o.read ((s.oobPositions m off size).getD b 0) = s.obuf.read b) ∧
      (∀ a, a < s.geo.oobSize.toNat → (∀ b, b < size → a ≠ (s.oobPositions m off size).getD b 0) →
        o.read a = 0xFF#8) ∧
      ∀ a, s.geo.oobSize.toNat ≤ a → o.read a = s.oobs.read a := by
  have hlen := oobPositions_length (s := s) h
  have hz : ((s.oobPositions m off size).zip (s.obuf.readBytes 0 size)).map Prod.fst = s.oobPositions m off size := by
    rw [List.map_fst_zip]; simp [hlen]
  refine ⟨s.blankOobs.oobs.scatter ((s.oobPositions m off size).zip (s.obuf.readBytes 0 size)),
    by rw [scatterOob, if_pos hp]; rfl, Memory.wf_scatter (blankOobs_wf hw) _, ?_, ?_, ?_⟩
  · intro b hb
    have hb' : b < (s.oobPositions m off size).length := by omega
    have hb2 : b < (s.obuf.readBytes 0 size).length := by simpa using hb
    have hmem : ((s.oobPositions m off size)[b], (s.obuf.readBytes 0 size)[b]) ∈
        (s.oobPositions m off size).zip (s.obuf.readBytes 0 size) := by
      have : ((s.oobPositions m off size).zip (s.obuf.readBytes 0 size))[b]'(by simp [hlen, hb]) =
        ((s.oobPositions m off size)[b], (s.obuf.readBytes 0 size)[b]) := by simp
      rw [← this]; exact List.getElem_mem _
    have := Memory.read_scatter_inside (blankOobs_wf hw) _ (by rw [hz]; exact oobPositions_nodup hp) _ hmem
    rw [List.getD_eq_getElem?_getD, List.getElem?_eq_getElem hb', Option.getD_some]
    rw [this]; simp
  · intro a ha hn
    rw [Memory.read_scatter_outside, read_blankOobs, if_pos ha]
    intro p hp1 he
    have : p.1 ∈ s.oobPositions m off size := by rw [← hz]; exact List.mem_map_of_mem hp1
    obtain ⟨b, hb, hbe⟩ := List.getElem_of_mem this
    refine hn b (by omega) ?_
    rw [List.getD_eq_getElem?_getD, List.getElem?_eq_getElem hb, Option.getD_some, hbe, he]
  · intro a ha
    rw [Memory.read_scatter_outside, read_blankOobs, if_neg (by omega)]
    intro p hp1 he
    have hm : p.1 ∈ s.oobPositions m off size := by rw [← hz]; exact List.mem_map_of_mem hp1
    have := oobPositions_lt hp hr hm
    omega

/-! ## The places of the triples -/

theorem triplePos_mem {s : State} (hl : 3 * s.geo.chunks ≤ tableBytes s.eccTab) {i k : Nat} (hi : i < s.geo.chunks)
    (hk : k < 3) : triplePos s i k ∈ tablePositions s.eccTab := by
  have hlen := tablePositions_length s.eccTab
  have hg (n : Nat) (hb : n < (tablePositions s.eccTab).length) :
      (tablePositions s.eccTab).getD n 0 ∈ tablePositions s.eccTab := by
    rw [List.getD_eq_getElem?_getD, List.getElem?_eq_getElem hb, Option.getD_some]
    exact List.getElem_mem _
  unfold triplePos
  cases s.conf.eccOrder
  · exact hg _ (by dsimp only; omega)
  · exact hg _ (by dsimp only; omega)

/-- The bytes of all triples have places of their own. -/
theorem triplePos_inj {s : State} (hn : (tablePositions s.eccTab).Nodup) (hl : 3 * s.geo.chunks ≤ tableBytes s.eccTab)
    {i j k m : Nat} (hi : i < s.geo.chunks) (hj : j < s.geo.chunks) (hk : k < 3) (hm : m < 3)
    (he : triplePos s i k = triplePos s j m) : i = j ∧ k = m := by
  have hlen := tablePositions_length s.eccTab
  unfold triplePos at he
  cases ho : s.conf.eccOrder <;> simp only [ho] at he
  · have h1 : 3 * i + k < (tablePositions s.eccTab).length := by omega
    have h2 : 3 * j + m < (tablePositions s.eccTab).length := by omega
    rw [List.getD_eq_getElem?_getD, List.getD_eq_getElem?_getD, List.getElem?_eq_getElem h1,
      List.getElem?_eq_getElem h2, Option.getD_some, Option.getD_some] at he
    have := (List.Nodup.getElem_inj_iff hn).1 he
    omega
  · have h1 : 3 * i + 2 - k < (tablePositions s.eccTab).length := by omega
    have h2 : 3 * j + 2 - m < (tablePositions s.eccTab).length := by omega
    rw [List.getD_eq_getElem?_getD, List.getD_eq_getElem?_getD, List.getElem?_eq_getElem h1,
      List.getElem?_eq_getElem h2, Option.getD_some, Option.getD_some] at he
    have := (List.Nodup.getElem_inj_iff hn).1 he
    omega

end Sys2Proof.Machine
end

