-- ==== Sys2Proof/Laws/Page.lean ====
section
/-! SUPPORT. The ECC loops of the page operations: what checking and what placing the triples of all chunks does. -/

namespace Sys2Proof.Machine

/-! ## One chunk -/

theorem natOfBits_lt (l : List Bool) : natOfBits l < 2 ^ l.length := by
  induction l with
  | nil => simp [natOfBits]
  | cons b l ih =>
    have := Bool.toNat_lt b
    rw [natOfBits, List.length_cons, pow_succ]
    omega

theorem synErrorByte_lt (x : Triple) : synErrorByte x < 256 := by
  have := natOfBits_lt ((List.range 8).map fun j => (x.b ++ x.a).getLsbD (2 * j + 1))
  simpa [synErrorByte] using this

/-- ECC.CALC on a chunk writes the triple and the accumulators. -/
theorem calcChunk_eq (s : State) (off : Nat) :
    calcChunk s off =
      { s with eccCa := eccTriple s.par.eccLow2 (s.chunk off), acc := EccAcc.zero.feedAll 0 (s.chunk off) } := by
  simp only [calcChunk, State.setEccCa, State.setAcc]

/-- What ECC.CORRECT makes of a chunk, given the stored and the computed triple (40_ecc.md R133). -/
def repair (rd ca : Triple) (c : List Byte) : Status × List Byte :=
  let syn := syndrome rd ca
  if synWeight syn = 0 then (.success, c)
  else if synWeight syn = 11 then
    (.eccFixed, c.set (synErrorByte syn) (c.getD (synErrorByte syn) 0 ^^^ (1#8 <<< synErrorBit syn)))
  else if synWeight syn = 1 then (.eccFixed, c)
  else (.eccUncorrectable, c)

theorem Memory.readBytes_getD (m : Memory) (base n i : Nat) (h : i < n) : (m.readBytes base n).getD i 0 = m.read (base + i) := by
  rw [List.getD_eq_getElem?_getD, List.getElem?_eq_getElem (by simpa using h), Option.getD_some, Memory.getElem_readBytes]

theorem Memory.readBytes_write {m : Memory} (hm : m.wf) (base n i : Nat) (v : Byte) :
    (m.write (base + i) v).readBytes base n = (m.readBytes base n).set i v := by
  apply List.ext_getElem (by simp)
  intro j h1 h2
  rw [Memory.getElem_readBytes, List.getElem_set, Memory.read_write hm, Memory.getElem_readBytes]
  by_cases e : i = j
  · subst e; simp
  · rw [if_neg (by omega), if_neg e]

/-- ECC.CORRECT on a chunk in `DBUF`. -/
theorem correctChunk_spec {s : State} (hw : s.dbuf.wf) (off : Nat) :
    ∃ d, correctChunk s off = ((repair s.eccRd s.eccCa (s.chunk off)).1, s.setDbuf d) ∧ d.wf ∧
      d.readBytes off 256 = (repair s.eccRd s.eccCa (s.chunk off)).2 ∧
      ∀ a, (a < off ∨ off + 256 ≤ a) → d.read a = s.dbuf.read a := by
  have hid : s = s.setDbuf s.dbuf := rfl
  unfold correctChunk repair
  dsimp only
  split_ifs
  · exact ⟨s.dbuf, by rw [← hid], hw, rfl, fun _ _ => rfl⟩
  · have hlt := synErrorByte_lt (syndrome s.eccRd s.eccCa)
    refine ⟨_, rfl, Memory.wf_write hw _ _, ?_, ?_⟩
    · rw [Memory.readBytes_write hw, State.chunk, Memory.readBytes_getD _ _ _ _ hlt]
    · intro a ha
      exact Memory.read_write_ne _ _ _ _ (by omega)
  · exact ⟨s.dbuf, by rw [← hid], hw, rfl, fun _ _ => rfl⟩
  · exact ⟨s.dbuf, by rw [← hid], hw, rfl, fun _ _ => rfl⟩

/-! ## Checking every chunk -/

/-- The registers and the buffer that checking chunks writes. -/
def State.setChecked (s : State) (d : Memory) (ca rd : Triple) (acc : EccAcc) : State :=
  { s with dbuf := d, eccCa := ca, eccRd := rd, acc := acc }

theorem checkChunk_spec {s : State} (hw : s.dbuf.wf) (i : Nat) :
    ∃ d acc, checkChunk s i = ((repair (getTriple s i) (eccTriple s.par.eccLow2 (s.chunk (256 * i))) (s.chunk (256 * i))).1,
        s.setChecked d (eccTriple s.par.eccLow2 (s.chunk (256 * i))) (getTriple s i) acc) ∧ d.wf ∧
      d.readBytes (256 * i) 256 =
        (repair (getTriple s i) (eccTriple s.par.eccLow2 (s.chunk (256 * i))) (s.chunk (256 * i))).2 ∧
      ∀ a, (a < 256 * i ∨ 256 * i + 256 ≤ a) → d.read a = s.dbuf.read a := by
  obtain ⟨e, he⟩ : ∃ e, eccTriple s.par.eccLow2 (s.chunk (256 * i)) = e := ⟨_, rfl⟩
  obtain ⟨acc, hacc⟩ : ∃ acc, EccAcc.zero.feedAll 0 (s.chunk (256 * i)) = acc := ⟨_, rfl⟩
  have hs : calcChunk s (256 * i) = { s with eccCa := e, acc := acc } := by rw [calcChunk_eq, he, hacc]
  obtain ⟨d, h1, h2, h3, h4⟩ := correctChunk_spec (s := ({ s with eccCa := e, acc := acc } : State).setEccRd (getTriple s i)) hw
    (256 * i)
  refine ⟨d, acc, ?_, h2, ?_, h4⟩
  · rw [checkChunk, hs, he]; exact h1
  · rw [he]; exact h3

/-- The verdict and the repair of chunk `i`, by what stands in `DBUF` and `OOBS`. -/
def State.verdict (s : State) (i : Nat) : Status × List Byte :=
  repair (getTriple s i) (eccTriple s.par.eccLow2 (s.chunk (256 * i))) (s.chunk (256 * i))

/-- Checking `n` chunks from chunk `i` on: every one is repaired on its own, and the verdicts are combined. -/
theorem checkChunks_spec (n i : Nat) (st : Status) {s : State} (hw : s.dbuf.wf) :
    ∃ d ca rd acc, checkChunks n i st s =
        (((List.range n).map fun j => (s.verdict (i + j)).1).foldl worst st, s.setChecked d ca rd acc) ∧ d.wf ∧
      (∀ j, j < n → d.readBytes (256 * (i + j)) 256 = (s.verdict (i + j)).2) ∧
      (∀ a, (a < 256 * i ∨ 256 * (i + n) ≤ a) → d.read a = s.dbuf.read a) ∧
      (n = 0 → ca = s.eccCa ∧ rd = s.eccRd ∧ acc = s.acc ∧ d = s.dbuf) := by
  induction n generalizing i st s with
  | zero =>
    exact ⟨s.dbuf, s.eccCa, s.eccRd, s.acc, rfl, hw, fun j hj => absurd hj (by omega), fun _ _ => rfl, fun _ =>
      ⟨rfl, rfl, rfl, rfl⟩⟩
  | succ n ih =>
    obtain ⟨d1, acc1, h1, h2, h3, h4⟩ := checkChunk_spec hw i
    obtain ⟨d, ca, rd, acc, g1, g2, g3, g4, -⟩ :=
      ih (i + 1) (worst st (checkChunk s i).1) (s := (checkChunk s i).2) (by rw [h1]; exact h2)
    have hv (j : Nat) : (checkChunk s i).2.verdict (i + 1 + j) = s.verdict (i + (j + 1)) := by
      rw [h1, show i + 1 + j = i + (j + 1) by omega]
      have hc : (s.setChecked d1 (eccTriple s.par.eccLow2 (s.chunk (256 * i))) (getTriple s i) acc1).chunk
          (256 * (i + (j + 1))) = s.chunk (256 * (i + (j + 1))) :=
        Memory.readBytes_congr fun k hk => h4 _ (by omega)
      rw [State.verdict, hc]; rfl
    refine ⟨d, ca, rd, acc, ?_, g2, ?_, ?_, fun h => absurd h (by omega)⟩
    · rw [checkChunks, g1, List.range_succ_eq_map, List.map_cons, List.foldl_cons, List.map_map]
      have e : (checkChunk s i).1 = (s.verdict (i + 0)).1 := by rw [h1]; rfl
      have e2 : (List.range n).map (fun j => ((checkChunk s i).2.verdict (i + 1 + j)).1) =
          (List.range n).map ((fun j => (s.verdict (i + j)).1) ∘ Nat.succ) :=
        List.map_congr_left fun j _ => by rw [hv]; rfl
      rw [e2, e, h1]; rfl
    · intro j hj
      cases j with
      | zero =>
        have : d.readBytes (256 * i) 256 = d1.readBytes (256 * i) 256 :=
          Memory.readBytes_congr fun k hk => by rw [g4 _ (by omega), h1]; rfl
        rw [Nat.add_zero, this, h3]; rfl
      | succ j =>
        have := g3 j (by omega)
        rw [hv, show i + 1 + j = i + (j + 1) by omega] at this
        exact this
    · intro a ha
      rw [g4 a (by omega), h1]
      exact h4 a (by omega)

/-! ## Placing every triple -/

/-- Byte `k` of a triple. -/
def tripleByte (t : Triple) : Nat → Byte
  | 0 => t.a
  | 1 => t.b
  | _ => t.c

/-- The registers and the scratch buffer that placing triples writes. -/
def State.setPlaced (s : State) (o : Memory) (ca : Triple) (acc : EccAcc) : State :=
  { s with oobs := o, eccCa := ca, acc := acc }

/-- Placing the triples of `n` chunks from chunk `i` on. -/
theorem placeTriples_spec (n i : Nat) {s : State} (hw : s.oobs.wf) (hn : (tablePositions s.eccTab).Nodup)
    (hl : 3 * s.geo.chunks ≤ tableBytes s.eccTab) (hi : i + n ≤ s.geo.chunks) :
    ∃ o ca acc, placeTriples n i s = s.setPlaced o ca acc ∧ o.wf ∧
      (∀ j k, j < n → k < 3 → o.read (triplePos s (i + j) k) =
        tripleByte (eccTriple s.par.eccLow2 (s.chunk (256 * (i + j)))) k) ∧
      (∀ a, (∀ j k, j < n → k < 3 → a ≠ triplePos s (i + j) k) → o.read a = s.oobs.read a) := by
  induction n generalizing i s with
  | zero => exact ⟨s.oobs, s.eccCa, s.acc, rfl, hw, fun j k hj => absurd hj (by omega), fun _ _ => rfl⟩
  | succ n ih =>
    obtain ⟨e, he⟩ : ∃ e, eccTriple s.par.eccLow2 (s.chunk (256 * i)) = e := ⟨_, rfl⟩
    obtain ⟨acc1, hacc⟩ : ∃ acc, EccAcc.zero.feedAll 0 (s.chunk (256 * i)) = acc := ⟨_, rfl⟩
    have hs : calcChunk s (256 * i) = { s with eccCa := e, acc := acc1 } := by rw [calcChunk_eq, he, hacc]
    let o1 := ((s.oobs.write (triplePos s i 0) e.a).write (triplePos s i 1) e.b).write (triplePos s i 2) e.c
    let s1 := putTriple { s with eccCa := e, acc := acc1 } i e
    have hw1 : o1.wf := Memory.wf_write (Memory.wf_write (Memory.wf_write hw _ _) _ _) _ _
    obtain ⟨o, ca, acc, g1, g2, g3, g4⟩ := ih (i + 1) (s := s1) hw1 hn hl (by show i + 1 + n ≤ s.geo.chunks; omega)
    have hp (j k : Nat) : triplePos s1 j k = triplePos s j k := rfl
    have hinj {j k m : Nat} (hj : j < s.geo.chunks) (hk : k < 3) (hm : m < 3) (h : i ≠ j ∨ m ≠ k) :
        triplePos s j k ≠ triplePos s i m := fun he => by
      have := triplePos_inj hn hl hj (show i < s.geo.chunks by omega) hk hm he
      omega
    refine ⟨o, ca, acc, by rw [placeTriples, hs]; exact g1, g2, ?_, ?_⟩
    · intro j k hj hk
      cases j with
      | zero =>
        rw [Nat.add_zero, he]
        have ho : o.read (triplePos s i k) = o1.read (triplePos s i k) :=
          g4 _ fun j m hj hm => by
            rw [hp]
            exact fun he => hinj (j := i + 1 + j) (by omega) hm hk (by omega) he.symm
        rw [ho]
        have hi' : i < s.geo.chunks := by omega
        have n12 := hinj (j := i) (k := 1) (m := 2) hi' (by omega) (by omega) (by omega)
        have n02 := hinj (j := i) (k := 0) (m := 2) hi' (by omega) (by omega) (by omega)
        have n01 := hinj (j := i) (k := 0) (m := 1) hi' (by omega) (by omega) (by omega)
        obtain rfl | rfl | rfl : k = 0 ∨ k = 1 ∨ k = 2 := by omega
        · rw [Memory.read_write_ne _ _ _ _ n02, Memory.read_write_ne _ _ _ _ n01, Memory.read_write_same hw]; rfl
        · rw [Memory.read_write_ne _ _ _ _ n12, Memory.read_write_same (Memory.wf_write hw _ _)]; rfl
        · rw [Memory.read_write_same (Memory.wf_write (Memory.wf_write hw _ _) _ _)]; rfl
      | succ j =>
        have := g3 j k (by omega) hk
        rw [hp, show i + 1 + j = i + (j + 1) by omega] at this
        exact this
    · intro a ha
      rw [g4 a fun j k hj hk => by rw [hp, show i + 1 + j = i + (j + 1) by omega]; exact ha (j + 1) k (by omega) hk]
      have h0 := ha 0 0 (by omega) (by omega)
      have h1 := ha 0 1 (by omega) (by omega)
      have h2 := ha 0 2 (by omega) (by omega)
      rw [Nat.add_zero] at h0 h1 h2
      show o1.read a = _
      rw [Memory.read_write_ne _ _ _ _ h2, Memory.read_write_ne _ _ _ _ h1, Memory.read_write_ne _ _ _ _ h0]

/-- After placing, the triple of every chunk is read back from its place. -/
theorem getTriple_placed {n : Nat} {s t : State} (ho : t.conf.eccOrder = s.conf.eccOrder) (he : t.eccTab = s.eccTab)
    (h : ∀ j k, j < n → k < 3 → t.oobs.read (triplePos s (0 + j) k) =
        tripleByte (eccTriple s.par.eccLow2 (s.chunk (256 * (0 + j)))) k) {i : Nat} (hi : i < n) :
    getTriple t i = eccTriple s.par.eccLow2 (s.chunk (256 * i)) := by
  have hp (k : Nat) : triplePos t i k = triplePos s i k := by unfold triplePos; rw [ho, he]
  have h0 := h i 0 hi (by omega)
  have h1 := h i 1 hi (by omega)
  have h2 := h i 2 hi (by omega)
  rw [Nat.zero_add] at h0 h1 h2
  simp only [getTriple, hp, h0, h1, h2]; rfl

end Sys2Proof.Machine
end

