-- ==== Sys2Proof/Laws/PageOps.lean ====
section
/-! SUPPORT. What the page operations do as sub-operations (44_page_ops.md), on a chip that becomes ready: the bus events,
the status and the state they leave. -/

namespace Sys2Proof.Machine

/-! ## Verdicts -/

theorem repair_same (x : Triple) (c : List Byte) : repair x x c = (.success, c) := by
  have h : synWeight (syndrome x x) = 0 := (synWeight_eq_zero x x).2 rfl
  simp [repair, h]

theorem length_flipBit (c : List Byte) (b k : Nat) : (flipBit c b k).length = c.length := by simp [flipBit]

theorem flipBit_flipBit (c : List Byte) (b k : Nat) : flipBit (flipBit c b k) b k = c := by
  apply List.ext_getElem (by simp [flipBit])
  intro i h1 h2
  simp only [flipBit, List.getElem_set]
  split
  · subst_vars
    have hi : i < c.length := h2
    simp [hi]
  · rename_i h
    rfl

theorem eccTriple_flipBit (low2 : BitVec 2) {c : List Byte} {b k : Nat} (hb : b < c.length) :
    eccTriple low2 (flipBit c b k) = syndrome (eccTriple low2 c) (synAt b k) := eccTriple_flip low2 c b k hb

/-- One flipped bit is repaired. -/
theorem repair_flip (low2 : BitVec 2) {c : List Byte} (hc : c.length = 256) {b k : Nat} (hb : b < 256) (hk : k < 8) :
    repair (eccTriple low2 c) (eccTriple low2 (flipBit c b k)) (flipBit c b k) = (.eccFixed, c) := by
  obtain ⟨h1, h2, h3⟩ := synAt_decode hb hk
  rw [eccTriple_flipBit low2 (by omega)]
  have hf : (flipBit c b k).set b ((flipBit c b k).getD b 0 ^^^ (1#8 <<< k)) = c := flipBit_flipBit c b k
  simp only [repair, syndrome_cancel, h1, h2, h3, hf]
  rfl

/-- The syndrome of two different bits has an even number of ones, not 0. -/
theorem synWeight_two {b k b' k' : Nat} (hb : b < 256) (hk : k < 8) (hb' : b' < 256) (hk' : k' < 8)
    (hne : (b, k) ≠ (b', k')) :
    synWeight (syndrome (synAt b k) (synAt b' k')) ≠ 0 ∧ synWeight (syndrome (synAt b k) (synAt b' k')) % 2 = 0 := by
  obtain ⟨h1, h2, h3⟩ := synAt_decode hb hk
  obtain ⟨g1, g2, g3⟩ := synAt_decode hb' hk'
  constructor
  · intro h
    rw [synWeight_eq_zero] at h
    rw [h] at h2 h3
    exact hne (by rw [Prod.mk.injEq]; exact ⟨h2.symm.trans g2, h3.symm.trans g3⟩)
  · rw [synWeight_syndrome, h1, g1]

theorem syndrome_assoc (x y z : Triple) : syndrome (syndrome x y) z = syndrome x (syndrome y z) := by
  simp [syndrome, BitVec.xor_assoc]

/-- Two flipped bits are detected. -/
theorem repair_two (low2 : BitVec 2) {c : List Byte} (hc : c.length = 256) {b k b' k' : Nat} (hb : b < 256) (hk : k < 8)
    (hb' : b' < 256) (hk' : k' < 8) (hne : (b, k) ≠ (b', k')) (d : List Byte) :
    repair (eccTriple low2 c) (eccTriple low2 (flipBit (flipBit c b k) b' k')) d = (.eccUncorrectable, d) := by
  obtain ⟨h1, h2⟩ := synWeight_two hb hk hb' hk' hne
  rw [eccTriple_flipBit low2 (by rw [length_flipBit]; omega), eccTriple_flipBit low2 (by omega), syndrome_assoc]
  simp only [repair, syndrome_cancel]
  rw [if_neg h1, if_neg (by omega), if_neg (by omega)]

/-! ## Combining verdicts -/

theorem worst_mem (a b : Status) :
    worst a b ∈ [Status.success, .eccFixed, .eccUncorrectable] := by
  unfold worst; split_ifs <;> simp

theorem foldl_worst_mem (l : List Status) (a : Status) (ha : a ∈ [Status.success, .eccFixed, .eccUncorrectable]) :
    l.foldl worst a ∈ [Status.success, .eccFixed, .eccUncorrectable] := by
  induction l generalizing a with
  | nil => exact ha
  | cons b l ih => exact ih _ (worst_mem a b)

theorem foldl_worst_uncorrectable (l : List Status) (a : Status) (h : a = .eccUncorrectable ∨ .eccUncorrectable ∈ l) :
    l.foldl worst a = .eccUncorrectable := by
  induction l generalizing a with
  | nil => simpa using h
  | cons b l ih =>
    refine ih _ ?_
    rcases h with rfl | h
    · left; simp [worst]
    · rcases List.mem_cons.1 h with rfl | h
      · left; simp [worst]
      · exact .inr h

theorem foldl_worst_clean (l : List Status) (h : ∀ x ∈ l, x = .success ∨ x = .eccFixed) (a : Status)
    (ha : a = .success ∨ a = .eccFixed) :
    l.foldl worst a = if a = .eccFixed ∨ .eccFixed ∈ l then .eccFixed else .success := by
  induction l generalizing a with
  | nil => rcases ha with rfl | rfl <;> simp
  | cons b l ih =>
    have hb := h b (by simp)
    have hw : worst a b = .success ∨ worst a b = .eccFixed := by
      rcases ha with rfl | rfl <;> rcases hb with rfl | rfl <;> simp [worst]
    rw [List.foldl_cons, ih (fun x hx => h x (by simp [hx])) _ hw]
    rcases ha with rfl | rfl <;> rcases hb with rfl | rfl <;> simp [worst]

/-! ## Chunks of a page -/

theorem chunkOf_length {page : List Byte} {n i : Nat} (hp : page.length = n) (hi : i < n / 256) :
    (chunkOf page i).length = 256 := by
  simp [chunkOf]; omega

theorem chunkOf_getElem? (page : List Byte) (i j : Nat) (hj : j < 256) :
    (chunkOf page i)[j]? = page[256 * i + j]? := by
  simp [chunkOf, hj]

/-- A page is its chunks. -/
theorem page_ext {x y : List Byte} {n : Nat} (hx : x.length = n) (hy : y.length = n) (hn : n % 256 = 0)
    (h : ∀ i, i < n / 256 → chunkOf x i = chunkOf y i) : x = y := by
  apply List.ext_getElem?
  intro a
  by_cases ha : a < n
  · have := congrArg (fun l => l[a % 256]?) (h (a / 256) (by omega))
    simp only [chunkOf_getElem? _ _ _ (Nat.mod_lt a (by omega : 256 > 0)), show 256 * (a / 256) + a % 256 = a by omega] at this
    exact this
  · rw [List.getElem?_eq_none (by omega), List.getElem?_eq_none (by omega)]

theorem chunkOf_readBytes (m : Memory) (n i : Nat) (hi : i < n / 256) :
    chunkOf (m.readBytes 0 n) i = m.readBytes (256 * i) 256 := by
  apply List.ext_getElem (by simp [chunkOf]; omega)
  intro j h1 h2
  simp [chunkOf, Memory.readBytes]

/-! ## The sub-operations -/

/-- The confirm sequence depends on the command bytes only. -/
@[simp] theorem confirmEvents_setBus (s : State) (b : Bus) (c : Cmd) (n : Nat) (v : Byte) :
    confirmEvents (s.setBus b) c n v = confirmEvents s c n v := rfl

/-- The software ECC of a page that was read: `s` holds the page in `DBUF` and the stored triples in `OOBS`. -/
theorem checked {s : State} {main : List Byte} (hw : s.dbuf.wf) (hm : main.length = s.geo.pageSize.toNat)
    (hd : s.dbuf.readBytes 0 s.geo.pageSize.toNat = main) :
    ∃ d ca rd acc st, checkChunks s.geo.chunks 0 .success s = (st, s.setChecked d ca rd acc) ∧ d.wf ∧
      eccChecked s ((s.setChecked d ca rd acc).endOp st) main ∧
      ∀ a, s.geo.pageSize.toNat ≤ a → d.read a = s.dbuf.read a := by
  obtain ⟨d, ca, rd, acc, h1, h2, h3, h4, -⟩ := checkChunks_spec s.geo.chunks 0 .success hw
  have hn : s.geo.chunks = s.geo.pageSize.toNat / 256 := rfl
  refine ⟨d, ca, rd, acc, _, h1, h2, ⟨foldl_worst_mem _ _ (by simp), ?_⟩, fun a ha => h4 a (by omega)⟩
  intro orig hmod hlen htr
  have hchunk (i : Nat) (hi : i < s.geo.chunks) : s.chunk (256 * i) = chunkOf main i := by
    rw [← hd, chunkOf_readBytes _ _ _ (by omega)]; rfl
  have hv (i : Nat) (hi : i < s.geo.chunks) :
      s.verdict i = repair (eccTriple s.par.eccLow2 (chunkOf orig i)) (eccTriple s.par.eccLow2 (chunkOf main i)) (chunkOf main i) := by
    have := htr i hi
    rw [State.verdict, hchunk i hi, ← this]; rfl
  have hco (i : Nat) (hi : i < s.geo.chunks) : (chunkOf orig i).length = 256 := chunkOf_length hlen (by omega)
  constructor
  · intro hone
    have hfix (i : Nat) (hi : i < s.geo.chunks) :
        s.verdict i = (if chunkOf main i = chunkOf orig i then .success else .eccFixed, chunkOf orig i) := by
      rw [hv i hi]
      rcases hone i hi with he | ⟨b, k, hb, hk, he⟩
      · rw [he, repair_same, if_pos rfl]
      · have hne : flipBit (chunkOf orig i) b k ≠ chunkOf orig i := by
          intro h
          have h5 := repair_flip s.par.eccLow2 (hco i hi) hb hk
          rw [h, repair_same] at h5
          simp at h5
        rw [he, repair_flip _ (hco i hi) hb hk, if_neg hne]
    constructor
    · show d.readBytes 0 _ = orig
      refine page_ext (by simp) hlen hmod fun i hi => ?_
      rw [chunkOf_readBytes _ _ _ hi]
      have := h3 i hi
      rw [Nat.zero_add, hfix i hi] at this
      exact this
    · show List.foldl worst _ _ = _
      rw [foldl_worst_clean]
      · by_cases he : main = orig
        · rw [if_pos he, if_neg]
          simp only [reduceCtorEq, false_or, List.mem_map, List.mem_range, not_exists, not_and]
          intro i hi
          rw [Nat.zero_add, hfix i hi, he, if_pos rfl]; simp
        · rw [if_neg he, if_pos]
          right
          by_contra hcon
          refine he (page_ext hm hlen hmod fun i hi => ?_)
          by_contra hne
          refine hcon (List.mem_map.2 ⟨i, List.mem_range.2 hi, ?_⟩)
          rw [Nat.zero_add, hfix i hi, if_neg hne]
      · intro x hx
        obtain ⟨i, hi, rfl⟩ := List.mem_map.1 hx
        rw [Nat.zero_add, hfix i (List.mem_range.1 hi)]
        dsimp only
        split <;> simp
      · simp
  · rintro ⟨i, b, k, b', k', hi, hb, hk, hb', hk', hne, he⟩
    refine foldl_worst_uncorrectable _ _ (.inr (List.mem_map.2 ⟨i, List.mem_range.2 hi, ?_⟩))
    rw [Nat.zero_add, hv i hi, he, repair_two _ (hco i hi) hb hk hb' hk' hne]

/-- The bus part of PAGE.READ. -/
theorem fetchPage_val {s : State} (ha : s.answers) (hwd : s.dbuf.wf) (hwo : s.oobs.wf) (row : Nat) :
    ∃ n main oob b d o, fetchPage s row = .val () { s with bus := b, dbuf := d, oobs := o } ∧
      main.length = s.geo.pageSize.toNat ∧ oob.length = s.geo.oobSize.toNat ∧
      Bus.Ran true (pageReadEvents s row n main oob) s.bus b ∧ d.wf ∧ o.wf ∧
      d.readBytes 0 s.geo.pageSize.toNat = main ∧ o.readBytes 0 s.geo.oobSize.toNat = oob ∧
      (∀ a, s.geo.pageSize.toNat ≤ a → d.read a = s.dbuf.read a) ∧
      ∀ a, s.geo.oobSize.toNat ≤ a → o.read a = s.oobs.read a := by
  obtain ⟨n, b, h1, h2⟩ := command_val (cmd := .read0) (rb := some row) (col := some 0) fun _ => ha
  rw [if_pos (by decide)] at h2
  have l1 := Bus.length_rdBuf s.geo.pageSize.toNat b
  have r1 := Bus.ran_rdBuf s.geo.pageSize.toNat b
  have e1 : (s.setBus b).rdBuf s.geo.pageSize.toNat =
      ((b.rdBuf s.geo.pageSize.toNat).1, s.setBus (b.rdBuf s.geo.pageSize.toNat).2) := rfl
  generalize b.rdBuf s.geo.pageSize.toNat = q at l1 r1 e1
  obtain ⟨main, b1⟩ := q
  have l2 := Bus.length_rdBuf s.geo.oobSize.toNat b1
  have r2 := Bus.ran_rdBuf s.geo.oobSize.toNat b1
  have e2 (d : Memory) : ((s.setBus b1).setDbuf d).rdBuf s.geo.oobSize.toNat =
      ((b1.rdBuf s.geo.oobSize.toNat).1, (s.setBus (b1.rdBuf s.geo.oobSize.toNat).2).setDbuf d) := rfl
  generalize b1.rdBuf s.geo.oobSize.toNat = q at l2 r2 e2
  obtain ⟨oob, b2⟩ := q
  have hr := (h2.trans r1).trans r2
  refine ⟨n, main, oob, b2, s.dbuf.writeBytes 0 main, s.oobs.writeBytes 0 oob, ?_, l1, l2, ?_,
    Memory.wf_writeBytes hwd _ _, Memory.wf_writeBytes hwo _ _, Memory.readBytes_writeBytes hwd _ _ l1,
    Memory.readBytes_writeBytes hwo _ _ l2, ?_, ?_⟩
  · rw [fetchPage, h1, Ret.bind_val, State.setBus_geo, e1]
    dsimp only
    rw [State.setBus_dbuf, State.setDbuf_geo, State.setBus_geo, e2]
    rfl
  · simpa [pageReadEvents, quietCmd] using hr
  · intro a ha
    exact Memory.read_writeBytes_outside _ _ _ _ (.inr (by rw [l1]; simpa using ha))
  · intro a ha
    exact Memory.read_writeBytes_outside _ _ _ _ (.inr (by rw [l2]; simpa using ha))

/-- PAGE.READ. -/
theorem pageRead_val {s : State} {m : OobMode} (hr : s.pageReady) (he : s.softEcc m → s.eccReady) (hwd : s.dbuf.wf)
    (hwo : s.oobs.wf) (row : Nat) :
    ∃ n main oob st b d o ca rd acc, pageRead s row m =
        .val st { s with bus := b, dbuf := d, oobs := o, eccCa := ca, eccRd := rd, acc := acc } ∧
      Bus.Ran true (pageReadEvents s row n main oob) s.bus b ∧ d.wf ∧ o.wf ∧
      pageReadLeaves s ({ s with
        bus := b, dbuf := d, oobs := o, eccCa := ca, eccRd := rd, acc := acc, status := st } : State) m main oob := by
  obtain ⟨n, main, oob, b, d, o, h1, h2, h3, h4, h5, h6, h7, h8, h9, h10⟩ := fetchPage_val hr.1.2 hwd hwo row
  have hact : s.eccActive m = true ↔ s.softEcc m := by simp [State.eccActive, State.softEcc]
  rw [pageRead, withDevice_pos hr.1.1 hr.2]
  by_cases hs : s.softEcc m
  · rw [if_pos (hact.2 hs), withEccTable, if_pos (he hs).1, if_pos (he hs).2, h1, Ret.bind_val]
    obtain ⟨d2, ca, rd, acc, st, g1, g2, g3, g4⟩ :=
      checked (s := { s with bus := b, dbuf := d, oobs := o }) (main := main) h5 h2 h7
    have g1' : checkChunks ({ s with bus := b, dbuf := d, oobs := o } : State).geo.chunks 0 .success
        { s with bus := b, dbuf := d, oobs := o } = _ := g1
    refine ⟨n, main, oob, st, b, d2, o, ca, rd, acc, by rw [g1']; rfl, h4, g2, h6, h2, h3, h8, ?_, h10, fun _ => g3,
      fun hn => absurd hs hn⟩
    intro a ha
    exact (g4 a ha).trans (h9 a ha)
  · rw [if_neg fun h => hs (hact.1 h), h1, Ret.bind_val]
    exact ⟨n, main, oob, .success, b, d, o, s.eccCa, s.eccRd, s.acc, rfl, h4, h5, h6, h2, h3, h8, h9, h10,
      fun h => absurd h hs, fun _ => ⟨rfl, h7, rfl, rfl, rfl⟩⟩

/-- The bus part of PAGE.WRITE. -/
theorem programPage_val {s : State} (ha : s.answers) (row : Nat) :
    ∃ n v b, programPage s row = .val (if s.tellsFailure v then .write else .success)
        ((s.setBus b).setRes (v.setWidth 64)) ∧
      Bus.Ran false (pageWriteEvents s row (s.dbuf.readBytes 0 s.geo.pageSize.toNat) (s.oobs.readBytes 0 s.geo.oobSize.toNat)
        n v) s.bus b := by
  have hp := commandEvents_stays s .seqin (some row) (some 0)
  have h1 := ran_methodBus s .seqin (some row) (some 0)
  have h2 := (h1.trans (Bus.ran_wrBuf _ (s.dbuf.readBytes 0 s.geo.pageSize.toNat))).trans
    (Bus.ran_wrBuf _ (s.oobs.readBytes 0 s.geo.oobSize.toNat))
  have ha2 := h2.answers (by
    intro e he
    simp only [List.append_assoc, List.mem_append, List.mem_singleton] at he
    rcases he with he | rfl | rfl
    · exact hp e he
    · exact fun _ => rfl
    · exact fun _ => rfl) ha
  obtain ⟨n, v, b, h3, h4⟩ := confirm_val (failure := .write) ha2 (c := .pageprog) (.inl rfl)
  refine ⟨n, v, b, ?_, by simpa [pageWriteEvents] using (h2.trans h4).weaken (q' := false) (by simp)⟩
  rw [programPage, command_noWait s (some row) (some 0) (cmd := .seqin) (by decide), Ret.bind_val]
  exact h3

/-- PAGE.WRITE. -/
theorem pageWrite_val {s : State} {m : OobMode} (hr : s.pageReady) (hro : s.conf.readOnly = false)
    (he : s.softEcc m → s.eccReady) (hwo : s.oobs.wf) (row : Nat) :
    ∃ n v b o ca acc, pageWrite s row m = .val (if s.tellsFailure v then .write else .success)
        { s with bus := b, oobs := o, eccCa := ca, acc := acc, res := v.setWidth 64 } ∧
      Bus.Ran false (pageWriteEvents s row (s.dbuf.readBytes 0 s.geo.pageSize.toNat) (o.readBytes 0 s.geo.oobSize.toNat) n v)
        s.bus b ∧ o.wf ∧
      pageWriteLeaves s ({ s with oobs := o, eccCa := ca, acc := acc } : State) m fun a => s.oobs.read a := by
  have hact : s.eccActive m = true ↔ s.softEcc m := by simp [State.eccActive, State.softEcc]
  rw [pageWrite, hro, if_neg (by simp), withDevice_pos hr.1.1 hr.2]
  by_cases hs : s.softEcc m
  · obtain ⟨hwf, hlen⟩ := he hs
    rw [if_pos (hact.2 hs), withEccTable, if_pos hwf, if_pos hlen]
    obtain ⟨o, ca, acc, g1, g2, g3, g4⟩ := placeTriples_spec s.geo.chunks 0 hwo (ecc_nodup hwf) hlen (by omega)
    obtain ⟨n, v, b, h1, h2⟩ := programPage_val (s := s.setPlaced o ca acc) hr.1.2 row
    refine ⟨n, v, b, o, ca, acc, by rw [g1]; exact h1, h2, g2, fun _ => ⟨?_, ?_⟩, fun hn => absurd hs hn⟩
    · intro i hi
      rw [chunkOf_readBytes _ _ _ hi]
      exact getTriple_placed (s := s) (t := { s with oobs := o, eccCa := ca, acc := acc }) rfl rfl g3 hi
    · intro a ha
      refine g4 a fun j k hj hk hak => ha ?_
      rw [hak]; exact triplePos_mem hlen (by omega) hk
  · rw [if_neg fun h => hs (hact.1 h)]
    obtain ⟨n, v, b, h1, h2⟩ := programPage_val hr.1.2 row
    exact ⟨n, v, b, s.oobs, s.eccCa, s.acc, h1, h2, hwo, fun h => absurd h hs, fun _ => ⟨fun _ => rfl, rfl, rfl⟩⟩

/-- `prog_oob`. -/
theorem programOob_val {s : State} (ha : s.answers) (row : Nat) :
    ∃ n v b, programOob s row = .val (if s.tellsFailure v then .write else .success)
        ((s.setBus b).setRes (v.setWidth 64)) ∧
      Bus.Ran false (oobWriteEvents s row (s.oobs.readBytes 0 s.geo.oobSize.toNat) n v) s.bus b := by
  have hp := commandEvents_stays s .seqin (some row) (some s.geo.pageSize.toNat)
  have h1 := ran_methodBus s .seqin (some row) (some s.geo.pageSize.toNat)
  have h2 := h1.trans (Bus.ran_wrBuf _ (s.oobs.readBytes 0 s.geo.oobSize.toNat))
  have ha2 := h2.answers (by
    intro e he
    simp only [List.mem_append, List.mem_singleton] at he
    rcases he with he | rfl
    · exact hp e he
    · exact fun _ => rfl) ha
  obtain ⟨n, v, b, h3, h4⟩ := confirm_val (failure := .write) ha2 (c := .pageprog) (.inl rfl)
  refine ⟨n, v, b, ?_, by simpa [oobWriteEvents] using (h2.trans h4).weaken (q' := false) (by simp)⟩
  rw [programOob, command_noWait s _ _ (cmd := .seqin) (by decide), Ret.bind_val]
  exact h3

/-- PAGE.READOOB. -/
theorem pageReadoob_val {s : State} (hr : s.deviceReady) (hf : s.oobFits = true) (hwo : s.oobs.wf) (row : Nat) :
    ∃ n oob b o, pageReadoob s row = .val .success ((s.setBus b).setOobs o) ∧ oob.length = s.geo.oobSize.toNat ∧
      Bus.Ran true (oobReadEvents s row n oob) s.bus b ∧ o.wf ∧ o.readBytes 0 s.geo.oobSize.toNat = oob ∧
      ∀ a, s.geo.oobSize.toNat ≤ a → o.read a = s.oobs.read a := by
  obtain ⟨n, b, h1, h2⟩ := command_val (cmd := .readoob) (rb := some row) (col := some 0) fun _ => hr.2
  rw [if_pos (by decide)] at h2
  have h3 := h2.trans (Bus.ran_rdBuf s.geo.oobSize.toNat b)
  refine ⟨n, _, _, _, ?_, Bus.length_rdBuf _ _, by simpa [oobReadEvents, quietCmd] using h3, Memory.wf_writeBytes hwo 0 _,
    Memory.readBytes_writeBytes hwo _ _ (Bus.length_rdBuf _ _), ?_⟩
  · rw [pageReadoob, withDevice_pos hr.1 hf, h1]; rfl
  · intro a ha
    exact Memory.read_writeBytes_outside _ _ _ _ (.inr (by rw [Bus.length_rdBuf]; simpa using ha))

/-- The OOB bytes that PAGE.MARKBAD prepares. -/
theorem read_markerOobs {s : State} (hwo : s.oobs.wf) (a : Nat) :
    (markerOobs s).oobs.read a =
      if a = s.bbmPos.toNat then 0x00#8 else if a < s.geo.oobSize.toNat then 0xFF#8 else s.oobs.read a := by
  show (s.blankOobs.oobs.write s.bbmPos.toNat 0x00#8).read a = _
  rw [Memory.read_write (blankOobs_wf hwo), read_blankOobs]

theorem markerOobs_bytes {s : State} (hwo : s.oobs.wf) :
    (markerOobs s).oobs.readBytes 0 s.geo.oobSize.toNat = markerBytes s := by
  apply List.ext_getElem (by simp [markerBytes])
  intro i h1 h2
  have hi : i < s.geo.oobSize.toNat := by simpa using h1
  rw [Memory.getElem_readBytes, Nat.zero_add, read_markerOobs hwo]
  by_cases h : i = s.bbmPos.toNat
  · subst h; simp [markerBytes]
  · rw [if_neg h, if_pos hi]
    simp [markerBytes, Ne.symm h]

/-- PAGE.MARKBAD. -/
theorem pageMarkbad_val {s : State} (hr : s.deviceReady) (hro : s.conf.readOnly = false) (hm : s.markerFits = true)
    (hwo : s.oobs.wf) (row : Nat) :
    ∃ n v b, pageMarkbad s row = .val (if s.tellsFailure v then .write else .success)
        (((markerOobs s).setBus b).setRes (v.setWidth 64)) ∧
      Bus.Ran false (oobWriteEvents s row (markerBytes s) n v) s.bus b := by
  obtain ⟨n, v, b, h1, h2⟩ := programOob_val (s := markerOobs s) hr.2 row
  refine ⟨n, v, b, ?_, by rw [← markerOobs_bytes hwo]; exact h2⟩
  rw [pageMarkbad, hro, if_neg (by simp), withDevice_pos hr.1 hm, h1]
  rfl

/-- BLOCK.ERASE. -/
theorem blockErase_val {s : State} (hr : s.deviceReady) (hro : s.conf.readOnly = false) (row : Nat) :
    ∃ n v b, blockErase s row = .val (if s.tellsFailure v then .erase else .success)
        ((s.setBus b).setRes (v.setWidth 64)) ∧ Bus.Ran false (eraseEvents s row n v) s.bus b := by
  have hp := commandEvents_stays s .erase1 (some row) none
  have h1 := ran_methodBus s .erase1 (some row) none
  have ha2 := h1.answers hp hr.2
  obtain ⟨n, v, b, h3, h4⟩ := confirm_val (failure := .erase) ha2 (c := .erase2) (.inr rfl)
  refine ⟨n, v, b, ?_, by simpa [eraseEvents] using (h1.trans h4).weaken (by simp)⟩
  rw [blockErase, hro, if_neg (by simp), withDevice_pos hr.1 rfl,
    command_noWait s _ _ (cmd := .erase1) (by decide), Ret.bind_val]
  exact h3

end Sys2Proof.Machine
end

