-- ==== Sys2Proof/Laws/Block.lean ====
section
/-! SUPPORT. Checking, marking and erasing blocks as sub-operations (45_oob_badblock.md R266, R267, 46_partition_ops.md
R293), on chips that become ready. -/

namespace Sys2Proof.Machine

/-- `s'` addresses the chip as `s` does. -/
structure SameDevice (s s' : State) : Prop where
  variant : s'.variant = s.variant
  geo : s'.geo = s.geo
  conf : s'.conf = s.conf
  bbmPos : s'.bbmPos = s.bbmPos
  par : s'.par = s.par

theorem SameDevice.commandEvents {s s' : State} (h : SameDevice s s') : commandEvents s' = commandEvents s := by
  have hc : columnEvents s' = columnEvents s := by funext v k; simp only [columnEvents, h.conf]
  have ho : operandEvents s' = operandEvents s := by funext cmd r; simp only [operandEvents, rowEvents, h.geo]
  have hp : pointerOf s' = pointerOf s := by funext k; simp only [pointerOf, h.geo, h.conf]
  have hl : largeEventsOf s' = largeEventsOf s := by funext cmd r c; simp only [largeEventsOf, State.latch, hc, ho, h.par]
  funext cmd rb col
  simp only [Machine.commandEvents, smallEvents, largeEvents, State.latch, hc, ho, hp, hl, h.variant, h.geo, h.par]

theorem SameDevice.confirmEvents {s s' : State} (h : SameDevice s s') : confirmEvents s' = confirmEvents s := by
  funext c n b; simp only [Machine.confirmEvents, State.latch, h.par]

theorem SameDevice.eraseEvents {s s' : State} (h : SameDevice s s') : eraseEvents s' = eraseEvents s := by
  funext row n b; simp only [Machine.eraseEvents, h.commandEvents, h.confirmEvents]

theorem SameDevice.markerReadEvents {s s' : State} (h : SameDevice s s') : markerReadEvents s' = markerReadEvents s := by
  funext rows reads; simp only [Machine.markerReadEvents, oobReadEvents, h.commandEvents]

theorem SameDevice.markEvents {s s' : State} (h : SameDevice s s') : markEvents s' = markEvents s := by
  funext rows marks; simp only [Machine.markEvents, oobWriteEvents, markerBytes, h.commandEvents, h.confirmEvents, h.geo, h.bbmPos]

theorem oobReadEvents_stays (s : State) (row n : Nat) (oob : List Byte) : ∀ e ∈ oobReadEvents s row n oob, e.stays := by
  intro e he
  simp only [oobReadEvents, List.mem_append, List.mem_cons, List.not_mem_nil, or_false] at he
  rcases he with he | rfl | rfl
  · exact commandEvents_stays s _ _ _ e he
  all_goals exact fun _ => rfl

theorem confirmEvents_stays (s : State) (c : Cmd) (n : Nat) (b : Byte) : ∀ e ∈ confirmEvents s c n b, e.stays := by
  intro e he
  simp only [confirmEvents, List.mem_cons, List.not_mem_nil, or_false] at he
  rcases he with rfl | rfl | rfl | rfl | rfl | rfl <;> exact fun _ => rfl

theorem oobWriteEvents_stays (s : State) (row : Nat) (l : List Byte) (n : Nat) (b : Byte) :
    ∀ e ∈ oobWriteEvents s row l n b, e.stays := by
  intro e he
  simp only [oobWriteEvents, List.mem_append, List.mem_singleton] at he
  rcases he with (he | rfl) | he
  · exact commandEvents_stays s _ _ _ e he
  · exact fun _ => rfl
  · exact confirmEvents_stays _ _ _ _ e he

theorem eraseEvents_stays (s : State) (row n : Nat) (b : Byte) : ∀ e ∈ eraseEvents s row n b, e.stays := by
  intro e he
  simp only [eraseEvents, List.mem_append] at he
  rcases he with he | he
  · exact commandEvents_stays s _ _ _ e he
  · exact confirmEvents_stays _ _ _ _ e he

theorem markerReadEvents_stays (s : State) (rows : List Nat) (reads : List (Nat × List Byte)) :
    ∀ e ∈ markerReadEvents s rows reads, e.stays := by
  intro e he
  obtain ⟨x, -, hx⟩ := List.mem_flatMap.1 he
  exact oobReadEvents_stays _ _ _ _ e hx

/-- Reading the markers of rows in turn. -/
theorem checkMarkers_val (rows : List Nat) {s : State} (hr : s.deviceReady) (hf : s.oobFits = true) (hb : s.bbmPos.toNat < s.geo.oobSize.toNat)
    (hwo : s.oobs.wf) :
    ∃ reads b o, checkMarkers rows s =
        .val (if goodMarkers s reads then .success else .blockIsBad) ((s.setBus b).setOobs o) ∧
      Bus.Ran true (markerReadEvents s rows reads) s.bus b ∧ o.wf ∧ (rows ≠ [] → reads ≠ []) ∧
      reads.length ≤ rows.length ∧ (∀ x ∈ reads, x.2.length = s.geo.oobSize.toNat) ∧ goodMarkers s reads.dropLast ∧
      (goodMarkers s reads → reads.length = rows.length) := by
  induction rows generalizing s with
  | nil =>
    refine ⟨[], s.bus, s.oobs, ?_, Bus.Ran.refl _, hwo, by simp, by simp, by simp, by simp, by simp⟩
    rw [checkMarkers, if_pos (by simp)]; rfl
  | cons r rows ih =>
    obtain ⟨n, oob, b1, o1, h1, h2, h3, h4, h5, -⟩ := pageReadoob_val hr hf hwo r
    have hm : o1.read s.bbmPos.toNat = oob.getD s.bbmPos.toNat 0 := by
      rw [← h5, Memory.readBytes_getD _ _ _ _ hb, Nat.zero_add]
    by_cases hg : oob.getD s.bbmPos.toNat 0 = 0xFF#8
    · have ha : ((s.setBus b1).setOobs o1).deviceReady := ⟨hr.1, h3.answers (oobReadEvents_stays _ _ _ _) hr.2⟩
      obtain ⟨reads, b, o, g1, g2, g3, g4, g5, g6, g7, g8⟩ := ih (s := (s.setBus b1).setOobs o1) ha hf hb h4
      refine ⟨(n, oob) :: reads, b, o, ?_, h3.trans g2, g3, by simp, by simpa using g5, ?_, ?_, ?_⟩
      · rw [checkMarkers, h1, Ret.bind_val, if_neg (by rw [State.setOobs_oobs]; exact fun h => h (hm.trans hg)), g1]
        have : goodMarkers s ((n, oob) :: reads) ↔ goodMarkers ((s.setBus b1).setOobs o1) reads := by
          simp only [goodMarkers, List.mem_cons, forall_eq_or_imp, hg, true_and]; rfl
        simp only [this]; rfl
      · intro x hx
        rcases List.mem_cons.1 hx with rfl | hx
        · exact h2
        · exact g6 x hx
      · intro x hx
        cases reads with
        | nil => simp at hx
        | cons y reads =>
          rw [List.dropLast_cons_cons] at hx
          rcases List.mem_cons.1 hx with rfl | hx
          · exact hg
          · exact g7 x hx
      · intro hgood
        have := g8 fun x hx => hgood x (by simp [hx])
        simp [this]
    · refine ⟨[(n, oob)], b1, o1, ?_, ?_, h4, by simp, by simp, by simpa using h2, by simp, ?_⟩
      · rw [checkMarkers, h1, Ret.bind_val, if_pos (by rw [State.setOobs_oobs]; exact fun h => hg (hm.symm.trans h)),
          if_neg (by simpa using hg)]
      · simpa [markerReadEvents] using h3
      · intro h; exact absurd (h (n, oob) (by simp)) hg

/-- Marking rows in turn. -/
theorem markRows_val (rows : List Nat) (res : Status) {s : State} (hr : s.deviceReady) (hro : s.conf.readOnly = false)
    (hm : s.markerFits = true) (hwo : s.oobs.wf) :
    ∃ marks b o v, markRows rows res s =
        .val (if res ≠ .success then res else if anyFailed s marks then .write else .success)
          (((s.setBus b).setOobs o).setRes v) ∧
      Bus.Ran false (markEvents s rows marks) s.bus b ∧ o.wf ∧ marks.length = rows.length ∧
      (∀ x, marks.getLast? = some x → v = x.2.setWidth 64) ∧ (rows = [] → v = s.res) := by
  induction rows generalizing s res with
  | nil =>
    refine ⟨[], s.bus, s.oobs, s.res, ?_, (Bus.Ran.refl _).weaken (by simp), hwo, rfl, by simp, fun _ => rfl⟩
    have : (if res ≠ .success then res else if anyFailed s [] then Status.write else .success) = res := by
      split
      · rfl
      · rename_i h; simp only [ne_eq, not_not] at h; simp [h]
    rw [markRows, this]; rfl
  | cons r rows ih =>
    obtain ⟨n, v1, b1, h1, h2⟩ := pageMarkbad_val hr hro hm hwo r
    obtain ⟨o1, ho1⟩ : ∃ o, markerOobs s = s.setOobs o := ⟨_, rfl⟩
    have hw1 : o1.wf := by
      have : (markerOobs s).oobs.wf := Memory.wf_write (blankOobs_wf hwo) _ _
      rw [ho1] at this; exact this
    rw [ho1] at h1
    have ha : (((s.setOobs o1).setBus b1).setRes (v1.setWidth 64)).deviceReady :=
      ⟨hr.1, h2.answers (oobWriteEvents_stays _ _ _ _ _) hr.2⟩
    obtain ⟨marks, b, o, v, g1, g2, g3, g4, g5, g6⟩ :=
      ih (firstFailure res (if s.tellsFailure v1 then .write else .success))
        (s := ((s.setOobs o1).setBus b1).setRes (v1.setWidth 64)) ha hro hm hw1
    refine ⟨(n, v1) :: marks, b, o, v, ?_, h2.trans g2, g3, by simp [g4], ?_, by simp⟩
    · have hs : anyFailed (((s.setOobs o1).setBus b1).setRes (v1.setWidth 64)) marks = anyFailed s marks := rfl
      rw [markRows, h1, Ret.bind_val, g1, hs]
      have he : (if firstFailure res (if s.tellsFailure v1 then Status.write else .success) ≠ .success then
            firstFailure res (if s.tellsFailure v1 then Status.write else .success)
          else if anyFailed s marks then .write else .success) =
          if res ≠ .success then res else if anyFailed s ((n, v1) :: marks) then .write else .success := by
        have hk : anyFailed s ((n, v1) :: marks) = (s.tellsFailure v1 || anyFailed s marks) := rfl
        rw [hk]
        generalize anyFailed s marks = q
        generalize s.tellsFailure v1 = p
        cases p <;> cases q <;> cases res <;> rfl
      rw [he]; rfl
    · intro x hx
      cases marks with
      | nil =>
        simp only [List.getLast?_singleton, Option.some.injEq] at hx
        subst hx
        exact g6 (List.length_eq_zero_iff.1 g4.symm)
      | cons y marks =>
        rw [List.getLast?_cons_cons] at hx
        exact g5 x hx

theorem markerRowsOf_congr {s s' : State} (hc : s'.conf = s.conf) (hg : s'.geo = s.geo) (a : Nat) :
    s'.markerRows (s'.geo.rowOf a) = s.markerRowsOf a := by
  unfold State.markerRows State.markerRowsOf State.firstRowOf Geometry.rowOf
  rw [hc, hg]

theorem markerRows_eq (s : State) (a : Nat) : s.markerRows (s.geo.rowOf a) = s.markerRowsOf a := rfl

theorem markerRowsOf_ne_nil (s : State) (a : Nat) : s.markerRowsOf a ≠ [] := by
  unfold State.markerRowsOf; split_ifs <;> simp

/-- DEV.ISVALID on what is no block. -/
theorem devIsvalid_invalid {s : State} (hr : s.blockReady) {a : Nat} (hn : ¬ s.isBlock a) :
    devIsvalid s a = .val .invalidAddress s := by
  have : s.geo.size.toNat ≤ a ∨ s.geo.blockAligned a = false := by
    simp only [State.isBlock, not_and_or, not_lt] at hn
    rcases hn with h | h
    · exact .inl h
    · exact .inr (by simpa [Geometry.blockAligned] using h)
  rw [devIsvalid, withDevice_pos hr.1 hr.2.1, if_pos this]

/-- DEV.ISVALID on a block. -/
theorem devIsvalid_val {s : State} (hr : s.blockReady) {a : Nat} (hb : s.isBlock a) (ha : s.answersAt a)
    (hwo : s.oobs.wf) :
    ∃ reads b o, devIsvalid s a =
        .val (if goodMarkers s reads then .success else .blockIsBad) (((s.select a).setBus b).setOobs o) ∧
      Bus.Ran true (markerReadEvents s (s.markerRowsOf a) reads) (s.select a).bus b ∧ o.wf ∧
      markerReads s (s.markerRowsOf a) reads := by
  obtain ⟨reads, b, o, h1, h2, h3, h4, h5⟩ :=
    checkMarkers_val (s.markerRowsOf a) (s := s.select a) ⟨hr.1, ha⟩
      (Bool.and_eq_true_iff.1 hr.2.1).1 hr.2.2 hwo
  refine ⟨reads, b, o, ?_, h2, h3, h4 (markerRowsOf_ne_nil s a), h5⟩
  have : ¬ (s.geo.size.toNat ≤ a ∨ s.geo.blockAligned a = false) := by
    have h1 := hb.1
    have h2 : s.geo.blockAligned a = true := by simpa [Geometry.blockAligned] using hb.2
    rw [h2]; simp; omega
  rw [devIsvalid, withDevice_pos hr.1 hr.2.1, if_neg this, markerRows_eq, h1]
  rfl

/-- DEV.MARKBAD on a block that is not bad: erase it, then mark it. -/
theorem devMarkbad_good {s s1 s2 s3 : State} {a : Nat} {st st' : Status} (hro : s.conf.readOnly = false)
    (h1 : devIsvalid s a = .val .success s1) (h2 : blockErase s1 (s1.geo.rowOf a) = .val st s2)
    (h3 : markRows (s2.markerRows (s2.geo.rowOf a)) .success s2 = .val st' s3) :
    devMarkbad s a = .val st' s3 := by
  rw [devMarkbad, hro, if_neg (by simp), h1, Ret.bind_val, if_neg (by simp), if_neg (by simp), h2, Ret.bind_val, h3]

/-- DEV.MARKBAD on a block. -/
theorem devMarkbad_val {s : State} (hr : s.blockReady) (hro : s.conf.readOnly = false) {a : Nat} (hb : s.isBlock a)
    (ha : s.answersAt a) (hwo : s.oobs.wf) :
    ∃ reads b o v st, devMarkbad s a = .val st ((((s.select a).setBus b).setOobs o).setRes v) ∧ o.wf ∧
      markerReads s (s.markerRowsOf a) reads ∧
      if goodMarkers s reads then
        ∃ n x marks, marks.length = (s.markerRowsOf a).length ∧
          Bus.Ran false (markerReadEvents s (s.markerRowsOf a) reads ++ eraseEvents s (s.firstRowOf a) n x ++
            markEvents s (s.markerRowsOf a) marks) (s.select a).bus b ∧
          st = (if anyFailed s marks then .write else .success) ∧ ∀ y, marks.getLast? = some y → v = y.2.setWidth 64
      else
        Bus.Ran true (markerReadEvents s (s.markerRowsOf a) reads) (s.select a).bus b ∧ st = .success ∧ v = s.res := by
  obtain ⟨reads, b, o, h1, h2, h3, h4⟩ := devIsvalid_val hr hb ha hwo
  by_cases hg : goodMarkers s reads
  · rw [if_pos hg] at h1
    have hr1 : (((s.select a).setBus b).setOobs o).deviceReady :=
      ⟨hr.1, h2.answers (markerReadEvents_stays _ _ _) ha⟩
    have hd : SameDevice s (((s.select a).setBus b).setOobs o) := ⟨by simp [State.select], by simp [State.select], by simp [State.select], by simp [State.select], by simp [State.select]⟩
    have hb1 : (((s.select a).setBus b).setOobs o).bus = b := rfl
    have ho1 : (((s.select a).setBus b).setOobs o).oobs = o := rfl
    have he : ∀ b2 x b3 o3 v, ((((((((s.select a).setBus b).setOobs o).setBus b2).setRes x).setBus b3).setOobs o3).setRes v) =
        ((((s.select a).setBus b3).setOobs o3).setRes v) := by
      intros
      simp only [State.setRes_setBus, State.setOobs_setBus, State.setBus_setBus, State.setRes_setOobs,
        State.setOobs_setOobs, State.setRes_setRes]
    generalize ((s.select a).setBus b).setOobs o = s1 at h1 hr1 hd hb1 ho1 he
    obtain ⟨n, x, b2, g1, g2⟩ := blockErase_val hr1 (hd.conf ▸ hro) (s1.geo.rowOf a)
    have hr2 : ((s1.setBus b2).setRes (x.setWidth 64)).deviceReady :=
      ⟨hr1.1, g2.answers (eraseEvents_stays _ _ _ _) hr1.2⟩
    have hd2 : SameDevice s ((s1.setBus b2).setRes (x.setWidth 64)) := ⟨hd.variant, hd.geo, hd.conf, hd.bbmPos, hd.par⟩
    have hb2 : ((s1.setBus b2).setRes (x.setWidth 64)).bus = b2 := rfl
    have hw2 : ((s1.setBus b2).setRes (x.setWidth 64)).oobs.wf := by
      rw [State.setRes_oobs, State.setBus_oobs, ho1]; exact h3
    have he2 : ∀ b3 o3 v, ((((s1.setBus b2).setRes (x.setWidth 64)).setBus b3).setOobs o3).setRes v =
        ((((s.select a).setBus b3).setOobs o3).setRes v) := fun b3 o3 v => he _ _ _ _ _
    generalize (s1.setBus b2).setRes (x.setWidth 64) = s2 at g1 hr2 hd2 hb2 hw2 he2
    have hm2 : s2.markerFits = true := by
      have := hr.2.1
      unfold State.markerFits State.oobFits at this ⊢
      rwa [hd2.bbmPos, hd2.par, hd2.geo]
    obtain ⟨marks, b3, o3, v, k1, k2, k3, k4, k5, -⟩ :=
      markRows_val (s.markerRowsOf a) .success hr2 (hd2.conf ▸ hro) hm2 hw2
    have hf : anyFailed s2 marks = anyFailed s marks := by simp only [anyFailed, State.tellsFailure, hd2.par]
    rw [if_neg (by simp), he2, hf] at k1
    rw [hd2.markEvents, hb2] at k2
    have g3 : s1.geo.rowOf a = s.firstRowOf a := by rw [hd.geo]; rfl
    rw [hd.eraseEvents, hb1, g3] at g2
    refine ⟨reads, b3, o3, v, if anyFailed s marks then .write else .success, ?_, k3, h4, ?_⟩
    · exact devMarkbad_good hro h1 g1 (by rw [markerRowsOf_congr hd2.conf hd2.geo]; exact k1)
    · rw [if_pos hg]
      exact ⟨n, x, marks, k4, (h2.trans g2).trans k2, rfl, k5⟩
  · rw [if_neg hg] at h1
    refine ⟨reads, b, o, s.res, .success, ?_, h3, h4, ?_⟩
    · rw [devMarkbad, hro, if_neg (by simp), h1, Ret.bind_val, if_pos rfl]; rfl
    · rw [if_neg hg]; exact ⟨h2, rfl, rfl⟩

end Sys2Proof.Machine
end

