-- ==== Sys2Proof/Laws/Chip.lean ====
section
/-! SUPPORT. What the selected chip becomes under the command sequences: the page that a read drives, the bytes that a
program or an erase leaves (20_memory.md R66), on a chip that is addressed as it expects. -/

namespace Sys2Proof.Machine

/-! ## Address cycles -/

/-- The command takes address cycles of a page, not a single byte. -/
abbrev rowCommand (c : Option Cmd) : Prop :=
  c ≠ some .readid ∧ c ≠ some .param ∧ c ≠ some .getfeat

/-- Address cycles one after another, up to the number the chip expects. -/
theorem Chip.latchAddress_fold (l : List Byte) (ch : Chip) (ha : ch.addr = []) (hc : rowCommand ch.cmd)
    (hl : l.length ≤ ch.colCycles + ch.rowCycles) :
    l.foldl (fun ch a => ch.latchAddress a) ch =
      if ch.smallRead = true ∧ l.length = ch.colCycles + ch.rowCycles then { ch with addr := l }.startRead
      else { ch with addr := l } := by
  have h3 : 3 ≤ ch.colCycles + ch.rowCycles := by unfold Chip.colCycles Chip.rowCycles; split <;> split <;> omega
  induction l using List.reverseRecOn with
  | nil =>
    rw [if_neg (by simp; omega)]
    cases ch; simp_all
  | append_singleton l b ih =>
    simp only [List.length_append, List.length_singleton] at hl ⊢
    rw [List.foldl_append, ih (by omega), if_neg (by omega)]
    simp only [List.foldl_cons, List.foldl_nil, Chip.latchAddress]
    by_cases hn : l = []
    · subst hn
      rw [if_pos rfl, if_neg (by simp; omega)]
      simp [Chip.singleByteAddress, hc.1, hc.2.1, hc.2.2]
    · rw [if_neg hn]
      simp only [List.length_append, List.length_singleton]
      rfl

theorem natOfBytes_two (x y : Byte) : natOfBytes [x, y] = x.toNat + 256 * y.toNat := by simp [natOfBytes]

theorem natOfBytes_three (x y z : Byte) : natOfBytes [x, y, z] = x.toNat + 256 * (y.toNat + 256 * z.toNat) := by
  simp [natOfBytes]

/-- The row cycles name the row. -/
theorem natOfBytes_rowAddrBytes {row3 : Bool} {r : Nat} (h : r < 2 ^ (if row3 then 24 else 16)) :
    natOfBytes (rowAddrBytes row3 r) = r := by
  cases row3 <;> simp [rowAddrBytes, natOfBytes] at h ⊢ <;> omega

theorem length_rowAddrBytes (row3 : Bool) (r : Nat) : (rowAddrBytes row3 r).length = if row3 then 3 else 2 := by
  cases row3 <;> rfl

theorem length_columnBytes (v : Variant) (w : Bool) (k : Nat) : (columnBytes v w k).length = if v = .large then 2 else 1 := by
  cases v <;> rfl

/-- A row of the chip fits its row cycles. -/
theorem Chip.matches.row_lt {s : State} {ch : Chip} (hm : ch.matches s) {r : Nat} (h : r < ch.rows) :
    r < 2 ^ (if s.geo.row3 then 24 else 16) := by
  obtain ⟨-, -, -, -, -, -, h1, h2, -⟩ := hm
  unfold Chip.rowCycles at h1
  cases hr : s.geo.row3 <;> simp only [hr, Bool.false_eq_true, if_false, if_true] at h1 ⊢
  · split at h1 <;> omega
  · omega

/-- The column that the chip makes of the column cycles of byte column `k`. -/
def Chip.columnOf (s : State) (k : Nat) : Nat :=
  natOfBytes (columnBytes s.variant s.conf.bus16 k) * if s.conf.bus16 then 2 else 1

@[simp] theorem Chip.columnOf_zero (s : State) : Chip.columnOf s 0 = 0 := by
  unfold Chip.columnOf columnBytes busColumn
  cases s.variant <;> cases s.conf.bus16 <;> simp [natOfBytes]

theorem Chip.columnOf_le (s : State) (k : Nat) : Chip.columnOf s k ≤ k := by
  unfold Chip.columnOf columnBytes busColumn
  cases s.variant <;> cases s.conf.bus16 <;> simp [natOfBytes] <;> omega

section
variable {s : State} {ch x : Chip} {row k : Nat}

/-- `x` is the chip `ch` but for what commands change, with the array of `ch`. -/
structure Chip.Like (ch x : Chip) : Prop where
  fixed : x.fixed = ch.fixed
  cells : x.cells = ch.cells

theorem Chip.Like.refl (ch : Chip) : Chip.Like ch ch := ⟨rfl, rfl⟩

theorem Chip.Like.trans {y : Chip} (h : Chip.Like ch x) (h' : Chip.Like x y) : Chip.Like ch y :=
  ⟨h'.fixed.trans h.fixed, h'.cells.trans h.cells⟩

theorem Chip.Like.parts (h : Chip.Like ch x) :
    x.pageSize = ch.pageSize ∧ x.oobSize = ch.oobSize ∧ x.pagesPerBlock = ch.pagesPerBlock ∧ x.rows = ch.rows ∧
      x.bus16 = ch.bus16 ∧ x.stuck = ch.stuck ∧ x.statusBase = ch.statusBase ∧ x.progFails = ch.progFails ∧
      x.eraseFails = ch.eraseFails ∧ x.failMask = ch.failMask ∧ x.idBytes = ch.idBytes ∧ x.sigBytes = ch.sigBytes ∧
      x.paramBytes = ch.paramBytes := by
  have e {α : Type} (f : Chip → α) (hf : ∀ y : Chip, f y.fixed = f y) : f x = f ch := by rw [← hf x, h.fixed, hf]
  exact ⟨e _ fun _ => rfl, e _ fun _ => rfl, e _ fun _ => rfl, e _ fun _ => rfl, e _ fun _ => rfl, e _ fun _ => rfl,
    e _ fun _ => rfl, e _ fun _ => rfl, e _ fun _ => rfl, e _ fun _ => rfl, e _ fun _ => rfl, e _ fun _ => rfl,
    e _ fun _ => rfl⟩

theorem Chip.Like.large (h : Chip.Like ch x) : x.large = ch.large := by unfold Chip.large; rw [h.parts.1]
theorem Chip.Like.stride (h : Chip.Like ch x) : x.stride = ch.stride := by
  unfold Chip.stride; rw [h.parts.1, h.parts.2.1]
theorem Chip.Like.key (h : Chip.Like ch x) (r c : Nat) : x.key r c = ch.key r c := by
  unfold Chip.key; rw [h.stride]
theorem Chip.Like.colCycles (h : Chip.Like ch x) : x.colCycles = ch.colCycles := by unfold Chip.colCycles; rw [h.large]
theorem Chip.Like.rowCycles (h : Chip.Like ch x) : x.rowCycles = ch.rowCycles := by
  unfold Chip.rowCycles; rw [h.parts.2.2.2.1]

theorem Chip.Like.matches (h : Chip.Like ch x) (hm : ch.matches s) : x.matches s := by
  obtain ⟨a1, a2, a3, a4, a5, a6, a7, a8, a9, a10⟩ := hm
  obtain ⟨b1, b2, b3, b4, b5, b6, -, -, -, b7, -⟩ := h.parts
  exact ⟨b6 ▸ a1, b1 ▸ a2, b2 ▸ a3, b3 ▸ a4, b5 ▸ a5, by rw [h.large]; exact a6, by rw [h.rowCycles]; exact a7, b4 ▸ a8,
    b7 ▸ a9, a10⟩

/-- The address of a page operation, on a chip that is addressed as it expects. -/
theorem Chip.matches.address (hm : ch.matches s) (hr : row < ch.rows) (hx : Chip.Like ch x)
    (ha : x.addr = columnBytes s.variant s.conf.bus16 k ++ rowAddrBytes s.geo.row3 row) :
    x.colAddr = Chip.columnOf s k + (if ch.large then 0 else x.area) ∧ x.rowAddr = row ∧ x.addressed = true ∧
      x.addr.length = x.colCycles + x.rowCycles := by
  have hlen := length_columnBytes s.variant s.conf.bus16 k
  have hcol : x.colCycles = (columnBytes s.variant s.conf.bus16 k).length := by
    rw [hx.colCycles, hlen]
    unfold Chip.colCycles
    obtain ⟨-, -, -, -, -, h6, -⟩ := hm
    by_cases hv : s.variant = .large
    · rw [if_pos hv, if_pos (h6.2 hv)]
    · rw [if_neg hv, if_neg fun h => hv (h6.1 h)]
  have hrow : x.rowCycles = (rowAddrBytes s.geo.row3 row).length := by
    rw [hx.rowCycles, hm.2.2.2.2.2.2.1, length_rowAddrBytes]
  have hb : x.bus16 = s.conf.bus16 := hx.parts.2.2.2.2.1.trans hm.2.2.2.2.1
  refine ⟨?_, ?_, ?_, ?_⟩
  · unfold Chip.colAddr
    rw [ha, hcol, List.take_left, hb, hx.large]
    rfl
  · unfold Chip.rowAddr
    rw [ha, hcol, List.drop_left, hrow, List.take_length, natOfBytes_rowAddrBytes (hm.row_lt hr)]
  · unfold Chip.addressed
    rw [ha, List.length_append, ← hcol, ← hrow]; simp
  · rw [ha, List.length_append, hcol, hrow]

end

/-! ## Sequences without a page address -/

theorem State.chip?_cle (s : State) (c : Cmd) : (s.cle c).chip? = s.bus.chip?.map (Chip.latchCommand s.bus.fresh c) :=
  Bus.chip?_cle _ _ _

/-- The selected chip after a command byte without operands. -/
theorem chip?_methodBus_bare (s : State) {cmd : Cmd} (h0 : cmd ≠ .read0) (h5 : cmd ≠ .readoob) :
    (methodBus s cmd none none).chip? = s.bus.chip?.map (Chip.latchCommand s.bus.fresh cmd) := by
  unfold methodBus
  cases s.variant <;>
    simp [cmdSmall, cmdLarge, redirectOob, commandAddress, rbBytes, Bus.ales, State.chip?_cle, h0, h5]

/-- The selected chip after a command byte with a single-byte operand. -/
theorem chip?_methodBus_single (s : State) {cmd : Cmd} (a : Byte) (h : cmd ∈ byteCommands) :
    (methodBus s cmd (some a.toNat) none).chip? =
      s.bus.chip?.map fun ch => (ch.latchCommand s.bus.fresh cmd).latchAddress a := by
  have h0 : cmd ≠ .read0 := by rintro rfl; simp at h
  have h5 : cmd ≠ .readoob := by rintro rfl; simp at h
  have hk : rbKind cmd = .singleByte := by
    cases cmd <;> simp at h <;> rfl
  unfold methodBus
  cases s.variant <;>
    simp [cmdSmall, cmdLarge, redirectOob, commandAddress, rbBytes, Bus.ales, State.chip?_cle, Bus.chip?_ale, h0, h5, hk, Function.comp_def]

/-- The READID sequence on a ready chip that drives at least `n` bytes at that address. -/
theorem readIdBytes_chip {s : State} {ch : Chip} (h : s.bus.chip? = some ch) (hb : ch.busy = false) (a : Byte) (n : Nat)
    {out : List Byte} (ho : (if a = 0x00#8 then .bytes ch.idBytes else if a = 0x20#8 then .bytes ch.sigBytes else .none) =
      DataOut.bytes out) (hn : n ≤ out.length) :
    ∃ b x, readIdBytes s a n = .val (out.take n) (s.setBus b) ∧ b.chip? = some x ∧ x.busy = false ∧ Chip.Like ch x ∧
      Bus.Ran true ([s.latch .readid, .ale a, .idle] ++ (out.take n).map .rd8) s.bus b := by
  have hc := chip?_methodBus_single s (cmd := .readid) a (by decide)
  rw [h, Option.map_some] at hc
  have hx : (ch.latchCommand s.bus.fresh .readid).latchAddress a =
      { ch with cmd := some .readid, addr := [a], dataOut := .bytes out } := by
    simp [Chip.latchCommand, Chip.latchAddress, Chip.newCommand, Chip.singleByteAddress, ← ho]
  rw [hx] at hc
  obtain ⟨h1, h2⟩ := Bus.rd8s_bytes n hc (show ch.busy = false from hb) rfl hn
  have hr := ran_methodBus s .readid (some a.toNat) none
  rw [commandEvents_single s a.toNat (by decide)] at hr
  simp only [BitVec.ofNat_toNat, BitVec.setWidth_eq] at hr
  have hr2 := hr.trans (Bus.ran_rd8s n _)
  rw [h1] at hr2
  refine ⟨_, _, ?_, h2, hb, ⟨rfl, rfl⟩, hr2⟩
  simp only [readIdBytes, command_noWait s (some a.toNat) none (cmd := .readid) (by decide),
    Ret.bind_val]
  rw [← h1]
  rfl

/-- PARAM, then the wait: the chip drives its parameter bytes. -/
theorem param_chip {s : State} {ch : Chip} (h : s.bus.chip? = some ch) (hs : ch.stuck = false) :
    ∃ b x n, command s .param (some 0) none = .val () (s.setBus b) ∧ b.chip? = some x ∧ x.busy = false ∧
      x.dataOut = .bytes ch.paramBytes ∧ Chip.Like ch x ∧
      Bus.Ran true [s.latch .param, .ale 0x00#8, .idle, .wait n] s.bus b := by
  have hc := chip?_methodBus_single s (cmd := .param) 0x00#8 (by decide)
  rw [h, Option.map_some] at hc
  have hx : (ch.latchCommand s.bus.fresh .param).latchAddress 0x00#8 =
      { ch with cmd := some .param, addr := [0x00#8], busy := true, dataOut := .bytes ch.paramBytes } := by
    simp [Chip.latchCommand, Chip.latchAddress, Chip.newCommand, Chip.singleByteAddress]
  rw [hx] at hc
  have hans : (s.setBus (methodBus s .param (some 0) none)).answers := by
    show Bus.neverReady _ = false
    unfold Bus.neverReady
    rw [State.setBus_bus, show methodBus s .param (some 0) none = methodBus s .param (some (0x00#8).toNat) none from rfl, hc]
    exact hs
  have hr := ran_methodBus s .param (some 0) none
  rw [commandEvents_single s 0 (by decide)] at hr
  have hw := Bus.chip?_waited (methodBus s .param (some 0) none)
  rw [show (methodBus s .param (some 0) none).chip? = _ from hc, Option.map_some] at hw
  refine ⟨_, _, _, ?_, hw, rfl, rfl, ⟨rfl, rfl⟩, hr.trans (Bus.ran_waited _)⟩
  rw [command_eq, if_pos (by decide), waitReady_val hans]
  rfl

/-- NAND.RESET, then the wait: the chip is ready. -/
theorem nandReset_chip {s : State} {ch : Chip} (h : s.bus.chip? = some ch) (hs : ch.stuck = false) :
    ∃ b x n, nandReset s = .val .success (s.setBus b) ∧ b.chip? = some x ∧ x.busy = false ∧ Chip.Like ch x ∧
      Bus.Ran true [s.latch .reset, .idle, .wait n] s.bus b := by
  have hc := chip?_methodBus_bare s (cmd := .reset) (by decide) (by decide)
  rw [h, Option.map_some] at hc
  have hx : ch.latchCommand s.bus.fresh .reset =
      { ch with cmd := some .reset, addr := [], dataIn := [], busy := true, dataOut := .none } := by
    simp [Chip.latchCommand, Chip.newCommand]
  rw [hx] at hc
  have hans : (s.setBus (methodBus s .reset none none)).answers := by
    show Bus.neverReady _ = false
    unfold Bus.neverReady
    rw [State.setBus_bus, hc]
    exact hs
  have hr := ran_methodBus s .reset none none
  rw [commandEvents_bare s (by decide) (by decide)] at hr
  have hw := Bus.chip?_waited (methodBus s .reset none none)
  rw [hc, Option.map_some] at hw
  refine ⟨_, _, _, ?_, hw, rfl, ⟨rfl, rfl⟩, hr.trans (Bus.ran_waited _)⟩
  rw [nandReset, command_eq, if_pos (by decide), waitReady_val hans, Ret.bind_val]
  rfl

/-! ## Sequences with a page address -/

section
variable {s : State} {ch : Chip} {row : Nat}

/-- The address cycles of a page operation. -/
abbrev pageCycles (s : State) (k row : Nat) : List Byte :=
  columnBytes s.variant s.conf.bus16 k ++ rowAddrBytes s.geo.row3 row

/-- The chip after a command byte that takes a page address, and the address: addressed, or reading. -/
theorem Chip.matches.cycles {y : Chip} (hm : ch.matches s) (hr : row < ch.rows) (hy : Chip.Like ch y) (ha : y.addr = [])
    (hc : rowCommand y.cmd) (k : Nat) :
    (pageCycles s k row).foldl (fun ch a => ch.latchAddress a) y =
      if y.smallRead = true then { y with addr := pageCycles s k row }.startRead
      else { y with addr := pageCycles s k row } := by
  have h : Chip.Like ch { y with addr := pageCycles s k row } := hy.trans ⟨rfl, rfl⟩
  obtain ⟨-, -, -, hl⟩ := hm.address (k := k) hr h rfl
  have hl : (pageCycles s k row).length = y.colCycles + y.rowCycles := hl
  rw [Chip.latchAddress_fold _ _ ha hc hl.le]
  simp only [hl, and_true]

/-- What a read that starts drives. -/
theorem Chip.matches.startRead {y : Chip} (hm : ch.matches s) (hr : row < ch.rows) (hy : Chip.Like ch y) (k : Nat)
    (ha : y.addr = pageCycles s k row) :
    y.startRead.busy = true ∧ Chip.Like ch y.startRead ∧
      y.startRead.dataOut = .bytes (ch.cells.readBytes
        (ch.key row (Chip.columnOf s k + if ch.large then 0 else y.area))
        (ch.stride - (Chip.columnOf s k + if ch.large then 0 else y.area))) := by
  obtain ⟨h1, h2, -, -⟩ := hm.address (k := k) hr hy ha
  refine ⟨rfl, hy.trans ⟨rfl, rfl⟩, ?_⟩
  unfold Chip.startRead
  rw [h1, h2, hy.parts.2.2.2.1, if_pos hr, hy.cells, hy.key, hy.stride]

/-- The byte column at which `command(0x50, row, 0)` starts a read and `command(0x80, row, PAGE_SIZE)` a program. -/
def Chip.spareColumn (s : State) (ch : Chip) : Nat := if ch.large then Chip.columnOf s s.geo.pageSize.toNat else ch.pageSize

theorem Chip.spareColumn_le (hm : ch.matches s) : Chip.spareColumn s ch ≤ ch.pageSize := by
  unfold Chip.spareColumn
  split
  · rw [hm.2.1]; exact Chip.columnOf_le s _
  · exact le_rfl

/-- The second command of a large-page read starts it. -/
theorem Chip.latchCommand_readstart {x : Chip} (hl : x.large = true) (hc : x.cmd = some .read0) (ha : x.addressed = true)
    (n : Nat) : x.latchCommand n .readstart = { x.startRead with cmd := some .readstart, addr := [] } :=
  if_pos ⟨hl, hc, ha⟩

/-- The chip during a large-page read from column `k` on. -/
theorem chip?_largeRead (h : s.bus.chip? = some ch) (hm : ch.matches s) (hr : row < ch.rows) (hv : s.variant = .large)
    (k : Nat) :
    ∃ x, (cmdLarge s .read0 (some row) (some k)).chip? = some x ∧ x.busy = true ∧ Chip.Like ch x ∧
      x.dataOut = .bytes (ch.cells.readBytes (ch.key row (Chip.columnOf s k)) (ch.stride - Chip.columnOf s k)) := by
  have hy : Chip.Like ch (ch.latchCommand s.bus.fresh .read0) := ⟨Chip.latchCommand_fixed _ _ _, rfl⟩
  have hcy := hm.cycles hr hy rfl (by show rowCommand (some .read0); decide) k
  have hl : ch.large = true := hm.2.2.2.2.2.1.2 hv
  have hsm : (ch.latchCommand s.bus.fresh .read0).smallRead = false := by
    unfold Chip.smallRead; rw [hy.large, hl]; rfl
  rw [if_neg (by simp [hsm])] at hcy
  have hz : Chip.Like ch { ch.latchCommand s.bus.fresh .read0 with addr := pageCycles s k row } := hy.trans ⟨rfl, rfl⟩
  have hx := hm.startRead hr hz k rfl
  have had := (hm.address (k := k) hr hz rfl).2.2.1
  refine ⟨{ Chip.startRead { ch.latchCommand s.bus.fresh .read0 with addr := pageCycles s k row } with
    cmd := some .readstart, addr := [] }, ?_, hx.1, hx.2.1.trans ⟨rfl, rfl⟩, ?_⟩
  · rw [cmdLarge]
    dsimp only
    rw [if_pos rfl, Bus.chip?_idleLatch, Bus.chip?_cle, Bus.chip?_idleLatch, Bus.chip?_ales, State.chip?_cle, h,
      Option.map_some, Option.map_some, Option.map_some]
    have e : commandAddress s .large .read0 (some row) (some k) = pageCycles s k row := by rw [pageCycles, hv]; rfl
    rw [e]
    have hcy' : List.foldl (fun ch a => Chip.latchAddress a ch) (Chip.latchCommand s.bus.fresh .read0 ch)
      (pageCycles s k row) = _ := hcy
    rw [hcy']
    congr 1
    exact Chip.latchCommand_readstart (hz.large.trans hl) rfl had _
  · show (Chip.startRead _).dataOut = _
    rw [hx.2.2, hl]
    simp

/-- The chip during a small-page read with command byte `c`. -/
theorem chip?_smallRead (h : s.bus.chip? = some ch) (hm : ch.matches s) (hr : row < ch.rows) (hv : s.variant = .small)
    {c : Cmd} (hc : c = .read0 ∨ c = .readoob) :
    ∃ x, (cmdSmall s c (some row) (some 0)).chip? = some x ∧ x.busy = true ∧ Chip.Like ch x ∧
      x.dataOut = .bytes (ch.cells.readBytes (ch.key row (ch.latchCommand s.bus.fresh c).area)
        (ch.stride - (ch.latchCommand s.bus.fresh c).area)) := by
  have hy : Chip.Like ch (ch.latchCommand s.bus.fresh c) :=
    ⟨Chip.latchCommand_fixed _ _ _, by rcases hc with rfl | rfl <;> rfl⟩
  have hcmd : (ch.latchCommand s.bus.fresh c).cmd = some c ∧ (ch.latchCommand s.bus.fresh c).addr = [] := by
    rcases hc with rfl | rfl <;> exact ⟨rfl, rfl⟩
  have hcy := hm.cycles hr hy hcmd.2 (by rw [hcmd.1]; rcases hc with rfl | rfl <;> decide) 0
  have hl : ch.large = false := by
    have := hm.2.2.2.2.2.1
    simpa [hv] using this
  have hsm : (ch.latchCommand s.bus.fresh c).smallRead = true := by
    unfold Chip.smallRead
    rw [hy.large, hl, hcmd.1]
    rcases hc with rfl | rfl <;> rfl
  rw [if_pos hsm] at hcy
  have hx := hm.startRead (y := { ch.latchCommand s.bus.fresh c with addr := pageCycles s 0 row }) hr
    (hy.trans ⟨rfl, rfl⟩) 0 rfl
  refine ⟨_, ?_, hx.1, hx.2.1, ?_⟩
  · rw [cmdSmall, if_neg (by rcases hc with rfl | rfl <;> decide), Bus.chip?_idleLatch, Bus.chip?_ales, State.chip?_cle, h,
      Option.map_some, Option.map_some, ← hcy, pageCycles, hv]
    rcases hc with rfl | rfl <;> rfl
  · rw [hx.2.2]
    simp [hl]

/-- The chip during a page read from its first main byte. -/
theorem chip?_read0 (h : s.bus.chip? = some ch) (hm : ch.matches s) (hr : row < ch.rows) :
    ∃ x, (methodBus s .read0 (some row) (some 0)).chip? = some x ∧ x.busy = true ∧ Chip.Like ch x ∧
      x.dataOut = .bytes (ch.cells.readBytes (ch.key row 0) ch.stride) := by
  unfold methodBus
  cases hv : s.variant with
  | small => exact chip?_smallRead h hm hr hv (.inl rfl)
  | large => simpa [redirectOob] using chip?_largeRead h hm hr hv 0

/-- The chip during a read of its spare bytes. -/
theorem chip?_readOob (h : s.bus.chip? = some ch) (hm : ch.matches s) (hr : row < ch.rows) :
    ∃ x, (methodBus s .readoob (some row) (some 0)).chip? = some x ∧ x.busy = true ∧ Chip.Like ch x ∧
      x.dataOut = .bytes (ch.cells.readBytes (ch.key row (Chip.spareColumn s ch)) (ch.stride - Chip.spareColumn s ch)) := by
  unfold methodBus Chip.spareColumn
  cases hv : s.variant with
  | small =>
    have hl : ch.large = false := by
      have := hm.2.2.2.2.2.1
      simpa [hv] using this
    have hx := chip?_smallRead h hm hr hv (.inr rfl)
    rw [show (ch.latchCommand s.bus.fresh .readoob).area = ch.pageSize from rfl] at hx
    simpa [hl] using hx
  | large =>
    have hl : ch.large = true := hm.2.2.2.2.2.1.2 hv
    simpa [hl, redirectOob] using chip?_largeRead h hm hr hv s.geo.pageSize.toNat

/-- The chip after SEQIN and the address of main byte 0 or of the first spare byte. -/
theorem chip?_seqin (h : s.bus.chip? = some ch) (hm : ch.matches s) (hr : row < ch.rows) {k : Nat}
    (hk : k = 0 ∨ k = s.geo.pageSize.toNat) :
    ∃ x, (methodBus s .seqin (some row) (some k)).chip? = some x ∧ Chip.Like ch x ∧ x.cmd = some .seqin ∧
      x.dataIn = [] ∧ x.addressed = true ∧ x.rowAddr = row ∧
      x.colAddr = (if k = 0 then 0 else Chip.spareColumn s ch) := by
  have seq (y : Chip) (n : Nat) (hy : Chip.Like ch y) : Chip.Like ch (y.latchCommand n .seqin) ∧
      (y.latchCommand n .seqin).cmd = some .seqin ∧ (y.latchCommand n .seqin).addr = [] ∧
      (y.latchCommand n .seqin).dataIn = [] ∧ (y.latchCommand n .seqin).area = y.area :=
    ⟨hy.trans ⟨rfl, rfl⟩, rfl, rfl, rfl, rfl⟩
  have fin (y : Chip) (n j : Nat) (hy : Chip.Like ch y) :
      ∃ x, (pageCycles s j row).foldl (fun ch a => ch.latchAddress a) (y.latchCommand n .seqin) = x ∧
        Chip.Like ch x ∧ x.cmd = some .seqin ∧ x.dataIn = [] ∧ x.addressed = true ∧ x.rowAddr = row ∧
        x.colAddr = Chip.columnOf s j + if ch.large then 0 else y.area := by
    obtain ⟨h1, h2, h3, h4, h5⟩ := seq y n hy
    have hcy := hm.cycles hr h1 h3 (by rw [h2]; decide) j
    have hsm : ¬ ((y.latchCommand n .seqin).smallRead = true) := by
      unfold Chip.smallRead
      rw [h2]
      simp
    rw [if_neg hsm] at hcy
    have hz : Chip.Like ch { y.latchCommand n .seqin with addr := pageCycles s j row } := h1.trans ⟨rfl, rfl⟩
    obtain ⟨g1, g2, g3, -⟩ := hm.address (k := j) hr hz rfl
    exact ⟨_, hcy, hz, h2, h4, g3, g2, g1⟩
  unfold methodBus
  cases hv : s.variant with
  | small =>
    have hl : ch.large = false := by
      have := hm.2.2.2.2.2.1
      simpa [hv] using this
    have hp : ∃ c, areaPointer s.geo.pageSize.toNat s.conf.bus16 k = (c, 0) ∧ (c = .read0 ∨ c = .readoob) ∧
        (ch.latchCommand s.bus.fresh c).area = if k = 0 then 0 else ch.pageSize := by
      unfold areaPointer
      by_cases hle : s.geo.pageSize.toNat ≤ k
      · refine ⟨.readoob, by rw [if_pos hle]; rcases hk with rfl | rfl <;> simp, .inr rfl, ?_⟩
        show ch.pageSize = _
        rw [hm.2.1]
        rcases hk with rfl | rfl
        · simp; omega
        · split <;> simp_all
      · have hk0 : k = 0 := by rcases hk with h | h <;> omega
        subst hk0
        refine ⟨.read0, by rw [if_neg hle, if_pos (.inr (by omega))], .inl rfl, rfl⟩
    obtain ⟨c, hp1, hp2, hp3⟩ := hp
    have hyc : Chip.Like ch (ch.latchCommand s.bus.fresh c) :=
      ⟨Chip.latchCommand_fixed _ _ _, by rcases hp2 with rfl | rfl <;> rfl⟩
    obtain ⟨x, g1, g2, g3, g4, g5, g6, g7⟩ := fin _ (s.cle c).fresh 0 hyc
    refine ⟨x, ?_, g2, g3, g4, g5, g6, ?_⟩
    · dsimp only
      rw [cmdSmall]
      dsimp only
      rw [if_pos rfl, hp1]
      dsimp only
      rw [Bus.chip?_idleLatch, Bus.chip?_ales, Bus.chip?_cle, State.chip?_cle, h, Option.map_some, Option.map_some,
        Option.map_some, ← g1, pageCycles, hv]
      rfl
    · rw [g7, hp3, hl]
      simp [Chip.spareColumn, hl]
  | large =>
    have hl : ch.large = true := hm.2.2.2.2.2.1.2 hv
    obtain ⟨x, g1, g2, g3, g4, g5, g6, g7⟩ := fin ch s.bus.fresh k (Chip.Like.refl ch)
    refine ⟨x, ?_, g2, g3, g4, g5, g6, ?_⟩
    · dsimp only
      rw [redirectOob, if_neg (by decide), cmdLarge]
      dsimp only
      rw [if_neg (by decide), Bus.chip?_idleLatch, Bus.chip?_ales, State.chip?_cle, h, Option.map_some, Option.map_some,
        ← g1, pageCycles, hv]
      rfl
    · rw [g7, hl]
      rcases hk with rfl | rfl
      · simp
      · simp only [Chip.spareColumn, hl, if_true, Nat.add_zero]
        split
        · rename_i h0; rw [h0]; simp
        · rfl

/-- The chip that is about to erase the block of a row. -/
theorem chip?_erase (h : s.bus.chip? = some ch) (hm : ch.matches s) (hr : row < ch.rows) :
    ∃ x, (methodBus s .erase1 (some row) none).chip? = some x ∧ Chip.Like ch x ∧ x.cmd = some .erase1 ∧
      x.rowCycles ≤ x.addr.length ∧ x.eraseRow = row := by
  have hy : Chip.Like ch (ch.latchCommand s.bus.fresh .erase1) := ⟨Chip.latchCommand_fixed _ _ _, rfl⟩
  have hrc : (ch.latchCommand s.bus.fresh .erase1).rowCycles = (rowAddrBytes s.geo.row3 row).length := by
    rw [hy.rowCycles, hm.2.2.2.2.2.2.1, length_rowAddrBytes]
  have hf := Chip.latchAddress_fold (rowAddrBytes s.geo.row3 row) (ch.latchCommand s.bus.fresh .erase1) rfl
    (by show rowCommand (some .erase1); decide) (by omega)
  have hsm : ¬ ((ch.latchCommand s.bus.fresh .erase1).smallRead = true ∧ (rowAddrBytes s.geo.row3 row).length =
      (ch.latchCommand s.bus.fresh .erase1).colCycles + (ch.latchCommand s.bus.fresh .erase1).rowCycles) := by
    rintro ⟨h1, -⟩
    unfold Chip.smallRead at h1
    rw [show (ch.latchCommand s.bus.fresh .erase1).cmd = some .erase1 from rfl] at h1
    simp at h1
  rw [if_neg hsm] at hf
  refine ⟨{ ch.latchCommand s.bus.fresh .erase1 with addr := rowAddrBytes s.geo.row3 row }, ?_, hy.trans ⟨rfl, rfl⟩, rfl,
    ?_, ?_⟩
  · rw [← hf]
    unfold methodBus
    cases hv : s.variant with
    | small =>
      dsimp only
      rw [cmdSmall]
      rw [Bus.chip?_idleLatch, Bus.chip?_ales, State.chip?_cle, h]
      rfl
    | large =>
      dsimp only
      rw [redirectOob, if_neg (by decide), cmdLarge]
      dsimp only
      rw [if_neg (by decide), Bus.chip?_idleLatch, Bus.chip?_ales, State.chip?_cle, h]
      rfl
  · exact hrc.le
  · unfold Chip.eraseRow
    show natOfBytes ((rowAddrBytes s.geo.row3 row).take (ch.latchCommand s.bus.fresh .erase1).rowCycles) = row
    rw [hrc, List.take_length, natOfBytes_rowAddrBytes (hm.row_lt hr)]

end

end Sys2Proof.Machine
end

