-- ==== Sys2Proof/Laws/Decode.lean ====
section
/-! SUPPORT. Cutting a command word into its fields and putting them together again lose nothing. -/

namespace Sys2Proof

theorem fieldsOfWord_wordOfFields (f : Fields) : fieldsOfWord (wordOfFields f) = f := by
  obtain ⟨opc, mode, c, r, z, imm, p, d⟩ := f
  simp only [fieldsOfWord, wordOfFields, Fields.mk.injEq]
  refine ⟨?_, ?_, ?_, ?_, ?_, ?_, ?_, ?_⟩
  case refine_3 => simp only [BitVec.getLsbD_append]; simp
  case refine_4 => simp only [BitVec.getLsbD_append]; simp
  all_goals
    apply BitVec.eq_of_getLsbD_eq
    intro i hi
    simp only [BitVec.getLsbD_append, BitVec.getLsbD_extractLsb', hi, decide_true, Bool.true_and]
    grind

theorem wordOfFields_fieldsOfWord (w : BitVec 32) : wordOfFields (fieldsOfWord w) = w := by
  apply BitVec.eq_of_getLsbD_eq
  intro i hi
  simp only [fieldsOfWord, wordOfFields, BitVec.getLsbD_append, BitVec.getLsbD_extractLsb']
  interval_cases i <;> simp

end Sys2Proof
end

