-- ==== Sys2Proof/Laws/Frame.lean ====
section
/-! SUPPORT. What every part of every operation leaves alone, however it comes out: the operands, the configuration, the
lock, and (outside DETECT) the detected device; that it keeps the memories in canonical form; and whether it can confirm a
program or an erase. One lemma for each operation of Machine/. -/

namespace Sys2Proof.Machine

/-- What a part of an operation that goes from `s` to `t` leaves alone. `q`: it latches no confirm; `k`: it keeps
the registers of the detected device. -/
structure Went (q k : Bool) (s t : State) : Prop where
  cw : t.cw = s.cw
  a0 : t.a0 = s.a0
  a1 : t.a1 = s.a1
  a2 : t.a2 = s.a2
  a3 : t.a3 = s.a3
  conf : t.conf = s.conf
  par : t.par = s.par
  hostIn : t.hostIn = s.hostIn
  busPort : t.busPort = s.busPort
  lock : t.lock = s.lock
  ran : ∃ l, Bus.Ran q l s.bus t.bus
  wf : s.memoryWf → t.memoryWf
  device : k = true → t.geo = s.geo ∧ t.detected = s.detected ∧ t.variant = s.variant ∧ t.bbmPos = s.bbmPos ∧
    t.id = s.id ∧ t.freeTab = s.freeTab ∧ t.eccTab = s.eccTab ∧ t.pt = s.pt
  res : t.res = s.res ∨ t.res.toNat < 2 ^ 16

variable {q k : Bool} {s t u : State}

theorem Went.refl (s : State) : Went q k s s :=
  ⟨rfl, rfl, rfl, rfl, rfl, rfl, rfl, rfl, rfl, rfl, ⟨[], (Bus.Ran.refl _).weaken fun _ => rfl⟩, id,
    fun _ => ⟨rfl, rfl, rfl, rfl, rfl, rfl, rfl, rfl⟩, .inl rfl⟩

theorem Went.trans (h : Went q k s t) (h' : Went q k t u) : Went q k s u where
  cw := h'.cw.trans h.cw
  a0 := h'.a0.trans h.a0
  a1 := h'.a1.trans h.a1
  a2 := h'.a2.trans h.a2
  a3 := h'.a3.trans h.a3
  conf := h'.conf.trans h.conf
  par := h'.par.trans h.par
  hostIn := h'.hostIn.trans h.hostIn
  busPort := h'.busPort.trans h.busPort
  lock := h'.lock.trans h.lock
  ran := by
    obtain ⟨l, r⟩ := h.ran
    obtain ⟨l', r'⟩ := h'.ran
    exact ⟨l ++ l', (r.trans r').weaken fun hq => by simp [hq]⟩
  wf := h'.wf ∘ h.wf
  device hk := by
    obtain ⟨a1, a2, a3, a4, a5, a6, a7, a8⟩ := h.device hk
    obtain ⟨b1, b2, b3, b4, b5, b6, b7, b8⟩ := h'.device hk
    exact ⟨b1.trans a1, b2.trans a2, b3.trans a3, b4.trans a4, b5.trans a5, b6.trans a6, b7.trans a7, b8.trans a8⟩
  res := h'.res.elim (fun e => e ▸ h.res) .inr

theorem Went.weaken (h : Went q true s t) : Went q k s t := { h with device := fun _ => h.device rfl }

/-- The flash arrays stay when no confirm was latched. -/
theorem Went.sameFlash (h : Went true k s t) : sameFlash s t := by
  obtain ⟨l, r⟩ := h.ran
  exact fun c a => r.flash c a

/-- A run of bus events. -/
theorem went_ran {q' : Bool} {l : List BusEvent} {b : Bus} (h : Bus.Ran q' l s.bus b) (hq : q = true → q' = true) :
    Went q k s (s.setBus b) :=
  ⟨rfl, rfl, rfl, rfl, rfl, rfl, rfl, rfl, rfl, rfl, ⟨l, h.weaken hq⟩, fun hw => ⟨hw.1, hw.2.1, hw.2.2.1, h.wf hw.2.2.2⟩,
    fun _ => ⟨rfl, rfl, rfl, rfl, rfl, rfl, rfl, rfl⟩, .inl rfl⟩

/-- A run of bus events without a confirm. -/
theorem went_bus {l : List BusEvent} {b : Bus} (h : Bus.Ran true l s.bus b) : Went q k s (s.setBus b) :=
  went_ran h fun _ => rfl

/-- A change of the registers that are in no frame; what is written to `RES` has at most 16 bits. -/
theorem went_regs {t : State} (h : t = { s with
      status := t.status, res := t.res, phase := t.phase, eccCa := t.eccCa, eccRd := t.eccRd, crcOut := t.crcOut
      curChip := t.curChip, onfi := t.onfi, onfiValid := t.onfiValid, onfiStatus := t.onfiStatus
      eccBits512 := t.eccBits512, micronEccOn := t.micronEccOn, acc := t.acc, crc := t.crc })
    (hr : t.res = s.res ∨ t.res.toNat < 2 ^ 16 := by exact .inl rfl) : Went q k s t := by
  rw [h]
  exact ⟨rfl, rfl, rfl, rfl, rfl, rfl, rfl, rfl, rfl, rfl, ⟨[], (Bus.Ran.refl _).weaken fun _ => rfl⟩, id,
    fun _ => ⟨rfl, rfl, rfl, rfl, rfl, rfl, rfl, rfl⟩, hr⟩

theorem went_setRes (v : BitVec 16) : Went q k s (s.setRes (v.setWidth 64)) :=
  went_regs rfl (.inr (by simp [State.setRes]; omega))

theorem went_setRes8 (v : Byte) : Went q k s (s.setRes (v.setWidth 64)) :=
  went_regs rfl (.inr (by simp [State.setRes]; omega))

theorem went_setDbuf {m : Memory} (h : s.dbuf.wf → m.wf) : Went q k s (s.setDbuf m) :=
  ⟨rfl, rfl, rfl, rfl, rfl, rfl, rfl, rfl, rfl, rfl, ⟨[], (Bus.Ran.refl _).weaken fun _ => rfl⟩, fun hw => ⟨h hw.1, hw.2⟩,
    fun _ => ⟨rfl, rfl, rfl, rfl, rfl, rfl, rfl, rfl⟩, .inl rfl⟩

theorem went_setObuf {m : Memory} (h : s.obuf.wf → m.wf) : Went q k s (s.setObuf m) :=
  ⟨rfl, rfl, rfl, rfl, rfl, rfl, rfl, rfl, rfl, rfl, ⟨[], (Bus.Ran.refl _).weaken fun _ => rfl⟩,
    fun hw => ⟨hw.1, h hw.2.1, hw.2.2⟩, fun _ => ⟨rfl, rfl, rfl, rfl, rfl, rfl, rfl, rfl⟩, .inl rfl⟩

theorem went_setOobs {m : Memory} (h : s.oobs.wf → m.wf) : Went q k s (s.setOobs m) :=
  ⟨rfl, rfl, rfl, rfl, rfl, rfl, rfl, rfl, rfl, rfl, ⟨[], (Bus.Ran.refl _).weaken fun _ => rfl⟩,
    fun hw => ⟨hw.1, hw.2.1, h hw.2.2.1, hw.2.2.2⟩, fun _ => ⟨rfl, rfl, rfl, rfl, rfl, rfl, rfl, rfl⟩, .inl rfl⟩

theorem went_selectChip (c : Byte) : Went q k s (s.selectChip c) :=
  (went_bus (Bus.ran_sel s.bus c)).trans (went_regs rfl)

theorem went_select (a : Nat) : Went q k s (s.select a) := went_selectChip _

theorem went_blankOobs : Went q k s s.blankOobs := went_setOobs fun h => Memory.wf_clearRange h _ _

/-! ## Parts that hang -/

/-- A part that never ends does not leave `PHASE = IDLE` (10_state.md R22, 60_exceptions.md R337). -/
def Ret.Busy {α : Type} (r : Ret α) : Prop := ∀ s, r = .hang s → s.phase ≠ .idle

theorem Ret.busy_val {α : Type} {a : α} {s : State} : (Ret.val a s).Busy := fun _ e => nomatch e

theorem Ret.Busy.bind {α β : Type} {r : Ret α} {f : α → State → Ret β} (h : r.Busy) (hf : ∀ a s, (f a s).Busy) :
    (r.bind f).Busy := by
  cases r with
  | val a s => exact hf a s
  | hang s => exact fun t e => by cases e; exact h _ rfl
  | fault e => exact fun _ e => nomatch e
  | refuse e => exact fun _ e => nomatch e

/-- A part of an operation: how it comes out. -/
structure Ret.Fits {α : Type} (q k : Bool) (s : State) (r : Ret α) : Prop where
  went : r.Leaves (Went q k s)
  busy : r.Busy

theorem fits_val {α : Type} {a : α} (h : Went q k s t) : (Ret.val a t).Fits q k s :=
  ⟨Ret.leaves_val h, Ret.busy_val⟩

theorem fits_fault {α : Type} {e : Fault} : (Ret.fault (α := α) e).Fits q k s :=
  ⟨Ret.leaves_fault, fun _ e => nomatch e⟩

theorem fits_refuse {α : Type} {e : Refusal} : (Ret.refuse (α := α) e).Fits q k s :=
  ⟨Ret.leaves_refuse, fun _ e => nomatch e⟩

theorem Ret.Fits.after {α : Type} {r : Ret α} (h' : r.Fits q k t) (h : Went q k s t) : r.Fits q k s :=
  ⟨h'.went.mono fun _ h1 => h.trans h1, h'.busy⟩

theorem Ret.Fits.bind {α β : Type} {r : Ret α} {f : α → State → Ret β} (h : r.Fits q k s)
    (hf : ∀ a t, (f a t).Fits q k t) : (r.bind f).Fits q k s :=
  ⟨h.went.bind fun a t ht => ((hf a t).after ht).went, h.busy.bind fun a t => (hf a t).busy⟩

/-- The same with what the first part left. -/
theorem Ret.Fits.bind' {α β : Type} {r : Ret α} {f : α → State → Ret β} (h : r.Fits q k s)
    (hf : ∀ a t, Went q k s t → (f a t).Fits q k t) : (r.bind f).Fits q k s := by
  cases r with
  | val a t => exact (hf a t (h.went.1 a t rfl)).after (h.went.1 a t rfl)
  | hang t => exact ⟨Ret.leaves_hang (h.went.2 t rfl), fun u e => by cases e; exact h.busy _ rfl⟩
  | fault e => exact fits_fault
  | refuse e => exact fits_refuse

theorem fits_ite {α : Type} {c : Prop} [Decidable c] {x y : Ret α} (hx : c → x.Fits q k s) (hy : ¬ c → y.Fits q k s) :
    (if c then x else y).Fits q k s := by
  split
  · exact hx ‹_›
  · exact hy ‹_›

theorem Ret.Fits.weaken {α : Type} {r : Ret α} (h : r.Fits q true s) : r.Fits q k s :=
  ⟨h.went.mono fun _ h => h.weaken, h.busy⟩

/-! ## Bus parts -/

theorem waitReady_fits (s : State) : (waitReady s).Fits q k s := by
  by_cases h : s.answers
  · rw [waitReady_val h]
    exact fits_val (went_bus (Bus.ran_waited _))
  · rw [waitReady_hang h]
    refine ⟨Ret.leaves_hang ?_, fun t e => by cases e; simp⟩
    exact (went_bus (Bus.ran_log s.bus (e := .notReady) fun _ => rfl)).trans (went_regs rfl)

theorem command_fits (s : State) {cmd : Cmd} (rb col : Option Nat) (hq : q = true → quietCmd cmd = true) :
    (command s cmd rb col).Fits q k s := by
  have hb : Went q k s (s.setBus (methodBus s cmd rb col)) := went_ran (ran_methodBus s cmd rb col) hq
  rw [command_eq]
  exact fits_ite (fun _ => (waitReady_fits _).after hb) fun _ => fits_val hb

theorem went_rd8s (n : Nat) : Went q k s (s.rd8s n).2 :=
  went_bus (Bus.ran_rd8s n s.bus)

theorem went_rd8 : Went q k s s.rd8.2 :=
  went_bus (Bus.ran_rd8 s.bus)

theorem went_rdBuf (n : Nat) : Went q k s (s.rdBuf n).2 :=
  went_bus (Bus.ran_rdBuf n s.bus)

theorem went_wrBuf (l : List Byte) : Went q k s (s.wrBuf l) :=
  went_bus (Bus.ran_wrBuf s.bus l)

theorem readIdBytes_fits (s : State) (a : Byte) (n : Nat) : (readIdBytes s a n).Fits q k s :=
  (command_fits s _ _ fun _ => rfl).bind fun _ _ => fits_val (went_rd8s n)

theorem readStatus_fits (s : State) : (readStatus s).Fits q k s :=
  (command_fits s _ _ fun _ => rfl).bind fun _ _ => fits_val (went_rd8.trans (went_setRes8 _))

theorem confirm_fits (s : State) (c : Cmd) (f : Status) : (confirm s c f).Fits false k s :=
  (command_fits (q := false) s _ _ (by simp)).bind fun _ t =>
    (waitReady_fits t).bind fun _ t => (readStatus_fits t).bind fun _ t => fits_val (Went.refl t)

theorem getFeature_fits (s : State) (a : Byte) : (getFeature s a).Fits q k s :=
  (command_fits s _ _ fun _ => rfl).bind fun _ _ => fits_val (went_rd8s 4)

theorem setFeature_fits (s : State) (a : Byte) (p : List Byte) : (setFeature s a p).Fits q k s :=
  (command_fits s _ _ fun _ => rfl).bind fun _ _ => (waitReady_fits _).after (went_wrBuf p)

theorem nandReset_fits (s : State) : (nandReset s).Fits q k s :=
  (command_fits s _ _ fun _ => rfl).bind fun _ t => fits_val (Went.refl t)

theorem withDevice_fits {f : Bool} {r : Ret Status} (h : s.detected = true → r.Fits q k s) :
    (withDevice s f r).Fits q k s :=
  fits_ite (fun hd => fits_ite (fun _ => h hd) fun _ => fits_val (Went.refl s)) fun _ => fits_val (Went.refl s)

/-! ## Page operations -/

theorem went_setAcc (a : EccAcc) : Went q k s (s.setAcc a) := went_regs rfl
theorem went_setEccCa (e : Triple) : Went q k s (s.setEccCa e) := went_regs rfl
theorem went_setEccRd (e : Triple) : Went q k s (s.setEccRd e) := went_regs rfl
theorem went_setCrc (c : BitVec 16) : Went q k s (s.setCrc c) := went_regs rfl

theorem went_calcChunk (off : Nat) : Went q k s (calcChunk s off) := by
  unfold calcChunk
  exact (went_setAcc _).trans (went_setEccCa _)

theorem went_correctChunk (off : Nat) : Went q k s (correctChunk s off).2 := by
  unfold correctChunk
  dsimp only
  split_ifs
  · exact Went.refl s
  · exact went_setDbuf fun h => Memory.wf_write h _ _
  · exact Went.refl s
  · exact Went.refl s

theorem went_checkChunk (i : Nat) : Went q k s (checkChunk s i).2 :=
  ((went_calcChunk _).trans (went_setEccRd _)).trans (went_correctChunk _)

theorem went_checkChunks (n : Nat) : ∀ (i : Nat) (st : Status) (s : State), Went q k s (checkChunks n i st s).2 := by
  induction n with
  | zero => exact fun _ _ s => Went.refl s
  | succ n ih => exact fun i st s => (went_checkChunk i).trans (ih (i + 1) _ _)

theorem went_putTriple (i : Nat) (e : Triple) : Went q k s (putTriple s i e) :=
  went_setOobs fun h => Memory.wf_write (Memory.wf_write (Memory.wf_write h _ _) _ _) _ _

theorem went_placeTriples (n : Nat) : ∀ (i : Nat) (s : State), Went q k s (placeTriples n i s) := by
  induction n with
  | zero => exact fun _ s => Went.refl s
  | succ n ih => exact fun i s => ((went_calcChunk _).trans (went_putTriple i _)).trans (ih (i + 1) _)

theorem withEccTable_fits {r : Ret Status} (h : r.Fits q k s) : (withEccTable s r).Fits q k s :=
  fits_ite (fun _ => fits_ite (fun _ => h) fun _ => fits_refuse) fun _ => fits_refuse

theorem fetchPage_fits (s : State) (row : Nat) : (fetchPage s row).Fits q k s := by
  refine (command_fits s _ _ fun _ => rfl).bind fun _ t => fits_val ?_
  have h1 : Went q k t ((t.rdBuf t.geo.pageSize.toNat).2.setDbuf ((t.rdBuf t.geo.pageSize.toNat).2.dbuf.writeBytes 0
      (t.rdBuf t.geo.pageSize.toNat).1)) := (went_rdBuf _).trans (went_setDbuf fun h => Memory.wf_writeBytes h _ _)
  exact h1.trans ((went_rdBuf _).trans (went_setOobs fun h => Memory.wf_writeBytes h _ _))

theorem pageRead_fits (s : State) (row : Nat) (m : OobMode) : (pageRead s row m).Fits q k s := by
  refine withDevice_fits fun _ => fits_ite (fun _ => withEccTable_fits ?_) fun _ => ?_
  · exact (fetchPage_fits s row).bind fun _ t => fits_val (went_checkChunks _ _ _ t)
  · exact (fetchPage_fits s row).bind fun _ t => fits_val (Went.refl t)

theorem programPage_fits (s : State) (row : Nat) : (programPage s row).Fits false k s :=
  (command_fits (q := false) s _ _ (by simp)).bind fun _ _ =>
    (confirm_fits _ _ _).after ((went_wrBuf _).trans (went_wrBuf _))

theorem programOob_fits (s : State) (row : Nat) : (programOob s row).Fits false k s :=
  (command_fits (q := false) s _ _ (by simp)).bind fun _ _ => (confirm_fits _ _ _).after (went_wrBuf _)

theorem pageReadoob_fits (s : State) (row : Nat) : (pageReadoob s row).Fits q k s :=
  withDevice_fits fun _ => (command_fits s _ _ fun _ => rfl).bind fun _ _ =>
    fits_val ((went_rdBuf _).trans (went_setOobs fun h => Memory.wf_writeBytes h _ _))

theorem pageWrite_fits (s : State) (row : Nat) (m : OobMode) (hq : q = true → s.conf.readOnly = true) :
    (pageWrite s row m).Fits q k s := by
  refine fits_ite (fun _ => fits_val (Went.refl s)) fun h => ?_
  cases q with
  | true => exact absurd (hq rfl) h
  | false =>
    exact withDevice_fits fun _ => fits_ite
      (fun _ => withEccTable_fits ((programPage_fits _ row).after (went_placeTriples _ _ _)))
      fun _ => programPage_fits s row

theorem pageMarkbad_fits (s : State) (row : Nat) (hq : q = true → s.conf.readOnly = true) :
    (pageMarkbad s row).Fits q k s := by
  refine fits_ite (fun _ => fits_val (Went.refl s)) fun h => ?_
  cases q with
  | true => exact absurd (hq rfl) h
  | false =>
    exact withDevice_fits fun _ =>
      (programOob_fits _ row).after (went_blankOobs.trans (went_setOobs fun h => Memory.wf_write h _ _))

theorem blockErase_fits (s : State) (row : Nat) (hq : q = true → s.conf.readOnly = true) :
    (blockErase s row).Fits q k s := by
  refine fits_ite (fun _ => fits_val (Went.refl s)) fun h => ?_
  cases q with
  | true => exact absurd (hq rfl) h
  | false =>
    exact withDevice_fits fun _ => (command_fits (q := false) s _ _ (by simp)).bind fun _ t => confirm_fits t _ _

/-! ## OOB and blocks -/

theorem gatherOob_fits (s : State) (m : OobMode) (off size : Nat) : (gatherOob s m off size).Fits q k s :=
  fits_ite (fun _ => fits_val (went_setObuf fun h => Memory.wf_writeBytes h _ _)) fun _ => fits_refuse

theorem scatterOob_fits (s : State) (m : OobMode) (off size : Nat) : (scatterOob s m off size).Fits q k s :=
  fits_ite (fun _ => fits_val (went_blankOobs.trans (went_setOobs fun h => Memory.wf_scatter h _))) fun _ => fits_refuse

theorem checkMarkers_fits (rows : List Nat) : ∀ s : State, (checkMarkers rows s).Fits q k s := by
  induction rows with
  | nil => exact fun s => fits_val (Went.refl s)
  | cons r rows ih =>
    exact fun s => (pageReadoob_fits s r).bind fun _ t => fits_ite (fun _ => fits_val (Went.refl t)) fun _ => ih t

theorem devIsvalid_fits (s : State) (a : Nat) : (devIsvalid s a).Fits q k s :=
  withDevice_fits fun _ => fits_ite (fun _ => fits_val (Went.refl s)) fun _ =>
    (checkMarkers_fits _ _).after (went_select a)

theorem markRows_fits (rows : List Nat) : ∀ (res : Status) (s : State), (q = true → s.conf.readOnly = true) →
    (markRows rows res s).Fits q k s := by
  induction rows with
  | nil => exact fun _ s _ => fits_val (Went.refl s)
  | cons r rows ih =>
    exact fun res s hq => (pageMarkbad_fits s r hq).bind' fun _ t ht => ih _ t fun h => ht.conf ▸ hq h

theorem devMarkbad_fits (s : State) (a : Nat) (hq : q = true → s.conf.readOnly = true) :
    (devMarkbad s a).Fits q k s := by
  refine fits_ite (fun _ => fits_val (Went.refl s)) fun _ => ?_
  refine (devIsvalid_fits s a).bind' fun st t ht => fits_ite (fun _ => fits_val (Went.refl t)) fun _ =>
    fits_ite (fun _ => fits_val (Went.refl t)) fun _ => ?_
  have hqt : q = true → t.conf.readOnly = true := fun h => ht.conf ▸ hq h
  exact (blockErase_fits t _ hqt).bind' fun _ u hu => markRows_fits _ _ u fun h => hu.conf ▸ hqt h

theorem eraseThenMark_fits (s : State) (a : Nat) (m : EraseMode) (hq : q = true → s.conf.readOnly = true) :
    (eraseThenMark s a m).Fits q k s :=
  (blockErase_fits s _ hq).bind' fun _ t ht => fits_ite
    (fun _ => (devMarkbad_fits t a fun h => ht.conf ▸ hq h).bind fun _ u => fits_val (Went.refl u))
    fun _ => fits_val (Went.refl t)

theorem eraseBlock_fits (s : State) (a : Nat) (m : EraseMode) (hq : q = true → s.conf.readOnly = true) :
    (eraseBlock s a m).Fits q k s := by
  have hs : Went q k s (s.select a) := went_select a
  refine fits_ite (fun _ => (eraseThenMark_fits _ a m fun h => hs.conf ▸ hq h).after hs) fun _ =>
    fits_ite (fun _ => fits_val (Went.refl s)) fun _ => ?_
  exact (devIsvalid_fits s a).bind' fun _ t ht => fits_ite (fun _ => fits_val (Went.refl t)) fun _ =>
    eraseThenMark_fits t a m fun h => ht.conf ▸ hq h

theorem eraseBlocks_fits (m : EraseMode) (n : Nat) : ∀ (a : Nat) (st : Status) (s : State),
    (q = true → s.conf.readOnly = true) → (eraseBlocks m n a st s).Fits q k s := by
  induction n with
  | zero => exact fun _ _ s _ => fits_val (Went.refl s)
  | succ n ih =>
    exact fun a st s hq => (eraseBlock_fits s a m hq).bind' fun _ t ht => ih _ _ t fun h => ht.conf ▸ hq h

theorem readForOob_fits (s : State) (row : Nat) (m : OobMode) : (readForOob s row m).Fits q k s :=
  fits_ite (fun _ => pageRead_fits s row m) fun _ => pageReadoob_fits s row

theorem writeForOob_fits (s : State) (row : Nat) (m : OobMode) : (writeForOob s row m).Fits false k s :=
  fits_ite (fun _ => pageWrite_fits s row m fun h => nomatch h) fun _ => withDevice_fits fun _ => programOob_fits s row

/-! ## Detection -/

theorem onfiCheck_went : Went q k s (onfiCheck s).2 := went_setCrc _

theorem went_onfi (l : List Byte) : Went q k s { s with onfi := l } := went_regs rfl

theorem went_attempt (n : Nat) :
    Went q k s (onfiCheck { (s.rd8s n).2 with onfi := (s.rd8s n).1 }).2 := by
  have h : Went q k s (s.rd8s n).2 := went_rd8s n
  generalize s.rd8s n = x at h
  exact (h.trans (went_onfi x.1)).trans onfiCheck_went

theorem onfiAttempts_went (n : Nat) : ∀ s : State, Went q k s (onfiAttempts n s).2 := by
  induction n with
  | zero => exact fun s => Went.refl s
  | succ n ih =>
    intro s
    have h := went_attempt (q := q) (k := k) (s := s) 256
    rw [onfiAttempts]
    generalize onfiCheck { (s.rd8s 256).2 with onfi := (s.rd8s 256).1 } = x at h ⊢
    split
    · exact h
    · exact h.trans (ih _)

theorem went_onfiEnd (st : Status) : Went q k s (onfiEnd st s) := went_regs rfl

theorem onfiDetect_fits (s : State) : (onfiDetect s).Fits q k s := by
  refine Ret.Fits.bind ((readIdBytes_fits _ _ _).after (went_regs rfl)) fun sig t => fits_ite
    (fun _ => fits_val (went_onfiEnd _)) fun _ => ?_
  exact (command_fits t _ _ fun _ => rfl).bind fun _ t =>
    fits_val ((onfiAttempts_went 3 t).trans (went_onfiEnd _))

theorem went_device {t : State} (h : t = { s with
      detected := t.detected, geo := t.geo, id := t.id, onfiValid := t.onfiValid, onfiStatus := t.onfiStatus
      bbmPos := t.bbmPos, variant := t.variant, eccBits512 := t.eccBits512, micronEccOn := t.micronEccOn
      freeTab := t.freeTab, eccTab := t.eccTab, pt := t.pt }) : Went q false s t := by
  rw [h]
  exact ⟨rfl, rfl, rfl, rfl, rfl, rfl, rfl, rfl, rfl, rfl, ⟨[], (Bus.Ran.refl _).weaken fun _ => rfl⟩, id, (fun h => nomatch h), .inl rfl⟩

theorem identify_fits (s : State) : (identify s).Fits q false s := by
  refine Ret.Fits.bind ((nandReset_fits _).after (went_selectChip _)) fun _ t => ?_
  refine (readIdBytes_fits t _ _).bind fun _ t => (readIdBytes_fits t _ _).bind fun _ t => ?_
  exact fits_ite (fun _ => fits_val (went_device rfl)) fun _ => fits_val (Went.refl t)

theorem findGeometry_fits (s : State) : (findGeometry s).Fits q k s := by
  unfold findGeometry
  dsimp only
  split
  · exact fits_val (Went.refl s)
  · exact (onfiDetect_fits s).bind fun _ t => fits_ite (fun _ => fits_val (Went.refl t)) fun _ => fits_val (Went.refl t)

theorem went_draw (n : Nat) : Went q k s (s.setBus (s.bus.draw n)) := went_bus (Bus.ran_draw _ _)

theorem went_configure (g : Candidate) (f : Bool) : Went q false s (configure g f s) :=
  (went_draw 1).trans (went_device rfl)

theorem micronProbe_fits (s : State) : (micronProbe s).Fits q k s :=
  fits_ite
    (fun _ => (setFeature_fits s _ _).bind fun _ t => (getFeature_fits t _).bind fun _ _ => fits_val (went_regs rfl))
    fun _ => fits_val (Went.refl s)

theorem countChips_fits (n : Nat) : ∀ (c count : Nat) (s : State), (countChips n c count s).Fits q k s := by
  induction n with
  | zero => exact fun _ _ s => fits_val (Went.refl s)
  | succ n ih =>
    exact fun c count s => Ret.Fits.bind ((readIdBytes_fits _ _ _).after (went_selectChip _)) fun _ t =>
      fits_ite (fun _ => fits_val (Went.refl t)) fun _ => ih _ _ t

theorem detectFailed_fits (st : Status) (s : State) : (detectFailed st s).Fits q false s :=
  fits_val ((went_draw 14).trans (went_device rfl))

theorem detectDone_fits (g : Candidate) (n : Nat) (s : State) : (detectDone g n s).Fits q false s :=
  fits_ite (fun _ => fits_val (went_device rfl)) fun _ => detectFailed_fits _ s

theorem detectStep7_fits (g : Candidate) (f : Bool) (s : State) : (detectStep7 g f s).Fits q false s := by
  refine Ret.Fits.bind ((micronProbe_fits _).after (went_configure g f)) fun st t => fits_ite
    (fun _ => detectFailed_fits _ t) fun _ => ?_
  exact (countChips_fits _ _ _ t).bind fun n t => detectDone_fits g n t

theorem detect_fits (s : State) : (detect s).Fits q false s := by
  refine Ret.Fits.bind ((identify_fits _).after (went_device rfl)) fun st t => fits_ite
    (fun _ => detectFailed_fits _ t) fun _ => (findGeometry_fits t).bind fun found t => ?_
  split
  · exact detectFailed_fits _ t
  · exact fits_ite (fun _ => detectFailed_fits _ t) fun _ => fits_ite (fun _ => detectFailed_fits _ t) fun _ =>
      detectStep7_fits _ _ t

/-! ## Whole instructions -/

theorem went_endOp (st : Status) : Went q k s (s.endOp st) := went_regs rfl

theorem Ret.Fits.finish {r : Ret Status} (h : r.Fits q k s) (e : r.finish = .next t) : Went q k s t := by
  rcases Ret.finish_next e with ⟨st, u, rfl, rfl⟩ | rfl
  · exact (h.went.1 _ _ rfl).trans (went_endOp st)
  · exact h.went.2 _ rfl

theorem went_next {st : Status} (h : Went q k s u) (e : (Host.Outcome.next (u.endOp st) : Host.Outcome State Fault Refusal) = .next t) : Went q k s t := by
  cases e; exact h.trans (went_endOp st)

/-- `t` but for the lock. -/
abbrev WentBut (q k : Bool) (s t : State) : Prop := Went q k s (t.setLock s.lock)

theorem Went.but (h : Went q k s t) : WentBut q k s t := by
  have : t.setLock s.lock = t := by apply State.ext <;> simp [h.lock]
  rw [WentBut, this]; exact h

theorem partOp_went {v : Option Status} {f : Bool} {body : State → Ret Status} (e : partOp s v f body = .next t)
    (hb : v = none → (body (s.setLock true)).Fits q k (s.setLock true)) : WentBut q k s t := by
  cases v with
  | some st => exact (went_next (Went.refl s) e).but
  | none =>
    have e : (if f then (locked s body).finish else .next (s.endOp .invalidAddress)) = .next t := e
    split at e
    case isFalse => exact (went_next (Went.refl s) e).but
    have hs : ∀ x, Went q k (s.setLock true) x → Went q k s (x.setLock s.lock) := fun x h =>
      ⟨h.cw, h.a0, h.a1, h.a2, h.a3, h.conf, h.par, h.hostIn, h.busPort, rfl, h.ran, h.wf, h.device, h.res⟩
    cases hl : s.lock with
    | true =>
      rw [locked, acquire, if_pos hl] at e
      cases e
      refine Went.but ?_
      exact went_regs rfl
    | false =>
      rw [locked, acquire, if_neg (by simp [hl]), Ret.bind_val] at e
      cases hr : body (s.setLock true) with
      | val st u =>
        rw [hr] at e
        cases e
        exact hs (u.endOp st) (((hb rfl).went.1 _ _ hr).trans (went_endOp st))
      | hang u => rw [hr] at e; cases e; exact hs _ ((hb rfl).went.2 _ hr)
      | fault x => rw [hr] at e; cases e
      | refuse x => rw [hr] at e; cases e

theorem transfer_went (h : execNandRdbuf s = .next t) : Went q k s t := by
  unfold execNandRdbuf at h
  dsimp only at h
  split at h
  · split at h
    · exact went_next (Went.refl s) h
    · exact went_next ((went_rdBuf _).trans (went_setDbuf fun h => Memory.wf_writeBytes h _ _)) h
  · exact went_next (Went.refl s) h

/-- Does `i` latch no confirm in `s`? -/
def quiet (s : State) : Instr → Prop
  | .nandCmd _ _ _ | .nandCtrl _ _ | .cmdPageprog | .cmdErase2 => False
  | _ => s.conf.readOnly = true

theorem rwValidate_ro {p : BitVec 4} {o : Option OobMode} {c : Bool} (h : rwValidate s p o c true = none) : s.conf.readOnly = false := by
  unfold rwValidate at h
  by_contra hro
  cases hp : s.part p with
  | none => rw [hp] at h; dsimp only at h; split_ifs at h
  | some e => rw [hp] at h; dsimp only at h; split_ifs at h; simp_all

theorem blockValidate_ro {p : BitVec 4} {c : Bool} (h : blockValidate s p c true = none) : s.conf.readOnly = false := by
  unfold blockValidate at h
  by_contra hro
  cases hp : s.part p with
  | none => rw [hp] at h; dsimp only at h; split_ifs at h
  | some e => rw [hp] at h; dsimp only at h; split_ifs at h; simp_all

theorem eraseallValidate_ro {p : BitVec 4} (h : eraseallValidate s p = none) : s.conf.readOnly = false := by
  unfold eraseallValidate at h
  by_contra hro
  cases hp : s.part p with
  | none => rw [hp] at h; dsimp only at h; split_ifs at h
  | some e => rw [hp] at h; dsimp only at h; split_ifs at h; simp_all

theorem went_control (s : State) (e : BusEvent) : Went false k s (s.setBus (s.bus.control s.par.cmds e)) := by
  unfold Bus.control
  split
  · exact went_ran (Bus.ran_cle _ _ _) (by simp)
  · exact went_bus (Bus.ran_ale _ _)
  · exact went_bus (Bus.ran_idleLatch _)

theorem busCommand_went (s : State) {c : Cmd} (h : q = true → quietCmd c = true) : Went q k s (busCommand c s) :=
  went_ran (Bus.ran_cle _ _ _) h

theorem went_popcnt (b : Byte) : Went q k s (s.setRes (BitVec.ofNat 64 (popcnt b))) :=
  went_regs rfl (.inr (by
    have : ∀ b : Byte, (BitVec.ofNat 64 (popcnt b)).toNat < 2 ^ 16 := by decide
    exact this b))

theorem ite_next {c : Prop} [Decidable c] {a b : Host.Outcome State Fault Refusal} {P : Prop} (e : (if c then a else b) = .next t) (ha : a = .next t → P) (hb : b = .next t → P) : P := by
  split at e
  · exact ha e
  · exact hb e

theorem exec_went {i : Instr} (e : exec i s = .next t) (hk : k = true → i ≠ .detect) (hc : ∀ p d, i ≠ .partCreate p d)
    (hq : q = true → quiet s i) : WentBut q k s t := by
  cases i with
  | eccCalc => exact (ite_next e (went_next (went_calcChunk _)) (went_next (Went.refl s))).but
  | eccCorrect => exact (ite_next e (went_next (went_correctChunk _)) (went_next (Went.refl s))).but
  | eccPopcnt b => exact (went_next (went_popcnt b) e).but
  | crc16 => exact (ite_next e (went_next (went_setCrc _)) (went_next (Went.refl s))).but
  | onfiCheck => exact (went_next onfiCheck_went e).but
  | nandSelect => exact (went_next (went_selectChip _) e).but
  | nandCtrl d m =>
    have hqf : q = false := by cases q; rfl; exact (hq rfl).elim
    subst hqf
    have e : execNandCtrl d m s = .next t := e
    unfold execNandCtrl at e
    split at e
    · rename_i ev _
      exact (went_next (went_control s ev) e).but
    · exact (went_next (Went.refl s) e).but
  | nandWait => exact (((waitReady_fits s).bind fun _ t => fits_val (Went.refl t)).finish e).but
  | nandCmd c x y =>
    have hqf : q = false := by cases q; rfl; exact (hq rfl).elim
    subst hqf
    exact (ite_next e (went_next (Went.refl s)) (((command_fits s _ _ (by simp)).bind fun _ t => fits_val (Went.refl t)).finish)).but
  | nandRd8 => exact (went_next (went_rd8.trans (went_setRes8 _)) e).but
  | nandRd16 =>
    refine (went_next ((went_bus (Bus.ran_rd16 s.conf.bus16 s.bus)).trans (went_setRes _)) e).but
  | nandRdbuf => exact (transfer_went e).but
  | nandWrbuf =>
    exact (ite_next e (went_next (Went.refl s)) fun e => ite_next e (fun e => ite_next e (went_next (Went.refl s)) (went_next (went_wrBuf _))) (went_next (Went.refl s))).but
  | nandReset => exact ((nandReset_fits s).finish e).but
  | nandReadid b =>
    exact (ite_next e (went_next (Went.refl s)) (((readIdBytes_fits s _ _).bind fun _ t => fits_val (went_setDbuf fun h => Memory.wf_writeBytes h _ _)).finish)).but
  | nandStatus => exact (((readStatus_fits s).bind fun _ t => fits_val (Went.refl t)).finish e).but
  | nandGetfeat b =>
    exact (ite_next e (((getFeature_fits s _).bind fun _ t => fits_val (went_setDbuf fun h => Memory.wf_writeBytes h _ _)).finish) (went_next (Went.refl s))).but
  | nandSetfeat b =>
    exact (ite_next e (((setFeature_fits s _ _).bind fun _ t => fits_val (Went.refl t)).finish) (went_next (Went.refl s))).but
  | detect =>
    have : k = false := by cases k; rfl; exact absurd rfl (hk rfl)
    subst this
    exact ((detect_fits s).finish e).but
  | onfiDetect => exact ((onfiDetect_fits s).finish e).but
  | pageRead m => exact ((pageRead_fits s _ m).finish e).but
  | pageWrite m => exact ((pageWrite_fits s _ m hq).finish e).but
  | pageReadoob => exact ((pageReadoob_fits s _).finish e).but
  | pageMarkbad => exact ((pageMarkbad_fits s _ hq).finish e).but
  | blockErase => exact ((blockErase_fits s _ hq).finish e).but
  | oobCopy m => exact ((withDevice_fits fun _ => gatherOob_fits s m _ _).finish e).but
  | oobFill m => exact ((withDevice_fits fun _ => scatterOob_fits s m _ _).finish e).but
  | devIsvalid => exact ((devIsvalid_fits s _).finish e).but
  | devMarkbad => exact ((devMarkbad_fits s _ hq).finish e).but
  | lockObtain =>
    have e : execLockObtain s = .next t := e
    unfold execLockObtain acquire at e
    split at e
    · cases e; exact Went.but (went_regs rfl)
    · cases e
      refine (?_ : Went q k s _)
      have : ((s.setLock true).endOp .success).setLock s.lock = s.endOp .success := rfl
      rw [this]; exact went_endOp _
  | lockRelease => cases e; exact went_endOp (s := s) .success
  | partCreate p d => exact absurd rfl (hc p d)
  | partRead p =>
    exact partOp_went e fun _ => (pageRead_fits _ _ _).after (went_select _)
  | partWrite p =>
    refine partOp_went e fun hv => ?_
    have := rwValidate_ro hv
    exact (pageWrite_fits _ _ _ fun h => absurd (hq h) (by simp [quiet, this])).after ((went_select _).trans went_blankOobs)
  | partReadoob p m =>
    exact partOp_went e fun _ => ((readForOob_fits _ _ _).after (went_select _)).bind fun _ t => (gatherOob_fits t _ _ _).bind fun _ t => fits_val (Went.refl t)
  | partWriteoob p m =>
    refine partOp_went e fun hv => ?_
    have := rwValidate_ro hv
    have hqf : q = false := by cases q; rfl; exact absurd (hq rfl) (by simp [quiet, this])
    subst hqf
    exact ((scatterOob_fits _ _ _ _).after (went_select _)).bind fun _ t => writeForOob_fits t _ _
  | partErase p m =>
    have e : execPartErase p m s = .next t := e
    unfold execPartErase at e
    split at e
    · exact (went_next (Went.refl s) e).but
    · refine partOp_went e fun hv => ?_
      have := blockValidate_ro hv
      exact eraseBlock_fits _ _ _ fun h => absurd (hq h) (by simp [quiet, this])
  | partEraseall p m =>
    have e : execPartEraseall p m s = .next t := e
    unfold execPartEraseall at e
    split at e
    · exact (went_next (Went.refl s) e).but
    · refine partOp_went e fun hv => ?_
      have := eraseallValidate_ro hv
      exact eraseBlocks_fits _ _ _ _ _ fun h => absurd (hq h) (by simp [quiet, this])
    · exact partOp_went e fun hv => fits_val (Went.refl _)
  | partIsvalid p => exact partOp_went e fun _ => devIsvalid_fits _ _
  | partMarkbad p =>
    refine partOp_went e fun hv => ?_
    have := blockValidate_ro hv
    exact devMarkbad_fits _ _ fun h => absurd (hq h) (by simp [quiet, this])
  | cmdPageprog => cases e; exact (busCommand_went s fun h => (hq h).elim).but
  | cmdErase2 => cases e; exact (busCommand_went s fun h => (hq h).elim).but
  | cmdRead0 => cases e; exact (busCommand_went s fun _ => rfl).but
  | cmdRead1 => cases e; exact (busCommand_went s fun _ => rfl).but
  | cmdReadstart => cases e; exact (busCommand_went s fun _ => rfl).but
  | cmdReadoob => cases e; exact (busCommand_went s fun _ => rfl).but
  | cmdErase1 => cases e; exact (busCommand_went s fun _ => rfl).but
  | cmdStatus => cases e; exact (busCommand_went s fun _ => rfl).but
  | cmdSeqin => cases e; exact (busCommand_went s fun _ => rfl).but
  | cmdReadid => cases e; exact (busCommand_went s fun _ => rfl).but
  | cmdParam => cases e; exact (busCommand_went s fun _ => rfl).but
  | cmdGetfeat => cases e; exact (busCommand_went s fun _ => rfl).but
  | cmdSetfeat => cases e; exact (busCommand_went s fun _ => rfl).but
  | cmdReset => cases e; exact (busCommand_went s fun _ => rfl).but

end Sys2Proof.Machine
end

