-- ==== Sys2Proof/Laws/Detect.lean ====
section
/-! SUPPORT. Detection: the ONFI page and the ID of a chip that is ready, the geometry that a commit leaves, and how
DETECT ends (43_detection.md R210 to R219). -/

namespace Sys2Proof

theorem Params.addrBound_le (p : Params) : p.addrBound ≤ 2 ^ 64 := Nat.pow_le_pow_right (by omega) (by omega)
theorem Params.sizeBound_le (p : Params) : p.sizeBound ≤ 2 ^ 65 := Nat.pow_le_pow_right (by omega) (by omega)

/-- What a register of `ADDR_W` bits holds. -/
theorem Params.fitAddr_lt (p : Params) (n : Nat) : (p.fitAddr n).toNat < p.addrBound := by
  have h : n % p.addrBound < p.addrBound := Nat.mod_lt _ (Nat.two_pow_pos _)
  rw [Params.fitAddr, BitVec.toNat_ofNat, Nat.mod_eq_of_lt (lt_of_lt_of_le h p.addrBound_le)]
  exact h

/-- What a register of `ADDR_W + 1` bits holds. -/
theorem Params.fitSize_lt (p : Params) (n : Nat) : (p.fitSize n).toNat < p.sizeBound := by
  have h : n % p.sizeBound < p.sizeBound := Nat.mod_lt _ (Nat.two_pow_pos _)
  rw [Params.fitSize, BitVec.toNat_ofNat, Nat.mod_eq_of_lt (lt_of_lt_of_le h p.sizeBound_le)]
  exact h

end Sys2Proof

namespace Sys2Proof.Machine

section
variable {s : State} {ch : Chip}

/-! ## ONFI.DETECT on a chip -/

/-- A first parameter-page copy with a good CRC. -/
theorem onfiAttempts_good {page rest : List Byte} (n : Nat) (h : s.bus.chip? = some ch) (hb : ch.busy = false)
    (hd : ch.dataOut = .bytes (page ++ rest)) (hl : page.length = 256)
    (hc : crcBytes 0x4F4E#16 (page.take 254) = BitVec.ofNat 16 (le16 page 254)) :
    ∃ b x, onfiAttempts (n + 1) s = (true, { s with
        bus := b, onfi := page, crc := crcBytes 0x4F4E#16 (page.take 254)
        crcOut := crcBytes 0x4F4E#16 (page.take 254) }) ∧
      b.chip? = some x ∧ x.busy = false ∧ Chip.Like ch x ∧ Bus.Ran true (page.map .rd8) s.bus b := by
  obtain ⟨h1, h2⟩ := Bus.rd8s_bytes 256 h hb hd (by simp [hl])
  have hr := Bus.ran_rd8s 256 s.bus
  have h1' : (s.bus.rd8s 256).1 = page := by rw [h1, ← hl]; simp
  rw [h1'] at hr
  have key : ∀ n, s.rd8s n = ((s.bus.rd8s n).1, s.setBus (s.bus.rd8s n).2) := fun n => rfl
  have e0 := key 256
  rw [h1'] at e0
  refine ⟨(s.bus.rd8s 256).2, _, ?_, h2, hb, ⟨rfl, rfl⟩, hr⟩
  rw [onfiAttempts, e0]
  generalize (s.bus.rd8s 256).2 = b
  have e3 : (onfiCheck { s.setBus b with onfi := page }).1 = .success := by
    unfold onfiCheck; dsimp only; rw [if_pos hc]
  dsimp only
  rw [if_pos e3]
  rfl

theorem onfiVerdict_ok (hr : BitVec.ofNat 16 (le16 s.onfi 4) &&& s.par.onfiRevMask ≠ 0#16)
    (hw : (le16 s.onfi 6).testBit 0 = s.conf.bus16) : onfiVerdict true s = .success := by
  unfold onfiVerdict onfiValidate
  rw [if_pos rfl, if_neg hr, if_neg (by rw [hw]; simp)]

/-- ONFI.DETECT on a ready ONFI chip with a good page. -/
theorem onfiDetect_chip {page rest : List Byte} (h : s.bus.chip? = some ch) (hs : ch.stuck = false)
    (hb : ch.busy = false) (hsig : ch.sigBytes = [0x4F#8, 0x4E#8, 0x46#8, 0x49#8]) (hp : ch.paramBytes = page ++ rest)
    (hl : page.length = 256) (hc : crcBytes 0x4F4E#16 (page.take 254) = BitVec.ofNat 16 (le16 page 254))
    (hr : BitVec.ofNat 16 (le16 page 4) &&& s.par.onfiRevMask ≠ 0#16) (hw : (le16 page 6).testBit 0 = s.conf.bus16) :
    ∃ b x n, onfiDetect s = .val .success { s with
        bus := b, onfi := page, onfiValid := true, onfiStatus := .success, crc := crcBytes 0x4F4E#16 (page.take 254)
        crcOut := crcBytes 0x4F4E#16 (page.take 254) } ∧
      b.chip? = some x ∧ x.busy = false ∧ Chip.Like ch x ∧
      Bus.Ran true ([s.latch .readid, .ale 0x20#8, .idle, .rd8 0x4F#8, .rd8 0x4E#8, .rd8 0x46#8, .rd8 0x49#8,
        s.latch .param, .ale 0x00#8, .idle, .wait n] ++ page.map .rd8) s.bus b := by
  obtain ⟨b1, x1, a1, a2, a3, a4, a5⟩ := readIdBytes_chip (s := { s with onfiValid := false }) h hb 0x20#8 4
    (out := ch.sigBytes) (by simp) (by simp [hsig])
  obtain ⟨b2, x2, n, c1, c2, c3, c4, c5, c6⟩ :=
    param_chip (s := ({ s with onfiValid := false } : State).setBus b1) a2 (a4.parts.2.2.2.2.2.1.trans hs)
  obtain ⟨b3, x3, d1, d2, d3, d4, d5⟩ :=
    onfiAttempts_good (s := (({ s with onfiValid := false } : State).setBus b1).setBus b2) (page := page) (rest := rest) 2
      c2 c3 (by rw [c4, a4.parts.2.2.2.2.2.2.2.2.2.2.2.2, hp]) hl hc
  refine ⟨b3, x3, n, ?_, d2, d3, (a4.trans c5).trans d4, ?_⟩
  · have hfin : onfiEnd .success { (({ s with onfiValid := false } : State).setBus b1).setBus b2 with
          bus := b3, onfi := page, crc := crcBytes 0x4F4E#16 (page.take 254)
          crcOut := crcBytes 0x4F4E#16 (page.take 254) } =
        { s with
          bus := b3, onfi := page, onfiValid := true, onfiStatus := .success
          crc := crcBytes 0x4F4E#16 (page.take 254), crcOut := crcBytes 0x4F4E#16 (page.take 254) } := by
      apply State.ext <;> simp [onfiEnd]
    rw [onfiDetect, a1, Ret.bind_val, hsig, if_neg (by simp), c1, Ret.bind_val]
    dsimp only
    rw [d1, ← hfin]
    have q : ({ (({ s with onfiValid := false } : State).setBus b1).setBus b2 with
          bus := b3, onfi := page, crc := crcBytes 0x4F4E#16 (page.take 254)
          crcOut := crcBytes 0x4F4E#16 (page.take 254) } : State).onfi = page ∧
        ({ (({ s with onfiValid := false } : State).setBus b1).setBus b2 with
          bus := b3, onfi := page, crc := crcBytes 0x4F4E#16 (page.take 254)
          crcOut := crcBytes 0x4F4E#16 (page.take 254) } : State).par = s.par ∧
        ({ (({ s with onfiValid := false } : State).setBus b1).setBus b2 with
          bus := b3, onfi := page, crc := crcBytes 0x4F4E#16 (page.take 254)
          crcOut := crcBytes 0x4F4E#16 (page.take 254) } : State).conf = s.conf := ⟨rfl, rfl, rfl⟩
    generalize ({ (({ s with onfiValid := false } : State).setBus b1).setBus b2 with
      bus := b3, onfi := page, crc := crcBytes 0x4F4E#16 (page.take 254)
      crcOut := crcBytes 0x4F4E#16 (page.take 254) } : State) = u at q ⊢
    rw [onfiVerdict_ok (by rw [q.1, q.2.1]; exact hr) (by rw [q.1, q.2.2]; exact hw)]
  · rw [hsig] at a5
    have := (a5.trans c6).trans d5
    simpa [State.latch] using this

/-! ## The parts of DETECT -/

/-- Step 1 on chip 0: its ID is read twice and agrees. -/
theorem identify_chip {others : List Chip} (h : s.bus.chips = ch :: others) (hs : ch.stuck = false)
    (hid : ch.idBytes.length = 8) :
    ∃ b x, identify s = .val .success { s with bus := b, curChip := 0#8, id := ch.idBytes } ∧ b.chip? = some x ∧
      x.busy = false ∧ Chip.Like ch x := by
  have h0 : (s.selectChip 0#8).bus.chip? = some ch := by
    show s.bus.chips[0]? = some ch
    rw [h]; rfl
  obtain ⟨b1, x1, n, a1, a2, a3, a4, -⟩ := nandReset_chip h0 hs
  obtain ⟨b2, x2, c1, c2, c3, c4, -⟩ := readIdBytes_chip (s := (s.selectChip 0#8).setBus b1) a2 a3 0x00#8 8
    (out := ch.idBytes) (by simp [a4.parts]) (by omega)
  obtain ⟨b3, x3, d1, d2, d3, d4, -⟩ := readIdBytes_chip (s := ((s.selectChip 0#8).setBus b1).setBus b2) c2 c3 0x00#8 8
    (out := ch.idBytes) (by simp [(a4.trans c4).parts]) (by omega)
  refine ⟨b3, x3, ?_, d2, d3, (a4.trans c4).trans d4⟩
  rw [identify, a1, Ret.bind_val, c1, Ret.bind_val, d1, Ret.bind_val, if_pos rfl, List.take_of_length_le (by omega)]
  refine congrArg _ ?_
  apply State.ext <;> simp

/-- Step 2: the device-info table knows the page size. -/
theorem findGeometry_table {e : DevInfo} {page : Nat} (h1 : devInfo s.par (s.id.getD 1 0) = some e)
    (h2 : e.pageSize = some page) : findGeometry s = .val (some (tableCandidate e page), false) s := by
  unfold findGeometry
  rw [h1]
  simp [h2]

/-- Steps 3 and 4: the table gives no page size and the ONFI page is good. -/
theorem findGeometry_onfi {t : State} (h1 : ∀ e, devInfo s.par (s.id.getD 1 0) = some e → e.pageSize = none)
    (h2 : onfiDetect s = .val .success t)
    (h3 : geometryOk t.par t.conf.eccMode (onfiGeometry t.onfi t.conf.bus16) = true) :
    findGeometry s = .val (some (onfiGeometry t.onfi t.conf.bus16), true) t := by
  unfold findGeometry
  cases hd : devInfo s.par (s.id.getD 1 0) with
  | none => simp [h2, h3]
  | some e => simp [h1 e hd, h2, h3]

/-- Counting the chips always ends with a count. -/
theorem countChips_val (k : Nat) : ∀ (c m : Nat) (s : State), ∃ n b cc,
    countChips k c m s = .val n { s with bus := b, curChip := cc } ∧ m ≤ n ∧ n ≤ m + k := by
  induction k with
  | zero => exact fun c m s => ⟨m, s.bus, s.curChip, rfl, le_rfl, le_rfl⟩
  | succ k ih =>
    intro c m s
    obtain ⟨l, b, h1, h2, h3⟩ := readIdBytes_val (s.selectChip (BitVec.ofNat 8 c)) 0x00#8 8
    rw [countChips, h1, Ret.bind_val]
    by_cases hl : l ≠ ((s.selectChip (BitVec.ofNat 8 c)).setBus b).id
    · rw [if_pos hl]
      exact ⟨m, b, BitVec.ofNat 8 c, rfl, le_rfl, by omega⟩
    · rw [if_neg hl]
      obtain ⟨n, b', cc, g1, g2, g3⟩ := ih (c + 1) (m + 1) ((s.selectChip (BitVec.ofNat 8 c)).setBus b)
      refine ⟨n, b', cc, ?_, by omega, by omega⟩
      rw [g1]
      rfl

/-! ## The committed geometry -/

theorem isPow2_iff {n : Nat} : isPow2 n = true ↔ n ≠ 0 ∧ 2 ^ n.log2 = n := by simp [isPow2]

theorem toNat_ofNat_of_lt {w n : Nat} (h : n < 2 ^ w) : (BitVec.ofNat w n).toNat = n := by
  rw [BitVec.toNat_ofNat, Nat.mod_eq_of_lt h]

/-- A legal candidate and a count that fits leave a valid geometry. -/
theorem commitGeometry_valid {par : Params} {m : EccMode} {g : Candidate} (h : geometryOk par m g = true)
    (old : Geometry) (n : Nat) (h1 : 1 ≤ n) (h2 : n < 256) (h3 : g.chipSize * n < par.sizeBound) :
    ({ commitGeometry g old with
        chipCount := BitVec.ofNat 8 n, size := BitVec.ofNat 65 (g.chipSize * n) } : Geometry).valid par ∧
      (commitGeometry g old).pageSize.toNat = g.pageSize ∧ (commitGeometry g old).blockSize.toNat = g.blockSize ∧
      (commitGeometry g old).blocksPerChip.toNat = g.blocksPerChip ∧ (commitGeometry g old).oobSize.toNat = g.oobSize := by
  simp only [geometryOk, Bool.and_eq_true, decide_eq_true_eq, beq_iff_eq] at h
  obtain ⟨⟨⟨⟨⟨⟨⟨⟨⟨⟨hp, -⟩, hpm⟩, hb⟩, hdiv⟩, hc1⟩, hcp⟩, hc⟩, ho⟩, ho2⟩, hrow⟩ := h
  have hp' := isPow2_iff.1 hp
  have hb' := isPow2_iff.1 hb
  have hcp' := isPow2_iff.1 hcp
  have hbs : g.blockSize ≤ g.chipSize := Nat.le_mul_of_pos_left _ hc1
  have hbc : g.blocksPerChip ≤ g.chipSize := Nat.le_mul_of_pos_right _ (Nat.pos_of_ne_zero hb'.1)
  have hps : g.pageSize ≤ g.blockSize := Nat.le_of_dvd (Nat.pos_of_ne_zero hb'.1) (Nat.dvd_of_mod_eq_zero hdiv)
  have hA := Params.addrBound_le par
  have hS := Params.sizeBound_le par
  generalize hAe : par.addrBound = A at hc hA
  have l (x : Nat) (hx : x ≤ g.chipSize) : x < 2 ^ 64 := by omega
  have hlog (x : Nat) (hx0 : x ≠ 0) (hx : x ≤ g.chipSize) : x.log2 < 64 := by
    have : x.log2 < 64 := (Nat.log2_lt hx0).2 (l x hx)
    omega
  have e1 := toNat_ofNat_of_lt (l _ hbc)
  have e2 := toNat_ofNat_of_lt (l _ hbs)
  have e3 := toNat_ofNat_of_lt (l _ (hps.trans hbs))
  have e4 := toNat_ofNat_of_lt (w := 16) (n := g.oobSize) (by omega)
  have e5 := toNat_ofNat_of_lt (w := 65) (n := g.chipSize * n) (lt_of_lt_of_le h3 hS)
  have e6 := toNat_ofNat_of_lt (w := 8) (n := n) (by omega)
  have e7 := toNat_ofNat_of_lt (w := 6) (n := g.pageSize.log2) (hlog _ hp'.1 (hps.trans hbs))
  have e8 := toNat_ofNat_of_lt (w := 6) (n := g.blockSize.log2) (hlog _ hb'.1 hbs)
  have e9 := toNat_ofNat_of_lt (w := 6) (n := g.chipSize.log2) (hlog _ hcp'.1 le_rfl)
  have f1 := toNat_ofNat_of_lt (w := 64) (n := g.pageSize - 1) (by omega)
  have f2 := toNat_ofNat_of_lt (w := 64) (n := g.blockSize - 1) (by omega)
  have f3 := toNat_ofNat_of_lt (w := 64) (n := g.chipSize - 1) (by omega)
  have hppb : g.blockSize >>> g.pageSize.log2 = g.blockSize / g.pageSize := by
    rw [Nat.shiftRight_eq_div_pow, hp'.2]
  have f4 := toNat_ofNat_of_lt (w := 64) (n := g.blockSize >>> g.pageSize.log2)
    (by rw [hppb]; exact lt_of_le_of_lt (Nat.div_le_self _ _) (l _ hbs))
  refine ⟨?_, e3, e2, e1, e4⟩
  simp only [Geometry.valid, commitGeometry, e1, e2, e3, e4, e5, e6, e7, e8, e9, f1, f2, f3, f4]
  refine ⟨hp, hb, hdiv, hcp, hAe ▸ hc, hpm, ho, h1, ?_⟩
  simp only [hppb, Candidate.chipSize]
  simp

/-! ## How DETECT ends -/

/-- Nothing is detected, no partition is valid. -/
def State.undetected (s : State) : Prop := s.detected = false ∧ ∀ p ∈ s.pt, p.valid = false

/-- A device is detected; valid partitions are aligned and inside it. -/
def State.freshlyDetected (s : State) : Prop :=
  s.detected = true ∧ s.geo.valid s.par ∧ ∀ p ∈ s.pt, p.valid = true →
    p.begin.toNat % s.geo.blockSize.toNat = 0 ∧ p.psize.toNat % s.geo.blockSize.toNat = 0 ∧
      p.begin.toNat + p.psize.toNat ≤ s.geo.size.toNat

theorem undetected_of_went {q : Bool} {t : State} (h : Went q true s t) (hb : s.undetected) : t.undetected := by
  have := h.device rfl
  exact ⟨this.2.1 ▸ hb.1, this.2.2.2.2.2.2.2 ▸ hb.2⟩

/-- How DETECT, or a part of it, comes out: with SUCCESS and a device, else with nothing detected. -/
def Ret.Detects (r : Ret Status) : Prop :=
  (∀ st t, r = .val st t → st = .success ∧ t.freshlyDetected ∨ st ≠ .success ∧ t.undetected) ∧
    ∀ t, r = .hang t → t.undetected ∧ t.phase ≠ .idle

theorem Ret.detects_bind {α : Type} {r : Ret α} {f : α → State → Ret Status} {q k : Bool} {P : State → Prop} {s : State}
    (h : r.Fits q k s) (hP : r.Leaves P) (hb : ∀ x, P x → x.undetected) (hf : ∀ a x, r = .val a x → P x → (f a x).Detects) :
    (r.bind f).Detects := by
  cases r with
  | val a x => exact hf a x rfl (hP.1 a x rfl)
  | hang x => exact ⟨fun _ _ e => (by cases e), fun t e => by cases e; exact ⟨hb _ (hP.2 _ rfl), h.busy _ rfl⟩⟩
  | fault x => exact ⟨fun _ _ e => (by cases e), fun t e => (by cases e)⟩
  | refuse x => exact ⟨fun _ _ e => (by cases e), fun t e => (by cases e)⟩

theorem detectFailed_detects {st : Status} (hst : st ≠ .success) (h : s.undetected) : (detectFailed st s).Detects := by
  refine ⟨fun _ _ e => ?_, fun _ e => (by cases e)⟩
  cases e
  exact .inr ⟨hst, h⟩

theorem identify_leaves (h : s.undetected) : (identify s).Leaves State.undetected := by
  have h1 : (nandReset (s.selectChip 0#8)).Leaves State.undetected :=
    (nandReset_fits (q := false) (k := true) _).went.mono fun x hx => undetected_of_went hx h
  refine h1.bind fun _ x hx => ?_
  have h2 : (readIdBytes x 0x00#8 8).Leaves State.undetected :=
    (readIdBytes_fits (q := false) (k := true) _ _ _).went.mono fun y hy => undetected_of_went hy hx
  refine h2.bind fun _ y hy => ?_
  have h3 : (readIdBytes y 0x00#8 8).Leaves State.undetected :=
    (readIdBytes_fits (q := false) (k := true) _ _ _).went.mono fun z hz => undetected_of_went hz hy
  exact h3.bind fun _ z hz => Ret.leaves_ite (fun _ => Ret.leaves_val hz) fun _ => Ret.leaves_val hz

/-- Step 7 of DETECT. -/
theorem detectStep7_detects {g : Candidate} (f : Bool) (h : s.undetected)
    (hok : geometryOk s.par s.conf.eccMode g = true) : (detectStep7 g f s).Detects := by
  have hc : (configure g f s).undetected := h
  refine Ret.detects_bind (q := false) (k := true) (micronProbe_fits _) (micronProbe_fits (q := false) (k := true) _).went
    (fun z hz => undetected_of_went hz hc) fun st z _ hz => ?_
  split_ifs with hst
  · exact detectFailed_detects hst (undetected_of_went hz hc)
  obtain ⟨n, b, cc, h1, h2, -⟩ := countChips_val (z.par.maxChips - 1) 1 1 z
  rw [h1, Ret.bind_val]
  have hz' : z.undetected := undetected_of_went hz hc
  unfold detectDone
  split_ifs with hfit
  · have hgeo : z.geo = commitGeometry g s.geo := (hz.device rfl).1
    have hpar : z.par = s.par := hz.par
    have hv := commitGeometry_valid (par := z.par) (by rw [hpar]; exact hok) s.geo n h2 hfit.1 hfit.2
    have hs : g.chipSize * n < 2 ^ 65 := lt_of_lt_of_le hfit.2 (Params.sizeBound_le _)
    refine ⟨fun st u e => .inl ?_, fun _ e => (by cases e)⟩
    cases e
    refine ⟨rfl, rfl, ?_, ?_⟩
    · dsimp only; rw [hgeo]; exact hv.1
    · intro p hp hval
      dsimp only at hp ⊢
      rw [hgeo, hv.2.2.1, toNat_ofNat_of_lt hs]
      rcases List.mem_or_eq_of_mem_set hp with hp | rfl
      · rw [hz'.2 p hp] at hval; cases hval
      · refine ⟨by simp, ?_, ?_⟩
        · show (BitVec.ofNat 65 (g.chipSize * n)).toNat % _ = 0
          rw [toNat_ofNat_of_lt hs]
          unfold Candidate.chipSize
          rw [show g.blocksPerChip * g.blockSize * n = g.blockSize * (g.blocksPerChip * n) by ring]
          exact Nat.mul_mod_right _ _
        · show (0#64).toNat + (BitVec.ofNat 65 (g.chipSize * n)).toNat ≤ _
          rw [toNat_ofNat_of_lt hs]; simp
  · exact detectFailed_detects (by simp) hz'

/-- DETECT. -/
theorem detect_detects (s : State) : (detect s).Detects := by
  have h0 : (forget s).undetected := by
    refine ⟨rfl, fun p hp => ?_⟩
    obtain ⟨x, -, rfl⟩ := List.mem_map.1 hp
    rfl
  refine Ret.detects_bind (q := false) (identify_fits _) (identify_leaves h0) (fun _ h => h) fun st x _ hx => ?_
  split_ifs with hst
  · exact detectFailed_detects hst hx
  refine Ret.detects_bind (q := false) (k := true) (findGeometry_fits x)
    ((findGeometry_fits (q := false) (k := true) x).went.mono fun y h => undetected_of_went h hx) (fun _ h => h)
    fun found y _ hy => ?_
  split
  · exact detectFailed_detects (by simp) hy
  · split_ifs with hok hbw
    · exact detectFailed_detects (by simp) hy
    · exact detectFailed_detects (by simp) hy
    · exact detectStep7_detects _ hy (by simpa using hok)

/-! ## The widths of the registers -/

/-- The geometry registers hold numbers of their widths. -/
abbrev Geometry.narrow (g : Geometry) (p : Params) : Prop :=
  g.blocksPerChip.toNat < p.addrBound ∧ g.blockSize.toNat < p.addrBound ∧ g.pageSize.toNat < p.addrBound ∧
    g.pageMask.toNat < p.addrBound ∧ g.blockMask.toNat < p.addrBound ∧ g.chipMask.toNat < p.addrBound ∧
    g.pagesPerBlock.toNat < p.addrBound ∧ g.size.toNat < p.sizeBound

theorem freeGeometry_narrow (p : Params) (n : Nat) : (freeGeometry p n).narrow p :=
  ⟨p.fitAddr_lt _, p.fitAddr_lt _, p.fitAddr_lt _, p.fitAddr_lt _, p.fitAddr_lt _, p.fitAddr_lt _, p.fitAddr_lt _,
    p.fitSize_lt _⟩

theorem commitGeometry_narrow {p : Params} {m : EccMode} {g : Candidate} (h : geometryOk p m g = true) {old : Geometry}
    (ho : old.size.toNat < p.sizeBound) : (commitGeometry g old).narrow p := by
  simp only [geometryOk, Bool.and_eq_true, decide_eq_true_eq, beq_iff_eq] at h
  obtain ⟨⟨⟨⟨⟨⟨⟨⟨⟨⟨hp, -⟩, -⟩, hb⟩, hdiv⟩, hc1⟩, -⟩, hc⟩, -⟩, -⟩, -⟩ := h
  have hb' := isPow2_iff.1 hb
  have hbs : g.blockSize ≤ g.chipSize := Nat.le_mul_of_pos_left _ hc1
  have hbc : g.blocksPerChip ≤ g.chipSize := Nat.le_mul_of_pos_right _ (Nat.pos_of_ne_zero hb'.1)
  have hps : g.pageSize ≤ g.blockSize := Nat.le_of_dvd (Nat.pos_of_ne_zero hb'.1) (Nat.dvd_of_mod_eq_zero hdiv)
  have hA := p.addrBound_le
  have l (x : Nat) (hx : x ≤ g.chipSize) : (BitVec.ofNat 64 x).toNat < p.addrBound := by
    rw [toNat_ofNat_of_lt (by omega)]; omega
  refine ⟨l _ hbc, l _ hbs, l _ (hps.trans hbs), l _ (by omega), l _ (by omega), l _ (by omega), l _ ?_, ho⟩
  rw [Nat.shiftRight_eq_div_pow]
  exact (Nat.div_le_self _ _).trans hbs

/-- The widths again: the operands, `RES`, the geometry and the partition table. -/
theorem State.widthInv_iff : s.widthInv ↔ (s.a0.toNat < s.par.addrBound ∧ s.a1.toNat < s.par.addrBound ∧
    s.a2.toNat < s.par.addrBound ∧ s.a3.toNat < s.par.addrBound) ∧ s.res.toNat < s.par.addrBound ∧ s.geo.narrow s.par ∧
    ∀ p ∈ s.pt, p.begin.toNat < s.par.addrBound ∧ p.psize.toNat < s.par.sizeBound := by
  constructor
  · rintro ⟨a, b, c, d, e, f, g, h, i, j, k, l, m, n⟩
    exact ⟨⟨a, b, c, d⟩, e, ⟨f, g, h, i, j, k, l, m⟩, n⟩
  · rintro ⟨⟨a, b, c, d⟩, e, ⟨f, g, h, i, j, k, l, m⟩, n⟩
    exact ⟨a, b, c, d, e, f, g, h, i, j, k, l, m, n⟩

/-- A run that keeps the detected device keeps the widths. -/
theorem widthInv_of_went {q : Bool} {t : State} (h : Went q true s t) (hA : 16 ≤ s.par.addrW.val) (hw : s.widthInv) :
    t.widthInv := by
  have hd := h.device rfl
  have h16 : 2 ^ 16 ≤ s.par.addrBound := Nat.pow_le_pow_right (by omega) hA
  rw [State.widthInv_iff] at hw ⊢
  rw [h.a0, h.a1, h.a2, h.a3, h.par, hd.1, hd.2.2.2.2.2.2.2]
  refine ⟨hw.1, ?_, hw.2.2⟩
  rcases h.res with e | e
  · rw [e]; exact hw.2.1
  · exact lt_of_lt_of_le e h16

/-- The widths, and that they are wide enough for `RES`. -/
def State.Widths (s : State) : Prop := 16 ≤ s.par.addrW.val ∧ s.widthInv

theorem widths_of_went {q : Bool} {t : State} (h : Went q true s t) (hw : s.Widths) : t.Widths :=
  ⟨by rw [h.par]; exact hw.1, widthInv_of_went h hw.1 hw.2⟩

theorem detectFailed_widths (st : Status) (h : s.Widths) : (detectFailed st s).Leaves State.Widths := by
  refine Ret.leaves_val ⟨h.1, ?_⟩
  have hw := State.widthInv_iff.1 h.2
  rw [State.widthInv_iff]
  exact ⟨hw.1, hw.2.1, freeGeometry_narrow _ _, hw.2.2.2⟩

/-- Step 7 of DETECT keeps the widths. -/
theorem detectStep7_widths {g : Candidate} (f : Bool) (h : s.Widths)
    (hok : geometryOk s.par s.conf.eccMode g = true) : (detectStep7 g f s).Leaves State.Widths := by
  have hw := State.widthInv_iff.1 h.2
  have hc : (configure g f s).Widths :=
    ⟨h.1, State.widthInv_iff.2 ⟨hw.1, hw.2.1, commitGeometry_narrow hok hw.2.2.1.2.2.2.2.2.2.2, hw.2.2.2⟩⟩
  refine ((micronProbe_fits (q := false) (k := true) _).went.mono fun x hx => widths_of_went hx hc).bind fun st x hx => ?_
  refine Ret.leaves_ite (fun _ => detectFailed_widths st hx) fun _ => ?_
  refine ((countChips_fits (q := false) (k := true) _ _ _ _).went.mono fun y hy => widths_of_went hy hx).bind fun n y hy => ?_
  unfold detectDone
  refine Ret.leaves_ite (fun hfit => Ret.leaves_val ⟨hy.1, ?_⟩) fun _ => detectFailed_widths _ hy
  have hwy := State.widthInv_iff.1 hy.2
  have hs : (BitVec.ofNat 65 (g.chipSize * n)).toNat < y.par.sizeBound := by
    rw [toNat_ofNat_of_lt (lt_of_lt_of_le hfit.2 (Params.sizeBound_le _))]; exact hfit.2
  obtain ⟨a, b, c, d, e, f', g', -⟩ := hwy.2.2.1
  refine State.widthInv_iff.2 ⟨hwy.1, hwy.2.1, ⟨a, b, c, d, e, f', g', hs⟩, fun p hp => ?_⟩
  rcases List.mem_or_eq_of_mem_set hp with hp | rfl
  · exact hwy.2.2.2 p hp
  · exact ⟨Nat.two_pow_pos _, hs⟩

/-- DETECT keeps the widths, however it ends. -/
theorem detect_widths (h : s.Widths) : (detect s).Leaves State.Widths := by
  have hw := State.widthInv_iff.1 h.2
  have h0 : (forget s).Widths := by
    refine ⟨h.1, State.widthInv_iff.2 ⟨hw.1, hw.2.1, hw.2.2.1, fun p hp => ?_⟩⟩
    obtain ⟨x, hx, rfl⟩ := List.mem_map.1 hp
    exact hw.2.2.2 x hx
  have hid : (identify (forget s)).Leaves State.Widths := by
    refine ((nandReset_fits (q := false) (k := true) _).went.mono fun x hx =>
      widths_of_went hx (widths_of_went (went_selectChip (q := false) 0#8) h0)).bind fun _ x hx => ?_
    refine ((readIdBytes_fits (q := false) (k := true) _ _ _).went.mono fun y hy => widths_of_went hy hx).bind fun _ y hy => ?_
    refine ((readIdBytes_fits (q := false) (k := true) _ _ _).went.mono fun z hz => widths_of_went hz hy).bind fun _ z hz => ?_
    exact Ret.leaves_ite (fun _ => Ret.leaves_val hz) fun _ => Ret.leaves_val hz
  refine hid.bind fun st x hx => Ret.leaves_ite (fun _ => detectFailed_widths st hx) fun _ => ?_
  refine ((findGeometry_fits (q := false) (k := true) x).went.mono fun y hy => widths_of_went hy hx).bind fun found y hy => ?_
  split
  · exact detectFailed_widths _ hy
  · refine Ret.leaves_ite (fun _ => detectFailed_widths _ hy) fun hok => ?_
    exact Ret.leaves_ite (fun _ => detectFailed_widths _ hy) fun _ => detectStep7_widths _ hy (by simpa using hok)

end

end Sys2Proof.Machine
end

