-- ==== Sys2Proof/Laws/Flash.lean ====
section
/-! SUPPORT. The page operations on the chip that DETECT saw: what they read from its array and what they leave in it
(20_memory.md R63, R65, R66, 44_page_ops.md R240 to R247). -/

namespace Sys2Proof.Machine

section
variable {s : State} {ch : Chip} {row : Nat}

theorem answers_of_chip {b : Bus} {x : Chip} (h : b.chip? = some x) (hs : x.stuck = false) : (s.setBus b).answers := by
  show Bus.neverReady _ = false
  unfold Bus.neverReady
  rw [State.setBus_bus, h]
  exact hs

/-- `command` with a wait, on a chip that is not stuck. -/
theorem command_chip_wait {cmd : Cmd} {rb col : Option Nat} {x : Chip} (hx : (methodBus s cmd rb col).chip? = some x)
    (hs : x.stuck = false) (hw : cmd ∈ waitingCommands) :
    ∃ n, command s cmd rb col = .val () (s.setBus (methodBus s cmd rb col).waited) ∧
      (methodBus s cmd rb col).waited.chip? = some { x with busy := false } ∧
      Bus.Ran (quietCmd cmd) (commandEvents s cmd rb col ++ [.wait n]) s.bus (methodBus s cmd rb col).waited := by
  refine ⟨_, ?_, ?_, ((ran_methodBus s cmd rb col).trans (Bus.ran_waited _)).weaken (by simp)⟩
  · rw [command_eq, if_pos hw, waitReady_val (answers_of_chip hx hs)]; rfl
  · rw [Bus.chip?_waited, hx]; rfl

/-- `RdBuf(n)` on a ready chip that drives at least `n` bytes. -/
theorem rdBuf_bytes {b : Bus} {x : Chip} {l : List Byte} (n : Nat) (h : b.chip? = some x) (hb : x.busy = false)
    (hd : x.dataOut = .bytes l) (hn : n ≤ l.length) :
    (b.rdBuf n).1 = l.take n ∧ (b.rdBuf n).2.chip? = some { x with dataOut := .bytes (l.drop n) } := by
  obtain ⟨h1, h2⟩ := Bus.popBytes_bytes n h hb hd hn
  exact ⟨h1, h2⟩

/-- PAGE.READOOB on the chip that DETECT saw. -/
theorem pageReadoob_chip (hd : s.detected = true) (hf : s.oobFits = true) (h : s.bus.chip? = some ch)
    (hm : ch.matches s) (hr : row < ch.rows) :
    ∃ b x n, pageReadoob s row = .val .success ((s.setBus b).setOobs (s.oobs.writeBytes 0
        (ch.cells.readBytes (ch.key row (Chip.spareColumn s ch)) s.geo.oobSize.toNat))) ∧
      b.chip? = some x ∧ Chip.Like ch x ∧
      Bus.Ran true (oobReadEvents s row n (ch.cells.readBytes (ch.key row (Chip.spareColumn s ch)) s.geo.oobSize.toNat))
        s.bus b := by
  obtain ⟨x, h1, h2, h3, h4⟩ := chip?_readOob h hm hr
  obtain ⟨n, g1, g2, g3⟩ := command_chip_wait h1 (h3.parts.2.2.2.2.2.1.trans hm.1) (by decide)
  have hlen : s.geo.oobSize.toNat ≤
      (ch.cells.readBytes (ch.key row (Chip.spareColumn s ch)) (ch.stride - Chip.spareColumn s ch)).length := by
    have := Chip.spareColumn_le hm
    rw [Memory.length_readBytes, ← hm.2.2.1]
    unfold Chip.stride
    omega
  obtain ⟨k1, k2⟩ := rdBuf_bytes s.geo.oobSize.toNat g2 rfl h4 hlen
  have k3 : ((methodBus s .readoob (some row) (some 0)).waited.rdBuf s.geo.oobSize.toNat).1 =
      ch.cells.readBytes (ch.key row (Chip.spareColumn s ch)) s.geo.oobSize.toNat := by
    rw [k1]
    unfold Memory.readBytes
    rw [← List.map_take, List.take_range]
    congr 2
    simpa using hlen
  have hran := g3.trans (Bus.ran_rdBuf s.geo.oobSize.toNat _)
  rw [k3] at hran
  refine ⟨_, _, n, ?_, k2, h3.trans ⟨rfl, rfl⟩, ?_⟩
  · rw [pageReadoob, withDevice_pos hd hf, g1, Ret.bind_val]
    simp only [State.rdBuf, State.setBus_bus, State.setBus_geo, State.setBus_oobs, k3]
    rfl
  · simpa [oobReadEvents, quietCmd] using hran

/-- PAGE.READ in RAW mode on the chip that DETECT saw. -/
theorem pageRead_chip (hd : s.detected = true) (hf : s.pageFits = true) (h : s.bus.chip? = some ch)
    (hm : ch.matches s) (hr : row < ch.rows) :
    ∃ b, pageRead s row .raw = .val .success (((s.setBus b).setDbuf (s.dbuf.writeBytes 0
        (ch.cells.readBytes (ch.key row 0) s.geo.pageSize.toNat))).setOobs (s.oobs.writeBytes 0
        (ch.cells.readBytes (ch.key row s.geo.pageSize.toNat) s.geo.oobSize.toNat))) := by
  obtain ⟨x, h1, h2, h3, h4⟩ := chip?_read0 h hm hr
  obtain ⟨n, g1, g2, g3⟩ := command_chip_wait h1 (h3.parts.2.2.2.2.2.1.trans hm.1) (by decide)
  have hst : ch.stride = s.geo.pageSize.toNat + s.geo.oobSize.toNat := by unfold Chip.stride; rw [hm.2.1, hm.2.2.1]
  have hl : ch.cells.readBytes (ch.key row 0) ch.stride =
      ch.cells.readBytes (ch.key row 0) s.geo.pageSize.toNat ++
        ch.cells.readBytes (ch.key row s.geo.pageSize.toNat) s.geo.oobSize.toNat := by
    rw [hst]
    unfold Memory.readBytes
    rw [List.range_add, List.map_append, List.map_map]
    congr 2
    funext i
    simp [Chip.key, Nat.add_assoc]
  rw [hl] at h4
  obtain ⟨k1, k2⟩ := rdBuf_bytes s.geo.pageSize.toNat g2 rfl h4 (by simp)
  rw [List.take_append_of_le_length (by simp), List.take_of_length_le (by simp)] at k1
  rw [List.drop_append_of_le_length (by simp), List.drop_eq_nil_of_le (by simp), List.nil_append] at k2
  obtain ⟨q1, q2⟩ := rdBuf_bytes s.geo.oobSize.toNat k2 rfl rfl (by simp)
  rw [List.take_of_length_le (by simp)] at q1
  refine ⟨(((methodBus s .read0 (some row) (some 0)).waited.rdBuf s.geo.pageSize.toNat).2.rdBuf s.geo.oobSize.toNat).2, ?_⟩
  rw [pageRead, withDevice_pos hd hf, if_neg (by simp [State.eccActive]), fetchPage, g1, Ret.bind_val]
  simp only [State.rdBuf, State.setBus_bus, State.setBus_geo, State.setBus_dbuf, State.setDbuf_bus, State.setDbuf_geo,
    State.setDbuf_oobs, State.setBus_oobs, k1, q1, Ret.bind_val]
  rfl

theorem Chip.failMask_of_fixed {x y : Chip} (h : x.fixed = y.fixed) : x.failMask = y.failMask := by
  have e : x.fixed.failMask = y.fixed.failMask := congrArg Chip.failMask h
  exact e

/-- The status byte of a chip tells whether the last program or erase failed, and no other bit does. -/
theorem Chip.statusByte_fail {x : Chip} (hm : x.failMask = s.par.stFail) (hz : s.par.stFail ≠ 0#8) :
    s.tellsFailure x.statusByte = x.failed := by
  unfold State.tellsFailure Chip.statusByte
  rw [hm]
  generalize s.par.stFail = m at hz
  have h : x.statusBase &&& ~~~m &&& m = 0#8 := by
    apply BitVec.eq_of_getElem_eq; intro i hi; simp
  cases x.failed
  · simp [h]
  · have : (x.statusBase &&& ~~~m ||| m) &&& m = m := by
      apply BitVec.eq_of_getElem_eq; intro i hi; simp; cases m[i] <;> simp
    simp [this, hz]

/-- The confirm of a program or an erase on a chip that is not stuck. -/
theorem confirm_chip {c : Cmd} {failure : Status} (hc : c = .pageprog ∨ c = .erase2) (h : s.bus.chip? = some ch)
    (hs : ch.stuck = false) (hm : ch.failMask = s.par.stFail) (hm0 : s.par.stFail ≠ 0#8) :
    ∃ b x n v, confirm s c failure = .val (if s.tellsFailure v then failure else .success)
        ((s.setBus b).setRes (v.setWidth 64)) ∧
      b.chip? = some x ∧ Bus.Ran false (confirmEvents s c n v) s.bus b ∧
      x.cells = (ch.latchCommand s.bus.fresh c).cells ∧ x.fixed = ch.fixed ∧
      s.tellsFailure v = (ch.latchCommand s.bus.fresh c).failed := by
  have hw : c ∉ waitingCommands := by rcases hc with rfl | rfl <;> decide
  have h0 : c ≠ .read0 := by rcases hc with rfl | rfl <;> decide
  have h5 : c ≠ .readoob := by rcases hc with rfl | rfl <;> decide
  have hy := chip?_methodBus_bare s h0 h5
  rw [h, Option.map_some] at hy
  have hyf := Chip.latchCommand_fixed ch s.bus.fresh c
  have hw1 := Bus.chip?_waited (methodBus s c none none)
  rw [hy, Option.map_some] at hw1
  have hz := chip?_methodBus_bare (s.setBus (methodBus s c none none).waited) (cmd := .status) (by decide) (by decide)
  rw [State.setBus_bus, hw1, Option.map_some] at hz
  generalize hyd : ch.latchCommand s.bus.fresh c = y at *
  have hans : (s.setBus (methodBus s c none none)).answers :=
    answers_of_chip hy ((Chip.stuck_of_fixed hyf).trans hs)
  have hst := Bus.rd8_status hz rfl rfl
  have hch := (Bus.rd8_status_chip hz rfl rfl).trans hz
  have hr := ran_methodBus s c none none
  rw [commandEvents_bare s h0 h5] at hr
  have hr2 := ran_methodBus (s.setBus (methodBus s c none none).waited) .status none none
  rw [commandEvents_bare _ (by decide) (by decide), State.setBus_bus] at hr2
  have hr3 := ((hr.trans (Bus.ran_waited _)).trans hr2).trans (Bus.ran_rd8 _)
  refine ⟨_, _, _, _, ?_, hch, hr3.weaken (by simp), rfl, hyf, ?_⟩
  · simp only [confirm, command_noWait s none none hw, Ret.bind_val, waitReady_val hans, State.setBus_bus, readStatus,
      State.setBus_setBus,
      command_noWait (s.setBus (methodBus s c none none).waited) none none (cmd := .status) (by decide)]
    rfl
  · have hmy : y.failMask = s.par.stFail := (Chip.failMask_of_fixed hyf).trans hm
    rw [hst]
    exact Chip.statusByte_fail (x := ({ y with busy := false } : Chip).latchCommand _ .status) hmy hm0

/-- The cells after a program that does not fail. -/
theorem Chip.program_cells {x : Chip} (n : Nat) (h1 : x.cmd = some .seqin) (h2 : x.addressed = true)
    (h3 : x.rowAddr < x.rows) (h4 : x.progFails.fails x.rowAddr = false) :
    (x.latchCommand n .pageprog).cells =
        programCells x.cells (x.key x.rowAddr x.colAddr) (x.dataIn.take (x.stride - x.colAddr)) ∧
      (x.latchCommand n .pageprog).failed = false := by
  have e : x.latchCommand n .pageprog = (x.program n).newCommand .pageprog := rfl
  rw [e, Chip.program, if_pos ⟨h1, h2⟩, if_pos h3, if_neg (by simp [h4])]
  exact ⟨rfl, rfl⟩

/-- The cells after an erase that does not fail. -/
theorem Chip.erase_cells {x : Chip} (n : Nat) (h1 : x.cmd = some .erase1) (h2 : x.rowCycles ≤ x.addr.length)
    (h3 : x.eraseRow < x.rows) (h4 : x.eraseFails.fails x.eraseRow = false) :
    (x.latchCommand n .erase2).cells =
        x.cells.clearRange (x.key (x.firstRow x.eraseRow) 0) (x.key (x.firstRow x.eraseRow + x.pagesPerBlock) 0) ∧
      (x.latchCommand n .erase2).failed = false := by
  have e : x.latchCommand n .erase2 = (x.erase n).newCommand .erase2 := rfl
  rw [e, Chip.erase, if_pos ⟨h1, h2⟩, if_pos h3, if_neg (by simp [h4])]
  exact ⟨rfl, rfl⟩

/-- Data-in after SEQIN. -/
theorem Chip.writeData_seqin {x : Chip} (h : x.cmd = some .seqin) (l : List Byte) :
    x.writeData l = { x with dataIn := x.dataIn ++ l } := by
  rw [Chip.writeData, if_pos h]

/-- A program of one OOB area on the chip that DETECT saw, where no program fails. -/
theorem programOob_chip (h : s.bus.chip? = some ch) (hm : ch.matches s) (hr : row < ch.rows)
    (hf : ch.progFails.fails row = false) :
    ∃ b x v, programOob s row = .val .success ((s.setBus b).setRes v) ∧ b.chip? = some x ∧ x.fixed = ch.fixed ∧
      b.selected = s.bus.selected ∧
      x.cells = programCells ch.cells (ch.key row (Chip.spareColumn s ch)) (s.oobs.readBytes 0 s.geo.oobSize.toNat) := by
  obtain ⟨x, h1, h2, h3, h4, h5, h6, h7⟩ := chip?_seqin (k := s.geo.pageSize.toNat) h hm hr (.inr rfl)
  have hcol : x.colAddr = Chip.spareColumn s ch := by
    rw [h7]
    split
    · rename_i h0
      unfold Chip.spareColumn
      rw [h0, Chip.columnOf_zero, hm.2.1, h0]
      simp
    · rfl
  have hc := Bus.chip?_wrBuf (methodBus s .seqin (some row) (some s.geo.pageSize.toNat))
    (s.oobs.readBytes 0 s.geo.oobSize.toNat)
  rw [h1, Option.map_some, Chip.writeData_seqin h3, h4, List.nil_append] at hc
  generalize hb0 : (methodBus s .seqin (some row) (some s.geo.pageSize.toNat)).wrBuf
    (s.oobs.readBytes 0 s.geo.oobSize.toNat) = b0 at hc
  obtain ⟨b, y, n, v, g1, g2, g3, g4, g5, g6⟩ := confirm_chip (s := s.setBus b0) (failure := .write) (.inl rfl) hc
    (h2.parts.2.2.2.2.2.1.trans hm.1) ((Chip.failMask_of_fixed h2.fixed).trans hm.2.2.2.2.2.2.2.2.1)
    hm.2.2.2.2.2.2.2.2.2
  obtain ⟨q1, q2⟩ := Chip.program_cells (x := { x with dataIn := s.oobs.readBytes 0 s.geo.oobSize.toNat }) (s.setBus b0).bus.fresh h3 h5
    (by show x.rowAddr < x.rows; rw [h6, h2.parts.2.2.2.1]; exact hr)
    (by show x.progFails.fails x.rowAddr = false; rw [h6, h2.parts.2.2.2.2.2.2.2.1]; exact hf)
  rw [g6.trans q2] at g1
  refine ⟨b, y, v.setWidth 64, ?_, g2, g5.trans h2.fixed, ?_, ?_⟩
  · rw [programOob, command_noWait s _ _ (by decide), Ret.bind_val]
    simp only [State.wrBuf, State.setBus_bus, State.setBus_oobs, State.setBus_geo, State.setBus_setBus, hb0]
    rw [g1]
    rfl
  · have e1 : b.selected = b0.selected := by
      rw [g3.selected]
      exact foldl_pick (by intro e he; simp [confirmEvents] at he; rcases he with rfl | rfl | rfl | rfl | rfl | rfl <;> exact fun _ => rfl) _
    rw [e1, ← hb0, (Bus.ran_wrBuf _ _).selected]
    show (methodBus s .seqin (some row) (some s.geo.pageSize.toNat)).selected = _
    rw [(ran_methodBus s .seqin (some row) (some s.geo.pageSize.toNat)).selected]
    exact foldl_pick (commandEvents_stays s _ _ _) _
  · rw [g4, q1]
    have hx : x.stride - x.colAddr ≥ s.geo.oobSize.toNat := by
      have := Chip.spareColumn_le hm
      rw [h2.stride, hcol, ← hm.2.2.1]
      unfold Chip.stride
      omega
    show programCells x.cells (x.key x.rowAddr x.colAddr) ((s.oobs.readBytes 0 s.geo.oobSize.toNat).take (x.stride - x.colAddr)) = _
    rw [List.take_of_length_le (by simpa using hx), h2.cells, h2.key, h6, hcol]

end

end Sys2Proof.Machine
end

