-- ==== Sys2Proof/Laws/Part.lean ====
section
/-! SUPPORT. The partition operations: when their validation lets a request through, what the lock wraps, and the erase
with its mark-bad recovery (46_partition_ops.md R282, R284, R289, R293, R294). -/

namespace Sys2Proof.Machine

section
variable {s t : State}

/-! ## Selecting the chip of a device address -/

theorem sameFlash_of_ran {l : List BusEvent} {b : Bus} (hb : t.bus = b) (h : Bus.Ran true l s.bus b) :
    sameFlash s t := by
  subst hb; exact fun c a => h.flash c a

theorem ran_select (s : State) (a : Nat) {q : Bool} {l : List BusEvent} {b : Bus}
    (h : Bus.Ran q l (s.select a).bus b) : Bus.Ran q (.sel (s.chipIndexOf a) :: l) s.bus b :=
  (Bus.ran_sel s.bus _).trans h

theorem emits_of_select {a : Nat} {q : Bool} {l : List BusEvent} {b : Bus} (hb : t.bus = b)
    (h : Bus.Ran q l (s.select a).bus b) :
    emits s t (.sel (s.chipIndexOf a) :: l) := by
  subst hb
  exact (ran_select s a h).trace

theorem sameFlash_of_select {a : Nat} {l : List BusEvent} {b : Bus} (hb : t.bus = b)
    (h : Bus.Ran true l (s.select a).bus b) : sameFlash s t :=
  sameFlash_of_ran hb (ran_select s a h)

/-- A chip that becomes ready does so also later. -/
theorem answersAt_of_ran {q : Bool} {l : List BusEvent} {a : Nat} (h : Bus.Ran q l s.bus t.bus) (hg : t.geo = s.geo)
    (ha : s.answersAt a) : t.answersAt a := by
  have : (t.select a).bus.neverReady = (s.select a).bus.neverReady := by
    apply Bus.neverReady_congr
    · show some _ = some _
      rw [hg]
    · exact h.floatReady
    · exact h.fixed
  exact this.trans ha

theorem blockReady_of_same (hd : SameDevice s t) (h1 : t.detected = s.detected) (hr : s.blockReady) : t.blockReady := by
  obtain ⟨a, b, c⟩ := hr
  refine ⟨h1 ▸ a, ?_, ?_⟩
  · unfold State.markerFits State.oobFits at b ⊢; rw [hd.bbmPos, hd.par, hd.geo]; exact b
  · rw [hd.bbmPos, hd.geo]; exact c

/-! ## Validation and the lock -/

/-- A request that its validation lets through, whose windows fit, with the lock free. -/
theorem partOp_val {r : Option Status} {fits : Bool} {body : State → Ret Status} {st : Status} (hv : r = none)
    (hf : fits = true) (hl : s.lock = false) (hb : body (s.setLock true) = .val st t) :
    partOp s r fits body = .next ((t.setLock false).endOp st) := by
  subst hv hf
  show (locked s body).finish = _
  rw [locked_val hl hb]; rfl

@[simp] theorem firstRefusal_nil : firstRefusal [] = none := rfl

/-- A validation step that refuses decides; one that does not leaves it to the steps after it. -/
theorem firstRefusal_cons (b : Bool) (st : Status) (l : List (Bool × Status)) :
    firstRefusal ((b, st) :: l) = if b then some st else firstRefusal l := by
  cases b <;> rfl

theorem dev_eq {p : BitVec 4} {e : PartEntry} (hp : s.part p = some e) : s.dev p = e.begin.toNat + s.a0.toNat := by
  simp [State.dev, hp]

/-- When `rw_validate` lets a request through. -/
theorem rwValidate_none {p : BitVec 4} {e : PartEntry} (oob : Option OobMode) (cap w : Bool)
    (hd : s.detected = true) (hp : s.part p = some e) (hn : s.conf.nandClass = true)
    (h1 : s.a1 = s.geo.pageSize ∧ s.a1 ≠ 0 ∧ s.a0.toNat + s.a1.toNat ≤ e.psize.toNat ∨
      s.a1 = 0 ∧ s.geo.pageSize ≠ 0 ∧ s.a0.toNat < e.psize.toNat ∧ s.a3 ≠ 0 ∧ oob.isSome = true)
    (ho : ∀ m, oob = some m → s.oobReqOk m s.a2 s.a3 = true ∧ s.conf.capOob = true) (hc : cap = true)
    (ha : s.a0.toNat &&& s.geo.pageMask.toNat = 0) (hr : w = true → s.conf.readOnly = false) :
    rwValidate s p oob cap w = none := by
  unfold rwValidate
  rw [if_neg (by simp [hd]), hp]
  dsimp only
  have hpa : s.geo.pageAligned s.a0.toNat = true := by simp [Geometry.pageAligned, ha]
  have hw : ¬ (w = true ∧ s.conf.readOnly = true) := by rintro ⟨hw, h⟩; simp [hr hw] at h
  rcases h1 with ⟨g1, g2, g3⟩ | ⟨g1, g2, g3, g4, g5⟩
  · have g2' : ¬ s.a1 = 0#64 := g2
    cases oob with
    | none =>
      rw [if_neg (by simp [g1]), if_neg (by omega), if_neg (by simp [State.oobOutOfBounds]), if_neg (by simp [g2']), if_neg (by simp [hc, hn]),
        if_neg (by simp [hpa]), if_neg (by simp [g2']), if_neg hw]
    | some m =>
      rw [if_neg (by simp [g1]), if_neg (by omega), if_neg (by simp [State.oobOutOfBounds, (ho m rfl).1]), if_neg (by simp [g2']),
        if_neg (by simp [hc, hn, (ho m rfl).2]), if_neg (by simp [hpa]), if_neg (by simp [g2']), if_neg hw]
  · have g4' : ¬ s.a3 = 0#64 := g4
    cases oob with
    | none => simp at g5
    | some m =>
      rw [if_neg (by simp [g1]), if_neg (by rw [g1]; simp; omega), if_neg (by simp [State.oobOutOfBounds, (ho m rfl).1]), if_neg (by simp [g4']),
        if_neg (by simp [hc, hn, (ho m rfl).2]), if_neg (by simp [hpa]), if_neg (by simp; omega), if_neg hw]

/-- When the validation of the block operations lets a request through. -/
theorem blockValidate_none {p : BitVec 4} {e : PartEntry} (cap w : Bool) (hd : s.detected = true)
    (hp : s.part p = some e) (hn : s.conf.nandClass = true)
    (h1 : s.a0.toNat + s.geo.blockSize.toNat ≤ e.psize.toNat) (hc : cap = true)
    (ha : s.a0.toNat &&& s.geo.blockMask.toNat = 0) (hr : w = true → s.conf.readOnly = false) :
    blockValidate s p cap w = none := by
  unfold blockValidate
  rw [if_neg (by simp [hd]), hp]
  dsimp only
  have hpa : s.geo.blockAligned s.a0.toNat = true := by simp [Geometry.blockAligned, ha]
  have hw : ¬ (w = true ∧ s.conf.readOnly = true) := by rintro ⟨hw, h⟩; simp [hr hw] at h
  rw [if_neg (by omega), if_neg (by simp [hc, hn]), if_neg (by simp [hpa]), if_neg hw]

/-! ## The erase and its recovery -/

/-- The events `more` that follow an erase whose status byte is `v`, and the `RES` that is left. -/
def recoveryEvents (s : State) (a : Nat) (mark : Prop) (v : Byte) (more : List BusEvent) (res : Addr) : Prop :=
  (s.tellsFailure v = true ∧ mark ∧ s.conf.capMarkBad = true →
    ∃ again, markerReads s (s.markerRowsOf a) again ∧
      if goodMarkers s again then
        ∃ n x marks, marks.length = (s.markerRowsOf a).length ∧
          more = .sel (s.chipIndexOf a) :: markerReadEvents s (s.markerRowsOf a) again ++
            eraseEvents s (s.firstRowOf a) n x ++ markEvents s (s.markerRowsOf a) marks
      else more = .sel (s.chipIndexOf a) :: markerReadEvents s (s.markerRowsOf a) again) ∧
    (¬ (s.tellsFailure v = true ∧ mark ∧ s.conf.capMarkBad = true) → more = [] ∧ res = v.setWidth 64)

/-- `eraseThenMark` on a block of the selected chip. -/
theorem eraseThenMark_val (hd : s.detected = true) (m : EraseMode) (hr : m = .markBadOnError → s.blockReady)
    (hro : s.conf.readOnly = false) {a : Nat} (hb : m = .markBadOnError → s.isBlock a) (hw : s.oobs.wf) (ha : s.answersAt a) (hs : s.answers) :
    ∃ n v b c o res more, eraseThenMark s a m = .val (if s.tellsFailure v then .erase else .success)
        { s with bus := b, curChip := c, oobs := o, res := res } ∧ (c = s.curChip ∨ c = s.chipIndexOf a) ∧
      Bus.Ran false (eraseEvents s (s.firstRowOf a) n v ++ more) s.bus b ∧
      recoveryEvents s a (m = .markBadOnError) v more res ∧ o.wf ∧ (m ≠ .markBadOnError → o = s.oobs) := by
  obtain ⟨n, v, b, g1, g2⟩ := blockErase_val ⟨hd, hs⟩ hro (s.geo.rowOf a)
  by_cases hc : s.tellsFailure v = true ∧ m = .markBadOnError ∧ s.conf.capMarkBad = true
  · have hd2 : SameDevice s ((s.setBus b).setRes (v.setWidth 64)) := ⟨by simp, by simp, by simp, by simp, by simp⟩
    have hr2 := blockReady_of_same hd2 (by simp) (hr hc.2.1)
    have hb2 : ((s.setBus b).setRes (v.setWidth 64)).isBlock a := hb hc.2.1
    have ha2 : ((s.setBus b).setRes (v.setWidth 64)).answersAt a :=
      answersAt_of_ran (s := s) (l := eraseEvents s (s.geo.rowOf a) n v) (by simpa using g2) (by simp) ha
    obtain ⟨reads, b3, o3, x, st, k1, k2, k3, k4⟩ := devMarkbad_val hr2 hro hb2 ha2 hw
    have hsel : Bus.Ran true [.sel (s.chipIndexOf a)] b (((s.setBus b).setRes (v.setWidth 64)).select a).bus := Bus.ran_sel b _
    have hrow : ((s.setBus b).setRes (v.setWidth 64)).markerRowsOf a = s.markerRowsOf a := rfl
    have hst : ((((((s.setBus b).setRes (v.setWidth 64)).select a).setBus b3).setOobs o3).setRes x) =
        { s with bus := b3, curChip := s.chipIndexOf a, oobs := o3, res := x } := by
      apply State.ext <;> simp [State.select]
      rfl
    rw [hst] at k1
    have e : eraseThenMark s a m = .val (if s.tellsFailure v then .erase else .success)
        { s with bus := b3, curChip := s.chipIndexOf a, oobs := o3, res := x } := by
      rw [eraseThenMark, g1, Ret.bind_val, if_pos ⟨by simp [hc.1], hc.2.1, hc.2.2⟩, k1, Ret.bind_val]
    rw [hrow, hd2.markerReadEvents] at k4
    rw [hrow] at k3
    by_cases hg : goodMarkers s reads
    · rw [if_pos (show goodMarkers ((s.setBus b).setRes (v.setWidth 64)) reads from hg)] at k4
      obtain ⟨n', b', marks, q1, q2, q3, q4⟩ := k4
      rw [hd2.eraseEvents, hd2.markEvents] at q2
      refine ⟨n, v, b3, _, o3, x, _, e, .inr rfl, (g2.trans (hsel.trans q2)).weaken (by simp),
        ⟨fun _ => ⟨reads, k3, ?_⟩, fun h => absurd hc h⟩, k2, fun h => absurd hc.2.1 h⟩
      rw [if_pos hg]
      exact ⟨n', b', marks, q1, rfl⟩
    · rw [if_neg (show ¬ goodMarkers ((s.setBus b).setRes (v.setWidth 64)) reads from hg)] at k4
      refine ⟨n, v, b3, _, o3, x, _, e, .inr rfl, (g2.trans (hsel.trans k4.1)).weaken (by simp),
        ⟨fun _ => ⟨reads, k3, ?_⟩, fun h => absurd hc h⟩, k2, fun h => absurd hc.2.1 h⟩
      rw [if_neg hg]
      rfl
  · refine ⟨n, v, b, s.curChip, s.oobs, v.setWidth 64, [], ?_, .inl rfl, by rw [List.append_nil]; exact g2,
      ⟨fun h => absurd h hc, fun _ => ⟨rfl, rfl⟩⟩, hw, fun _ => rfl⟩
    rw [eraseThenMark, g1, Ret.bind_val, if_neg]
    · rfl
    · rintro ⟨h1, h2, h3⟩
      refine hc ⟨?_, h2, h3⟩
      by_contra hv
      rw [if_neg hv] at h1; cases h1

theorem recoveryEvents_same {s' : State} (hd : SameDevice s s') (a : Nat) (mark : Prop) (v : Byte)
    (more : List BusEvent) (res : Addr) : recoveryEvents s' a mark v more res = recoveryEvents s a mark v more res := by
  have hrow : s'.firstRowOf a = s.firstRowOf a := by simp only [State.firstRowOf, hd.geo]
  have hchip : s'.chipIndexOf a = s.chipIndexOf a := by simp only [State.chipIndexOf, hd.geo]
  have hrows : s'.markerRowsOf a = s.markerRowsOf a := by simp only [State.markerRowsOf, hrow, hd.geo, hd.conf]
  unfold recoveryEvents
  rw [hd.markerReadEvents, hd.eraseEvents, hd.markEvents, hrow, hchip, hrows, hd.conf]
  simp only [State.tellsFailure, markerReads, goodMarkers, hd.par, hd.geo, hd.bbmPos]

/-- The outcome of an erase of a block with good markers. -/
theorem eraseOutcome_good {a n : Nat} {m : EraseMode} (hm : m ≠ .force) (hc : s.conf.capIsValid = true)
    {reads : List (Nat × List Byte)} (hr : markerReads s (s.markerRowsOf a) reads) (hg : goodMarkers s reads) {v : Byte}
    {more : List BusEvent} {res : Addr} (hmore : recoveryEvents s a (m = .markBadOnError) v more res) :
    eraseOutcome s m a (.sel (s.chipIndexOf a) :: (markerReadEvents s (s.markerRowsOf a) reads ++
      (eraseEvents s (s.firstRowOf a) n v ++ more))) (if s.tellsFailure v then .erase else .success) := by
  rw [eraseOutcome, if_neg hm, if_neg (by simp [hc])]
  refine ⟨reads, hr, ?_⟩
  rw [if_pos hg]
  refine ⟨n, v, more, by simp [List.append_assoc], rfl, ?_⟩
  split
  · rename_i h; exact hmore.1 h
  · rename_i h; exact (hmore.2 h).1

/-- After a check of its markers a block may be erased: what is then written replaces what the check left. -/
theorem checked_update {a : Nat} {b : Bus} {o : Memory} (b2 : Bus) (c2 : Byte) (o2 : Memory) (r2 : Addr) :
    ({ ((s.select a).setBus b).setOobs o with bus := b2, curChip := c2, oobs := o2, res := r2 } : State) =
      { s with bus := b2, curChip := c2, oobs := o2, res := r2 } := by
  apply State.ext <;> simp [State.select]

/-- `erase_block` in every mode: the events and the status are those of `eraseOutcome`. -/
theorem eraseBlock_val (hd : s.detected = true) (m : EraseMode) {a : Nat}
    (hr : m ≠ .force → s.conf.capIsValid = true → s.blockReady ∧ s.isBlock a) (hro : s.conf.readOnly = false)
    (hw : s.oobs.wf) (ha : s.answersAt a) :
    ∃ l st b c o res, eraseBlock s a m = .val st { s with bus := b, curChip := c, oobs := o, res := res } ∧
      Bus.Ran false l s.bus b ∧ eraseOutcome s m a l st ∧ o.wf ∧ (m = .force → o = s.oobs) := by
  by_cases hm : m = .force
  · subst hm
    obtain ⟨n, v, b, c, o, res, more, h1, -, h2, h3, h4, h5⟩ :=
      eraseThenMark_val (s := s.select a) (a := a) hd .force (by simp) hro (by simp) hw ha ha
    obtain ⟨rfl, -⟩ := h3.2 (by simp)
    rw [List.append_nil] at h2
    refine ⟨_, _, b, c, o, res, by rw [eraseBlock, if_pos rfl]; exact h1, (ran_select s a h2), ?_, h4, fun _ => h5 (by simp)⟩
    rw [eraseOutcome, if_pos rfl]
    exact ⟨n, v, rfl, rfl⟩
  · cases hc : s.conf.capIsValid
    · refine ⟨[], .opNotSupported, s.bus, s.curChip, s.oobs, s.res, by rw [eraseBlock, if_neg hm, if_pos hc],
        (Bus.Ran.refl _).weaken (by simp), ?_, hw, fun _ => rfl⟩
      rw [eraseOutcome, if_neg hm, if_pos hc]
      exact ⟨rfl, rfl⟩
    · obtain ⟨hrdy, hb⟩ := hr hm hc
      obtain ⟨reads, b, o, h1, h2, h3, h4⟩ := devIsvalid_val hrdy hb ha hw
      have e0 : eraseBlock s a m = (devIsvalid s a).bind fun v s =>
          if v ≠ .success then .val v s else eraseThenMark s a m := by
        rw [eraseBlock, if_neg hm, if_neg (by simp [hc])]
      by_cases hg : goodMarkers s reads
      · rw [if_pos hg] at h1
        have hd1 : SameDevice s (((s.select a).setBus b).setOobs o) :=
          ⟨by simp [State.select], by simp [State.select], by simp [State.select], by simp [State.select],
            by simp [State.select]⟩
        have hr1 := blockReady_of_same hd1 rfl hrdy
        have hs1 : (((s.select a).setBus b).setOobs o).answers := h2.answers (markerReadEvents_stays _ _ _) ha
        have ha1 : (((s.select a).setBus b).setOobs o).answersAt a :=
          answersAt_of_ran (s := s) (ran_select s a h2) rfl ha
        have he := checked_update (s := s) (a := a) (b := b) (o := o)
        have hb1 : (((s.select a).setBus b).setOobs o).bus = b := rfl
        have hw1 : (((s.select a).setBus b).setOobs o).oobs.wf := h3
        have hd' : (((s.select a).setBus b).setOobs o).detected = true := hd
        generalize ((s.select a).setBus b).setOobs o = s1 at h1 hd1 hr1 hs1 ha1 he hb1 hw1 hd'
        have hb' : s1.isBlock a := by simpa only [State.isBlock, hd1.geo] using hb
        obtain ⟨n, v, b2, c2, o2, res2, more, g1, -, g2, g3, g4, -⟩ :=
          eraseThenMark_val hd' m (fun _ => hr1) (hd1.conf ▸ hro) (fun _ => hb') hw1 ha1 hs1
        have hrow : s1.firstRowOf a = s.firstRowOf a := by simp only [State.firstRowOf, hd1.geo]
        have hv : s1.tellsFailure v = s.tellsFailure v := by simp only [State.tellsFailure, hd1.par]
        rw [hd1.eraseEvents, hrow, hb1] at g2
        rw [hv, he] at g1
        rw [recoveryEvents_same hd1] at g3
        refine ⟨_, _, b2, c2, o2, res2, ?_, (ran_select s a (h2.trans g2)).weaken (by simp),
          eraseOutcome_good hm hc h4 hg g3, g4, fun h => absurd h hm⟩
        rw [e0, h1, Ret.bind_val, if_neg (by simp), g1]
      · rw [if_neg hg] at h1
        refine ⟨_, .blockIsBad, b, s.chipIndexOf a, o, s.res, ?_, (ran_select s a h2).weaken (by simp), ?_, h3, fun h => absurd h hm⟩
        · rw [e0, h1, Ret.bind_val, if_pos (by simp)]
          rfl
        · rw [eraseOutcome, if_neg hm, if_neg (by simp [hc])]
          refine ⟨reads, h4, ?_⟩
          rw [if_neg hg]
          exact ⟨rfl, rfl⟩

end

end Sys2Proof.Machine
end

