-- ==== Sys2Proof/Laws/PerInstr.lean ====
section
/-! SUPPORT. The family ReservedBitsZero: for each constructor, its command word's four reserved bits are 0. -/

namespace Sys2Proof.Laws

theorem zero_of_wordOfFields (f : Fields) : (fieldsOfWord (wordOfFields f)).zero = f.zero := by
  rw [fieldsOfWord_wordOfFields]

/-- An instruction that is encoded as a command word leaves the reserved bits 15:12 of that word at 0
(30_encoding.md R90). -/
def ReservedBitsZero.Statement (i : Instr) : Prop :=
  ∀ w, encode i = .request w → (fieldsOfWord w).zero = 0#4

theorem ReservedBitsZero.eccCalc :
    ReservedBitsZero.Statement .eccCalc := by
  intro w h
  cases h
  exact zero_of_wordOfFields _

theorem ReservedBitsZero.eccCorrect :
    ReservedBitsZero.Statement .eccCorrect := by
  intro w h
  cases h
  exact zero_of_wordOfFields _

theorem ReservedBitsZero.eccPopcnt (imm : Byte) :
    ReservedBitsZero.Statement (.eccPopcnt imm) := by
  intro w h
  cases h
  exact zero_of_wordOfFields _

theorem ReservedBitsZero.crc16 :
    ReservedBitsZero.Statement .crc16 := by
  intro w h
  cases h
  exact zero_of_wordOfFields _

theorem ReservedBitsZero.onfiCheck :
    ReservedBitsZero.Statement .onfiCheck := by
  intro w h
  cases h
  exact zero_of_wordOfFields _

theorem ReservedBitsZero.nandSelect :
    ReservedBitsZero.Statement .nandSelect := by
  intro w h
  cases h
  exact zero_of_wordOfFields _

theorem ReservedBitsZero.nandCtrl (data : Byte) (mode : BitVec 2) :
    ReservedBitsZero.Statement (.nandCtrl data mode) := by
  intro w h
  cases h
  exact zero_of_wordOfFields _

theorem ReservedBitsZero.nandWait :
    ReservedBitsZero.Statement .nandWait := by
  intro w h
  cases h
  exact zero_of_wordOfFields _

theorem ReservedBitsZero.nandCmd (cmd : Byte) (colV : Bool) (rbV : Bool) :
    ReservedBitsZero.Statement (.nandCmd cmd colV rbV) := by
  intro w h
  cases h
  exact zero_of_wordOfFields _

theorem ReservedBitsZero.nandRd8 :
    ReservedBitsZero.Statement .nandRd8 := by
  intro w h
  cases h
  exact zero_of_wordOfFields _

theorem ReservedBitsZero.nandRd16 :
    ReservedBitsZero.Statement .nandRd16 := by
  intro w h
  cases h
  exact zero_of_wordOfFields _

theorem ReservedBitsZero.nandRdbuf :
    ReservedBitsZero.Statement .nandRdbuf := by
  intro w h
  cases h
  exact zero_of_wordOfFields _

theorem ReservedBitsZero.nandWrbuf :
    ReservedBitsZero.Statement .nandWrbuf := by
  intro w h
  cases h
  exact zero_of_wordOfFields _

theorem ReservedBitsZero.nandReset :
    ReservedBitsZero.Statement .nandReset := by
  intro w h
  cases h
  exact zero_of_wordOfFields _

theorem ReservedBitsZero.nandReadid (imm : Byte) :
    ReservedBitsZero.Statement (.nandReadid imm) := by
  intro w h
  cases h
  exact zero_of_wordOfFields _

theorem ReservedBitsZero.nandStatus :
    ReservedBitsZero.Statement .nandStatus := by
  intro w h
  cases h
  exact zero_of_wordOfFields _

theorem ReservedBitsZero.nandGetfeat (imm : Byte) :
    ReservedBitsZero.Statement (.nandGetfeat imm) := by
  intro w h
  cases h
  exact zero_of_wordOfFields _

theorem ReservedBitsZero.nandSetfeat (imm : Byte) :
    ReservedBitsZero.Statement (.nandSetfeat imm) := by
  intro w h
  cases h
  exact zero_of_wordOfFields _

theorem ReservedBitsZero.detect :
    ReservedBitsZero.Statement .detect := by
  intro w h
  cases h
  exact zero_of_wordOfFields _

theorem ReservedBitsZero.onfiDetect :
    ReservedBitsZero.Statement .onfiDetect := by
  intro w h
  cases h
  exact zero_of_wordOfFields _

theorem ReservedBitsZero.pageRead (mode : OobMode) :
    ReservedBitsZero.Statement (.pageRead mode) := by
  intro w h
  cases h
  exact zero_of_wordOfFields _

theorem ReservedBitsZero.pageWrite (mode : OobMode) :
    ReservedBitsZero.Statement (.pageWrite mode) := by
  intro w h
  cases h
  exact zero_of_wordOfFields _

theorem ReservedBitsZero.pageReadoob :
    ReservedBitsZero.Statement .pageReadoob := by
  intro w h
  cases h
  exact zero_of_wordOfFields _

theorem ReservedBitsZero.pageMarkbad :
    ReservedBitsZero.Statement .pageMarkbad := by
  intro w h
  cases h
  exact zero_of_wordOfFields _

theorem ReservedBitsZero.blockErase :
    ReservedBitsZero.Statement .blockErase := by
  intro w h
  cases h
  exact zero_of_wordOfFields _

theorem ReservedBitsZero.oobCopy (mode : OobMode) :
    ReservedBitsZero.Statement (.oobCopy mode) := by
  intro w h
  cases h
  exact zero_of_wordOfFields _

theorem ReservedBitsZero.oobFill (mode : OobMode) :
    ReservedBitsZero.Statement (.oobFill mode) := by
  intro w h
  cases h
  exact zero_of_wordOfFields _

theorem ReservedBitsZero.devIsvalid :
    ReservedBitsZero.Statement .devIsvalid := by
  intro w h
  cases h
  exact zero_of_wordOfFields _

theorem ReservedBitsZero.devMarkbad :
    ReservedBitsZero.Statement .devMarkbad := by
  intro w h
  cases h
  exact zero_of_wordOfFields _

theorem ReservedBitsZero.lockObtain :
    ReservedBitsZero.Statement .lockObtain := by
  intro w h
  cases h
  exact zero_of_wordOfFields _

theorem ReservedBitsZero.lockRelease :
    ReservedBitsZero.Statement .lockRelease := by
  intro w h
  cases h
  exact zero_of_wordOfFields _

theorem ReservedBitsZero.partCreate (pidx : BitVec 4) (pdst : BitVec 4) :
    ReservedBitsZero.Statement (.partCreate pidx pdst) := by
  intro w h
  cases h
  exact zero_of_wordOfFields _

theorem ReservedBitsZero.partRead (pidx : BitVec 4) :
    ReservedBitsZero.Statement (.partRead pidx) := by
  intro w h
  cases h
  exact zero_of_wordOfFields _

theorem ReservedBitsZero.partWrite (pidx : BitVec 4) :
    ReservedBitsZero.Statement (.partWrite pidx) := by
  intro w h
  cases h
  exact zero_of_wordOfFields _

theorem ReservedBitsZero.partReadoob (pidx : BitVec 4) (mode : OobMode) :
    ReservedBitsZero.Statement (.partReadoob pidx mode) := by
  intro w h
  cases h
  exact zero_of_wordOfFields _

theorem ReservedBitsZero.partWriteoob (pidx : BitVec 4) (mode : OobMode) :
    ReservedBitsZero.Statement (.partWriteoob pidx mode) := by
  intro w h
  cases h
  exact zero_of_wordOfFields _

theorem ReservedBitsZero.partErase (pidx : BitVec 4) (mode : BitVec 2) :
    ReservedBitsZero.Statement (.partErase pidx mode) := by
  intro w h
  cases h
  exact zero_of_wordOfFields _

theorem ReservedBitsZero.partEraseall (pidx : BitVec 4) (mode : BitVec 2) :
    ReservedBitsZero.Statement (.partEraseall pidx mode) := by
  intro w h
  cases h
  exact zero_of_wordOfFields _

theorem ReservedBitsZero.partIsvalid (pidx : BitVec 4) :
    ReservedBitsZero.Statement (.partIsvalid pidx) := by
  intro w h
  cases h
  exact zero_of_wordOfFields _

theorem ReservedBitsZero.partMarkbad (pidx : BitVec 4) :
    ReservedBitsZero.Statement (.partMarkbad pidx) := by
  intro w h
  cases h
  exact zero_of_wordOfFields _

theorem ReservedBitsZero.cmdRead0 :
    ReservedBitsZero.Statement .cmdRead0 := fun _ h => nomatch h

theorem ReservedBitsZero.cmdRead1 :
    ReservedBitsZero.Statement .cmdRead1 := fun _ h => nomatch h

theorem ReservedBitsZero.cmdPageprog :
    ReservedBitsZero.Statement .cmdPageprog := fun _ h => nomatch h

theorem ReservedBitsZero.cmdReadstart :
    ReservedBitsZero.Statement .cmdReadstart := fun _ h => nomatch h

theorem ReservedBitsZero.cmdReadoob :
    ReservedBitsZero.Statement .cmdReadoob := fun _ h => nomatch h

theorem ReservedBitsZero.cmdErase1 :
    ReservedBitsZero.Statement .cmdErase1 := fun _ h => nomatch h

theorem ReservedBitsZero.cmdStatus :
    ReservedBitsZero.Statement .cmdStatus := fun _ h => nomatch h

theorem ReservedBitsZero.cmdSeqin :
    ReservedBitsZero.Statement .cmdSeqin := fun _ h => nomatch h

theorem ReservedBitsZero.cmdReadid :
    ReservedBitsZero.Statement .cmdReadid := fun _ h => nomatch h

theorem ReservedBitsZero.cmdErase2 :
    ReservedBitsZero.Statement .cmdErase2 := fun _ h => nomatch h

theorem ReservedBitsZero.cmdParam :
    ReservedBitsZero.Statement .cmdParam := fun _ h => nomatch h

theorem ReservedBitsZero.cmdGetfeat :
    ReservedBitsZero.Statement .cmdGetfeat := fun _ h => nomatch h

theorem ReservedBitsZero.cmdSetfeat :
    ReservedBitsZero.Statement .cmdSetfeat := fun _ h => nomatch h

theorem ReservedBitsZero.cmdReset :
    ReservedBitsZero.Statement .cmdReset := fun _ h => nomatch h

end Sys2Proof.Laws
end

