-- ==== Sys2Proof/Tests/Slice0.lean ====
section
/-! SUPPORT. The model's own tests: well-formedness, decoding of words written out from 30_encoding.md, at most two small
tests an instruction with the values of spec/95_test_vectors.md (named V<n>, P<n>), and the witnesses that the hypotheses
of the statements can be met. -/

namespace Sys2Proof.Tests
open Sys2Proof Sys2Proof.Machine

/-! ## Well-formedness: each check refuses an ill-formed term (30_encoding.md R93) -/

theorem test_wellFormed_nandCtrl : (Instr.nandCtrl 0x90#8 3#2).wellFormed = false ∧
    (Instr.nandCtrl 0x90#8 2#2).wellFormed = true := by
  decide

theorem test_wellFormed_partErase : (Instr.partErase 0#4 3#2).wellFormed = false ∧
    (Instr.partErase 0#4 2#2).wellFormed = true := by
  decide

theorem test_wellFormed_partEraseall : (Instr.partEraseall 0#4 3#2).wellFormed = false ∧
    (Instr.partEraseall 0#4 2#2).wellFormed = true := by
  decide

/-! ## Decoding: words written out bit by bit from 30_encoding.md R90, R95, R100 -/

theorem test_decode_ecc :
    decode (.request 0b00000000000000000000000000000001#32) = .ok (.eccCalc) ∧
    decode (.request 0b00000000000000000000000000000010#32) = .ok (.eccCorrect) ∧
    decode (.request 0b00000000101001010000000000000011#32) = .ok (.eccPopcnt 0xA5#8) := by
  decide

theorem test_decode_crc :
    decode (.request 0b00000000000000000000000000010000#32) = .ok (.crc16) ∧
    decode (.request 0b00000000000000000000000000010001#32) = .ok (.onfiCheck) := by
  decide

theorem test_decode_nand_primitives :
    decode (.request 0b00000000000000000000000000100000#32) = .ok (.nandSelect) ∧
    decode (.request 0b00000000001000000000001000100001#32) = .ok (.nandCtrl 0x20#8 2#2) ∧
    decode (.request 0b00000000000000000000000000100010#32) = .ok (.nandWait) ∧
    decode (.request 0b00000000000000000000010000100011#32) = .ok (.nandCmd 0x00#8 true false) ∧
    decode (.request 0b00000000111011100000100000100011#32) = .ok (.nandCmd 0xEE#8 false true) ∧
    decode (.request 0b00000000000000000000000000100100#32) = .ok (.nandRd8) ∧
    decode (.request 0b00000000000000000000000000100101#32) = .ok (.nandRd16) ∧
    decode (.request 0b00000000000000000000000000100110#32) = .ok (.nandRdbuf) ∧
    decode (.request 0b00000000000000000000000000100111#32) = .ok (.nandWrbuf) := by
  decide

theorem test_decode_nand_sequences :
    decode (.request 0b00000000000000000000000000101000#32) = .ok (.nandReset) ∧
    decode (.request 0b00000000001000000000000000101001#32) = .ok (.nandReadid 0x20#8) ∧
    decode (.request 0b00000000000000000000000000101010#32) = .ok (.nandStatus) ∧
    decode (.request 0b00000000100100000000000000101011#32) = .ok (.nandGetfeat 0x90#8) ∧
    decode (.request 0b00000000100100000000000000101100#32) = .ok (.nandSetfeat 0x90#8) := by
  decide

theorem test_decode_detection :
    decode (.request 0b00000000000000000000000000110000#32) = .ok (.detect) ∧
    decode (.request 0b00000000000000000000000000110001#32) = .ok (.onfiDetect) := by
  decide

theorem test_decode_page :
    decode (.request 0b00000000000000000000000001000000#32) = .ok (.pageRead .auto) ∧
    decode (.request 0b00000000000000000000000101000000#32) = .ok (.pageRead .raw) ∧
    decode (.request 0b00000000000000000000000101000001#32) = .ok (.pageWrite .raw) ∧
    decode (.request 0b00000000000000000000000001000010#32) = .ok (.pageReadoob) ∧
    decode (.request 0b00000000000000000000000001000011#32) = .ok (.pageMarkbad) ∧
    decode (.request 0b00000000000000000000000001000100#32) = .ok (.blockErase) := by
  decide

theorem test_decode_oob_and_bad_block :
    decode (.request 0b00000000000000000000000101010000#32) = .ok (.oobCopy .raw) ∧
    decode (.request 0b00000000000000000000000001010001#32) = .ok (.oobFill .auto) ∧
    decode (.request 0b00000000000000000000000001100000#32) = .ok (.devIsvalid) ∧
    decode (.request 0b00000000000000000000000001100001#32) = .ok (.devMarkbad) := by
  decide

theorem test_decode_partition_lock_and_table :
    decode (.request 0b00000000000000000000000001110000#32) = .ok (.lockObtain) ∧
    decode (.request 0b00000000000000000000000001110001#32) = .ok (.lockRelease) ∧
    decode (.request 0b00100001000000000000000001110010#32) = .ok (.partCreate 1#4 2#4) := by
  decide

theorem test_decode_partition_transfer :
    decode (.request 0b00000010000000000000000001110011#32) = .ok (.partRead 2#4) ∧
    decode (.request 0b00001111000000000000000001110100#32) = .ok (.partWrite 15#4) ∧
    decode (.request 0b00000010000000000000000101110101#32) = .ok (.partReadoob 2#4 .raw) ∧
    decode (.request 0b00000011000000000000000001110110#32) = .ok (.partWriteoob 3#4 .auto) := by
  decide

theorem test_decode_partition_blocks :
    decode (.request 0b00000000000000000000001001110111#32) = .ok (.partErase 0#4 2#2) ∧
    decode (.request 0b00000001000000000000000101110111#32) = .ok (.partErase 1#4 1#2) ∧
    decode (.request 0b00000100000000000000000001111000#32) = .ok (.partEraseall 4#4 0#2) ∧
    decode (.request 0b00000101000000000000000001111001#32) = .ok (.partIsvalid 5#4) ∧
    decode (.request 0b00000110000000000000000001111010#32) = .ok (.partMarkbad 6#4) := by
  decide

theorem test_decode_bus_commands :
    decode (.bus 0b00000000#8) = .ok .cmdRead0 ∧
    decode (.bus 0b00000001#8) = .ok .cmdRead1 ∧
    decode (.bus 0b00010000#8) = .ok .cmdPageprog ∧
    decode (.bus 0b00110000#8) = .ok .cmdReadstart ∧
    decode (.bus 0b01010000#8) = .ok .cmdReadoob ∧
    decode (.bus 0b01100000#8) = .ok .cmdErase1 ∧
    decode (.bus 0b01110000#8) = .ok .cmdStatus ∧
    decode (.bus 0b10000000#8) = .ok .cmdSeqin ∧
    decode (.bus 0b10010000#8) = .ok .cmdReadid ∧
    decode (.bus 0b11010000#8) = .ok .cmdErase2 ∧
    decode (.bus 0b11101100#8) = .ok .cmdParam ∧
    decode (.bus 0b11101110#8) = .ok .cmdGetfeat ∧
    decode (.bus 0b11101111#8) = .ok .cmdSetfeat ∧
    decode (.bus 0b11111111#8) = .ok .cmdReset := by
  decide

/-! ## Small states -/

/-- An erased small-page chip of the device of 95_test_vectors.md program P3: 2 blocks of 2 pages of 512 + 16 bytes. -/
def chip : Chip where
  idBytes := [0xB5#8, 0xF0#8, 0#8, 0#8, 0#8, 0#8, 0#8, 0#8]
  sigBytes := [0#8, 0#8, 0#8, 0#8]
  paramBytes := []
  pageSize := 512
  oobSize := 16
  pagesPerBlock := 2
  rows := 4
  bus16 := false
  stuck := false
  statusBase := 0xE0#8
  failMask := 0x01#8
  progFails := ⟨false, []⟩
  eraseFails := ⟨false, []⟩
  featsFixed := false
  cells := ⟨[]⟩
  busy := false
  failed := false
  feats := []
  cmd := none
  addr := []
  area := 0
  dataIn := []
  dataOut := .none

/-- That device right after reset: two chips, a device-info entry for them, four chip-selects. -/
def fresh : State :=
  { State.reset with
    par := { Config.params with maxChips := 4, devInfo := [(0xF0#8, ⟨some 512, 1024, 2048, false⟩)] }
    bus := { Bus.reset with chips := [chip, chip] } }

/-- Its geometry, as program P3 lists it after DETECT. -/
def geo : Geometry where
  chipCount := 2
  blocksPerChip := 2
  blockSize := 1024
  pageSize := 512
  oobSize := 16
  size := 4096
  pageShift := 9
  blockShift := 10
  chipShift := 11
  pageMask := 0x1FF
  blockMask := 0x3FF
  chipMask := 0x7FF
  pagesPerBlock := 2
  row3 := false

/-- That device after DETECT, chip 0 selected, with the partitions of program P5 after its second step. -/
def dev : State :=
  { fresh with
    detected := true, geo := geo, bbmPos := 5, freeTab := [⟨8, 8⟩, .sentinel]
    eccTab := [⟨0, 4⟩, ⟨6, 2⟩, .sentinel]
    pt := [⟨true, 0, 4096⟩, ⟨true, 0x400, 0x800⟩, ⟨true, 0x800, 0x400⟩] ++ List.replicate 5 ⟨false, 0, 0⟩
    bus := { fresh.bus with selected := some 0#8 } }

/-- The large-page geometry of vector V44: 2048 + 64 bytes, three row cycles. -/
def large : State :=
  { dev with
    variant := .large, bbmPos := 0, freeTab := [⟨2, 38⟩, .sentinel], eccTab := [⟨40, 24⟩, .sentinel]
    geo := { geo with
      pageSize := 2048, oobSize := 64, blockSize := 131072, blocksPerChip := 4096, size := 0x20000000, chipCount := 1
      pageShift := 11, blockShift := 17, chipShift := 29, pageMask := 0x7FF, blockMask := 0x1FFFF
      chipMask := 0x1FFFFFFF, pagesPerBlock := 64, row3 := true }
    bus := { fresh.bus with
      selected := some 0#8
      chips := [{ chip with pageSize := 2048, oobSize := 64, pagesPerBlock := 64, rows := 262144 }] } }

/-- `s` with its selected chip changed. -/
def withChip (s : State) (f : Chip → Chip) : State := { s with bus := { s.bus with chips := s.bus.chips.map f } }

/-- Does the outcome reach a next state that passes `p`? -/
def ends (o : Host.Outcome State Fault Refusal) (p : State → Bool) : Bool :=
  match o with
  | .next t => p t
  | .fault _ | .refused _ => false

/-- An event with the number of polls left out. -/
def shape : BusEvent → BusEvent
  | .wait _ => .wait 0
  | e => e

/-- The trace, oldest event first, without the numbers of polls, and without the bytes of long transfers. -/
def traceOf (t : State) : List BusEvent := t.bus.trace.reverse.map shape

/-- Bytes of a space. -/
def bytesAt (m : Memory) (base n : Nat) : List Byte := m.readBytes base n

/-- Memory that holds the given bytes from address 0 on. -/
def mem (l : List Byte) : Memory := (⟨[]⟩ : Memory).writeBytes 0 l

/-! ## U-ECC and U-CRC (95_test_vectors.md B1, B2) -/

theorem test_eccCalc_v10 : ends (exec .eccCalc { dev with dbuf := mem [0xFE#8] })
    (fun t => t.eccCa == ⟨0xAA#8, 0xAA#8, 0xAB#8⟩ && t.status == .success) = true := by
  decide +kernel

theorem test_eccCalc_v12 : ends (exec .eccCalc { dev with dbuf := mem ((List.range 100).map fun i => BitVec.ofNat 8 (3 * i + 1)) })
    (fun t => t.eccCa == ⟨0x3F#8, 0xC3#8, 0x33#8⟩) = true := by
  decide +kernel

theorem test_eccCorrect_v15 : ends (exec .eccCorrect
    { dev with dbuf := (⟨[(200, 0xBF#8)]⟩ : Memory), eccRd := ⟨0xC3#8, 0x0F#8, 0xFF#8⟩, eccCa := ⟨0x56#8, 0xAA#8, 0x5B#8⟩ })
    (fun t => t.status == .eccFixed && t.dbuf.read 200 == 0xFF#8) = true := by
  decide

theorem test_eccCorrect_v16 : ends (exec .eccCorrect
    { dev with dbuf := (⟨[(13, 0x8D#8)]⟩ : Memory), eccRd := ⟨0xF3#8, 0xFC#8, 0x33#8⟩, eccCa := ⟨0xFF#8, 0xFF#8, 0xFF#8⟩ })
    (fun t => t.status == .eccUncorrectable && t.dbuf.read 13 == 0x8D#8) = true := by
  decide

theorem test_eccPopcnt_v22 :
    ends (exec (.eccPopcnt 0xA5#8) dev) (fun t => t.res == 4#64) = true ∧
      ends (exec (.eccPopcnt 0xFF#8) dev) (fun t => t.res == 8#64) = true := by
  decide

theorem test_crc16_v28 : ends (exec .crc16 { dev with a1 := 4, dbuf := mem [0x4F#8, 0x4E#8, 0x46#8, 0x49#8] })
    (fun t => t.crcOut == 0x15B3#16 && t.status == .success) = true := by
  decide +kernel

theorem test_crc16_v29 : ends (exec .crc16
    { dev with a1 := 9, dbuf := mem [0x31#8, 0x32#8, 0x33#8, 0x34#8, 0x35#8, 0x36#8, 0x37#8, 0x38#8, 0x39#8] })
    (fun t => t.crcOut == 0x2771#16) = true := by
  decide +kernel

/-- The parameter page of vector V24. -/
def page24 : List Byte :=
  [0x4F#8, 0x4E#8, 0x46#8, 0x49#8, 0x02#8, 0x00#8] ++ List.replicate 75 0#8 ++ [0x08#8] ++ List.replicate 2 0#8 ++ [0x40#8] ++
    List.replicate 7 0#8 ++ [0x40#8] ++ List.replicate 4 0#8 ++ [0x04#8] ++ List.replicate 2 0#8 ++ [0x01#8] ++
    List.replicate 11 0#8 ++ [0x01#8] ++ List.replicate 141 0#8 ++ [0x6C#8, 0x1C#8]

set_option maxRecDepth 20000 in
theorem test_onfiCheck_v34 : ends (exec .onfiCheck { dev with onfi := page24 })
    (fun t => t.crcOut == 0x1C6C#16 && t.status == .success) = true := by
  decide +kernel

set_option maxRecDepth 20000 in
theorem test_onfiCheck_v36 : ends (exec .onfiCheck dev) (fun t => t.crcOut == 0x3EEE#16 && t.status == .onfiCrc) = true := by
  decide +kernel

/-! ## U-NAND (95_test_vectors.md B3) -/

theorem test_nandSelect_v39 : ends (exec .nandSelect { State.reset with a0 := 1 })
    (fun t => traceOf t == [.sel 1#8] && t.curChip == 1#8) = true := by
  decide

theorem test_nandCtrl_v40 :
    ends (exec (.nandCtrl 0x90#8 1#2) State.reset) (fun t => traceOf t == [.cle 0x90#8]) = true ∧
      ends (exec (.nandCtrl 0x20#8 2#2) State.reset) (fun t => traceOf t == [.ale 0x20#8]) = true := by
  decide

theorem test_nandCtrl_v92 : ends (exec (.nandCtrl 0#8 3#2) State.reset)
    (fun t => traceOf t == [] && t.status == .opNotSupported) = true := by
  decide

theorem test_nandWait_v41 : ends (exec .nandWait (withChip dev fun c => { c with busy := true }))
    (fun t => traceOf t == [.wait 0] && t.bus.chips.map (fun c => c.busy) == [false, true]) = true := by
  decide

theorem test_nandWait_stuck_v95 : ends (exec .nandWait (withChip dev fun c => { c with stuck := true }))
    (fun t => traceOf t == [.notReady] && t.phase == .waitRdy) = true := by
  decide

theorem test_nandCmd_v45 : ends (exec (.nandCmd 0x50#8 true true) { large with a0 := 0x2ABCD })
    (fun t => traceOf t == [.cle 0x00#8, .ale 0x00#8, .ale 0x08#8, .ale 0xCD#8, .ale 0xAB#8, .ale 0x02#8, .idle,
      .cle 0x30#8, .idle, .wait 0]) = true := by
  decide

/-- The area pointer; and before detection the redirect of READOOB, which needs PAGE_SIZE, is refused (10_state.md R26). -/
theorem test_nandCmd_v48 : ends (exec (.nandCmd 0x80#8 true true) { dev with a0 := 0x2BCD, a1 := 300 })
    (fun t => traceOf t == [.cle 0x01#8, .cle 0x80#8, .ale 0x2C#8, .ale 0xCD#8, .ale 0x2B#8, .idle]) = true ∧
      ends (exec (.nandCmd 0x50#8 false false) { large with detected := false })
        (fun t => traceOf t == [] && t.status == .noDevice) = true := by
  decide

theorem test_nandRd8 : ends (exec .nandRd8 (withChip dev fun c => { c with dataOut := .bytes [0x42#8, 0x2A#8] }))
    (fun t => t.res == 0x42#64 && t.bus.chips.map (fun c => c.dataOut) ==
      [.bytes [0x2A#8], .bytes [0x42#8, 0x2A#8]]) = true := by
  decide

theorem test_nandRd16 : ends (exec .nandRd16
    { withChip dev fun c => { c with dataOut := .bytes [0x34#8, 0x12#8] } with conf := { Conf.reset with bus16 := true } })
    (fun t => t.res == 0x1234#64) = true := by
  decide

theorem test_nandRdbuf : ends (exec .nandRdbuf
    { withChip dev fun c => { c with dataOut := .bytes [1#8, 2#8, 3#8] } with a0 := 4, a1 := 2 })
    (fun t => bytesAt t.dbuf 3 4 == [0xFF#8, 1#8, 2#8, 0xFF#8]) = true := by
  decide

theorem test_nandRdbuf_odd_16bit : ends (exec .nandRdbuf { dev with a1 := 1, conf := { Conf.reset with bus16 := true } })
    (fun t => traceOf t == [] && t.status == .invalidAddress) = true := by
  decide

theorem test_nandWrbuf : ends (exec .nandWrbuf { dev with a1 := 2, dbuf := mem [1#8, 2#8] })
    (fun t => traceOf t == [.wrBuf [1#8, 2#8]]) = true := by
  decide

theorem test_nandWrbuf_v59 : ends (exec .nandWrbuf { dev with a1 := 2, conf := { Conf.reset with readOnly := true } })
    (fun t => traceOf t == [] && t.status == .readOnly) = true := by
  decide

theorem test_nandReset_v42 : ends (exec .nandReset dev) (fun t => traceOf t == [.cle 0xFF#8, .idle, .wait 0]) = true := by
  decide

theorem test_nandReadid_v58 : ends (exec (.nandReadid 0x20#8)
    { withChip dev fun c => { c with sigBytes := [0x4F#8, 0x4E#8, 0x46#8, 0x49#8] } with a1 := 4 })
    (fun t => bytesAt t.dbuf 0 4 == [0x4F#8, 0x4E#8, 0x46#8, 0x49#8] &&
      traceOf t == [.cle 0x90#8, .ale 0x20#8, .idle, .rd8 0x4F#8, .rd8 0x4E#8, .rd8 0x46#8, .rd8 0x49#8]) = true := by
  decide

theorem test_nandReadid_nine_v58 : ends (exec (.nandReadid 0x20#8) { dev with a1 := 9 })
    (fun t => traceOf t == [] && t.status == .invalidAddress) = true := by
  decide

theorem test_nandStatus_v43 : ends (exec .nandStatus dev)
    (fun t => traceOf t == [.cle 0x70#8, .idle, .rd8 0xE0#8] && t.res == 0xE0#64) = true := by
  decide

/-- Other bytes for `CMD_STATUS` and `ST_FAIL` (00_scope.md section 4): the sequence takes them. -/
theorem test_nandStatus_parameters : ends (exec .nandStatus { withChip dev fun c => { c with failMask := 0x80#8, failed := true } with
    par := { dev.par with cmds := { Config.cmds with status := 0x7F#8 }, stFail := 0x80#8 } })
    (fun t => traceOf t == [.cle 0x7F#8, .idle, .rd8 0xE0#8] && t.tellsFailure 0xE0#8) = true := by
  decide

theorem test_nandSetfeat_v59 : ends (exec (.nandSetfeat 0x90#8)
    { dev with dbuf := mem [8#8, 0#8, 0#8, 0#8], conf := { Conf.reset with readOnly := true } })
    (fun t => t.status == .success &&
      traceOf t == [.cle 0xEF#8, .ale 0x90#8, .idle, .wrBuf [8#8, 0#8, 0#8, 0#8], .wait 0]) = true := by
  decide

theorem test_nandGetfeat_v59 : ends (exec (.nandGetfeat 0x90#8)
    { withChip dev fun c => { c with feats := [(0x90#8, [8#8, 0#8, 0#8, 0#8])] } with a0 := 4 })
    (fun t => bytesAt t.dbuf 4 4 == [8#8, 0#8, 0#8, 0#8] &&
      traceOf t == [.cle 0xEE#8, .ale 0x90#8, .idle, .wait 0, .rd8 8#8, .rd8 0#8, .rd8 0#8, .rd8 0#8]) = true := by
  decide

/-! ## U-DET (95_test_vectors.md B4, P3) -/

theorem test_detect_p3 : ends (exec .detect fresh)
    (fun t => t.status == .success && t.geo == geo && t.bbmPos == 5 && t.curChip == 2#8 &&
      t.pt.head? == some ⟨true, 0, 4096⟩ && t.freeTab == dev.freeTab && t.eccTab == dev.eccTab) = true := by
  decide

theorem test_detect_v67 : ends (exec .detect
    { fresh with par := { fresh.par with devInfo := [(0xF0#8, ⟨some 512, 1024, 2048, true⟩)] } })
    (fun t => t.status == .busWidth && t.detected == false) = true := by
  decide

theorem test_onfiDetect_v61 : ends (exec .onfiDetect dev)
    (fun t => t.status == .noOnfiDevice && t.onfiStatus == .noOnfiDevice && t.onfiValid == false) = true := by
  decide

set_option maxRecDepth 20000 in
theorem test_onfiDetect_v60 : ends (exec .onfiDetect
    (withChip dev fun c => { c with sigBytes := [0x4F#8, 0x4E#8, 0x46#8, 0x49#8], paramBytes := page24 }))
    (fun t => t.status == .success && t.onfiValid && t.onfi == page24) = true := by
  decide +kernel

/-! ## Page operations (44_page_ops.md, 95_test_vectors.md B5) -/

theorem test_pageRead_row3 : ends (exec (.pageRead .auto) { dev with a0 := 3 })
    (fun t => t.status == .success && traceOf t == [.cle 0x00#8, .ale 0x00#8, .ale 0x03#8, .ale 0x00#8, .idle, .wait 0,
      .rdBuf (List.replicate 512 0xFF#8), .rdBuf (List.replicate 16 0xFF#8)]) = true := by
  decide +kernel

theorem test_pageRead_v76 : ends (exec (.pageRead .raw) fresh) (fun t => t.status == .noDevice && traceOf t == []) = true := by
  decide

theorem test_pageWrite_row3 : ends (exec (.pageWrite .auto) { dev with a0 := 3, dbuf := mem [0xFE#8] })
    (fun t => t.res == 0xE0#64 && bytesAt t.oobs 0 4 == [0xAA#8, 0xAA#8, 0xAB#8, 0xFF#8] &&
      t.bus.trace.reverse.take 6 == [.cle 0x00#8, .cle 0x80#8, .ale 0x00#8, .ale 0x03#8, .ale 0x00#8, .idle]) = true := by
  decide +kernel

theorem test_pageWrite_v77 : ends (exec (.pageWrite .raw) { dev with conf := { Conf.reset with readOnly := true } })
    (fun t => t.status == .readOnly && traceOf t == []) = true := by
  decide

theorem test_pageReadoob_v72 : ends (exec .pageReadoob { large with a0 := 0x2ABCD })
    (fun t => traceOf t == [.cle 0x00#8, .ale 0x00#8, .ale 0x08#8, .ale 0xCD#8, .ale 0xAB#8, .ale 0x02#8, .idle,
      .cle 0x30#8, .idle, .wait 0, .rdBuf (List.replicate 64 0xFF#8)]) = true := by
  decide

theorem test_pageMarkbad_v74 : ends (exec .pageMarkbad { large with a0 := 0x2ABC0 })
    (fun t => traceOf t == [.cle 0x80#8, .ale 0x00#8, .ale 0x08#8, .ale 0xC0#8, .ale 0xAB#8, .ale 0x02#8, .idle,
      .wrBuf (0x00#8 :: List.replicate 63 0xFF#8), .cle 0x10#8, .idle, .wait 0, .cle 0x70#8, .idle, .rd8 0xE0#8]) = true := by
  decide

theorem test_blockErase_v73 : ends (exec .blockErase { large with a0 := 0x2ABC0 })
    (fun t => t.res == 0xE0#64 && traceOf t == [.cle 0x60#8, .ale 0xC0#8, .ale 0xAB#8, .ale 0x02#8, .idle, .cle 0xD0#8,
      .idle, .wait 0, .cle 0x70#8, .idle, .rd8 0xE0#8]) = true := by
  decide

theorem test_blockErase_fails_v73 : ends (exec .blockErase
    { withChip large fun c => { c with eraseFails := ⟨false, [0x2ABC0]⟩, pagesPerBlock := 0 } with a0 := 0x2ABC0 })
    (fun t => t.res == 0xE1#64 && t.status == .erase) = true := by
  decide

/-! ## U-OOB and U-BB (95_test_vectors.md B6, P3) -/

/-- The two-range table of vectors V89 to V91. -/
def twoRanges : State :=
  { dev with freeTab := [⟨8, 3⟩, ⟨13, 3⟩, .sentinel], oobs := mem ((List.range 16).map fun i => BitVec.ofNat 8 (0x10 + i)) }

theorem test_oobCopy_v89 : ends (exec (.oobCopy .auto) { twoRanges with a2 := 2, a3 := 3 })
    (fun t => bytesAt t.obuf 0 4 == [0x1A#8, 0x1D#8, 0x1E#8, 0xFF#8]) = true := by
  decide

theorem test_oobCopy_v91 : ends (exec (.oobCopy .auto) { twoRanges with a2 := 4, a3 := 3 })
    (fun t => t.status == .invalidAddress && t.obuf == ⟨[]⟩) = true := by
  decide

theorem test_oobFill_v90 : ends (exec (.oobFill .auto)
    { twoRanges with a2 := 1, a3 := 4, obuf := mem [0x1A#8, 0x1D#8, 0x1E#8, 0x44#8] })
    (fun t => bytesAt t.oobs 8 8 == [0xFF#8, 0x1A#8, 0x1D#8, 0xFF#8, 0xFF#8, 0x1E#8, 0x44#8, 0xFF#8]) = true := by
  decide

theorem test_oobFill_v87 : ends (exec (.oobFill .raw)
    { large with a3 := 4, obuf := mem [0x11#8, 0x22#8, 0x33#8, 0x44#8], oobs := mem (List.replicate 64 0#8) })
    (fun t => bytesAt t.oobs 0 64 == [0x11#8, 0x22#8, 0x33#8, 0x44#8] ++ List.replicate 60 0xFF#8) = true := by
  decide

/-- Chip 1, row 0 marked bad, as after step 2 of program P3. -/
def marked : State :=
  { dev with bus := { dev.bus with chips := [chip, { chip with cells := ⟨[(512 + 5, 0x00#8)]⟩ }] }, a0 := 0x800 }

/-- The events of reading the OOB area of a row, as program P3 writes them. -/
def readsOob (r : Byte) (oob : List Byte) : List BusEvent :=
  [.cle 0x50#8, .ale 0x00#8, .ale r, .ale 0x00#8, .idle, .wait 0, .rdBuf oob]

theorem test_devIsvalid : ends (exec .devIsvalid { marked with a0 := 0xC00 })
    (fun t => t.status == .success && traceOf t == .sel 1#8 :: readsOob 2#8 (List.replicate 16 0xFF#8)) = true := by
  decide

theorem test_devIsvalid_bad : ends (exec .devIsvalid marked) (fun t => t.status == .blockIsBad) = true := by
  decide

theorem test_devMarkbad_skips_bad : ends (exec .devMarkbad marked)
    (fun t => t.status == .success && traceOf t ==
      .sel 1#8 :: readsOob 0#8 (List.replicate 5 0xFF#8 ++ [0x00#8] ++ List.replicate 10 0xFF#8)) = true := by
  decide

theorem test_devMarkbad_marks : ends (exec .devMarkbad { dev with a0 := 0x800 })
    (fun t => t.status == .success && t.bus.chips.map (fun c => c.cells) == [⟨[]⟩, ⟨[(512 + 5, 0x00#8)]⟩]) = true := by
  decide

/-! ## U-PART (95_test_vectors.md B7, P3, P5) -/

theorem test_lockObtain_v94 :
    ends (exec .lockObtain dev) (fun t => t.lock && t.status == .success && traceOf t == []) = true ∧
      ends (exec .lockObtain { dev with lock := true }) (fun t => t.phase == .stallLock) = true := by
  decide

theorem test_lockRelease_v94 :
    ends (exec .lockRelease { dev with lock := true }) (fun t => !t.lock && t.status == .success) = true ∧
      ends (exec .lockRelease dev) (fun t => !t.lock && t.status == .success) = true := by
  decide

theorem test_partCreate_p5_step2 : ends (exec (.partCreate 1#4 3#4) { dev with a0 := 0x400, a1 := 0x400 })
    (fun t => t.res == 3#64 && t.pt[3]? == some ⟨true, 0x800, 0x400⟩) = true := by
  decide

theorem test_partCreate_p5_step4 : ends (exec (.partCreate 1#4 3#4) { dev with a0 := 0x200, a1 := 0x400 })
    (fun t => t.status == .invalidAddress && t.pt == dev.pt) = true := by
  decide

theorem test_partRead_p5_step9 : ends (exec (.partRead 2#4) { dev with a0 := 0x200, a1 := 0x200 })
    (fun t => t.status == .success && !t.lock && traceOf t == [.sel 1#8, .cle 0x00#8, .ale 0x00#8, .ale 0x01#8,
      .ale 0x00#8, .idle, .wait 0, .rdBuf (List.replicate 512 0xFF#8), .rdBuf (List.replicate 16 0xFF#8)]) = true := by
  decide +kernel

theorem test_partRead_p5_step8 : ends (exec (.partRead 2#4) { dev with a0 := 0x401, a1 := 0 })
    (fun t => t.status == .invalidAddress && traceOf t == []) = true := by
  decide

theorem test_partWrite_p5_step26 : ends (exec (.partWrite 2#4) { dev with a0 := 0x200, a1 := 0x200 })
    (fun t => t.status == .success && traceOf t == [.sel 1#8, .cle 0x00#8, .cle 0x80#8, .ale 0x00#8, .ale 0x01#8,
      .ale 0x00#8, .idle, .wrBuf (List.replicate 512 0xFF#8), .wrBuf (List.replicate 16 0xFF#8), .cle 0x10#8, .idle,
      .wait 0, .cle 0x70#8, .idle, .rd8 0xE0#8]) = true := by
  decide +kernel

theorem test_partWrite_p5_step17 : ends (exec (.partWrite 2#4) { dev with a1 := 0, conf := { Conf.reset with readOnly := true } })
    (fun t => t.status == .success && traceOf t == []) = true := by
  decide

theorem test_partReadoob_p5_step14 : ends (exec (.partReadoob 2#4 .raw) { marked with a0 := 0, a2 := 4, a3 := 12 })
    (fun t => t.status == .success && bytesAt t.obuf 0 3 == [0xFF#8, 0x00#8, 0xFF#8] &&
      (traceOf t).take 2 == [.sel 1#8, .cle 0x50#8]) = true := by
  decide

theorem test_partReadoob_p5_step16 : ends (exec (.partReadoob 2#4 .auto) { dev with a0 := 0x400, a3 := 1 })
    (fun t => t.status == .invalidAddress && traceOf t == []) = true := by
  decide

theorem test_partWriteoob_oob_only : ends (exec (.partWriteoob 0#4 .auto) { dev with a3 := 2, obuf := mem [0xA0#8, 0xA1#8] })
    (fun t => t.status == .success && traceOf t == [.sel 0#8, .cle 0x50#8, .cle 0x80#8, .ale 0x00#8, .ale 0x00#8,
      .ale 0x00#8, .idle, .wrBuf (List.replicate 8 0xFF#8 ++ [0xA0#8, 0xA1#8] ++ List.replicate 6 0xFF#8), .cle 0x10#8,
      .idle, .wait 0, .cle 0x70#8, .idle, .rd8 0xE0#8]) = true := by
  decide

theorem test_partErase_p3_step4 : ends (exec (.partErase 0#4 0#2) marked)
    (fun t => t.status == .blockIsBad && t.bus.chips.map (fun c => c.cells) == marked.bus.chips.map fun c => c.cells) = true := by
  decide

theorem test_partErase_p3_step7 : ends (exec (.partErase 0#4 1#2) marked)
    (fun t => t.status == .success && t.bus.chips.map (fun c => c.cells) == [⟨[]⟩, ⟨[]⟩] &&
      (traceOf t).take 2 == [.sel 1#8, .cle 0x60#8]) = true := by
  decide

theorem test_partEraseall_p3_step6 : ends (exec (.partEraseall 0#4 0#2) marked)
    (fun t => t.status == .success && (traceOf t).length == 4 + 4 * 7 + 3 * 10 &&
      t.bus.chips.map (fun c => c.cells) == marked.bus.chips.map fun c => c.cells) = true := by
  decide

theorem test_partIsvalid_p3_step3 : ends (exec (.partIsvalid 0#4) marked)
    (fun t => t.status == .blockIsBad && (traceOf t).head? == some (.sel 1#8)) = true := by
  decide

theorem test_partIsvalid_p5_step22 : ends (exec (.partIsvalid 2#4) { dev with conf := { Conf.reset with caps := 0 } })
    (fun t => t.status == .opNotSupported && traceOf t == []) = true := by
  decide

theorem test_partMarkbad_p3_step2 : ends (exec (.partMarkbad 0#4) { dev with a0 := 0x800 })
    (fun t => t.status == .success && t.res == 0xE0#64 &&
      t.bus.chips.map (fun c => c.cells) == [⟨[]⟩, ⟨[(512 + 5, 0x00#8)]⟩]) = true := by
  decide

/-! ## Bus command bytes (30_encoding.md R100, 20_memory.md R66) -/

/-- A READ of row 1 addressed to the large-page chip, before its confirm. -/
def addressed : State :=
  withChip large fun c => { c with cmd := some .read0, addr := [0#8, 8#8, 1#8, 0#8, 0#8], cells := ⟨[(2112 + 2048, 0x3C#8)]⟩ }

theorem test_cmdReadstart : ends (exec .cmdReadstart addressed) (fun t => (t.bus.chips.map fun c =>
    match c.dataOut with
    | .bytes l => l.head?
    | _ => none) == [some 0x3C#8]) = true := by
  decide

theorem test_cmdPageprog_ands : ends (exec .cmdPageprog
    (withChip dev fun c => { c with cmd := some .seqin, addr := [0#8, 1#8, 0#8], dataIn := [0x0F#8], cells := ⟨[(528, 0x3C#8)]⟩ }))
    (fun t => t.bus.chips.map (fun c => c.cells) == [⟨[(528, 0x0C#8)]⟩, ⟨[(528, 0x3C#8)]⟩]) = true := by
  decide

theorem test_cmdErase2_clears_the_block : ends (exec .cmdErase2
    (withChip dev fun c => { c with cmd := some .erase1, addr := [3#8, 0#8], cells := ⟨[(528, 0#8), (1056, 0#8)]⟩ }))
    (fun t => t.bus.chips.map (fun c => c.cells) == [⟨[(528, 0#8)]⟩, ⟨[(528, 0#8), (1056, 0#8)]⟩]) = true := by
  decide

theorem test_commandBytes_latch :
    [(Instr.cmdRead0, 0x00#8, Cmd.read0), (.cmdRead1, 0x01#8, .read1), (.cmdReadoob, 0x50#8, .readoob),
      (.cmdErase1, 0x60#8, .erase1), (.cmdStatus, 0x70#8, .status), (.cmdSeqin, 0x80#8, .seqin),
      (.cmdReadid, 0x90#8, .readid), (.cmdParam, 0xEC#8, .param), (.cmdGetfeat, 0xEE#8, .getfeat),
      (.cmdSetfeat, 0xEF#8, .setfeat), (.cmdReset, 0xFF#8, .reset)].all (fun p => ends (exec p.1 dev) fun t =>
        traceOf t == [.cle p.2.1] && t.bus.chips.map (fun c => c.cmd) == [some p.2.2, none]) = true := by
  decide

/-! ## Steps and the host port -/

theorem test_step_illegal_v92 : [0x00000000#32, 0x000000FF#32, 0x00000377#32, 0x00000240#32, 0x00000101#32, 0x00001001#32,
    0x01000001#32, 0x00010001#32, 0x00000401#32, 0x10000073#32, 0x00000179#32].all (fun w =>
      ends (step { dev with cw := w, phase := .run }) fun t =>
        t == { dev with cw := w, phase := .idle, status := .opNotSupported }) = true := by
  decide +kernel

theorem test_step_after_reset_v93 : [0x00000073#32, 0x00000040#32, 0x00000050#32, 0x00000060#32, 0x10000072#32].all (fun w =>
    ends (step { State.reset with cw := w, phase := .run }) fun t => t.status == .noDevice) = true := by
  decide

theorem test_fetchWord : ends (step (State.reset.withFetchWord 32 0x00A50003)) (fun t => t.res == 4#64) = true := by
  decide

theorem test_host_starts_an_operation : ends (core.run 3 { dev with hostIn := [.writeA 0 1#64, .writeCw 0x20#32] })
    (fun t => traceOf t == [.sel 1#8] && t.phase == .idle) = true := by
  decide

/-- A register of `ADDR_W` = 16 bits (00_scope.md section 4). -/
theorem test_host_write_fits_addr_w : ends (hostAct (.writeA 0 0x12345#64) { dev with par := { dev.par with addrW := 16 } })
    (fun t => t.a0 == 0x2345#64) = true := by
  decide

/-! ## Witnesses: concrete states and operands that meet the hypotheses of the statements, clause by clause -/

/-- What `ends` says. -/
theorem exists_of_ends {o : Host.Outcome State Fault Refusal} {p : State → Bool} (h : ends o p = true) :
    ∃ t, o = .next t ∧ p t = true := by
  cases o with
  | next t => exact ⟨t, rfl, h⟩
  | fault r => exact absurd h (by simp [ends])
  | refused r => exact absurd h (by simp [ends])

theorem witness_EncodeThenDecode : (Instr.partErase 0#4 2#2).wellFormed = true ∧ (Instr.cmdReset).wellFormed = true := by
  decide

theorem witness_DecodeThenEncode : decode (.request 0x2F000072#32) = .ok (.partCreate 15#4 2#4) ∧
    decode (.bus 0xFF#8) = .ok .cmdReset := by
  decide

theorem witness_StepRunsDecodedInstruction :
    ({ dev with cw := 0x21000072#32, phase := .run } : State).busPort = none ∧
      decode (.request 0x21000072#32) = .ok (.partCreate 1#4 2#4) ∧
      ({ dev with busPort := some 0xD0#8 } : State).busPort = some 0xD0#8 ∧ decode (.bus 0xD0#8) = .ok .cmdErase2 := by
  decide

theorem witness_IllegalRequest : illegalWord 0x00000377#32 ∧ illegalWord 0x00000000#32 ∧ ¬ illegalWord 0x00000277#32 ∧
    dev.busPort = none ∧ ({ dev with phase := .run } : State).phase = .run := by
  decide

theorem witness_ResetGivesTheStatedValues : ∃ s, hostAct .reset { dev with phase := .waitRdy, lock := true } = .next s :=
  ⟨_, rfl⟩

theorem witness_EccWindow : ({ dev with a0 := 7936 } : State).a0.toNat + 256 ≤ ({ dev with a0 := 7936 } : State).par.maxPage ∧
    dev.par.maxPage < ({ dev with a0 := 7937 } : State).a0.toNat + 256 ∧ ({ dev with a0 := 7936 } : State).memoryWf := by
  decide

/-- Triples for every syndrome weight of ECC.CORRECT: 0, 11, 1 and another one (vectors V13, V15, V19, V16). -/
theorem witness_EccCorrectWeights :
    popcount8 (0x56#8 ^^^ 0x56#8) + popcount8 (0xAA#8 ^^^ 0xAA#8) + popcount8 (0x5B#8 ^^^ 0x5B#8) = 0 ∧
      popcount8 (0xC3#8 ^^^ 0x56#8) + popcount8 (0x0F#8 ^^^ 0xAA#8) + popcount8 (0xFF#8 ^^^ 0x5B#8) = 11 ∧
      popcount8 (0x56#8 ^^^ 0x56#8) + popcount8 (0xBA#8 ^^^ 0xAA#8) + popcount8 (0x5B#8 ^^^ 0x5B#8) = 1 ∧
      popcount8 (0xF3#8 ^^^ 0xFF#8) + popcount8 (0xFC#8 ^^^ 0xFF#8) + popcount8 (0x33#8 ^^^ 0xFF#8) = 8 := by
  decide

/-- An erased chunk at the end of `DBUF` whose last bit was flipped, with the triples of the two. -/
def flipped : State :=
  { dev with
    a0 := 7936, dbuf := ⟨[(8191, 0x7F#8)]⟩, eccRd := eccTriple 0b11#2 (List.replicate 256 0xFF#8)
    eccCa := eccTriple 0b11#2 (flipBit (List.replicate 256 0xFF#8) 255 7) }

theorem witness_SingleBitErrorIsRepaired : flipped.memoryWf ∧ flipped.a0.toNat + 256 ≤ flipped.par.maxPage ∧
    (List.replicate 256 (0xFF#8 : Byte)).length = 256 ∧
    flipped.dbuf.readBytes flipped.a0.toNat 256 = flipBit (List.replicate 256 0xFF#8) 255 7 ∧
    flipped.eccRd = eccTriple flipped.par.eccLow2 (List.replicate 256 0xFF#8) ∧
    flipped.eccCa = eccTriple flipped.par.eccLow2 (flipBit (List.replicate 256 0xFF#8) 255 7) := by
  refine ⟨?_, ?_, ?_, ?_, rfl, rfl⟩ <;> decide +kernel

/-- Triples of an erased chunk and of the same chunk with two bits of one byte flipped. -/
def flippedTwice : State :=
  { dev with
    eccRd := eccTriple 0b11#2 (List.replicate 256 0xFF#8)
    eccCa := eccTriple 0b11#2 (flipBit (flipBit (List.replicate 256 0xFF#8) 0 0) 0 1) }

theorem witness_DoubleBitErrorIsDetected : flippedTwice.a0.toNat + 256 ≤ flippedTwice.par.maxPage ∧
    (List.replicate 256 (0xFF#8 : Byte)).length = 256 ∧ ((0, 0) : Nat × Nat) ≠ (0, 1) ∧
    flippedTwice.eccRd = eccTriple flippedTwice.par.eccLow2 (List.replicate 256 0xFF#8) ∧
    flippedTwice.eccCa =
      eccTriple flippedTwice.par.eccLow2 (flipBit (flipBit (List.replicate 256 0xFF#8) 0 0) 0 1) := by
  exact ⟨by decide, List.length_replicate, by decide, rfl, rfl⟩

/-- A stored triple that differs from the computed one in the highest bit of `ecc[2]`. -/
def damagedTriple : State := { dev with eccRd := ⟨0x56#8, 0xAA#8, 0xDB#8⟩, eccCa := ⟨0x56#8, 0xAA#8, 0x5B#8⟩ }

theorem witness_StoredTripleBitFlip : dev.eccRd = dev.eccCa ∧ dev.a0.toNat + 256 ≤ dev.par.maxPage ∧
    (damagedTriple.eccRd.c ++ damagedTriple.eccRd.b ++ damagedTriple.eccRd.a : BitVec 24) =
      (damagedTriple.eccCa.c ++ damagedTriple.eccCa.b ++ damagedTriple.eccCa.a : BitVec 24) ^^^ (1#24 <<< 23) := by
  decide

theorem witness_CrcWindow :
    ({ dev with a0 := 8191, a1 := 1 } : State).a0.toNat + ({ dev with a0 := 8191, a1 := 1 } : State).a1.toNat ≤ dev.par.maxPage ∧
      dev.par.maxPage < ({ dev with a0 := 8191, a1 := 2 } : State).a0.toNat + ({ dev with a0 := 8191, a1 := 2 } : State).a1.toNat := by
  decide

/-- A chip that never becomes ready. -/
def stuck : State := withChip dev fun c => { c with stuck := true }

theorem witness_Wait : dev.answers ∧ ¬ stuck.answers := by
  decide

theorem witness_HangNeverEnds : dev.busPort = none ∧ dev.hostIn = [] ∧
    ({ stuck with phase := .waitRdy } : State).phase = .waitRdy ∧
    ({ dev with phase := .stallLock, lock := true } : State).phase = .stallLock ∧
    ({ dev with phase := .stallLock, lock := true } : State).lock = true := by
  decide

theorem witness_Cmd : fresh.detected = false ∧ fresh.par.cmds.read 0x60#8 = .erase1 ∧ Cmd.erase1 ∉ byteCommands ∧
    fresh.par.cmds.read 0x70#8 = .status ∧ Cmd.status ∉ byteCommands ∧ ({ large with detected := false } : State).variant = .large ∧
    large.par.cmds.read 0x50#8 = .readoob ∧ dev.detected = true ∧ dev.answers ∧ Cmd.readoob ∈ waitingCommands ∧
    fresh.par.cmds.read 0x90#8 = .readid ∧ Cmd.readid ∈ byteCommands ∧ fresh.variant = .small ∧ Cmd.readid ∉ waitingCommands := by
  decide

/-- A ready chip with two bytes to drive, on a 16-bit bus. -/
def driving : State :=
  { withChip dev fun c => { c with dataOut := .bytes [0x34#8, 0x12#8] } with conf := { Conf.reset with bus16 := true } }

theorem witness_ReadCycles : ∃ ch, driving.bus.chip? = some ch ∧ ch.busy = false ∧ driving.conf.bus16 = true ∧
    ch.dataOut = .bytes (0x34#8 :: 0x12#8 :: []) :=
  ⟨{ chip with dataOut := .bytes [0x34#8, 0x12#8] }, by decide⟩

theorem witness_BufferTransfers : driving.memoryWf ∧
    ({ driving with a0 := 8190, a1 := 2 } : State).a0.toNat + ({ driving with a0 := 8190, a1 := 2 } : State).a1.toNat ≤ driving.par.maxPage ∧
    ({ driving with a1 := 2 } : State).a1.toNat % 2 = 0 ∧ ({ driving with a1 := 0 } : State).a1.toNat = 0 ∧
    driving.conf.readOnly = false := by
  decide

theorem witness_ResetIdAndStatus : dev.memoryWf ∧ dev.answers ∧ 1 ≤ ({ dev with a0 := 8184, a1 := 8 } : State).a1.toNat ∧
    ({ dev with a0 := 8184, a1 := 8 } : State).a0.toNat + ({ dev with a0 := 8184, a1 := 8 } : State).a1.toNat ≤ dev.par.maxPage := by
  decide

theorem witness_Features : dev.memoryWf ∧ dev.answers ∧ ({ dev with a0 := 8188 } : State).a0.toNat + 4 ≤ dev.par.maxPage ∧
    dev.par.maxPage < ({ dev with a0 := 8189 } : State).a0.toNat + 4 := by
  decide

theorem witness_BadBufferWindow : driving.conf.bus16 = true ∧ ({ driving with a1 := 1 } : State).a1.toNat % 2 = 1 ∧
    ({ dev with a1 := 0 } : State).a1.toNat = 0 ∧ 8 < ({ dev with a1 := 9 } : State).a1.toNat ∧ dev.conf.readOnly = false ∧
    dev.detected = true ∧ ({ dev.par with maxPage := 511 } : Params).maxPage < dev.geo.pageSize.toNat ∧
    ({ dev.par with maxOob := 15 } : Params).maxOob < dev.geo.oobSize.toNat ∧
    dev.par.maxOob ≤ ({ dev with bbmPos := 436 } : State).bbmPos.toNat ∧ dev.par.maxOob < ({ dev with a3 := 437 } : State).a3.toNat ∧
    ∃ x ∈ ({ dev with freeTab := [⟨430, 7⟩, .sentinel] } : State).oobPositions .auto 0 7, dev.par.maxOob ≤ x := by
  decide

/-- The device under `READ_ONLY`. -/
def protectedDev : State := { dev with conf := { Conf.reset with readOnly := true } }

theorem witness_Guards : fresh.detected = false ∧ (2#2 : BitVec 2) ≠ 3#2 ∧ fresh.conf.readOnly = false ∧
    protectedDev.conf.readOnly = true := by
  decide

theorem witness_ReadOnlyProtects : protectedDev.conf.readOnly = true ∧
    ∃ t, exec .pageMarkbad protectedDev = .next t :=
  ⟨rfl, (exists_of_ends (p := fun _ => true) (by decide)).imp fun _ h => h.1⟩

/-- A chip with the ONFI signature and the parameter page of vector V24 that the device-info table does not know. -/
def onfiChip : Chip :=
  { chip with
    idBytes := [0x98#8, 0xDA#8, 0x90#8, 0x15#8, 0x76#8, 0x14#8, 0#8, 0#8], sigBytes := [0x4F#8, 0x4E#8, 0x46#8, 0x49#8]
    paramBytes := page24, pageSize := 2048, oobSize := 64, pagesPerBlock := 64, rows := 65536 }

/-- That chip alone, selected. -/
def onfiDev : State := { fresh with bus := { fresh.bus with chips := [onfiChip], selected := some 0#8 } }

set_option maxRecDepth 20000 in
theorem crc_page24 : crcBytes 0x4F4E#16 (page24.take 254) = BitVec.ofNat 16 (le16 page24 254) := by
  decide +kernel

theorem witness_OnfiDetectAccepts : onfiDev.bus.chip? = some onfiChip ∧ onfiChip.stuck = false ∧ onfiChip.busy = false ∧
    onfiChip.sigBytes = [0x4F#8, 0x4E#8, 0x46#8, 0x49#8] ∧ onfiChip.paramBytes = page24 ++ [] ∧ page24.length = 256 ∧
    crcBytes 0x4F4E#16 (page24.take 254) = BitVec.ofNat 16 (le16 page24 254) ∧
    BitVec.ofNat 16 (le16 page24 4) &&& onfiDev.par.onfiRevMask ≠ 0#16 ∧ (le16 page24 6).testBit 0 = onfiDev.conf.bus16 := by
  refine ⟨rfl, rfl, rfl, rfl, by rw [List.append_nil]; rfl, by decide +kernel, crc_page24, ?_, ?_⟩ <;> decide +kernel

theorem witness_OnfiDetectRecords : onfiDev.answers := by
  decide

theorem witness_DetectFromTable : fresh.bus.chips = chip :: [chip] ∧ chip.stuck = false ∧ chip.idBytes.length = 8 ∧
    offers fresh chip [] .table (tableCandidate ⟨some 512, 1024, 2048, false⟩ 512) ∧
    geometryOk fresh.par fresh.conf.eccMode (tableCandidate ⟨some 512, 1024, 2048, false⟩ 512) = true ∧
    (tableCandidate ⟨some 512, 1024, 2048, false⟩ 512).bus16 = fresh.conf.bus16 ∧
    ¬ micronProbed fresh chip (tableCandidate ⟨some 512, 1024, 2048, false⟩ 512) ∧ fresh.par.maxChips < 256 ∧
    (tableCandidate ⟨some 512, 1024, 2048, false⟩ 512).chipSize * fresh.par.maxChips < fresh.par.sizeBound ∧
    fresh.bus.floatByte = some 0xFF#8 ∧ countedChips fresh 0xFF#8 chip.idBytes = 2 := by
  refine ⟨rfl, rfl, rfl, ⟨_, 512, rfl, rfl, rfl⟩, ?_⟩
  decide

theorem witness_DetectFromOnfi : onfiDev.bus.chips = onfiChip :: [] ∧ onfiChip.idBytes.length = 8 ∧
    offers onfiDev onfiChip page24 .onfi (onfiGeometry page24 onfiDev.conf.bus16) ∧
    ¬ micronProbed onfiDev onfiChip (onfiGeometry page24 onfiDev.conf.bus16) ∧
    (onfiGeometry page24 onfiDev.conf.bus16).chipSize * onfiDev.par.maxChips < onfiDev.par.sizeBound := by
  refine ⟨rfl, rfl, ⟨fun e he => ?_, ⟨rfl, by decide +kernel, ⟨[], by rw [List.append_nil]; rfl⟩, crc_page24, ?_, ?_⟩, rfl, ?_⟩, ?_⟩
  · rw [show devInfo onfiDev.par (onfiChip.idBytes.getD 1 0) = none by decide] at he; cases he
  all_goals decide +kernel

/-- A chip without ONFI page whose code the table knows but for the page size; ID byte 3 is 15H (43_detection.md R214). -/
def extChip : Chip := { onfiChip with sigBytes := [0#8, 0#8, 0#8, 0#8], paramBytes := [] }

/-- That chip alone. -/
def extDev : State :=
  { onfiDev with
    par := { onfiDev.par with devInfo := [(0xDA#8, ⟨none, 0, 268435456, false⟩)] }
    bus := { onfiDev.bus with chips := [extChip] } }

theorem witness_DetectFromExtId :
    offers extDev extChip [] .extId ⟨2048, 131072, 2048, 64, false⟩ ∧
    geometryOk extDev.par extDev.conf.eccMode ⟨2048, 131072, 2048, 64, false⟩ = true ∧
    ¬ micronProbed extDev extChip ⟨2048, 131072, 2048, 64, false⟩ := by
  refine ⟨⟨⟨by decide, by decide⟩, _, ⟨2048, 131072, 64, false⟩, rfl, rfl, ?_, ?_⟩, ?_, ?_⟩ <;> decide

/-- A large-page chip of the maker Micron, its features fixed or not. -/
def micronChip (fixed : Bool) : Chip :=
  { extChip with idBytes := [0x2C#8, 0xDA#8, 0#8, 0#8, 0#8, 0#8, 0#8, 0#8], featsFixed := fixed, feats := [(0x90#8, [0x08#8])] }

/-- That chip alone, its geometry in the table. -/
def micronDev : State :=
  { onfiDev with
    par := { onfiDev.par with devInfo := [(0xDA#8, ⟨some 2048, 131072, 268435456, false⟩)] }
    bus := { onfiDev.bus with chips := [micronChip true] } }

theorem witness_DetectMicron :
    offers micronDev (micronChip true) [] .table ⟨2048, 131072, 2048, 64, false⟩ ∧
    micronProbed micronDev (micronChip true) ⟨2048, 131072, 2048, 64, false⟩ ∧
    (((micronChip true).feats.find? fun p => p.1 == micronDev.par.micronFeatAddr) = some (micronDev.par.micronFeatAddr, [0x08#8])) ∧
    (0x08#8 &&& micronDev.par.micronEccBit != 0#8) ≠ micronDev.conf.micronEccWant ∧
    (micronChip false).featsFixed = false ∧ micronDev.par.micronEccBit ≠ 0#8 := by
  refine ⟨⟨_, 2048, rfl, rfl, rfl⟩, ?_⟩
  decide

theorem witness_DetectFails :
    offersNone { fresh with par := { fresh.par with devInfo := [] } } chip ∧
    geometryOk fresh.par fresh.conf.eccMode (tableCandidate ⟨some 500, 1000, 2000, false⟩ 500) = false ∧
    (tableCandidate ⟨some 512, 1024, 2048, true⟩ 512).bus16 ≠ fresh.conf.bus16 := by
  refine ⟨⟨⟨by decide, by decide⟩, .inl rfl⟩, by decide, by decide⟩

theorem witness_NextState : (∃ t, exec .detect fresh = .next t) ∧ ∃ t, exec (.partIsvalid 0#4) marked = .next t :=
  ⟨(exists_of_ends (p := fun _ => true) (by decide)).imp fun _ h => h.1,
    (exists_of_ends (p := fun _ => true) (by decide)).imp fun _ h => h.1⟩

theorem witness_PageReady : dev.memoryWf ∧ dev.pageReady ∧ dev.softEcc .auto ∧ dev.eccReady ∧ dev.conf.readOnly = false ∧
    dev.markerFits = true ∧ ¬ dev.softEcc .raw := by
  decide

theorem witness_PageOnChip : dev.bus.selected = some 0#8 ∧ dev.bus.chip? = some chip ∧ chip.matches dev ∧
    ({ dev with a0 := 3 } : State).a0.toNat < chip.rows ∧ chip.progFails.fails 3 = false ∧ chip.eraseFails.fails 3 = false := by
  decide

theorem witness_OobRequests : dev.memoryWf ∧ dev.detected = true ∧ dev.oobFits = true ∧
    dev.requestFits .auto 5 3 = true ∧ dev.requestFits .raw 4 12 = true ∧
    tableBytes dev.freeTab = 8 ∧ ({ dev with a2 := 5, a3 := 3 } : State).a2.toNat + ({ dev with a2 := 5, a3 := 3 } : State).a3.toNat ≤ 8 ∧
    8 < ({ dev with a2 := 5, a3 := 4 } : State).a2.toNat + ({ dev with a2 := 5, a3 := 4 } : State).a3.toNat ∧
    65536 ≤ ({ dev with a2 := 0x10000 } : State).a2.toNat ∧
    tablesWellFormed dev.freeTab dev.eccTab dev.geo.oobSize.toNat = true := by
  decide

theorem witness_Blocks : dev.memoryWf ∧ dev.blockReady ∧ ({ dev with a0 := 0xC00 } : State).isBlock 0xC00 ∧
    ({ dev with a0 := 0xC00 } : State).answersAt 0xC00 ∧ ¬ dev.isBlock 0x1000 ∧ ¬ dev.isBlock 0x200 ∧
    dev.conf.readOnly = false := by
  decide

theorem witness_MarkedBlockIsBad : dev.memoryWf ∧ dev.geometryInv ∧
    dev.bbmPos.toNat < dev.geo.oobSize.toNat ∧ (dev.select dev.a0.toNat).bus.chip? = some chip ∧ chip.matches dev ∧
    chip.rows = dev.geo.blocksPerChip.toNat * dev.geo.pagesPerBlock.toNat ∧ (∀ r, chip.progFails.fails r = false) ∧
    ∃ t u, exec .devMarkbad dev = .next t ∧ t.status = .success ∧ t.phase = .idle ∧ exec .devIsvalid t = .next u := by
  refine ⟨by decide, by decide, by decide, by decide, by decide, by decide,
    fun r => by simp [Oracle.fails, chip], ?_⟩
  obtain ⟨t, ht, hp⟩ := exists_of_ends (o := exec .devMarkbad dev)
    (p := fun t => decide (t.status = .success) && decide (t.phase = .idle) && ends (exec .devIsvalid t) fun _ => true) (by decide)
  simp only [Bool.and_eq_true, decide_eq_true_eq] at hp
  obtain ⟨u, hu, _⟩ := exists_of_ends hp.2
  exact ⟨t, u, ht, hp.1.1, hp.1.2, hu⟩

theorem witness_Lock : dev.lock = false ∧ ({ dev with lock := true } : State).lock = true ∧
    ({ dev with phase := .stallLock, cw := 0x70#32 } : State).busPort = none ∧
    ({ dev with phase := .stallLock, cw := 0x70#32 } : State).lock = false ∧
    decode (.request 0x70#32) = .ok .lockObtain := by
  decide

theorem witness_Create : dev.detected = true ∧ dev.part 5#4 = none ∧ dev.pt.length ≤ (8#4 : BitVec 4).toNat ∧
    dev.part 1#4 = some ⟨true, 0x400, 0x800⟩ ∧
    (0x800#65 : Size).toNat < ({ dev with a0 := 0x400, a1 := 0x800 } : State).a0.toNat + ({ dev with a0 := 0x400, a1 := 0x800 } : State).a1.toNat ∧
    ({ dev with a0 := 0x200 } : State).a0.toNat &&& dev.geo.blockMask.toNat ≠ 0 ∧ (7#4 : BitVec 4).toNat < dev.pt.length ∧
    ({ dev with a0 := 0x400, a1 := 0x400 } : State).a0.toNat + ({ dev with a0 := 0x400, a1 := 0x400 } : State).a1.toNat ≤ (0x800#65 : Size).toNat ∧
    ({ dev with a0 := 0x400, a1 := 0x400 } : State).a0.toNat &&& dev.geo.blockMask.toNat = 0 ∧
    0x400 + ({ dev with a0 := 0x400 } : State).a0.toNat < dev.par.addrBound := by
  decide

theorem witness_ZeroSize : dev.detected = true ∧ dev.part 2#4 = some ⟨true, 0x800, 0x400⟩ ∧ dev.a1 = 0 ∧ dev.a3 = 0 ∧
    ({ dev with a0 := 0x400 } : State).a0.toNat ≤ (0x400#65 : Size).toNat ∧ ({ dev with a2 := 8 } : State).oobReqOk .auto 8 0 = true ∧
    (0x400#65 : Size).toNat < ({ dev with a0 := 0x401 } : State).a0.toNat := by
  decide

/-- The last page of partition 2. -/
def lastPage : State := { dev with a0 := 0x200, a1 := 0x200, a3 := 8 }

theorem witness_PartTransfers : lastPage.memoryWf ∧ lastPage.detected = true ∧ lastPage.pageFits = true ∧
    lastPage.oobTransferFits .auto = true ∧
    lastPage.part 2#4 = some ⟨true, 0x800, 0x400⟩ ∧ lastPage.a1 = lastPage.geo.pageSize ∧ lastPage.a1 ≠ 0 ∧
    lastPage.a0.toNat + lastPage.a1.toNat ≤ (0x400#65 : Size).toNat ∧ lastPage.conf.capRead = true ∧
    lastPage.conf.capWrite = true ∧ lastPage.conf.capOob = true ∧ lastPage.conf.nandClass = true ∧
    lastPage.a0.toNat &&& lastPage.geo.pageMask.toNat = 0 ∧ lastPage.conf.readOnly = false ∧ lastPage.lock = false ∧
    lastPage.softEcc .auto ∧ lastPage.eccReady ∧ lastPage.oobReqOk .auto lastPage.a2 lastPage.a3 = true ∧
    tablesWellFormed lastPage.freeTab lastPage.eccTab lastPage.geo.oobSize.toNat = true ∧ lastPage.answersAt 0xA00 := by
  decide

/-- The OOB area of that page alone, in RAW mode. -/
def lastOob : State := { dev with a0 := 0x200, a2 := 4, a3 := 12 }

theorem witness_PartOobOnly : lastOob.memoryWf ∧ lastOob.oobTransferFits .raw = true ∧ lastOob.part 2#4 = some ⟨true, 0x800, 0x400⟩ ∧ lastOob.a1 = 0 ∧
    lastOob.geo.pageSize ≠ 0 ∧ lastOob.a0.toNat < (0x400#65 : Size).toNat ∧ lastOob.a3 ≠ 0 ∧
    lastOob.oobReqOk .raw lastOob.a2 lastOob.a3 = true ∧ lastOob.a0.toNat &&& lastOob.geo.pageMask.toNat = 0 ∧
    lastOob.lock = false ∧ lastOob.answersAt 0xA00 := by
  decide

/-- The last block of the device, through partition 0. -/
def lastBlock : State := { dev with a0 := 0xC00 }

theorem witness_PartBlocks : lastBlock.memoryWf ∧ lastBlock.blockReady ∧ lastBlock.part 0#4 = some ⟨true, 0, 4096⟩ ∧
    lastBlock.a0.toNat + lastBlock.geo.blockSize.toNat ≤ (4096#65 : Size).toNat ∧ lastBlock.conf.capErase = true ∧
    lastBlock.conf.capIsValid = true ∧ lastBlock.conf.capMarkBad = true ∧ lastBlock.conf.nandClass = true ∧
    lastBlock.a0.toNat &&& lastBlock.geo.blockMask.toNat = 0 ∧ lastBlock.conf.readOnly = false ∧ lastBlock.lock = false ∧
    lastBlock.isBlock 0xC00 ∧ lastBlock.answersAt 0xC00 ∧
    ({ lastBlock with conf := { Conf.reset with caps := 0b110111#6 } } : State).conf.capIsValid = false := by
  decide

theorem witness_Eraseall : dev.memoryWf ∧ dev.blockReady ∧ dev.part 1#4 = some ⟨true, 0x400, 0x800⟩ ∧ dev.conf.capErase = true ∧
    dev.conf.nandClass = true ∧ dev.conf.readOnly = false ∧ dev.lock = false ∧ (∀ ch ∈ dev.bus.chips, ch.stuck = false) ∧
    dev.bus.floatReady = true ∧ eraseModeOf 0#2 = some .normal ∧ eraseModeOf 1#2 = some .force ∧
    eraseModeOf 2#2 = some .markBadOnError ∧ (0x800 + dev.geo.blockSize.toNat - 1) / dev.geo.blockSize.toNat = 2 ∧
    (∀ j, j < 2 → dev.isBlock (0x400 + j * dev.geo.blockSize.toNat)) ∧
    ({ Conf.reset with caps := 0b110111#6 } : Conf).capIsValid = false := by
  decide

theorem witness_PartOperationsReleaseTheLock :
    (∃ t, exec (.partIsvalid 0#4) marked = .next t ∧ t.phase = .idle) ∧ marked.lock = false ∧
      ∃ t, exec (.partRead 0#4) { lastPage with lock := true } = .next t := by
  refine ⟨?_, rfl, ⟨_, rfl⟩⟩
  obtain ⟨t, ht, hp⟩ := exists_of_ends (o := exec (.partIsvalid 0#4) marked) (p := fun t => decide (t.phase = .idle)) (by decide)
  exact ⟨t, ht, of_decide_eq_true hp⟩

/-- Partition 2 is one block; a page read at its last page. -/
def lastRead : State := { dev with a0 := 0x200, a1 := 0x200 }

/-- Each refusal of the read and write family, at the boundary where there is one. -/
theorem witness_PartValidationReadWrite :
    ([({ lastRead with detected := false }, .noDevice), ({ lastRead with pt := [] }, .invalidAddress),
      ({ lastRead with a1 := 0x100 }, .invalidAddress), ({ lastRead with a0 := 0x201 }, .invalidAddress),
      ({ lastRead with a1 := 0 }, .success), ({ lastRead with conf := { Conf.reset with nandClass := false } }, .opNotSupported),
      ({ lastRead with a0 := 0x100 }, .invalidAddress), ({ lastRead with conf := { Conf.reset with readOnly := true } }, .readOnly),
      ({ lastRead with par := { dev.par with maxPage := 511 } }, .invalidAddress)] : List (State × Status)).all (fun x =>
        firstRefusal (rwSteps x.1 2#4 none true true) == some x.2) = true ∧
      firstRefusal (rwSteps lastRead 2#4 none false false) = some .opNotSupported ∧
      firstRefusal (rwSteps lastRead 2#4 none true true) = none := by
  decide

theorem witness_PartValidationOob :
    ([({ lastOob with a3 := 13 }, .invalidAddress), ({ lastOob with a3 := 0x10000 }, .invalidAddress),
      ({ lastOob with a3 := 0 }, .success), ({ lastOob with conf := { Conf.reset with caps := 0b011111#6 } }, .opNotSupported),
      ({ lastOob with a0 := 0x400 }, .invalidAddress),
      ({ lastOob with par := { dev.par with maxOob := 15 } }, .invalidAddress)] : List (State × Status)).all (fun x =>
        firstRefusal (rwSteps x.1 2#4 (some .raw) true true) == some x.2) = true ∧
      firstRefusal (rwSteps { lastOob with a2 := 0, a3 := 7, freeTab := [⟨430, 7⟩, .sentinel] } 2#4 (some .auto) true true) =
        some .invalidAddress := by
  decide

theorem witness_PartValidationBlocks :
    ([({ dev with detected := false }, .noDevice), ({ dev with pt := [] }, .invalidAddress), ({ dev with a0 := 1 }, .invalidAddress),
      ({ dev with conf := { Conf.reset with nandClass := false } }, .opNotSupported),
      ({ dev with conf := { Conf.reset with readOnly := true } }, .readOnly), ({ dev with bbmPos := 436 }, .invalidAddress)] :
      List (State × Status)).all (fun x => firstRefusal (blockSteps x.1 2#4 true true true) == some x.2) = true ∧
      firstRefusal (blockSteps { dev with a0 := 0xBFF } 0#4 true true true) = some .invalidAddress ∧
      firstRefusal (blockSteps dev 2#4 false true true) = some .opNotSupported := by
  decide

theorem witness_PartValidationEraseall : eraseModeOf 2#2 = some .markBadOnError ∧
    ([({ dev with detected := false }, .noDevice), ({ dev with pt := [] }, .invalidAddress),
      ({ dev with conf := { Conf.reset with nandClass := false } }, .opNotSupported),
      ({ dev with conf := { Conf.reset with caps := 0b111011#6 } }, .opNotSupported),
      ({ dev with conf := { Conf.reset with readOnly := true } }, .readOnly), ({ dev with bbmPos := 436 }, .invalidAddress)] :
      List (State × Status)).all (fun x => firstRefusal (eraseallSteps x.1 2#4 true) == some x.2) = true := by
  decide

theorem witness_CommandByte : ∃ t, exec .cmdSeqin dev = .next t ∧ ∃ ch, t.bus.chip? = some ch ∧ ch.cmd = some .seqin :=
  ⟨_, rfl, _, rfl, rfl⟩

theorem witness_Invariants : dev.memoryWf ∧ 16 ≤ dev.par.addrW.val ∧ dev.deviceInv ∧
    ∃ t, step { dev with hostIn := [.writeDbuf 8191 [0#8]] } = .next t := by
  exact ⟨by decide, by decide, by decide, _, rfl⟩

end Sys2Proof.Tests
end

section
/-! PROOFS. The reset event `RST` (10_state.md R49). -/

namespace Sys2Proof.Machine

/-- Resetting a machine that is already in the reset state changes nothing, so `State.reset` is itself the outcome of a
reset event and whatever holds after every such event holds of it. -/
theorem State.rst_reset : State.reset.rst = State.reset := rfl

@[simp] theorem State.rst_bus (s : State) : s.rst.bus = s.bus := rfl

theorem State.valid_of_mem_rst_pt {s : State} {p : PartEntry} (h : p ∈ s.rst.pt) : p.valid = false := by
  have hp : p = ⟨false, 0, 0⟩ := List.eq_of_mem_replicate h
  rw [hp]

/-- The event `RST` is neither refused nor faulted in any phase; it always ends in `State.rst`. -/
@[simp] theorem hostAct_reset_eq_next {s t : State} : hostAct .reset s = .next t ↔ t = s.rst := by
  simp only [hostAct, Host.Outcome.next.injEq, eq_comm]

/-- The two states that the reset table speaks of are one kind: a state that `RST` gives. -/
theorem exists_eq_rst {s : State} (h : s = State.reset ∨ ∃ s0, hostAct .reset s0 = .next s) : ∃ s0 : State, s = s0.rst := by
  rcases h with hreset | ⟨s0, hact⟩
  · exact ⟨State.reset, hreset.trans State.rst_reset.symm⟩
  · exact ⟨s0, hostAct_reset_eq_next.1 hact⟩

/-- Settles O6: the state after reset is a fixed point of `RST`, so the table is read off `State.rst` once. The registers
do not depend on the state before; the partition entries, whose number does, are all invalid. -/
theorem resetGivesTheStatedValues : Obligations.ResetGivesTheStatedValues := by
  unfold Obligations.ResetGivesTheStatedValues
  refine ⟨fun s hs => ?_, fun s t hact => ?_⟩
  · obtain ⟨s0, rfl⟩ := exists_eq_rst hs
    exact ⟨rfl, rfl, rfl, rfl, rfl, rfl, rfl, rfl, rfl, rfl, rfl, rfl, rfl, rfl, rfl, rfl, rfl, rfl, rfl, rfl, rfl, rfl,
      rfl, rfl, fun _ => State.valid_of_mem_rst_pt⟩
  · rw [hostAct_reset_eq_next.1 hact, State.rst_bus]

end Sys2Proof.Machine
end

section
/-! PROOFS. The legal command words (30_encoding.md R92, R93, R96): each opcode-map row selects words by the `match` and
`mask` of its format, and the decoder accepts a word exactly when a row selects it and its `MODE` is not reserved. -/

namespace Sys2Proof

open Machine

/-! ## Masks, field by field -/

/-- Bitwise and of two command words, field by field. -/
def Fields.and (f g : Fields) : Fields where
  opc := f.opc &&& g.opc
  mode := f.mode &&& g.mode
  colV := f.colV && g.colV
  rbV := f.rbV && g.rbV
  zero := f.zero &&& g.zero
  imm8 := f.imm8 &&& g.imm8
  pidx := f.pidx &&& g.pidx
  pdst := f.pdst &&& g.pdst

@[simp] theorem fieldsOfWord_and (v w : BitVec 32) : fieldsOfWord (v &&& w) = (fieldsOfWord v).and (fieldsOfWord w) := by
  simp [fieldsOfWord, Fields.and, BitVec.extractLsb'_and]

/-- A word is determined by its fields. -/
theorem fieldsOfWord_injective : Function.Injective fieldsOfWord :=
  Function.LeftInverse.injective wordOfFields_fieldsOfWord

/-- The bits of `MODE` that a format fixes to 0 by its mask; the reserved value 3 is excluded apart from it (R93). -/
def Format.modeMask : Format → BitVec 2
  | .m | .pm => 2#2
  | .t | .pe => 0#2
  | .z | .i | .n | .p | .c => 3#2

/-- Does the format reserve the `MODE` value 3 that its mask lets through? (R93) -/
def Format.reservesMode : Format → Bool
  | .t | .pe => true
  | .z | .i | .m | .n | .p | .pm | .c => false

/-- The mask over a field: every bit when the field must be 0, none when the format reads it. -/
def fieldMask (n : Nat) (read : Bool) : BitVec n := if read then 0#n else BitVec.allOnes n

theorem and_fieldMask_eq_zero_iff {n : Nat} (x : BitVec n) (read : Bool) :
    x &&& fieldMask n read = 0#n ↔ read = true ∨ x = 0#n := by
  cases read <;> simp [fieldMask]

/-- The mask of a format: all of `OPC` and of `CW[15:12]`, and every field that the format does not read. -/
def Format.maskFields (fmt : Format) : Fields where
  opc := BitVec.allOnes 8
  mode := fmt.modeMask
  colV := !fmt.hasValid
  rbV := !fmt.hasValid
  zero := BitVec.allOnes 4
  imm8 := fieldMask 8 fmt.hasImm
  pidx := fieldMask 4 fmt.hasPidx
  pdst := fieldMask 4 fmt.hasPdst

/-- `match` and `mask` of a row of the opcode map. -/
def RequestRow.maskRow (r : RequestRow) : MaskRow where
  value := wordOfFields (fieldsZ r.opc)
  mask := wordOfFields r.fmt.maskFields

/-- The masked rows of spec/opcode_table.json are those of the opcode map. -/
theorem maskRows_eq_map_requestTable : List.append maskRowsLow maskRowsHigh = requestTable.map RequestRow.maskRow := by
  decide

theorem Format.modeOk_iff (fmt : Format) (mode : BitVec 2) :
    fmt.modeOk mode = true ↔ mode &&& fmt.modeMask = 0#2 ∧ ¬ (fmt.reservesMode = true ∧ mode = 3#2) := by
  cases fmt <;> revert mode <;> decide

/-- A format's mask leaves exactly the bits that R96 wants 0. -/
theorem and_maskFields_eq_fieldsZ_iff (fmt : Format) (f : Fields) (opc : Byte) :
    f.and fmt.maskFields = fieldsZ opc ↔
      f.zero = 0#4 ∧ opc = f.opc ∧ fmt.unusedZero f = true ∧ f.mode &&& fmt.modeMask = 0#2 := by
  simp only [Fields.and, Format.maskFields, fieldsZ, Fields.mk.injEq, BitVec.and_allOnes, BitVec.ofNat_eq_ofNat,
    and_fieldMask_eq_zero_iff, Format.unusedZero, Bool.and_eq_true, Bool.or_eq_true, beq_iff_eq]
  grind

/-- A row's mask selects a word when the row has its opcode and every field that the row does not read is 0. -/
theorem RequestRow.maskRow_selects_iff (r : RequestRow) (cw : BitVec 32) :
    cw &&& r.maskRow.mask = r.maskRow.value ↔
      (fieldsOfWord cw).zero = 0#4 ∧ r.opc = (fieldsOfWord cw).opc ∧ r.fmt.unusedZero (fieldsOfWord cw) = true ∧
        (fieldsOfWord cw).mode &&& r.fmt.modeMask = 0#2 := by
  rw [← and_maskFields_eq_fieldsZ_iff, ← fieldsOfWord_injective.eq_iff, fieldsOfWord_and]
  simp only [RequestRow.maskRow, fieldsOfWord_wordOfFields]

/-! ## The decoder's choice of a row -/

theorem requestTable_opc_nodup : (requestTable.map RequestRow.opc).Nodup := by decide

/-- The rows with a reserved `MODE` value are NAND.CTRL, PART.ERASE and PART.ERASEALL (R93). -/
theorem reservesMode_iff_opc : ∀ r ∈ requestTable, r.fmt.reservesMode = true ↔ r.opc ∈ [0x21#8, 0x77#8, 0x78#8] := by
  decide

/-- No two rows have the same opcode, so the search finds the row with the word's opcode. -/
theorem requestTable_find?_eq_some_iff {opc : Byte} {r : RequestRow} :
    requestTable.find? (fun r => r.opc == opc) = some r ↔ r ∈ requestTable ∧ r.opc = opc := by
  constructor
  · intro h
    exact ⟨List.mem_of_find?_eq_some h, by simpa using List.find?_some h⟩
  · rintro ⟨hmem, hopc⟩
    have hfound : (requestTable.find? (fun r => r.opc == opc)).isSome := by
      simpa using ⟨r, hmem, hopc⟩
    obtain ⟨r', hr'⟩ := Option.isSome_iff_exists.1 hfound
    have hopc' : r'.opc = opc := by simpa using List.find?_some hr'
    rw [hr', List.inj_on_of_nodup_map requestTable_opc_nodup (List.mem_of_find?_eq_some hr') hmem (hopc'.trans hopc.symm)]

/-- What the decoder accepts: the row with the word's opcode, when its checks hold. -/
theorem decodeFields_eq_ok_iff {f : Fields} {i : Instr} :
    decodeFields f = .ok i ↔ f.zero = 0#4 ∧ ∃ r ∈ requestTable, r.opc = f.opc ∧ r.fmt.unusedZero f = true ∧
      r.fmt.modeOk f.mode = true ∧ r.build f = i := by
  by_cases hzero : f.zero = 0#4
  case neg => simp [decodeFields, hzero]
  cases hfind : requestTable.find? (fun r => r.opc == f.opc) with
  | none =>
    have hno : ∀ r ∈ requestTable, r.opc ≠ f.opc := by simpa using hfind
    simp only [decodeFields, hzero, hfind]
    simpa using fun r hr hopc => absurd hopc (hno r hr)
  | some r =>
    have hrow : ∀ r', (r' ∈ requestTable ∧ r'.opc = f.opc) ↔ r' = r := fun r' => by
      rw [← requestTable_find?_eq_some_iff, hfind, Option.some.injEq, eq_comm]
    have hsplit : decodeFields f = .ok i ↔
        r.fmt.unusedZero f = true ∧ r.fmt.modeOk f.mode = true ∧ r.build f = i := by
      simp only [decodeFields, hzero, hfind]
      cases r.fmt.unusedZero f <;> cases r.fmt.modeOk f.mode <;> simp
    simp only [hsplit, hzero, true_and, ← and_assoc (a := _ ∈ requestTable), hrow, exists_eq_left]

/-! ## Legal words -/

/-- R96: the decoder rejects exactly the illegal words. -/
theorem exists_decode_request_eq_ok_iff (cw : BitVec 32) : (∃ i, decode (.request cw) = .ok i) ↔ ¬ illegalWord cw := by
  have hreserved : ∀ r ∈ requestTable, r.opc = (fieldsOfWord cw).opc →
      ((r.fmt.reservesMode = true ∧ (fieldsOfWord cw).mode = 3#2) ↔
        (cw.extractLsb' 0 8 ∈ [0x21#8, 0x77#8, 0x78#8] ∧ cw.extractLsb' 8 2 = 3#2)) := by
    intro r hr hopc
    rw [reservesMode_iff_opc r hr, hopc]
    rfl
  have hlegal : ¬ illegalWord cw ↔ (∃ r ∈ requestTable, cw &&& r.maskRow.mask = r.maskRow.value) ∧
      ¬ (cw.extractLsb' 0 8 ∈ [0x21#8, 0x77#8, 0x78#8] ∧ cw.extractLsb' 8 2 = 3#2) := by
    rw [illegalWord, maskRows_eq_map_requestTable, not_or, List.forall_mem_map]
    push Not
    rfl
  rw [hlegal]
  constructor
  · rintro ⟨i, hi⟩
    obtain ⟨hzero, r, hr, hopc, hunused, hmode, -⟩ := decodeFields_eq_ok_iff.1 hi
    obtain ⟨hmask, hnot⟩ := (r.fmt.modeOk_iff _).1 hmode
    exact ⟨⟨r, hr, (r.maskRow_selects_iff cw).2 ⟨hzero, hopc, hunused, hmask⟩⟩, (hreserved r hr hopc).not.1 hnot⟩
  · rintro ⟨⟨r, hr, hsel⟩, hnot⟩
    obtain ⟨hzero, hopc, hunused, hmask⟩ := (r.maskRow_selects_iff cw).1 hsel
    have hmode := (r.fmt.modeOk_iff _).2 ⟨hmask, (hreserved r hr hopc).not.2 hnot⟩
    exact ⟨_, decodeFields_eq_ok_iff.2 ⟨hzero, r, hr, hopc, hunused, hmode, rfl⟩⟩

namespace Machine

/-- With nothing on the bus port, a started machine steps by running the request in `CW` (R91). -/
theorem step_eq_runRequest {s : State} (hport : s.busPort = none) (hrun : s.phase = .run) : step s = runRequest s := by
  simp only [step, hport, phaseStep, hrun]

theorem runRequest_of_illegalWord {s : State} (hill : illegalWord s.cw) :
    runRequest s = .next (s.endOp .opNotSupported) := by
  have hnone : ¬ ∃ i, decode (.request s.cw) = .ok i := fun h => (exists_decode_request_eq_ok_iff s.cw).1 h hill
  cases hdec : decode (.request s.cw) with
  | ok i => exact absurd ⟨i, hdec⟩ hnone
  | error e => simp only [runRequest, hdec, illegalRequest]

/-- Settles O5: an illegal word is one the decoder rejects, for which the step only ends the operation. -/
theorem illegalRequestOnlyWritesStatus : Obligations.IllegalRequestOnlyWritesStatus := by
  unfold Obligations.IllegalRequestOnlyWritesStatus
  intro s hport hrun
  refine ⟨fun hill => ?_, (exists_decode_request_eq_ok_iff s.cw).2⟩
  rw [step_eq_runRequest hport hrun, runRequest_of_illegalWord hill, State.endOp]

end Machine

end Sys2Proof
end

section
/-! PROOFS. ECC.POPCNT reads its answer off a table (10_state.md R42, 40_ecc.md R135). -/

namespace Sys2Proof

/-! ## Words with an immediate -/

/-- A word that has nothing but an opcode and an immediate, cut into its fields (30_encoding.md R90). -/
theorem fieldsOfWord_immWord (opc b : Byte) :
    fieldsOfWord (0x00#8 ++ b ++ (0x00#8 ++ opc)) = { fieldsZ opc with imm8 := b } := by
  have hword : (0x00#8 ++ b ++ (0x00#8 ++ opc) : BitVec 32) = wordOfFields { fieldsZ opc with imm8 := b } := by
    apply BitVec.eq_of_getLsbD_eq
    intro i hi
    simp only [wordOfFields, fieldsZ, BitVec.getLsbD_append]
    interval_cases i <;> simp
  rw [hword, fieldsOfWord_wordOfFields]

/-- A row of format I accepts its opcode with every immediate (30_encoding.md R92). -/
theorem decode_immWord {r : RequestRow} (hr : r ∈ requestTable) (hfmt : r.fmt = .i) (b : Byte) :
    decode (.request (0x00#8 ++ b ++ (0x00#8 ++ r.opc))) = .ok (r.build { fieldsZ r.opc with imm8 := b }) := by
  rw [decode, fieldsOfWord_immWord]
  exact decodeFields_eq_ok_iff.2 ⟨rfl, r, hr, rfl, by rw [hfmt]; rfl, by rw [hfmt]; rfl, rfl⟩

namespace Machine

/-! ## The popcount table -/

@[simp] theorem popcountTable_length (n : Nat) : (popcountTable n).length = 2 ^ n := by
  induction n with
  | zero => rfl
  | succ n ih => rw [popcountTable, List.length_append, List.length_map, ih]; omega

/-- The entry of `k` is the number of 1 bits of `k`: the upper half of the table, where bit `n` is 1, is the lower half
plus one. -/
theorem popcountTable_getD {n k : Nat} (hk : k < 2 ^ n) :
    (popcountTable n).getD k 0 = ((List.range n).filter k.testBit).length := by
  induction n generalizing k with
  | zero =>
    obtain rfl : k = 0 := by omega
    rfl
  | succ n ih =>
    rw [popcountTable, List.range_succ, List.filter_append, List.length_append]
    by_cases hlow : k < 2 ^ n
    · rw [List.getD_append _ _ _ _ (by simpa using hlow), ih hlow]
      simp [Nat.testBit_lt_two_pow hlow]
    · obtain ⟨j, rfl⟩ := Nat.exists_eq_add_of_le (Nat.le_of_not_lt hlow)
      have hj : j < 2 ^ n := by omega
      have hbits : (List.range n).filter (2 ^ n + j).testBit = (List.range n).filter j.testBit :=
        List.filter_congr fun i hi => Nat.testBit_two_pow_add_gt (List.mem_range.1 hi) j
      have htop : (2 ^ n + j).testBit n = true := by
        rw [Nat.testBit_two_pow_add_eq, Nat.testBit_lt_two_pow hj]; rfl
      rw [List.getD_append_right _ _ _ _ (by simp), popcountTable_length, Nat.add_sub_cancel_left, hbits, ← ih hj]
      simp [htop, List.getD_eq_getElem?_getD, hj]

/-- R42: the table's entries are the naive bit counts. -/
theorem popcnt_eq_popcount8 (b : Byte) : popcnt b = popcount8 b := popcountTable_getD b.isLt

/-- Settles O12: the word decodes by its format, and the table it reads holds the naive bit count. -/
theorem popcntReadsTheBitCount : Obligations.PopcntReadsTheBitCount := by
  unfold Obligations.PopcntReadsTheBitCount
  intro s b
  have hrow : (⟨0x03#8, .i, fun f => .eccPopcnt f.imm8⟩ : RequestRow) ∈ requestTable := by
    simp [requestTable, requestRowsEcc]
  refine ⟨decode_immWord hrow rfl b, ?_⟩
  rw [← popcnt_eq_popcount8]
  rfl

end Machine

end Sys2Proof
end

section
/-! PROOFS. ECC.CORRECT decides by the weight of the syndrome (40_ecc.md R133). -/

namespace Sys2Proof.Machine

/-- The weight of a syndrome by the naive bit count. -/
theorem synWeight_eq_popcount8 (x : Triple) : synWeight x = popcount8 x.a + popcount8 x.b + popcount8 x.c := by
  simp only [synWeight, popcnt_eq_popcount8]

/-! ## The chunk, weight by weight -/

section
variable {s : State} (off : Nat)

theorem correctChunk_of_weight_zero (h : synWeight (syndrome s.eccRd s.eccCa) = 0) :
    correctChunk s off = (.success, s) := if_pos h

theorem correctChunk_of_weight_eleven (h : synWeight (syndrome s.eccRd s.eccCa) = 11) :
    correctChunk s off = (.eccFixed,
      s.setDbuf (s.dbuf.write (off + synErrorByte (syndrome s.eccRd s.eccCa))
        (s.dbuf.read (off + synErrorByte (syndrome s.eccRd s.eccCa)) ^^^
          (1#8 <<< synErrorBit (syndrome s.eccRd s.eccCa))))) := by
  simp only [correctChunk, h, OfNat.ofNat_ne_zero, if_true, if_false]

theorem correctChunk_of_weight_one (h : synWeight (syndrome s.eccRd s.eccCa) = 1) :
    correctChunk s off = (.eccFixed, s) := by
  simp [correctChunk, h]

theorem correctChunk_of_weight_other (h0 : synWeight (syndrome s.eccRd s.eccCa) ≠ 0)
    (h1 : synWeight (syndrome s.eccRd s.eccCa) ≠ 1) (h11 : synWeight (syndrome s.eccRd s.eccCa) ≠ 11) :
    correctChunk s off = (.eccUncorrectable, s) := by
  simp only [correctChunk, h0, h1, h11, if_false]

/-- ECC.CORRECT changes no register and no buffer but `DBUF`. -/
theorem correctChunk_frame (hwf : s.dbuf.wf) :
    (correctChunk s off).2 = s.setDbuf (correctChunk s off).2.dbuf := by
  obtain ⟨d, heq, -⟩ := correctChunk_spec hwf off
  rw [heq, State.setDbuf_dbuf]

end

/-! ## The instruction -/

/-- D9: a chunk that does not fit `DBUF` is refused. -/
theorem exec_eccCorrect_of_outside {s : State} (h : s.par.maxPage < s.a0.toNat + 256) :
    exec .eccCorrect s = .next (s.endOp .invalidAddress) :=
  if_neg (by simpa [State.dbufFits] using h)

/-- A chunk inside `DBUF` is corrected, and the verdict ends the operation. -/
theorem exec_eccCorrect_of_inside {s : State} (h : s.a0.toNat + 256 ≤ s.par.maxPage) :
    exec .eccCorrect s = .next ((correctChunk s s.a0.toNat).2.endOp (correctChunk s s.a0.toNat).1) :=
  if_pos (decide_eq_true h)

/-- Settles O8: inside the window the outcome is that of `correctChunk`, which has one equation for each weight that R133
tells apart. -/
theorem eccCorrectFollowsTheSyndromeWeight : Obligations.EccCorrectFollowsTheSyndromeWeight := by
  unfold Obligations.EccCorrectFollowsTheSyndromeWeight
  refine ⟨rfl, fun s hout => exec_eccCorrect_of_outside hout, fun s hwf hin => ?_⟩
  obtain ⟨hdbuf, -⟩ := hwf
  refine ⟨_, exec_eccCorrect_of_inside hin, ?frame, ?weights⟩
  case frame =>
    rw [correctChunk_frame _ hdbuf]
    rfl
  case weights =>
    intro s0 s1 s2 ones row byte bit
    have hones : ones = synWeight (syndrome s.eccRd s.eccCa) := (synWeight_eq_popcount8 (syndrome s.eccRd s.eccCa)).symm
    rw [hones]
    refine ⟨fun h0 => ?_, fun h11 => ?_, fun h1 => ?_, fun h0 h1 h11 => ?_⟩
    · rw [correctChunk_of_weight_zero _ h0]
      exact ⟨rfl, rfl⟩
    · rw [correctChunk_of_weight_eleven _ h11]
      exact ⟨rfl, Memory.read_write_same hdbuf _ _, fun a ha => Memory.read_write_ne _ _ _ _ ha⟩
    · rw [correctChunk_of_weight_one _ h1]
      exact ⟨rfl, rfl⟩
    · rw [correctChunk_of_weight_other _ h0 h1 h11]
      exact ⟨rfl, rfl⟩

end Sys2Proof.Machine
end

section
/-! PROOFS. The byte-wise CRC of U-CRC is the bit-serial one (41_crc_onfi.md R150 to R152). -/

namespace Sys2Proof.Machine

/-! ## Shifts of the CRC register and single bits -/

/-- The idea of the byte-wise CRC: a word XORed into the register beforehand acts through its highest bit alone, and the
rest of it stays XORed in, one place higher. -/
theorem crcShift_xor (c w : BitVec 16) : crcShift (c ^^^ w) = serialCrc c (w.getMsbD 0) ^^^ (w <<< 1) := by
  have htop : w.getMsbD 0 = w.getLsbD 15 := rfl
  rw [crcShift, serialCrc, BitVec.getLsbD_xor, htop, BitVec.shiftLeft_xor_distrib]
  split
  · ac_rfl
  · rfl

/-- `n` shifts feed the `n` highest bits of the word to the bit-serial CRC. -/
theorem crcShifts_xor (n : Nat) (c w : BitVec 16) :
    crcShifts n (c ^^^ w) = ((List.range n).map w.getMsbD).foldl serialCrc c ^^^ (w <<< n) := by
  induction n generalizing c w with
  | zero => simp [crcShifts]
  | succ n ih =>
    have hbits : (List.range n).map (w <<< 1).getMsbD = (List.range n).map (w.getMsbD ∘ Nat.succ) :=
      List.map_congr_left fun i _ => BitVec.getMsbD_shiftLeft w 1
    rw [crcShifts, crcShift_xor, ih, hbits, List.range_succ_eq_map, List.map_cons, List.foldl_cons, List.map_map,
      ← BitVec.shiftLeft_add, Nat.add_comm 1 n]

/-! ## Bytes -/

/-- The byte that `crcByte` XORs in stands in the upper half of its word. -/
theorem getMsbD_setWidth_shiftLeft_eight (b : Byte) {i : Nat} (hi : i < 8) :
    (b.setWidth 16 <<< 8).getMsbD i = b.getLsbD (7 - i) := by
  rw [BitVec.getMsbD_shiftLeft, BitVec.getMsbD_setWidth]
  simp [BitVec.getMsbD, hi]

/-- Eight shifts push the whole byte out. -/
theorem setWidth_shiftLeft_eight_shiftLeft_eight (b : Byte) : (b.setWidth 16 <<< 8) <<< 8 = 0#16 := by
  rw [← BitVec.shiftLeft_add]
  exact BitVec.shiftLeft_eq_zero (by decide)

/-- One byte is its eight bits, most significant first. -/
theorem crcByte_eq_foldl_serialCrc (c : BitVec 16) (b : Byte) :
    crcByte c b = ((List.range 8).map fun i => b.getLsbD (7 - i)).foldl serialCrc c := by
  have hbits : (List.range 8).map (b.setWidth 16 <<< 8).getMsbD = (List.range 8).map fun i => b.getLsbD (7 - i) :=
    List.map_congr_left fun i hi => getMsbD_setWidth_shiftLeft_eight b (List.mem_range.1 hi)
  rw [crcByte, crcShifts_xor, hbits, setWidth_shiftLeft_eight_shiftLeft_eight, BitVec.xor_zero]

/-- R151: the byte-wise CRC of a string is the bit-serial CRC of its bits. -/
theorem crcBytes_eq_foldl_serialCrc (c : BitVec 16) (l : List Byte) :
    crcBytes c l = (bitsMsbFirst l).foldl serialCrc c := by
  induction l generalizing c with
  | nil => rfl
  | cons b l ih =>
    have hbits : bitsMsbFirst (b :: l) = ((List.range 8).map fun i => b.getLsbD (7 - i)) ++ bitsMsbFirst l := rfl
    rw [hbits, List.foldl_append, ← crcByte_eq_foldl_serialCrc, ← ih]
    rfl

/-! ## CRC16 -/

/-- D9: a string that does not fit `DBUF` is refused. -/
theorem exec_crc16_of_outside {s : State} (h : s.par.maxPage < s.a0.toNat + s.a1.toNat) :
    exec .crc16 s = .next (s.endOp .invalidAddress) :=
  if_neg (by simpa [State.dbufFits] using h)

/-- The CRC of a string inside `DBUF` goes to the CRC registers. -/
theorem exec_crc16_of_inside {s : State} (h : s.a0.toNat + s.a1.toNat ≤ s.par.maxPage) :
    exec .crc16 s =
      .next ((s.setCrc (crcBytes crcSeed (s.dbuf.readBytes s.a0.toNat s.a1.toNat))).endOp .success) :=
  if_pos (decide_eq_true h)

/-- Settles O13: inside the window the CRC registers take the byte-wise CRC, which is the bit-serial one. -/
theorem crcIsTheBitSerialCrc : Obligations.CrcIsTheBitSerialCrc := by
  unfold Obligations.CrcIsTheBitSerialCrc
  refine ⟨rfl, fun s hout => exec_crc16_of_outside hout, fun s hin => ?_⟩
  rw [exec_crc16_of_inside hin, crcBytes_eq_foldl_serialCrc]
  rfl

/-! ## ONFI.CHECK -/

/-- Two bytes make a number of 16 bits. -/
theorem le16_lt (b : List Byte) (o : Nat) : le16 b o < 2 ^ 16 := by
  have hlow := (b.getD o 0).isLt
  have hhigh := (b.getD (o + 1) 0).isLt
  rw [le16]
  omega

/-- A CRC meets a trailer as words exactly when it does as numbers: the trailer loses nothing in the register's width. -/
theorem eq_ofNat_le16_iff (c : BitVec 16) (b : List Byte) (o : Nat) :
    c = BitVec.ofNat 16 (le16 b o) ↔ c.toNat = le16 b o := by
  rw [← BitVec.toNat_inj, BitVec.toNat_ofNat, Nat.mod_eq_of_lt (le16_lt b o)]

/-- The check leaves the bit-serial CRC in the CRC registers, and its verdict compares that CRC with the trailer. -/
theorem onfiCheck_eq (s : State) :
    onfiCheck s =
      (if ((bitsMsbFirst (s.onfi.take 254)).foldl serialCrc crcSeed).toNat = le16 s.onfi 254 then .success else .onfiCrc,
        s.setCrc ((bitsMsbFirst (s.onfi.take 254)).foldl serialCrc crcSeed)) := by
  simp only [onfiCheck, crcBytes_eq_foldl_serialCrc, eq_ofNat_le16_iff]

/-- Settles O14: the sub-operation compares the CRC with the trailer, and the instruction ends with its verdict. -/
theorem onfiCheckComparesTheTrailer : Obligations.OnfiCheckComparesTheTrailer := by
  unfold Obligations.OnfiCheckComparesTheTrailer
  refine ⟨rfl, fun s => ?_⟩
  have hexec : exec .onfiCheck s = .next ((onfiCheck s).2.endOp (onfiCheck s).1) := rfl
  rw [hexec, onfiCheck_eq]
  rfl

end Sys2Proof.Machine
end

section
/-! PROOFS. The chip-select and control primitives of U-NAND (42_nand_protocol.md R170, R171). -/

namespace Sys2Proof

/-! ## Words of format T -/

/-- What the decoder answers for a word whose opcode is in the map: the row's checks decide (30_encoding.md R96). -/
theorem decodeFields_of_row {f : Fields} {r : RequestRow} (hzero : f.zero = 0#4) (hr : r ∈ requestTable)
    (hopc : r.opc = f.opc) :
    decodeFields f =
      if r.fmt.unusedZero f = false then .error .unusedField
      else if r.fmt.modeOk f.mode = false then .error .reservedMode
      else .ok (r.build f) := by
  simp only [decodeFields, hzero, requestTable_find?_eq_some_iff.2 ⟨hr, hopc⟩, ne_eq, not_true_eq_false, if_false,
    Bool.not_eq_true']

/-- A word that has nothing but an opcode, a `MODE` and an immediate, cut into its fields (30_encoding.md R90). -/
theorem fieldsOfWord_modeWord (opc b : Byte) (m : BitVec 2) :
    fieldsOfWord (0x00#8 ++ b ++ 0#6 ++ m ++ opc) = { fieldsZ opc with imm8 := b, mode := m } := by
  have hword : (0x00#8 ++ b ++ 0#6 ++ m ++ opc : BitVec 32) =
      wordOfFields { fieldsZ opc with imm8 := b, mode := m } := by
    apply BitVec.eq_of_getLsbD_eq
    intro i hi
    simp only [wordOfFields, fieldsZ, BitVec.getLsbD_append]
    interval_cases i <;> simp
  rw [hword, fieldsOfWord_wordOfFields]

/-- A row of format T accepts its opcode with every immediate, unless `MODE` has the reserved value 3
(30_encoding.md R92, R93). -/
theorem decode_modeWord {r : RequestRow} (hr : r ∈ requestTable) (hfmt : r.fmt = .t) (b : Byte) (m : BitVec 2) :
    decode (.request (0x00#8 ++ b ++ 0#6 ++ m ++ r.opc)) =
      if m = 3#2 then .error .reservedMode else .ok (r.build { fieldsZ r.opc with imm8 := b, mode := m }) := by
  have hunused : Format.t.unusedZero { fieldsZ r.opc with imm8 := b, mode := m } = true := rfl
  have hmode : Format.t.modeOk m = false ↔ m = 3#2 := bne_eq_false_iff_eq
  rw [decode, fieldsOfWord_modeWord, decodeFields_of_row rfl hr rfl, hfmt, hunused]
  simp only [hmode, Bool.true_eq_false, if_false]

namespace Machine

/-! ## NAND.SELECT -/

/-- Settles O15: the operation is `selectChip` of the low byte of `A0`, ended with SUCCESS; neither reads
`CHIP_COUNT`. -/
theorem selectDrivesTheChipSelect : Obligations.SelectDrivesTheChipSelect := by
  unfold Obligations.SelectDrivesTheChipSelect
  refine ⟨rfl, fun s => ?_⟩
  have hexec : exec .nandSelect s = .next ((s.selectChip (s.a0.setWidth 8)).endOp .success) := rfl
  rw [hexec, State.endOp, State.selectChip]
  rfl

/-! ## NAND.CTRL -/

/-- A control event with which the chip latches no confirm command. -/
def BusEvent.controlsQuietly (t : CmdBytes) : BusEvent → Bool
  | .cle d => quietCmd (t.read d)
  | _ => true

/-- The event that `MODE` names is the one that the bus emits, and only a confirm command can change a flash array. -/
theorem Bus.ran_control {d : Byte} {m : BitVec 2} {e : BusEvent} (he : ctrlEvent d m = some e) (t : CmdBytes) (b : Bus) :
    Bus.Ran (e.controlsQuietly t) [e] b (b.control t e) := by
  unfold ctrlEvent at he
  split_ifs at he with hnone hcle hale <;> cases he
  · exact Bus.ran_idleLatch b
  · have hran := Bus.ran_cle t b (t.read d)
    rwa [byte_read] at hran
  · exact Bus.ran_ale b d

/-- NAND.CTRL with a legal `MODE` emits its event and ends with SUCCESS. -/
theorem exec_nandCtrl_of_event {d : Byte} {m : BitVec 2} {e : BusEvent} (he : ctrlEvent d m = some e) (s : State) :
    ∃ t, exec (.nandCtrl d m) s = .next t ∧ emits s t [e] ∧
      (e.controlsQuietly s.par.cmds = true → sameFlash s t) ∧
      t = { s with bus := t.bus, status := .success, phase := .idle } := by
  have hran := Bus.ran_control he s.par.cmds s.bus
  have hexec : exec (.nandCtrl d m) s = .next ((s.setBus (s.bus.control s.par.cmds e)).endOp .success) := by
    have harm : exec (.nandCtrl d m) s = execNandCtrl d m s := rfl
    rw [harm, execNandCtrl, he]
  exact ⟨_, hexec, hran.trace, fun hq => sameFlash_of_ran rfl (hran.weaken fun _ => hq), rfl⟩

/-- The reserved `MODE` of NAND.CTRL names no event and is refused (30_encoding.md R96). -/
theorem exec_nandCtrl_of_no_event {d : Byte} {m : BitVec 2} (he : ctrlEvent d m = none) (s : State) :
    exec (.nandCtrl d m) s = .next (s.endOp .opNotSupported) := by
  have harm : exec (.nandCtrl d m) s = execNandCtrl d m s := rfl
  rw [harm, execNandCtrl, he, illegalRequest]

/-- The words of NAND.CTRL (30_encoding.md R93, R95). -/
theorem decode_nandCtrl (d : Byte) (m : BitVec 2) :
    decode (.request (0x00#8 ++ d ++ 0#6 ++ m ++ 0x21#8)) =
      if m = 3#2 then .error .reservedMode else .ok (.nandCtrl d m) := by
  have hrow : (⟨0x21#8, .t, fun f => .nandCtrl f.imm8 f.mode⟩ : RequestRow) ∈ requestTable := by
    simp [requestTable, requestRowsNand]
  exact decode_modeWord hrow rfl d m

/-- Settles O16: each `MODE` is one value of `ctrlEvent`; what NAND.CTRL does follows from the event, and the confirm
commands are the only events that are not quiet. -/
theorem ctrlEmitsOneControlEvent : Obligations.CtrlEmitsOneControlEvent := by
  unfold Obligations.CtrlEmitsOneControlEvent
  refine ⟨decode_nandCtrl, fun s d => ⟨?idle, ?cle, ?ale, exec_nandCtrl_of_no_event rfl s⟩⟩
  case idle =>
    obtain ⟨t, hexec, hemits, hflash, hframe⟩ := exec_nandCtrl_of_event (d := d) (m := 0#2) rfl s
    exact ⟨t, hexec, hemits, hflash rfl, hframe⟩
  case cle =>
    obtain ⟨t, hexec, hemits, hflash, hframe⟩ := exec_nandCtrl_of_event (d := d) (m := 1#2) rfl s
    exact ⟨t, hexec, hemits, fun hprogram herase => hflash (quietCmd_of_ne hprogram herase), hframe⟩
  case ale =>
    obtain ⟨t, hexec, hemits, hflash, hframe⟩ := exec_nandCtrl_of_event (d := d) (m := 2#2) rfl s
    exact ⟨t, hexec, hemits, hflash rfl, hframe⟩

end Machine

end Sys2Proof
end

section
/-! PROOFS. The encoder and the decoder are inverse to each other (30_encoding.md sections 1.1 to 1.3 and 2.2). -/

namespace Sys2Proof

/-! ## What a row of the opcode map reads -/

/-- The fields that a format reads, with the row's opcode and 0 everywhere else; of an OOB `MODE` only bit 0 is read
(30_encoding.md R92, R93). -/
def Format.readFields (fmt : Format) (opc : Byte) (f : Fields) : Fields where
  opc := opc
  mode :=
    match fmt with
    | .m | .pm => modeOfOob (oobModeOf f.mode)
    | .t | .pe => f.mode
    | .z | .i | .n | .p | .c => 0#2
  colV := fmt.hasValid && f.colV
  rbV := fmt.hasValid && f.rbV
  zero := 0#4
  imm8 := if fmt.hasImm then f.imm8 else 0#8
  pidx := if fmt.hasPidx then f.pidx else 0#4
  pdst := if fmt.hasPdst then f.pdst else 0#4

theorem modeOfOob_oobModeOf (mode : BitVec 2) : (!mode.getLsbD 1) = true → modeOfOob (oobModeOf mode) = mode := by
  revert mode; decide

theorem oobModeOf_modeOfOob (m : OobMode) : oobModeOf (modeOfOob m) = m := by cases m <;> rfl

theorem modeOfOob_accepted (m : OobMode) : (!(modeOfOob m).getLsbD 1) = true := by cases m <;> rfl

/-- Fields that a row accepts hold nothing but what the row reads. -/
theorem Format.readFields_of_accepted {fmt : Format} {f : Fields} (hzero : f.zero = 0#4)
    (hunused : fmt.unusedZero f = true) (hmode : fmt.modeOk f.mode = true) : fmt.readFields f.opc f = f := by
  have hm : (fmt.readFields f.opc f).mode = f.mode := by
    cases fmt
    case m | pm => exact modeOfOob_oobModeOf _ hmode
    case t | pe => rfl
    all_goals exact (beq_iff_eq.1 hmode).symm
  obtain ⟨opc, mode, colV, rbV, zero, imm8, pidx, pdst⟩ := f
  simp only [Format.unusedZero, Bool.and_eq_true, Bool.or_eq_true, Bool.not_eq_true', beq_iff_eq] at hunused
  obtain ⟨⟨⟨himm, hvalid⟩, hpidx⟩, hpdst⟩ := hunused
  simp only [Format.readFields, Fields.mk.injEq, true_and] at hm ⊢
  refine ⟨hm, ?_, ?_, hzero.symm, ?_, ?_, ?_⟩
  · rcases hvalid with h | h <;> simp [h]
  · rcases hvalid with h | h <;> simp [h]
  · rcases himm with h | h <;> simp [h]
  · rcases hpidx with h | h <;> simp [h]
  · rcases hpdst with h | h <;> simp [h]

/-- The instruction of a row is encoded as the fields that the row reads. -/
theorem encode_build : ∀ r ∈ requestTable, ∀ f, encode (r.build f) = .request (wordOfFields (r.fmt.readFields r.opc f)) := by
  simp only [requestTable, requestRowsEcc, requestRowsNand, requestRowsPage, requestRowsPart, List.append_eq,
    List.forall_mem_append, List.forall_mem_cons, List.not_mem_nil, false_implies, implies_true, and_true]
  repeat' apply And.intro
  all_goals exact fun _ => rfl

/-- The instruction of a row is well formed when the row accepts its `MODE`. -/
theorem wellFormed_build : ∀ r ∈ requestTable, ∀ f, r.fmt.modeOk f.mode = true → (r.build f).wellFormed = true := by
  simp only [requestTable, requestRowsEcc, requestRowsNand, requestRowsPage, requestRowsPart, List.append_eq,
    List.forall_mem_append, List.forall_mem_cons, List.not_mem_nil, false_implies, implies_true, and_true]
  repeat' apply And.intro
  all_goals first | exact fun _ _ => rfl | exact fun _ h => h

/-- A bus byte is decoded to the instruction of its row, and the rows are those of the encoder. -/
theorem encode_of_mem_busTable : ∀ r ∈ busTable, encode r.2 = .bus r.1 ∧ r.2.wellFormed = true := by decide

/-- Settles O2: what the decoder accepts holds only what its row reads, and that is what the encoder writes. -/
theorem decodeThenEncodeReturnsCode : Obligations.DecodeThenEncodeReturnsCode := by
  unfold Obligations.DecodeThenEncodeReturnsCode
  intro c i hdec
  cases c with
  | request cw =>
    obtain ⟨hzero, r, hr, hopc, hunused, hmode, rfl⟩ := decodeFields_eq_ok_iff.1 hdec
    refine ⟨?_, wellFormed_build r hr _ hmode⟩
    rw [encode_build r hr, hopc, Format.readFields_of_accepted hzero hunused hmode, wordOfFields_fieldsOfWord]
  | bus b =>
    cases hfind : busTable.find? (fun r => r.1 == b) with
    | none => simp [decode, hfind] at hdec
    | some r =>
      obtain ⟨henc, hwf⟩ := encode_of_mem_busTable r (List.mem_of_find?_eq_some hfind)
      have hb : r.1 = b := by simpa using List.find?_some hfind
      have hi : r.2 = i := by simpa [decode, hfind] using hdec
      rw [← hb, ← hi]
      exact ⟨henc, hwf⟩

/-! ## Decoding what was encoded -/

/-- An instruction whose fields the decoder accepts is what its command word decodes to. -/
theorem decode_encode_of_fields {i : Instr} {f : Fields} (henc : encode i = .request (wordOfFields f))
    (hdec : decodeFields f = .ok i) : decode (encode i) = .ok i := by
  rw [henc, decode, fieldsOfWord_wordOfFields, hdec]

/-- A row of the opcode map accepts its opcode when the fields pass its checks (30_encoding.md R96). -/
theorem decodeFields_of_accepted {r : RequestRow} (hr : r ∈ requestTable) {f : Fields} (hopc : r.opc = f.opc)
    (hzero : f.zero = 0#4) (hunused : r.fmt.unusedZero f = true) (hmode : r.fmt.modeOk f.mode = true) :
    decodeFields f = .ok (r.build f) :=
  decodeFields_eq_ok_iff.2 ⟨hzero, r, hr, hopc, hunused, hmode, rfl⟩

theorem partRow_mem {r : RequestRow} (h : r ∈ requestRowsPart) : r ∈ requestTable := by simp [requestTable, h]

/-- Settles O1: every instruction is encoded into fields that its row accepts; only a `MODE` of two bits needs the
well-formedness. -/
theorem encodeThenDecodeReturnsInstruction : Obligations.EncodeThenDecodeReturnsInstruction := by
  unfold Obligations.EncodeThenDecodeReturnsInstruction
  intro i hwf
  cases i
  case nandCtrl d m =>
    exact decode_encode_of_fields rfl (decodeFields_of_accepted (r := ⟨0x21#8, .t, fun f => .nandCtrl f.imm8 f.mode⟩)
      (by simp [requestTable, requestRowsNand]) rfl rfl rfl hwf)
  case partErase p m =>
    exact decode_encode_of_fields rfl (decodeFields_of_accepted (r := ⟨0x77#8, .pe, fun f => .partErase f.pidx f.mode⟩)
      (partRow_mem (by simp [requestRowsPart])) rfl rfl rfl hwf)
  case partEraseall p m =>
    exact decode_encode_of_fields rfl (decodeFields_of_accepted
      (r := ⟨0x78#8, .pe, fun f => .partEraseall f.pidx f.mode⟩) (partRow_mem (by simp [requestRowsPart])) rfl rfl rfl hwf)
  case partReadoob p m =>
    have hrow := partRow_mem (r := ⟨0x75#8, .pm, fun f => .partReadoob f.pidx (oobModeOf f.mode)⟩)
      (by simp [requestRowsPart])
    exact decode_encode_of_fields rfl ((decodeFields_of_accepted hrow
      (f := { fieldsZ 0x75 with pidx := p, mode := modeOfOob m }) rfl rfl rfl (modeOfOob_accepted m)).trans
      (congrArg (fun m => Except.ok (Instr.partReadoob p m)) (oobModeOf_modeOfOob m)))
  case partWriteoob p m =>
    have hrow := partRow_mem (r := ⟨0x76#8, .pm, fun f => .partWriteoob f.pidx (oobModeOf f.mode)⟩)
      (by simp [requestRowsPart])
    exact decode_encode_of_fields rfl ((decodeFields_of_accepted hrow
      (f := { fieldsZ 0x76 with pidx := p, mode := modeOfOob m }) rfl rfl rfl (modeOfOob_accepted m)).trans
      (congrArg (fun m => Except.ok (Instr.partWriteoob p m)) (oobModeOf_modeOfOob m)))
  case pageRead m | pageWrite m | oobCopy m | oobFill m => cases m <;> exact decode_encode_of_fields rfl rfl
  case cmdRead0 | cmdRead1 | cmdPageprog | cmdReadstart | cmdReadoob | cmdErase1 | cmdStatus | cmdSeqin | cmdReadid |
      cmdErase2 | cmdParam | cmdGetfeat | cmdSetfeat | cmdReset => rfl
  all_goals exact decode_encode_of_fields rfl rfl

/-- Settles O3: the decoder evaluates on the written-out codes. -/
theorem writtenOutWordsDecode : Obligations.WrittenOutWordsDecode := by
  unfold Obligations.WrittenOutWordsDecode
  exact ⟨rfl, rfl, rfl, rfl, rfl, rfl, rfl, rfl, rfl, rfl, rfl, rfl⟩

end Sys2Proof
end

section
/-! PROOFS. The parities of U-ECC and what ECC.CORRECT makes of flipped bits (40_ecc.md R131, R136 to R138). -/

namespace Sys2Proof.Machine

/-! ## XOR over a range -/

theorem xorAll_succ (n : Nat) (f : Nat → Bool) : xorAll (n + 1) f = (xorAll n f ^^ f n) := by
  rw [xorAll, List.range_succ, List.foldl_append]
  rfl

theorem xorAll_congr {n : Nat} {f g : Nat → Bool} (h : ∀ i, i < n → f i = g i) : xorAll n f = xorAll n g := by
  induction n with
  | zero => rfl
  | succ n ih => rw [xorAll_succ, xorAll_succ, ih fun i hi => h i (by omega), h n (by omega)]

theorem xorAll_false (n : Nat) : (xorAll n fun _ => false) = false := by
  induction n with
  | zero => rfl
  | succ n ih => rw [xorAll_succ, ih]; rfl

/-- The parity of a byte is the XOR of its bits. -/
theorem parity8_eq_xorAll (b : Byte) : parity8 b = xorAll 8 fun k => b.getLsbD k := by
  simp only [parity8, xorAll, List.range_succ, List.range_zero, List.foldl_append, List.foldl_cons, List.foldl_nil,
    List.nil_append, Bool.false_bne, Bool.bne_assoc]

/-! ## The accumulators as parities -/

/-- A chunk is fed from its last byte too. -/
theorem EccAcc.feedAll_append (acc : EccAcc) (i : Nat) (l : List Byte) (d : Byte) :
    acc.feedAll i (l ++ [d]) = (acc.feedAll i l).feed (i + l.length) d := by
  induction l generalizing acc i with
  | nil => rfl
  | cons v l ih => rw [List.cons_append, EccAcc.feedAll, ih, EccAcc.feedAll, List.length_cons, Nat.add_right_comm,
      Nat.add_assoc]

/-- The idea of R131: a parity of the accumulators that every byte changes by a bit of its own is, after a chunk, the XOR
of these bits. -/
theorem EccAcc.parity_feedAll {p : EccAcc → Bool} {c : Nat → Byte → Bool}
    (h : ∀ acc i d, acc.rp.length = 8 → p (acc.feed i d) = (p acc ^^ c i d)) {acc : EccAcc} (ha : acc.rp.length = 8)
    (l : List Byte) : p (acc.feedAll 0 l) = (p acc ^^ xorAll l.length fun i => c i (l.getD i 0)) := by
  induction l using List.reverseRecOn with
  | nil => simp [EccAcc.feedAll, xorAll]
  | append_singleton l d ih =>
    have hbefore : (xorAll l.length fun i => c i ((l ++ [d]).getD i 0)) = xorAll l.length fun i => c i (l.getD i 0) :=
      xorAll_congr fun i hi => by rw [List.getD_append _ _ _ _ hi]
    have hlast : (l ++ [d]).getD l.length 0 = d := by simp
    rw [EccAcc.feedAll_append, h _ _ _ (by rw [EccAcc.length_feedAll, ha]), ih, List.length_append,
      List.length_singleton, xorAll_succ, hbefore, hlast, Nat.zero_add, Bool.xor_assoc]

/-- The parity of the bucket `RP[j][v]`. -/
def EccAcc.rowParity (j : Nat) (v : Bool) (acc : EccAcc) : Bool :=
  parity8 (if v then (acc.rp.getD j (0, 0)).2 else (acc.rp.getD j (0, 0)).1)

/-- A byte goes into the bucket that bit `j` of its index names. -/
theorem EccAcc.rowParity_feed {j : Nat} (hj : j < 8) (v : Bool) (acc : EccAcc) (i : Nat) (d : Byte)
    (ha : acc.rp.length = 8) :
    (acc.feed i d).rowParity j v = (acc.rowParity j v ^^ ((i.testBit j == v) && parity8 d)) := by
  have hfeed := EccAcc.feed_getElem? acc i d j
  rw [List.getElem?_eq_getElem (by omega : j < acc.rp.length), Option.map_some] at hfeed
  have hold : acc.rp.getD j (0, 0) = acc.rp[j] := by simp [List.getD_eq_getElem?_getD, ha, hj]
  have hnew : (acc.feed i d).rp.getD j (0, 0) =
      if i.testBit j then (acc.rp[j].1, acc.rp[j].2 ^^^ d) else (acc.rp[j].1 ^^^ d, acc.rp[j].2) := by
    rw [List.getD_eq_getElem?_getD, hfeed, Option.getD_some]
  simp only [EccAcc.rowParity, hold, hnew]
  cases i.testBit j <;> cases v <;> simp [parity8_xor]

/-- Every byte enters the accumulator `T` of the column parities. -/
theorem EccAcc.columnParity_feed (mask : Byte) (acc : EccAcc) (i : Nat) (d : Byte) :
    parity8 ((acc.feed i d).t &&& mask) = (parity8 (acc.t &&& mask) ^^ parity8 (d &&& mask)) := by
  have hdist : (acc.t ^^^ d) &&& mask = (acc.t &&& mask) ^^^ (d &&& mask) := by
    apply BitVec.eq_of_getLsbD_eq
    intro k _
    simp only [BitVec.getLsbD_and, BitVec.getLsbD_xor, Bool.and_xor_distrib_right]
  rw [← parity8_xor, ← hdist]
  rfl

/-! ## The bits of the triple -/

theorem testBit_natOfBits (l : List Bool) (i : Nat) : (natOfBits l).testBit i = l.getD i false := by
  induction l generalizing i with
  | nil => simp [natOfBits]
  | cons b l ih =>
    have hbit : natOfBits (b :: l) = Nat.bit b (natOfBits l) := by
      rw [natOfBits]; cases b <;> simp [Nat.bit, Nat.add_comm]
    rw [hbit]
    cases i with
    | zero => simp
    | succ i => rw [Nat.testBit_bit_succ, ih]; rfl

theorem getD_flatMap_pair {α : Type} (f g : α → Bool) (l : List α) (j v : Nat) (hv : v < 2) :
    (l.flatMap fun p => [f p, g p]).getD (2 * j + v) false = (l[j]?.map fun p => if v = 1 then g p else f p).getD false := by
  induction l generalizing j with
  | nil => simp
  | cons p l ih =>
    cases j with
    | zero => obtain rfl | rfl : v = 0 ∨ v = 1 := by omega
              all_goals rfl
    | succ j =>
      have hidx : 2 * (j + 1) + v = 2 * j + v + 1 + 1 := by omega
      rw [hidx]
      exact ih j

/-- Bit `2j + v` of the row word is the parity of the bucket `RP[j][v]`. -/
theorem EccAcc.getLsbD_rowWord {acc : EccAcc} (ha : acc.rp.length = 8) {j v : Nat} (hj : j < 8) (hv : v < 2) :
    acc.rowWord.getLsbD (2 * j + v) = acc.rowParity j (v == 1) := by
  have hlt : 2 * j + v < 16 := by omega
  have hbit := getD_flatMap_pair (fun p : Byte × Byte => parity8 p.1) (fun p => parity8 p.2) acc.rp j v hv
  have hget : acc.rp.getD j (0, 0) = acc.rp[j] := by simp [List.getD_eq_getElem?_getD, ha, hj]
  rw [EccAcc.rowWord, BitVec.getLsbD_ofNat, testBit_natOfBits, decide_eq_true hlt, Bool.true_and, hbit,
    List.getElem?_eq_getElem (by omega), EccAcc.rowParity, hget]
  obtain rfl | rfl : v = 0 ∨ v = 1 := by omega
  all_goals rfl

/-- The row half of a triple is the row word complemented. -/
theorem EccAcc.getLsbD_triple_row (acc : EccAcc) (low2 : BitVec 2) {i : Nat} (hi : i < 16) :
    ((acc.triple low2).b ++ (acc.triple low2).a).getLsbD i = !acc.rowWord.getLsbD i := by
  simp only [EccAcc.triple, BitVec.getLsbD_append, BitVec.getLsbD_not, BitVec.getLsbD_extractLsb']
  by_cases h : i < 8
  · simp [h]
  · simp [h, show i - 8 < 8 by omega, show 8 + (i - 8) = i by omega]

/-- The mask of the bit positions whose bit `m` is `v`. -/
def columnMask : Nat → Bool → Byte
  | 0, false => 0x55
  | 0, true => 0xAA
  | 1, false => 0x33
  | 1, true => 0xCC
  | _, false => 0x0F
  | _, true => 0xF0

/-- The column half of a triple holds the column parities complemented. -/
theorem EccAcc.getLsbD_triple_column (acc : EccAcc) (low2 : BitVec 2) {m v : Nat} (hm : m < 3) (hv : v < 2) :
    (acc.triple low2).c.getLsbD (2 * m + 2 + v) = !parity8 (acc.t &&& columnMask m (v == 1)) := by
  have hlow : ¬ 2 * m + 2 + v < 2 := by omega
  have hc : (acc.triple low2).c.getLsbD (2 * m + 2 + v) = !acc.columnWord.getLsbD (2 * m + 2 + v) := by
    simp only [EccAcc.triple, BitVec.getLsbD_append, hlow, if_false, BitVec.getLsbD_extractLsb', BitVec.getLsbD_not,
      show 2 * m + 2 + v - 2 < 6 by omega, show 2 + (2 * m + 2 + v - 2) = 2 * m + 2 + v by omega,
      show 2 * m + 2 + v < 8 by omega, decide_true, Bool.true_and]
  rw [hc, EccAcc.columnWord, BitVec.getLsbD_ofNat, testBit_natOfBits]
  obtain rfl | rfl | rfl : m = 0 ∨ m = 1 ∨ m = 2 := by omega
  all_goals obtain rfl | rfl : v = 0 ∨ v = 1 := by omega
  all_goals rfl

theorem EccAcc.triple_low (acc : EccAcc) (low2 : BitVec 2) : (acc.triple low2).c.extractLsb' 0 2 = low2 := by
  apply BitVec.eq_of_getLsbD_eq
  intro i hi
  simp only [EccAcc.triple, BitVec.getLsbD_extractLsb', BitVec.getLsbD_append, Nat.zero_add, hi, decide_true, if_true,
    Bool.true_and]

/-- The parity under a column mask is the XOR of the bits at its positions. -/
theorem parity8_columnMask (d : Byte) {m v : Nat} (hm : m < 3) (hv : v < 2) :
    parity8 (d &&& columnMask m (v == 1)) = xorAll 8 fun k => (k.testBit m == (v == 1)) && d.getLsbD k := by
  have hmask : ∀ m, m < 3 → ∀ v, v < 2 → ∀ k, k < 8 →
      (columnMask m (v == 1)).getLsbD k = (k.testBit m == (v == 1)) := by decide
  rw [parity8_eq_xorAll]
  exact xorAll_congr fun k hk => by rw [BitVec.getLsbD_and, hmask m hm v hv k hk, Bool.and_comm]

/-! ## ECC.CALC -/

section
variable (s : State) (off : Nat)

/-- The accumulators after the chunk at `off`. -/
abbrev State.chunkAcc : EccAcc := EccAcc.zero.feedAll 0 (s.chunk off)

theorem length_chunkAcc : (s.chunkAcc off).rp.length = 8 := EccAcc.length_feedAll _ _ _

theorem chunk_getD {i : Nat} (hi : i < 256) : (s.chunk off).getD i 0 = s.dbuf.read (off + i) :=
  Memory.readBytes_getD _ _ _ _ hi

/-- A bucket's parity after the chunk at `off`: the bytes whose index has bit `j` equal to `v`. -/
theorem rowParity_chunkAcc {j : Nat} (hj : j < 8) (v : Bool) :
    (s.chunkAcc off).rowParity j v =
      xorAll 256 fun i => (i.testBit j == v) && xorAll 8 fun k => (s.dbuf.read (off + i)).getLsbD k := by
  have hzero : EccAcc.zero.rowParity j v = false := by revert v hj; revert j; decide
  rw [EccAcc.parity_feedAll (EccAcc.rowParity_feed hj v) rfl, hzero, Bool.false_xor, State.chunk, Memory.length_readBytes]
  exact xorAll_congr fun i hi => by rw [← State.chunk, chunk_getD s off hi, parity8_eq_xorAll]

/-- A column parity after the chunk at `off`: the bits whose position has bit `m` equal to `v`. -/
theorem columnParity_chunkAcc {m v : Nat} (hm : m < 3) (hv : v < 2) :
    parity8 ((s.chunkAcc off).t &&& columnMask m (v == 1)) =
      xorAll 256 fun i => xorAll 8 fun k => (k.testBit m == (v == 1)) && (s.dbuf.read (off + i)).getLsbD k := by
  have hzero : parity8 (EccAcc.zero.t &&& columnMask m (v == 1)) = false := by simp [EccAcc.zero]; rfl
  rw [EccAcc.parity_feedAll (p := fun acc => parity8 (acc.t &&& columnMask m (v == 1)))
    (fun acc i d _ => EccAcc.columnParity_feed _ acc i d) rfl, hzero, Bool.false_xor, State.chunk,
    Memory.length_readBytes]
  exact xorAll_congr fun i hi => by rw [← State.chunk, chunk_getD s off hi, parity8_columnMask _ hm hv]

end

/-- Settles O7: ECC.CALC feeds the chunk into the accumulators, whose parities are those of R131, and stores their
complements. -/
theorem eccCalcStoresComplementedParities : Obligations.EccCalcStoresComplementedParities := by
  unfold Obligations.EccCalcStoresComplementedParities
  intro s hin
  have hexec : exec .eccCalc s = .next ((calcChunk s s.a0.toNat).endOp .success) := if_pos (decide_eq_true hin)
  have htriple : (calcChunk s s.a0.toNat).eccCa = (s.chunkAcc s.a0.toNat).triple s.par.eccLow2 := by
    rw [calcChunk_eq]; rfl
  have hframe : calcChunk s s.a0.toNat =
      { s with eccCa := (calcChunk s s.a0.toNat).eccCa, acc := (calcChunk s s.a0.toNat).acc } := by
    simp only [calcChunk_eq]
  generalize calcChunk s s.a0.toNat = t at hexec htriple hframe
  refine ⟨_, hexec, by rw [hframe]; rfl, fun j v hj hv => ?_, fun m v hm hv => ?_, ?_⟩
  · rw [State.endOp_eccCa, htriple, EccAcc.getLsbD_triple_row _ _ (by omega),
      EccAcc.getLsbD_rowWord (length_chunkAcc _ _) hj hv, rowParity_chunkAcc _ _ hj]
  · rw [State.endOp_eccCa, htriple, EccAcc.getLsbD_triple_column _ _ hm hv, columnParity_chunkAcc _ _ hm hv]
  · rw [State.endOp_eccCa, htriple, EccAcc.triple_low]

/-! ## Flipped bits -/

/-- The verdict does not depend on which of the two triples is the stored one. -/
theorem repair_comm (x y : Triple) (c : List Byte) : repair x y c = repair y x c := by
  rw [repair, repair, syndrome_comm]

/-- Settles O9: the syndrome of the two triples is that of the flipped bit, in either role, and its decode is the
bit's place. -/
theorem singleBitErrorIsRepaired : Obligations.SingleBitErrorIsRepaired := by
  unfold Obligations.SingleBitErrorIsRepaired
  intro s d b k hwf hin hlen hb hk hdata hroles
  obtain ⟨hdbuf, -⟩ := hwf
  have hrepair : repair s.eccRd s.eccCa (s.chunk s.a0.toNat) = (.eccFixed, d) := by
    rw [State.chunk, hdata]
    rcases hroles with ⟨hrd, hca⟩ | ⟨hrd, hca⟩
    · rw [hrd, hca, repair_flip _ hlen hb hk]
    · rw [hrd, hca, repair_comm, repair_flip _ hlen hb hk]
  obtain ⟨m, heq, -, hchunk, hframe⟩ := correctChunk_spec hdbuf s.a0.toNat
  rw [hrepair] at heq hchunk
  exact ⟨_, exec_eccCorrect_of_inside hin, by rw [heq]; rfl, by rw [heq]; exact hchunk, by rw [heq]; exact hframe⟩

/-- The triples of a chunk and of the chunk with two flipped bits differ by the syndromes of the two places. -/
theorem syndrome_flip_flip (low2 : BitVec 2) {d : List Byte} (hlen : d.length = 256) {b k b' k' : Nat} (hb : b < 256)
    (hb' : b' < 256) :
    syndrome (eccTriple low2 d) (eccTriple low2 (flipBit (flipBit d b k) b' k')) =
      syndrome (synAt b k) (synAt b' k') := by
  rw [eccTriple_flipBit low2 (by rw [length_flipBit]; omega), eccTriple_flipBit low2 (by omega), syndrome_assoc,
    syndrome_cancel]

/-- Settles O10: the syndrome of two distinct bits has an even weight that is not 0, so it is neither 1 nor 11. -/
theorem doubleBitErrorIsDetected : Obligations.DoubleBitErrorIsDetected := by
  unfold Obligations.DoubleBitErrorIsDetected
  intro s d b k b' k' hin hlen hb hk hb' hk' hne hroles
  have hsyn : syndrome s.eccRd s.eccCa = syndrome (synAt b k) (synAt b' k') := by
    rw [← syndrome_flip_flip s.par.eccLow2 hlen hb hb' (k := k) (k' := k')]
    rcases hroles with ⟨hrd, hca⟩ | ⟨hrd, hca⟩
    · rw [hrd, hca]
    · rw [hrd, hca, syndrome_comm]
  obtain ⟨hzero, heven⟩ := synWeight_two hb hk hb' hk' hne
  rw [← hsyn] at hzero heven
  rw [exec_eccCorrect_of_inside hin, correctChunk_of_weight_other _ hzero (by omega) (by omega)]
  rfl

/-! ## Flipped triple bits -/

/-- The 24 bits of a triple. -/
def Triple.word (t : Triple) : BitVec 24 := t.c ++ t.b ++ t.a

/-- The triple of 24 bits. -/
def tripleOfWord (w : BitVec 24) : Triple := ⟨w.extractLsb' 0 8, w.extractLsb' 8 8, w.extractLsb' 16 8⟩

theorem tripleOfWord_word (t : Triple) : tripleOfWord (Triple.word t) = t := by
  obtain ⟨a, b, c⟩ := t
  simp only [tripleOfWord, Triple.word, Triple.mk.injEq]
  refine ⟨?_, ?_, ?_⟩
  all_goals
    apply BitVec.eq_of_getLsbD_eq
    intro i hi
    simp only [BitVec.getLsbD_append, BitVec.getLsbD_extractLsb', hi, decide_true, Bool.true_and]
  · simp [hi]
  · simp [show ¬ 8 + i < 8 by omega, show 8 + i - 8 = i by omega, hi]
  · simp [show ¬ 16 + i < 8 by omega, show ¬ 16 + i - 8 < 8 by omega, show 16 + i - 8 - 8 = i by omega]

theorem word_syndrome (x y : Triple) : Triple.word (syndrome x y) = Triple.word x ^^^ Triple.word y := by
  simp only [Triple.word, syndrome]
  apply BitVec.eq_of_getLsbD_eq
  intro i _
  simp only [BitVec.getLsbD_append, BitVec.getLsbD_xor]
  split_ifs <;> rfl

/-- A syndrome of one bit, whichever of the 24, has weight 1. -/
theorem synWeight_single : ∀ k, k < 24 → synWeight (tripleOfWord (1#24 <<< k)) = 1 := by decide

/-- Settles O11: equal triples have the syndrome 0, triples that differ in one bit that bit alone. -/
theorem storedTripleBitFlipLeavesTheData : Obligations.StoredTripleBitFlipLeavesTheData := by
  unfold Obligations.StoredTripleBitFlipLeavesTheData
  intro s hin
  refine ⟨fun heq => ?_, fun k hk hflip => ?_⟩
  · rw [exec_eccCorrect_of_inside hin, correctChunk_of_weight_zero _ ((synWeight_eq_zero _ _).2 heq)]
    rfl
  · have hflip' : Triple.word s.eccRd = Triple.word s.eccCa ^^^ (1#24 <<< k) := hflip
    have hsyn : syndrome s.eccRd s.eccCa = tripleOfWord (1#24 <<< k) := by
      rw [← tripleOfWord_word (syndrome s.eccRd s.eccCa), word_syndrome, hflip', BitVec.xor_comm, ← BitVec.xor_assoc,
        BitVec.xor_self, BitVec.zero_xor]
    have hweight : synWeight (syndrome s.eccRd s.eccCa) = 1 := by rw [hsyn, synWeight_single k hk]
    rw [exec_eccCorrect_of_inside hin, correctChunk_of_weight_one _ hweight]
    rfl

end Sys2Proof.Machine
end

section
/-! PROOFS. What every instruction and every step keeps: the frames of Laws/Frame.lean for all instructions, the canonical
form of the memories, the device invariant (10_state.md sections 1 to 4, 60_exceptions.md section 5). -/

namespace Sys2Proof.Machine

section
variable {s t : State}

/-! ## PART.CREATE -/

/-- What PART.CREATE can do: it is refused, or it carves the partition out of a valid parent. -/
theorem exec_partCreate_cases {p d : BitVec 4} (e : exec (.partCreate p d) s = .next t) :
    (∃ st, t = s.endOp st) ∨
      ∃ parent, createRefusal s p d = none ∧ s.part p = some parent ∧ t = (createPartition s parent d).endOp .success := by
  have e : execPartCreate p d s = .next t := e
  unfold execPartCreate at e
  split at e
  · cases e; exact .inl ⟨_, rfl⟩
  · rename_i parent hrefusal hparent
    cases e; exact .inr ⟨parent, hrefusal, hparent, rfl⟩
  · cases e; exact .inl ⟨_, rfl⟩

/-- What a request has met that PART.CREATE does not refuse (46_partition_ops.md R283). -/
theorem createRefusal_eq_none {p d : BitVec 4} {parent : PartEntry} (hparent : s.part p = some parent)
    (h : createRefusal s p d = none) :
    s.detected = true ∧ s.a0.toNat + s.a1.toNat ≤ parent.psize.toNat ∧ s.geo.blockAligned s.a0.toNat = true ∧
      s.geo.blockAligned s.a1.toNat = true := by
  unfold createRefusal at h
  rw [hparent] at h
  dsimp only at h
  split_ifs at h with hdet hdst hbound halign
  simp only [not_or, Bool.not_eq_false] at halign
  exact ⟨by simpa using hdet, by omega, halign.1, halign.2⟩

/-- A valid entry that a request names stands in the table. -/
theorem part_mem {p : BitVec 4} {e : PartEntry} (h : s.part p = some e) : e ∈ s.pt ∧ e.valid = true := by
  unfold State.part at h
  split at h
  · rename_i x hx
    split_ifs at h with hv
    cases h
    exact ⟨List.mem_of_getElem? hx, hv⟩
  · cases h

theorem went_createPartition {q : Bool} (parent : PartEntry) (d : BitVec 4) :
    Went q false s (createPartition s parent d) := by
  have htable : Went q false (s.setBus (s.bus.draw 1))
      { s.setBus (s.bus.draw 1) with
        pt := s.pt.set d.toNat ⟨true, childBegin s parent s.a0 s.a1, s.a1.setWidth 65⟩ } := went_device rfl
  refine ((went_draw 1).trans htable).trans (went_regs rfl (.inr ?_))
  show (d.setWidth 64).toNat < 2 ^ 16
  rw [BitVec.toNat_setWidth]
  omega

/-! ## Every instruction -/

/-- The frame of every instruction, but for the lock. -/
theorem exec_wentBut {q : Bool} {i : Instr} (e : exec i s = .next t) (hq : q = true → quiet s i) : WentBut q false s t := by
  by_cases hcreate : ∃ p d, i = .partCreate p d
  · obtain ⟨p, d, rfl⟩ := hcreate
    obtain ⟨st, rfl⟩ | ⟨parent, -, -, rfl⟩ := exec_partCreate_cases e
    · exact (went_endOp st).but
    · exact ((went_createPartition parent d).trans (went_endOp _)).but
  · exact exec_went e (by simp) (fun p d h => hcreate ⟨p, d, h⟩) hq

/-- Settles O26: under READ_ONLY every other instruction latches no confirm, so no array changes. -/
theorem readOnlyProtectsTheArray : Obligations.ReadOnlyProtectsTheArray := by
  unfold Obligations.ReadOnlyProtectsTheArray
  intro i s t hro e hcmd hctrl hprogram herase
  have hquiet : quiet s i := by
    cases i
    case nandCmd c x y => exact absurd rfl (hcmd c x y)
    case nandCtrl d m => exact absurd rfl (hctrl d m)
    case cmdPageprog => exact absurd rfl hprogram
    case cmdErase2 => exact absurd rfl herase
    all_goals exact hro
  have hwent : Went true false s (t.setLock s.lock) := exec_wentBut e fun _ => hquiet
  exact hwent.sameFlash

/-! ## Every step -/

/-- Packages the case analysis of `step`: what every part of an operation, every instruction and every host action keeps,
and does not depend on the ports, every step keeps. -/
theorem step_preserves {P : State → Prop} (hwent : ∀ s t, Went false true s t → P s → P t)
    (hports : ∀ s b l, P s → P { s with busPort := b, hostIn := l })
    (hexec : ∀ i s t, exec i s = .next t → P s → P t) (hhost : ∀ a s t, hostAct a s = .next t → P s → P t)
    (e : step s = .next t) (hs : P s) : P t := by
  have htake : ∀ u, P u → takeHost s u = .next t → P t := by
    intro u hu e
    unfold takeHost at e
    split at e
    · cases e; exact hu
    · exact hhost _ _ _ e (hports s s.busPort _ hs)
  have hrun : ∀ u, P u → runRequest u = .next t → P t := by
    intro u hu e
    unfold runRequest at e
    split at e
    · exact hexec _ _ _ e hu
    · cases e; exact hwent _ _ (went_endOp _) hu
  unfold step at e
  split at e
  · have hp := hports s none s.hostIn hs
    unfold runPort at e
    split at e
    · exact hexec _ _ _ e hp
    · cases e; exact hwent _ _ (busCommand_went _ (by simp)) hp
  · unfold phaseStep at e
    split at e
    · exact htake s hs e
    · exact hrun s hs e
    · unfold retryLock at e
      split at e
      · exact htake s hs e
      · exact hrun _ (hwent _ _ (went_regs rfl) hs) e
    · exact htake _ (hwent _ _ (went_bus (Bus.ran_log s.bus fun _ => rfl)) hs) e

/-- A host write that is defined only while idle and answers a next state. -/
theorem whileIdle_next {o : Host.Outcome State Fault Refusal} (e : whileIdle s o = .next t) : o = .next t := by
  unfold whileIdle at e
  split at e
  · exact e
  · cases e

/-- What a host action that gives a next state has written, by the action. -/
def hostWrites (s : State) : HostAction → State
  | .writeA n v => s.setOperand n v
  | .writeCw v => if s.phase = .idle then { s with cw := v, phase := .run } else s
  | .writeEccRd x => s.setEccRd x
  | .writeEccCa x => s.setEccCa x
  | .writeConf c => { s with conf := c }
  | .writeTables free ecc => { s with freeTab := free, eccTab := ecc }
  | .writeDbuf off bytes => s.setDbuf (s.dbuf.writeBytes off bytes)
  | .writeObuf off bytes => s.setObuf (s.obuf.writeBytes off bytes)
  | .reset => s.rst
  | .otherRelease => if s.phase = .stallLock then s.setLock false else s

theorem hostAct_next {a : HostAction} (e : hostAct a s = .next t) : t = hostWrites s a := by
  cases a with
  | writeA n v => cases whileIdle_next e; rfl
  | writeCw v =>
    have e : (if s.phase = .idle then .next { s with cw := v, phase := .run } else .next s) =
      (.next t : Host.Outcome State Fault Refusal) := e
    show t = if s.phase = .idle then { s with cw := v, phase := .run } else s
    split at e <;> cases e
    · rw [if_pos ‹_›]
    · rw [if_neg ‹_›]
  | writeEccRd x => cases whileIdle_next e; rfl
  | writeEccCa x => cases whileIdle_next e; rfl
  | writeConf c =>
    have e := whileIdle_next e
    split at e <;> cases e
    rfl
  | writeTables free ecc => cases whileIdle_next e; rfl
  | writeDbuf off bytes =>
    have e := whileIdle_next e
    split at e <;> cases e
    rfl
  | writeObuf off bytes =>
    have e := whileIdle_next e
    split at e <;> cases e
    rfl
  | reset => cases e; rfl
  | otherRelease => cases e; rfl

/-! ## The canonical form of the memories -/

theorem hostAct_keeps_memoryWf {a : HostAction} (e : hostAct a s = .next t) (hs : s.memoryWf) : t.memoryWf := by
  obtain rfl := hostAct_next e
  obtain ⟨hdbuf, hobuf, hoobs, hchips⟩ := hs
  cases a with
  | writeA n v =>
    obtain rfl | rfl | rfl | rfl : n = 0 ∨ n = 1 ∨ n = 2 ∨ n = 3 := by omega
    all_goals exact ⟨hdbuf, hobuf, hoobs, hchips⟩
  | writeCw v => dsimp only [hostWrites]; split <;> exact ⟨hdbuf, hobuf, hoobs, hchips⟩
  | writeDbuf off bytes => exact ⟨Memory.wf_writeBytes hdbuf _ _, hobuf, hoobs, hchips⟩
  | writeObuf off bytes => exact ⟨hdbuf, Memory.wf_writeBytes hobuf _ _, hoobs, hchips⟩
  | reset => exact ⟨Memory.wf_empty, Memory.wf_empty, Memory.wf_empty, hchips⟩
  | otherRelease => dsimp only [hostWrites]; split <;> exact ⟨hdbuf, hobuf, hoobs, hchips⟩
  | writeEccRd | writeEccCa | writeConf | writeTables => exact ⟨hdbuf, hobuf, hoobs, hchips⟩

/-- Settles O58: the frame of every instruction and of every part of a step carries the canonical form along. -/
theorem everyStepKeepsMemoryCanonical : Obligations.EveryStepKeepsMemoryCanonical := by
  unfold Obligations.EveryStepKeepsMemoryCanonical
  intro s t hs e
  refine step_preserves (P := State.memoryWf) (fun s t h => h.wf) (fun s b l h => h) (fun i s t e hs => ?_)
    (fun a s t e => hostAct_keeps_memoryWf e) e hs
  have hwent : Went false false s (t.setLock s.lock) := exec_wentBut e (by simp)
  exact hwent.wf hs

/-! ## The device invariant -/

/-- A block-aligned address is a multiple of the block size. -/
theorem blockAligned_iff_mod {g : Geometry} {par : Params} (hg : g.valid par) (a : Nat) :
    g.blockAligned a = true ↔ a % g.blockSize.toNat = 0 := by
  obtain ⟨-, hblock, -, -, -, -, -, -, -, -, -, -, -, hmask, -⟩ := hg
  obtain ⟨-, hpow⟩ := isPow2_iff.1 hblock
  rw [Geometry.blockAligned, hmask, ← hpow, Nat.and_two_pow_sub_one_eq_mod, hpow, beq_iff_eq]

/-- Clearing the bits of the block mask leaves a multiple of the block size. -/
theorem and_not_blockMask_mod {g : Geometry} {par : Params} (hg : g.valid par) (v : Addr) :
    (v &&& ~~~g.blockMask).toNat % g.blockSize.toNat = 0 := by
  rw [← blockAligned_iff_mod hg, Geometry.blockAligned, ← BitVec.toNat_and, BitVec.and_assoc, BitVec.and_comm (~~~_),
    BitVec.and_not_self]
  simp

/-- The partition that PART.CREATE carves out of a valid parent is aligned, inside the device and in width. -/
theorem childBegin_spec {parent : PartEntry} (hg : s.geo.valid s.par)
    (hbegin : parent.begin.toNat % s.geo.blockSize.toNat = 0)
    (hinside : parent.begin.toNat + parent.psize.toNat ≤ s.geo.size.toNat)
    (hfit : s.a0.toNat + s.a1.toNat ≤ parent.psize.toNat) (ha0 : s.geo.blockAligned s.a0.toNat = true) :
    (childBegin s parent s.a0 s.a1).toNat % s.geo.blockSize.toNat = 0 ∧
      (childBegin s parent s.a0 s.a1).toNat + s.a1.toNat ≤ s.geo.size.toNat ∧
      (childBegin s parent s.a0 s.a1).toNat < s.par.addrBound := by
  have hbound := s.par.addrBound_le
  unfold childBegin
  split_ifs with hsum
  · have hadd : (parent.begin + s.a0).toNat = parent.begin.toNat + s.a0.toNat := by
      rw [BitVec.toNat_add, Nat.mod_eq_of_lt (by omega)]
    rw [hadd, Nat.add_mod, hbegin, (blockAligned_iff_mod hg _).1 ha0]
    exact ⟨by simp, by omega, hsum⟩
  · unfold freeBegin
    dsimp only
    split_ifs with hroom
    · refine ⟨and_not_blockMask_mod hg _, hroom, lt_of_le_of_lt ?_ (s.par.fitAddr_lt (Config.freeWord s.bus.fresh).toNat)⟩
      rw [BitVec.toNat_and]
      exact Nat.and_le_left
    · have hpos : 0 < s.par.addrBound := Nat.two_pow_pos _
      exact ⟨by simp, by simp; omega, hpos⟩

/-- The device invariant, with the bound on `ADDR_W` that it rests on (log 36). -/
def State.wideDeviceInv (s : State) : Prop := 16 ≤ s.par.addrW.val ∧ s.deviceInv

/-- What keeps the detected device keeps its invariant. -/
theorem wideDeviceInv_of_went {q : Bool} (h : Went q true s t) (hs : s.wideDeviceInv) : t.wideDeviceInv := by
  obtain ⟨hA, hgeo, hpart, hwidth⟩ := hs
  obtain ⟨egeo, edet, -, -, -, -, -, ept⟩ := h.device rfl
  refine ⟨by rw [h.par]; exact hA, ?_, ?_, widthInv_of_went h hA hwidth⟩
  · unfold State.geometryInv; rw [edet, egeo, h.par]; exact hgeo
  · unfold State.partitionInv; rw [edet, egeo, ept]; exact hpart

/-- Nothing is detected, no partition is valid: only the widths are left of the invariant. -/
theorem deviceInv_of_undetected (h : s.undetected) (hw : s.widthInv) : s.deviceInv := by
  obtain ⟨hdet, hpt⟩ := h
  exact ⟨fun hd => by simp [hdet] at hd, fun p hp hv => by simp [hpt p hp] at hv, hw⟩

theorem deviceInv_of_freshlyDetected (h : s.freshlyDetected) (hw : s.widthInv) : s.deviceInv := by
  obtain ⟨hdet, hgeo, hpt⟩ := h
  exact ⟨fun _ => hgeo, fun p hp hv => ⟨hdet, hpt p hp hv⟩, hw⟩

/-- How DETECT ends, for the invariant. -/
theorem exec_detect_deviceInv (hs : s.Widths) (e : exec .detect s = .next t) : t.wideDeviceInv := by
  obtain ⟨hval, hhang⟩ := detect_detects s
  obtain ⟨hwval, hwhang⟩ := detect_widths hs
  obtain ⟨st, u, hr, rfl⟩ | hr := Ret.finish_next (r := detect s) e
  · obtain ⟨hA, hw⟩ := hwval st u hr
    refine wideDeviceInv_of_went (q := false) (went_endOp st) ⟨hA, ?_⟩
    obtain ⟨-, h⟩ | ⟨-, h⟩ := hval st u hr
    · exact deviceInv_of_freshlyDetected h hw
    · exact deviceInv_of_undetected h hw
  · obtain ⟨hA, hw⟩ := hwhang t hr
    exact ⟨hA, deviceInv_of_undetected (hhang t hr).1 hw⟩

/-- PART.CREATE keeps the invariant: its parent is inside the device, and the new partition inside its parent. -/
theorem createPartition_deviceInv {p d : BitVec 4} {parent : PartEntry} (hs : s.wideDeviceInv)
    (hrefusal : createRefusal s p d = none) (hparent : s.part p = some parent) :
    (createPartition s parent d).wideDeviceInv := by
  obtain ⟨hA, hgeo, hpart, hwidth⟩ := hs
  obtain ⟨hdet, hfit, ha0, ha1⟩ := createRefusal_eq_none hparent hrefusal
  obtain ⟨hmem, hvalid⟩ := part_mem hparent
  obtain ⟨-, hbegin, -, hinside⟩ := hpart parent hmem hvalid
  obtain ⟨halign, hin, hlt⟩ := childBegin_spec (hgeo hdet) hbegin hinside hfit ha0
  obtain ⟨hops, -, hnarrow, hpt⟩ := State.widthInv_iff.1 hwidth
  have hsize : (s.a1.setWidth 65).toNat = s.a1.toNat := by
    rw [BitVec.toNat_setWidth, Nat.mod_eq_of_lt (by omega)]
  have hentry : ∀ x ∈ (createPartition s parent d).pt,
      x ∈ s.pt ∨ x = ⟨true, childBegin s parent s.a0 s.a1, s.a1.setWidth 65⟩ := fun x => List.mem_or_eq_of_mem_set
  refine ⟨hA, hgeo, fun x hx hv => ?_, State.widthInv_iff.2 ⟨hops, ?_, hnarrow, fun x hx => ?_⟩⟩
  · obtain hx | rfl := hentry x hx
    · exact hpart x hx hv
    · refine ⟨hdet, halign, ?_, ?_⟩
      · rw [hsize]; exact (blockAligned_iff_mod (hgeo hdet) _).1 ha1
      · rw [hsize]; exact hin
  · have h16 : 2 ^ 16 ≤ s.par.addrBound := Nat.pow_le_pow_right (by omega) hA
    have hd : d.toNat < 2 ^ 16 := by omega
    show (d.setWidth 64).toNat < s.par.addrBound
    rw [BitVec.toNat_setWidth]
    exact lt_of_le_of_lt (Nat.mod_le _ _) (lt_of_lt_of_le hd h16)
  · obtain hx | rfl := hentry x hx
    · exact hpt x hx
    · refine ⟨hlt, ?_⟩
      rw [hsize]
      exact lt_of_lt_of_le hops.2.1 (Nat.pow_le_pow_right Nat.two_pos (Nat.le_succ s.par.addrW.val))

theorem exec_keeps_wideDeviceInv {i : Instr} (e : exec i s = .next t) (hs : s.wideDeviceInv) : t.wideDeviceInv := by
  by_cases hdetect : i = .detect
  · subst hdetect
    exact exec_detect_deviceInv ⟨hs.1, hs.2.2.2⟩ e
  by_cases hcreate : ∃ p d, i = .partCreate p d
  · obtain ⟨p, d, rfl⟩ := hcreate
    obtain ⟨st, rfl⟩ | ⟨parent, hrefusal, hparent, rfl⟩ := exec_partCreate_cases e
    · exact wideDeviceInv_of_went (q := false) (went_endOp st) hs
    · exact wideDeviceInv_of_went (q := false) (went_endOp _) (createPartition_deviceInv hs hrefusal hparent)
  · have hwent : Went false true s (t.setLock s.lock) :=
      exec_went e (fun _ => hdetect) (fun p d h => hcreate ⟨p, d, h⟩) (by simp)
    have h := wideDeviceInv_of_went hwent hs
    exact h

/-- After `RST` nothing is detected and every number is 0. -/
theorem rst_deviceInv (s : State) : s.rst.deviceInv := by
  have hpos : 0 < s.par.addrBound := Nat.two_pow_pos _
  have hpos' : 0 < s.par.sizeBound := Nat.two_pow_pos _
  refine deviceInv_of_undetected ⟨rfl, fun p => State.valid_of_mem_rst_pt⟩ (State.widthInv_iff.2
    ⟨⟨hpos, hpos, hpos, hpos⟩, hpos, ⟨hpos, hpos, hpos, hpos, hpos, hpos, hpos, hpos'⟩, fun p hp => ?_⟩)
  obtain rfl : p = ⟨false, 0, 0⟩ := List.eq_of_mem_replicate hp
  exact ⟨hpos, hpos'⟩

theorem hostAct_keeps_wideDeviceInv {a : HostAction} (e : hostAct a s = .next t) (hs : s.wideDeviceInv) :
    t.wideDeviceInv := by
  obtain rfl := hostAct_next e
  obtain ⟨hA, hgeo, hpart, hwidth⟩ := hs
  cases a with
  | writeA n v =>
    obtain ⟨⟨h0, h1, h2, h3⟩, hrest⟩ := State.widthInv_iff.1 hwidth
    have hv := s.par.fitAddr_lt v.toNat
    obtain rfl | rfl | rfl | rfl : n = 0 ∨ n = 1 ∨ n = 2 ∨ n = 3 := by omega
    · exact ⟨hA, hgeo, hpart, State.widthInv_iff.2 ⟨⟨hv, h1, h2, h3⟩, hrest⟩⟩
    · exact ⟨hA, hgeo, hpart, State.widthInv_iff.2 ⟨⟨h0, hv, h2, h3⟩, hrest⟩⟩
    · exact ⟨hA, hgeo, hpart, State.widthInv_iff.2 ⟨⟨h0, h1, hv, h3⟩, hrest⟩⟩
    · exact ⟨hA, hgeo, hpart, State.widthInv_iff.2 ⟨⟨h0, h1, h2, hv⟩, hrest⟩⟩
  | writeCw v => dsimp only [hostWrites]; split <;> exact ⟨hA, hgeo, hpart, hwidth⟩
  | reset => exact ⟨hA, rst_deviceInv s⟩
  | otherRelease => dsimp only [hostWrites]; split <;> exact ⟨hA, hgeo, hpart, hwidth⟩
  | writeEccRd | writeEccCa | writeConf | writeTables | writeDbuf | writeObuf => exact ⟨hA, hgeo, hpart, hwidth⟩

/-- Settles O59: what does not write the device keeps the invariant by its frame; DETECT ends with a consistent device or
none, PART.CREATE stays inside its parent, and the host writes numbers of the registers' width. -/
theorem everyStepKeepsTheDeviceInvariant : Obligations.EveryStepKeepsTheDeviceInvariant := by
  unfold Obligations.EveryStepKeepsTheDeviceInvariant
  intro s t hA hs e
  have ht : t.wideDeviceInv := step_preserves (P := State.wideDeviceInv) (fun _ _ => wideDeviceInv_of_went)
    (fun _ _ _ h => h) (fun _ _ _ => exec_keeps_wideDeviceInv) (fun _ _ _ => hostAct_keeps_wideDeviceInv) e ⟨hA, hs⟩
  exact ht.2

/-- Settles O60: the reset state is a state after `RST`. -/
theorem resetSatisfiesTheInvariants : Obligations.ResetSatisfiesTheInvariants := by
  unfold Obligations.ResetSatisfiesTheInvariants
  exact ⟨⟨Memory.wf_empty, Memory.wf_empty, Memory.wf_empty, fun _ h => nomatch h⟩, rst_deviceInv State.reset⟩

/-! ## Only DETECT changes the geometry -/

/-- No instruction but DETECT writes the registers of the detected device; PART.CREATE writes the partition table only. -/
theorem exec_keeps_device {i : Instr} (e : exec i s = .next t) (hdetect : i ≠ .detect) :
    t.geo = s.geo ∧ t.detected = s.detected ∧ t.variant = s.variant ∧ t.bbmPos = s.bbmPos ∧ t.id = s.id ∧
      t.freeTab = s.freeTab ∧ t.eccTab = s.eccTab := by
  by_cases hcreate : ∃ p d, i = .partCreate p d
  · obtain ⟨p, d, rfl⟩ := hcreate
    obtain ⟨st, rfl⟩ | ⟨parent, -, -, rfl⟩ := exec_partCreate_cases e
    all_goals exact ⟨rfl, rfl, rfl, rfl, rfl, rfl, rfl⟩
  · have hwent : Went false true s (t.setLock s.lock) :=
      exec_went e (fun _ => hdetect) (fun p d h => hcreate ⟨p, d, h⟩) (by simp)
    obtain ⟨hgeo, hdet, hvar, hbbm, hid, hfree, hecc, -⟩ := hwent.device rfl
    exact ⟨hgeo, hdet, hvar, hbbm, hid, hfree, hecc⟩

/-- After a DETECT, `DETECTED` tells whether it ended with SUCCESS; otherwise no partition is valid. -/
theorem exec_detect_detected (e : exec .detect s = .next t) :
    (t.detected = true ↔ t.status = .success ∧ t.phase = .idle) ∧ (t.detected = false → ∀ p ∈ t.pt, p.valid = false) := by
  obtain ⟨hval, hhang⟩ := detect_detects s
  obtain ⟨st, u, hr, rfl⟩ | hr := Ret.finish_next (r := detect s) e
  · obtain ⟨hst, hdet, -, -⟩ | ⟨hst, hdet, hpt⟩ := hval st u hr
    · simp [hdet, hst]
    · exact ⟨by simp [hdet, hst], fun _ => hpt⟩
  · obtain ⟨⟨hdet, hpt⟩, hphase⟩ := hhang t hr
    exact ⟨by simp [hdet, hphase], fun _ => hpt⟩

/-- Settles O30: the frame of every instruction, without the device registers for DETECT, whose end decides
`DETECTED`. -/
theorem onlyDetectChangesTheGeometry : Obligations.OnlyDetectChangesTheGeometry := by
  unfold Obligations.OnlyDetectChangesTheGeometry
  intro i s t e
  have hwent : Went false false s (t.setLock s.lock) := exec_wentBut e (by simp)
  refine ⟨exec_keeps_device e, hwent.cw, hwent.a0, hwent.a1, hwent.a2, hwent.a3, hwent.conf, hwent.par, ?_⟩
  rintro rfl
  have hdetect : Went true false s t := (detect_fits s).finish e
  obtain ⟨hdet, hpt⟩ := exec_detect_detected e
  exact ⟨hdet, hpt, hdetect.lock, hdetect.sameFlash⟩

/-! ## The lock -/

/-- A PART operation gives the lock back, or has met it held. -/
theorem partOp_lock {v : Option Status} {f : Bool} {body : State → Ret Status} (e : partOp s v f body = .next t)
    (hbusy : (body (s.setLock true)).Busy) :
    (s.lock = false → t.phase = .idle → t.lock = false) ∧
      (s.lock = true → t = { s with status := t.status, phase := .idle } ∨ t = { s with phase := .stallLock }) := by
  have hend : ∀ st, t = s.endOp st → (s.lock = false → t.phase = .idle → t.lock = false) ∧
      (s.lock = true → t = { s with status := t.status, phase := .idle } ∨ t = { s with phase := .stallLock }) := by
    rintro st rfl
    exact ⟨fun hl _ => hl, fun _ => .inl rfl⟩
  cases v with
  | some st => cases e; exact hend st rfl
  | none =>
    have e : (if f then (locked s body).finish else .next (s.endOp .invalidAddress)) = .next t := e
    split at e
    case isFalse => cases e; exact hend _ rfl
    by_cases hl : s.lock = true
    · rw [locked, acquire, if_pos hl] at e
      cases e
      exact ⟨fun h => by simp [h] at hl, fun _ => .inr rfl⟩
    · rw [locked, acquire, if_neg hl, Ret.bind_val] at e
      refine ⟨fun _ hidle => ?_, fun h => absurd h hl⟩
      cases hr : body (s.setLock true) with
      | val st u => rw [hr] at e; cases e; rfl
      | hang u => rw [hr] at e; cases e; exact absurd hidle (hbusy _ hr)
      | fault x => rw [hr] at e; cases e
      | refuse x => rw [hr] at e; cases e

/-- Settles O55: each of the eight operations is `partOp`, whose body never stops in the phase IDLE without ending. -/
theorem partOperationsReleaseTheLock : Obligations.PartOperationsReleaseTheLock := by
  unfold Obligations.PartOperationsReleaseTheLock
  intro s t p m k i hi e
  have hnq : ∀ u : State, false = true → u.conf.readOnly = true := fun _ h => nomatch h
  simp only [List.mem_cons, List.not_mem_nil, or_false] at hi
  rcases hi with rfl | rfl | rfl | rfl | rfl | rfl | rfl | rfl
  · exact partOp_lock e (pageRead_fits (q := false) (k := true) _ _ _).busy
  · exact partOp_lock e (pageWrite_fits (k := true) _ _ _ (hnq _)).busy
  · exact partOp_lock e ((readForOob_fits (q := false) (k := true) _ _ _).bind fun _ u =>
      (gatherOob_fits u _ _ _).bind fun _ u => fits_val (Went.refl u)).busy
  · exact partOp_lock e ((scatterOob_fits _ _ _ _).bind fun _ u => writeForOob_fits (k := true) u _ _).busy
  · have e : execPartErase p k s = .next t := e
    unfold execPartErase at e
    split at e
    · cases e; exact ⟨fun hl _ => hl, fun _ => .inl rfl⟩
    · exact partOp_lock e (eraseBlock_fits (k := true) _ _ _ (hnq _)).busy
  · have e : execPartEraseall p k s = .next t := e
    unfold execPartEraseall at e
    split at e
    · cases e; exact ⟨fun hl _ => hl, fun _ => .inl rfl⟩
    · exact partOp_lock e (eraseBlocks_fits (k := true) _ _ _ _ _ (hnq _)).busy
    · exact partOp_lock e Ret.busy_val
  · exact partOp_lock e (devIsvalid_fits (q := false) (k := true) _ _).busy
  · exact partOp_lock e (devMarkbad_fits (k := true) _ _ (hnq _)).busy

end

end Sys2Proof.Machine
end

section
/-! PROOFS. The steps of the sequencer, the command bytes and U-NAND (10_state.md R22, 30_encoding.md R91, R100,
42_nand_protocol.md, 60_exceptions.md R337). -/

namespace Sys2Proof.Machine

section
variable {s t : State}

/-! ## Steps -/

theorem runRequest_of_decode {i : Instr} (h : decode (.request s.cw) = .ok i) : runRequest s = exec i s := by
  simp only [runRequest, h]

/-- Settles O4: `step` looks at the bus port first, then runs the request in `CW`. -/
theorem stepRunsDecodedInstruction : Obligations.StepRunsDecodedInstruction := by
  unfold Obligations.StepRunsDecodedInstruction
  refine ⟨fun s i hport hrun hdec => ?_, fun s b i hport hdec => ?_⟩
  · rw [step_eq_runRequest hport hrun, runRequest_of_decode hdec]
  · simp only [step, hport, runPort, hdec]

/-- One step of a machine that polls a chip, with nobody acting. -/
theorem step_waitRdy (hport : s.busPort = none) (hin : s.hostIn = []) (hp : s.phase = .waitRdy) :
    step s = .next (s.setBus (s.bus.log .notReady)) := by
  simp only [step, hport, phaseStep, hp, pollAgain, takeHost, hin]

/-- One step of a machine that stalls on a held lock, with nobody acting. -/
theorem step_stalled (hport : s.busPort = none) (hin : s.hostIn = []) (hp : s.phase = .stallLock) (hl : s.lock = true) :
    step s = .next s := by
  simp only [step, hport, phaseStep, hp, retryLock, hl, if_true, takeHost, hin]

theorem run_succ_of_step (n : Nat) (h : step s = .next t) : core.run (n + 1) s = core.run n t := by
  have h : core.step s = .next t := h
  simp only [Host.Core.run, h]

/-- Any number of polls. -/
theorem run_waitRdy (n : Nat) (hport : s.busPort = none) (hin : s.hostIn = []) (hp : s.phase = .waitRdy) :
    ∃ t, core.run n s = .next t ∧ t = { s with bus := t.bus } ∧ emits s t (List.replicate n .notReady) := by
  induction n generalizing s with
  | zero => exact ⟨s, rfl, rfl, rfl⟩
  | succ n ih =>
    obtain ⟨t, hrun, hframe, htrace⟩ := ih (s := s.setBus (s.bus.log .notReady)) hport hin hp
    refine ⟨t, (run_succ_of_step n (step_waitRdy hport hin hp)).trans hrun, hframe, htrace.trans ?_⟩
    rw [List.reverse_replicate, List.reverse_replicate, List.replicate_succ', List.append_assoc]
    rfl

/-- Any number of steps on a lock that stays held. -/
theorem run_stalled (n : Nat) (hport : s.busPort = none) (hin : s.hostIn = []) (hp : s.phase = .stallLock)
    (hl : s.lock = true) : core.run n s = .next s := by
  induction n with
  | zero => rfl
  | succ n ih => rw [run_succ_of_step n (step_stalled hport hin hp hl), ih]

/-- Settles O18: a hang is a step that keeps the phase and, on a lock, the whole state. -/
theorem hangNeverEnds : Obligations.HangNeverEnds := by
  unfold Obligations.HangNeverEnds
  exact fun s n hport hin => ⟨run_waitRdy n hport hin, run_stalled n hport hin⟩

/-! ## Command bytes -/

theorem Chip.latchCommand_cmd (ch : Chip) (n : Nat) (c : Cmd) : (ch.latchCommand n c).cmd = some c := by
  cases c with
  | readstart => simp only [Chip.latchCommand]; split_ifs <;> rfl
  | _ => rfl

/-- The instructions of the bus command bytes with their commands (30_encoding.md R100). -/
abbrev commandInstrs : List (Instr × Cmd) :=
  [(.cmdRead0, .read0), (.cmdRead1, .read1), (.cmdPageprog, .pageprog), (.cmdReadstart, .readstart),
    (.cmdReadoob, .readoob), (.cmdErase1, .erase1), (.cmdStatus, .status), (.cmdSeqin, .seqin), (.cmdReadid, .readid),
    (.cmdErase2, .erase2), (.cmdParam, .param), (.cmdGetfeat, .getfeat), (.cmdSetfeat, .setfeat), (.cmdReset, .reset)]

theorem exec_commandInstrs (s : State) : ∀ i ∈ commandInstrs, exec i.1 s = .next (busCommand i.2 s) ∧
    (i.1 ≠ .cmdPageprog → i.1 ≠ .cmdErase2 → quietCmd i.2 = true) := by
  simp only [commandInstrs, List.forall_mem_cons, List.not_mem_nil, false_imp_iff, implies_true, and_true]
  refine ⟨⟨rfl, fun _ _ => rfl⟩, ⟨rfl, fun _ _ => rfl⟩, ⟨rfl, fun h => absurd rfl h⟩, ⟨rfl, fun _ _ => rfl⟩,
    ⟨rfl, fun _ _ => rfl⟩, ⟨rfl, fun _ _ => rfl⟩, ⟨rfl, fun _ _ => rfl⟩, ⟨rfl, fun _ _ => rfl⟩, ⟨rfl, fun _ _ => rfl⟩,
    ⟨rfl, fun _ h => absurd rfl h⟩, ⟨rfl, fun _ _ => rfl⟩, ⟨rfl, fun _ _ => rfl⟩, ⟨rfl, fun _ _ => rfl⟩,
    ⟨rfl, fun _ _ => rfl⟩⟩

/-- Settles O57: every command byte is `busCommand`, one latch event that the selected chip remembers. -/
theorem commandByteIsLatched : Obligations.CommandByteIsLatched := by
  unfold Obligations.CommandByteIsLatched
  intro s i hi
  obtain ⟨hexec, hquiet⟩ := exec_commandInstrs s i hi
  have hran := Bus.ran_cle s.par.cmds s.bus i.2
  refine ⟨busCommand i.2 s, hexec, hran.trace, rfl, hran.selected, fun hp he => ?_, fun ch hch => ?_⟩
  · rw [hquiet hp he] at hran
    exact sameFlash_of_ran rfl hran
  · have hch : (s.bus.cle s.par.cmds i.2).chip? = some ch := hch
    rw [Bus.chip?_cle, Option.map_eq_some_iff] at hch
    obtain ⟨x, -, rfl⟩ := hch
    exact Chip.latchCommand_cmd _ _ _

/-! ## NAND.WAIT and NAND.CMD -/

/-- Settles O17: the busy-wait on a chip that becomes ready, and on one that does not. -/
theorem waitEndsWhenTheChipIsReady : Obligations.WaitEndsWhenTheChipIsReady := by
  unfold Obligations.WaitEndsWhenTheChipIsReady
  intro s
  have hexec : exec .nandWait s = ((waitReady s).bind fun _ s => .val .success s).finish := rfl
  refine ⟨fun ha => ?_, fun ha => ?_⟩
  · have hran := Bus.ran_waited s.bus
    refine ⟨(s.setBus s.bus.waited).endOp .success, s.bus.polls, ?_, hran.trace, sameFlash_of_ran rfl hran, ?_, rfl, ?_⟩
    · rw [hexec, waitReady_val ha]; rfl
    · simp [phasesDuring]
    · intro ch hch
      have hch : s.bus.waited.chip? = some ch := hch
      rw [Bus.chip?_waited, Option.map_eq_some_iff] at hch
      obtain ⟨x, -, rfl⟩ := hch
      rfl
  · rw [hexec, waitReady_hang ha]; rfl

theorem rbKind_eq_singleByte (c : Cmd) : rbKind c = .singleByte ↔ c ∈ byteCommands := by
  cases c <;> simp [rbKind]

/-- What NAND.CMD needs the geometry for: a column, a row, the large-page redirect of READOOB. -/
theorem needsGeometry_iff (v : Variant) (c : Cmd) (colV rbV : Bool) (a b : Nat) :
    needsGeometry v c (if rbV then some a else none) (if colV then some b else none) = true ↔
      colV = true ∨ (rbV = true ∧ c ∉ byteCommands) ∨ (v = .large ∧ c = .readoob) := by
  rw [← rbKind_eq_singleByte]
  cases colV <;> cases rbV <;> simp [needsGeometry]

/-- Settles O19: NAND.CMD is `command` behind the guard of what reads the geometry. -/
theorem cmdEmitsTheSequenceOfTheMethod : Obligations.CmdEmitsTheSequenceOfTheMethod := by
  unfold Obligations.CmdEmitsTheSequenceOfTheMethod
  intro s cmd colV rbV c rb col geometry
  have hgeo : needsGeometry s.variant c rb col = true ↔ geometry := needsGeometry_iff _ _ _ _ _ _
  have hexec : exec (.nandCmd cmd colV rbV) s = if needsGeometry s.variant c rb col = true ∧ s.detected = false then
    .next (s.endOp .noDevice) else ((command s c rb col).bind fun _ s => .val .success s).finish := rfl
  rw [hexec]
  refine ⟨congrArg BusEvent.cle (byte_read _ _), fun hd hg => ?_, fun hok ha => ?_⟩
  · rw [if_pos ⟨hgeo.2 hg, hd⟩]; rfl
  · obtain ⟨n, b, hval, hran⟩ := command_val (rb := rb) (col := col) ha
    have hpass : ¬ (needsGeometry s.variant c rb col = true ∧ s.detected = false) := by
      rintro ⟨hg, hd⟩
      obtain hd' | hg' := hok
      · simp [hd] at hd'
      · exact hg' (hgeo.1 hg)
    refine ⟨(s.setBus b).endOp .success, ?_, rfl, fun hp he => ?_, ?_⟩
    · rw [if_neg hpass, hval]; rfl
    · exact sameFlash_of_ran rfl (hran.weaken fun _ => quietCmd_of_ne hp he)
    · split
      · rename_i hw
        rw [if_pos hw] at hran
        exact ⟨n, hran.trace⟩
      · rename_i hw
        rw [if_neg hw, List.append_nil] at hran
        exact hran.trace

/-! ## Data cycles -/

/-- Two bytes, the one on the low lines first. -/
theorem ofNat_le16_pair (x y : Byte) : BitVec.ofNat 16 (le16 [x, y] 0) = y ++ x := by
  apply BitVec.eq_of_toNat_eq
  rw [BitVec.toNat_append, ← Nat.shiftLeft_add_eq_or_of_lt x.isLt, Nat.shiftLeft_eq, BitVec.toNat_ofNat]
  simp only [le16, List.getD_cons_zero, List.getD_cons_succ, Nat.zero_add]
  omega

/-- A ready chip that drives two bytes on a 16-bit bus. -/
theorem Bus.rd16_bytes {b : Bus} {ch : Chip} {x y : Byte} {l : List Byte} (h : b.chip? = some ch) (hb : ch.busy = false)
    (hd : ch.dataOut = .bytes (x :: y :: l)) :
    (b.rd16 true).1 = y ++ x ∧ (b.rd16 true).2.chip? = some { ch with dataOut := .bytes l } := by
  obtain ⟨hval, hchip⟩ := Bus.popBytes_bytes 2 h hb hd (by simp)
  have hval : (Bus.popBytes 2 b).1 = [x, y] := hval
  refine ⟨?_, hchip⟩
  rw [← ofNat_le16_pair, ← hval]
  rfl

/-- Settles O20: one data-out cycle into `RES`, and what a ready chip drives in it. -/
theorem readCyclesFillRes : Obligations.ReadCyclesFillRes := by
  unfold Obligations.ReadCyclesFillRes
  intro s
  have hran := Bus.ran_rd8 s.bus
  have hran16 := Bus.ran_rd16 s.conf.bus16 s.bus
  refine ⟨⟨_, s.bus.rd8.1, rfl, hran.trace, sameFlash_of_ran rfl hran, rfl, ?_⟩,
    ⟨_, (s.bus.rd16 s.conf.bus16).1, rfl, hran16.trace, sameFlash_of_ran rfl hran16, rfl, ?_⟩⟩
  · intro ch x l hch hb hd
    exact Bus.popByte_bytes hch hb hd
  · intro ch x y l hbus hch hb hd
    show (s.bus.rd16 s.conf.bus16).1 = y ++ x ∧ (s.bus.rd16 s.conf.bus16).2.chip? = some { ch with dataOut := .bytes l }
    rw [hbus]
    exact Bus.rd16_bytes hch hb hd

theorem dbufFits_iff {off n : Nat} : s.dbufFits off n = true ↔ off + n ≤ s.par.maxPage := by simp [State.dbufFits]

theorem dbufFits_false {off n : Nat} (h : s.par.maxPage < off + n) : s.dbufFits off n = false := by
  simp [State.dbufFits, h]

theorem transferOk_iff : transferOk s = true ↔
    s.a0.toNat + s.a1.toNat ≤ s.par.maxPage ∧ (s.conf.bus16 = true → s.a1.toNat % 2 = 0) := by
  rw [transferOk, Bool.and_eq_true, dbufFits_iff]
  cases s.conf.bus16 <;> simp

theorem exec_nandWrbuf (hro : s.conf.readOnly = false) : exec .nandWrbuf s =
    if transferOk s then
      if s.a1.toNat = 0 then .next (s.endOp .success)
      else .next ((s.wrBuf (s.dbuf.readBytes s.a0.toNat s.a1.toNat)).endOp .success)
    else .next (s.endOp .invalidAddress) := by
  show execNandWrbuf s = _
  rw [execNandWrbuf, hro, if_neg Bool.false_ne_true]

theorem exec_nandRdbuf : exec .nandRdbuf s =
    if transferOk s then
      if s.a1.toNat = 0 then .next (s.endOp .success)
      else .next (((s.setBus (s.bus.rdBuf s.a1.toNat).2).setDbuf
        (s.dbuf.writeBytes s.a0.toNat (s.bus.rdBuf s.a1.toNat).1)).endOp .success)
    else .next (s.endOp .invalidAddress) := rfl

/-- Settles O21: the two transfers of a legal window. -/
theorem bufferTransfersMoveTheWindow : Obligations.BufferTransfersMoveTheWindow := by
  unfold Obligations.BufferTransfersMoveTheWindow
  intro s hwf hfit heven
  have hok : transferOk s = true := transferOk_iff.2 ⟨hfit, heven⟩
  refine ⟨fun hz => ⟨?_, fun hro => ?_⟩, fun hz => ⟨?_, fun hro => ?_⟩⟩
  · rw [exec_nandRdbuf, if_pos hok, if_pos hz]; rfl
  · rw [exec_nandWrbuf hro, if_pos hok, if_pos hz]; rfl
  · have hran := Bus.ran_rdBuf s.a1.toNat s.bus
    have hlen := Bus.length_rdBuf s.a1.toNat s.bus
    refine ⟨_, _, (exec_nandRdbuf.trans (if_pos hok)).trans (if_neg hz), hlen, hran.trace, sameFlash_of_ran rfl hran, rfl,
      Memory.readBytes_writeBytes hwf.1 _ _ hlen, fun a ha => Memory.read_writeBytes_outside _ _ _ _ ?_⟩
    rwa [hlen]
  · have hran := Bus.ran_wrBuf s.bus (s.dbuf.readBytes s.a0.toNat s.a1.toNat)
    exact ⟨_, ((exec_nandWrbuf hro).trans (if_pos hok)).trans (if_neg hz), sameFlash_of_ran rfl hran, hran.trace, rfl⟩

/-! ## Named sequences -/

/-- What storing bytes into a window of `DBUF` leaves. -/
theorem dbuf_window (hw : s.dbuf.wf) (off : Nat) {n : Nat} {l : List Byte} (hl : l.length = n) :
    (s.dbuf.writeBytes off l).readBytes off n = l ∧
      ∀ a, (a < off ∨ off + n ≤ a) → (s.dbuf.writeBytes off l).read a = s.dbuf.read a :=
  ⟨Memory.readBytes_writeBytes hw off l hl, fun _ ha => Memory.read_writeBytes_outside _ _ _ _ (hl ▸ ha)⟩

/-- Settles O22: the reset, ID and status sequences of `command`. -/
theorem resetIdAndStatusSequences : Obligations.ResetIdAndStatusSequences := by
  unfold Obligations.ResetIdAndStatusSequences
  intro s a hwf
  refine ⟨fun ha => ?_, fun h1 h8 hfit => ?_, ?_⟩
  · obtain ⟨n, b, hval, hran⟩ := nandReset_events ha
    refine ⟨(s.setBus b).endOp .success, n, ?_, hran.trace, sameFlash_of_ran rfl hran, rfl⟩
    show (nandReset s).finish = _
    rw [nandReset, hval]; rfl
  · obtain ⟨l, b, hval, hlen, hran⟩ := readIdBytes_val s a s.a1.toNat
    obtain ⟨hread, hframe⟩ := dbuf_window hwf.1 s.a0.toNat hlen
    refine ⟨((s.setBus b).setDbuf (s.dbuf.writeBytes s.a0.toNat l)).endOp .success, l, ?_, hlen, sameFlash_of_ran rfl hran,
      hran.trace, rfl, hread, hframe⟩
    have hpass : ¬ (s.a1.toNat < 1 ∨ 8 < s.a1.toNat ∨ s.dbufFits s.a0.toNat s.a1.toNat = false) := by
      rw [dbufFits_iff.2 hfit]; simp; omega
    show execNandReadid a s = _
    rw [execNandReadid, if_neg hpass, hval]; rfl
  · obtain ⟨v, b, hval, hran⟩ := readStatus_val s
    refine ⟨((s.setBus b).setRes (v.setWidth 64)).endOp .success, v, ?_, hran.trace, sameFlash_of_ran rfl hran, rfl⟩
    show ((readStatus s).bind fun _ s => .val .success s).finish = _
    rw [hval]; rfl

/-- Settles O23: the feature sequences on a chip that answers. -/
theorem featureSequencesMoveFourBytes : Obligations.FeatureSequencesMoveFourBytes := by
  unfold Obligations.FeatureSequencesMoveFourBytes
  intro s a hwf ha hfit
  have hfit := dbufFits_iff.2 hfit
  refine ⟨?_, ?_⟩
  · obtain ⟨n, l, b, hval, hlen, hran⟩ := getFeature_val ha a
    obtain ⟨hread, hframe⟩ := dbuf_window hwf.1 s.a0.toNat hlen
    refine ⟨((s.setBus b).setDbuf (s.dbuf.writeBytes s.a0.toNat l)).endOp .success, l, n, ?_, hlen,
      sameFlash_of_ran rfl hran, hran.trace, rfl, hread, hframe⟩
    show execNandGetfeat a s = _
    rw [execNandGetfeat, if_pos hfit, hval]; rfl
  · obtain ⟨n, b, hval, hran⟩ := setFeature_val ha a (s.dbuf.readBytes s.a0.toNat 4)
    refine ⟨(s.setBus b).endOp .success, n, ?_, sameFlash_of_ran rfl hran, hran.trace, rfl⟩
    show execNandSetfeat a s = _
    rw [execNandSetfeat, if_pos hfit, hval]; rfl

end

end Sys2Proof.Machine
end

section
/-! PROOFS. The guards that come before any bus event, and the lock (10_state.md R26, 46_partition_ops.md R280, R281, R284,
60_exceptions.md section 5, 92_eei_decisions.md D9). -/

namespace Sys2Proof.Machine

section
variable {s t : State}

/-! ## Windows that do not fit -/

theorem oobFits_iff : s.oobFits = true ↔ s.geo.oobSize.toNat ≤ s.par.maxOob := by simp [State.oobFits]

theorem pageFits_iff : s.pageFits = true ↔
    s.geo.pageSize.toNat ≤ s.par.maxPage ∧ s.geo.oobSize.toNat ≤ s.par.maxOob := by
  rw [State.pageFits, Bool.and_eq_true, dbufFits_iff, oobFits_iff, Nat.zero_add]

theorem markerFits_iff : s.markerFits = true ↔
    s.geo.oobSize.toNat ≤ s.par.maxOob ∧ s.bbmPos.toNat < s.par.maxOob := by
  rw [State.markerFits, Bool.and_eq_true, oobFits_iff, decide_eq_true_iff]

theorem requestFits_iff {m : OobMode} {off size : Nat} : s.requestFits m off size = true ↔
    size ≤ s.par.maxOob ∧ ∀ x ∈ s.oobPositions m off size, x < s.par.maxOob := by
  simp [State.requestFits]

theorem oobReqOk_iff {m : OobMode} : s.oobReqOk m s.a2 s.a3 = true ↔
    s.a2.toNat < 65536 ∧ s.a3.toNat < 65536 ∧ s.a2.toNat + s.a3.toNat ≤ s.oobLimit m := by
  simp [State.oobReqOk, and_assoc]

/-- An operation whose window does not fit ends before it begins. -/
theorem finish_withDevice_misfit {f : Bool} {k : Ret Status} (hd : s.detected = true) (hf : ¬ f = true) :
    (withDevice s f k).finish = .next (s.endOp .invalidAddress) := by
  rw [withDevice_misfit hd (by simpa using hf)]; rfl

theorem finish_withDevice_none {f : Bool} {k : Ret Status} (hd : s.detected = false) :
    (withDevice s f k).finish = .next (s.endOp .noDevice) := by
  rw [withDevice_none hd]; rfl

/-! ## Operations under READ_ONLY -/

theorem pageWrite_writable (hro : s.conf.readOnly = false) (row : Nat) (m : OobMode) : pageWrite s row m =
    withDevice s s.pageFits (if s.eccActive m then withEccTable s (programPage (placeTriples s.geo.chunks 0 s) row)
      else programPage s row) := by rw [pageWrite, hro, if_neg Bool.false_ne_true]

theorem pageMarkbad_writable (hro : s.conf.readOnly = false) (row : Nat) : pageMarkbad s row =
    withDevice s s.markerFits (programOob (markerOobs s) row) := by rw [pageMarkbad, hro, if_neg Bool.false_ne_true]

theorem blockErase_writable (hro : s.conf.readOnly = false) (row : Nat) : blockErase s row =
    withDevice s true ((command s .erase1 (some row) none).bind fun _ s => confirm s .erase2 .erase) := by
  rw [blockErase, hro, if_neg Bool.false_ne_true]

/-- DEV.MARKBAD when its marker check is refused. -/
theorem devMarkbad_refused (hro : s.conf.readOnly = false) {a : Nat} {st : Status} (hbad : st ≠ .blockIsBad)
    (hok : st ≠ .success) (h : devIsvalid s a = .val st t) : devMarkbad s a = .val st t := by
  rw [devMarkbad, hro, if_neg Bool.false_ne_true, h, Ret.bind_val, if_neg hbad, if_pos hok]

theorem devIsvalid_misfit (hd : s.detected = true) (hf : ¬ s.markerFits = true) (a : Nat) :
    devIsvalid s a = .val .invalidAddress s := withDevice_misfit hd (by simpa using hf)

theorem devIsvalid_none (hd : s.detected = false) (a : Nat) : devIsvalid s a = .val .noDevice s := withDevice_none hd

/-- Settles O24: each operation checks its window before anything else. -/
theorem badBufferWindowIsRefused : Obligations.BadBufferWindowIsRefused := by
  unfold Obligations.BadBufferWindowIsRefused
  intro s a m refused
  refine ⟨fun h => ?_, fun h => ?_, fun h => ?_, fun h => ?_, fun h => ?_, fun hd => ⟨fun h => ?_, fun h => ?_, fun h => ?_,
    fun h => ?_⟩⟩
  · have hf : ¬ s.dbufFits s.a0.toNat 256 = true := by rw [dbufFits_iff]; omega
    exact ⟨if_neg hf, if_neg hf⟩
  · have hf : ¬ s.dbufFits s.a0.toNat s.a1.toNat = true := by rw [dbufFits_iff]; omega
    exact if_neg hf
  · have hf : ¬ transferOk s = true := by
      rw [transferOk_iff]
      rintro ⟨hfit, heven⟩
      obtain h | ⟨hbus, hodd⟩ := h
      · omega
      · have := heven hbus; omega
    exact ⟨exec_nandRdbuf.trans (if_neg hf), fun hro => (exec_nandWrbuf hro).trans (if_neg hf)⟩
  · refine if_pos ?_
    obtain h | h | h := h
    · exact .inr (.inr (dbufFits_false h))
    · exact .inl (by omega)
    · exact .inr (.inl h)
  · have hf : ¬ s.dbufFits s.a0.toNat 4 = true := by rw [dbufFits_iff]; omega
    exact ⟨if_neg hf, if_neg hf⟩
  · have hf : ¬ s.pageFits = true := by rw [pageFits_iff]; omega
    refine ⟨finish_withDevice_misfit hd hf, fun hro => ?_⟩
    show (pageWrite s s.a0.toNat m).finish = _
    rw [pageWrite_writable hro]
    exact finish_withDevice_misfit hd hf
  · have hf : ¬ s.oobFits = true := by rw [oobFits_iff]; omega
    exact ⟨finish_withDevice_misfit hd hf, finish_withDevice_misfit hd (by simp [hf])⟩
  · have hf : ¬ s.markerFits = true := by rw [markerFits_iff]; omega
    refine ⟨finish_withDevice_misfit hd hf, fun hro => ⟨?_, ?_⟩⟩
    · show (pageMarkbad s s.a0.toNat).finish = _
      rw [pageMarkbad_writable hro]
      exact finish_withDevice_misfit hd hf
    · show (devMarkbad s s.a0.toNat).finish = _
      rw [devMarkbad_refused hro (by simp) (by simp) (devIsvalid_misfit hd hf _)]
      rfl
  · have hf : ¬ s.requestFits m s.a2.toNat s.a3.toNat = true := by
      rw [requestFits_iff]
      rintro ⟨hsize, hplace⟩
      obtain h | ⟨x, hx, hmax⟩ := h
      · omega
      · have := hplace x hx; omega
    exact ⟨finish_withDevice_misfit hd (by simp [hf]), finish_withDevice_misfit hd (by simp [hf])⟩

/-! ## Refused PART operations -/

theorem partOp_refused {r : Option Status} {f : Bool} {body : State → Ret Status} {st : Status} (h : r = some st) :
    partOp s r f body = .next (s.endOp st) := by subst h; rfl

theorem eraseModeOf_legal {k : BitVec 2} (h : k ≠ 3#2) : ∃ m, eraseModeOf k = some m := by
  obtain rfl | rfl | rfl : k = 0#2 ∨ k = 1#2 ∨ k = 2#2 := by
    have hk : ∀ k : BitVec 2, k ≠ 3#2 → k = 0#2 ∨ k = 1#2 ∨ k = 2#2 := by decide
    exact hk k h
  · exact ⟨.normal, rfl⟩
  · exact ⟨.force, rfl⟩
  · exact ⟨.markBadOnError, rfl⟩

theorem exec_partErase {p : BitVec 4} {k : BitVec 2} {m : EraseMode} (hm : eraseModeOf k = some m) :
    exec (.partErase p k) s = partOp s (blockValidate s p s.conf.capErase true) (s.eraseFits m)
      fun s => eraseBlock s (s.dev p) m := by
  show execPartErase p k s = _
  rw [execPartErase, hm]

/-- PART.ERASEALL of a partition. -/
theorem exec_partEraseall {p : BitVec 4} {k : BitVec 2} {m : EraseMode} {e : PartEntry} (hm : eraseModeOf k = some m)
    (hp : s.part p = some e) : exec (.partEraseall p k) s = partOp s (eraseallValidate s p)
      (blocksIn s.geo.blockSize.toNat e.psize.toNat == 0 || s.eraseFits m)
      fun s => eraseBlocks m (blocksIn s.geo.blockSize.toNat e.psize.toNat) e.begin.toNat .success s := by
  show execPartEraseall p k s = _
  rw [execPartEraseall, hm, hp]

theorem exec_partEraseall_refused {p : BitVec 4} {k : BitVec 2} {m : EraseMode} {st : Status}
    (hm : eraseModeOf k = some m) (h : eraseallValidate s p = some st) :
    exec (.partEraseall p k) s = .next (s.endOp st) := by
  show execPartEraseall p k s = _
  rw [execPartEraseall, hm]
  cases s.part p with
  | none => exact partOp_refused h
  | some e => exact partOp_refused h

theorem rwValidate_noDevice (hd : s.detected = false) (p : BitVec 4) (o : Option OobMode) (c w : Bool) :
    rwValidate s p o c w = some .noDevice := if_pos hd

theorem blockValidate_noDevice (hd : s.detected = false) (p : BitVec 4) (c w : Bool) :
    blockValidate s p c w = some .noDevice := if_pos hd

theorem eraseallValidate_noDevice (hd : s.detected = false) (p : BitVec 4) : eraseallValidate s p = some .noDevice :=
  if_pos hd

theorem exec_partCreate_refused {p d : BitVec 4} {st : Status} (h : createRefusal s p d = some st) :
    exec (.partCreate p d) s = .next (s.endOp st) := by
  show execPartCreate p d s = _
  rw [execPartCreate, h]

/-- Settles O25: `DETECTED` is what each of these operations looks at first, and `READ_ONLY` what those that program or
erase look at before it. -/
theorem guardsRefuseBeforeAnyBusEvent : Obligations.GuardsRefuseBeforeAnyBusEvent := by
  unfold Obligations.GuardsRefuseBeforeAnyBusEvent
  intro s m p q e
  refine ⟨fun hd he => ?_, fun hd hro => ?_, fun hro => ?_⟩
  · obtain ⟨k, hk⟩ := eraseModeOf_legal he
    simp only [List.forall_mem_cons, List.not_mem_nil, false_imp_iff, implies_true, and_true]
    refine ⟨finish_withDevice_none hd, finish_withDevice_none hd, finish_withDevice_none hd, finish_withDevice_none hd,
      finish_withDevice_none hd, exec_partCreate_refused (if_pos hd), partOp_refused (rwValidate_noDevice hd ..),
      partOp_refused (rwValidate_noDevice hd ..), partOp_refused (rwValidate_noDevice hd ..),
      partOp_refused (rwValidate_noDevice hd ..), (exec_partErase hk).trans (partOp_refused (blockValidate_noDevice hd ..)),
      exec_partEraseall_refused hk (eraseallValidate_noDevice hd p), partOp_refused (blockValidate_noDevice hd ..),
      partOp_refused (blockValidate_noDevice hd ..)⟩
  · have hwrite : exec (.pageWrite m) s = (pageWrite s s.a0.toNat m).finish := rfl
    have hmark : exec .pageMarkbad s = (pageMarkbad s s.a0.toNat).finish := rfl
    have herase : exec .blockErase s = (blockErase s s.a0.toNat).finish := rfl
    have hdev : exec .devMarkbad s = (devMarkbad s s.a0.toNat).finish := rfl
    simp only [List.forall_mem_cons, List.not_mem_nil, false_imp_iff, implies_true, and_true]
    rw [hwrite, hmark, herase, hdev, pageWrite_writable hro, pageMarkbad_writable hro, blockErase_writable hro,
      devMarkbad_refused hro (by simp) (by simp) (devIsvalid_none hd _)]
    exact ⟨finish_withDevice_none hd, finish_withDevice_none hd, finish_withDevice_none hd, rfl⟩
  · have hval (x : Ret Status) : (if s.conf.readOnly = true then Ret.val .readOnly s else x).finish =
        .next (s.endOp .readOnly) := by rw [if_pos hro]; rfl
    simp only [List.forall_mem_cons, List.not_mem_nil, false_imp_iff, implies_true, and_true]
    exact ⟨if_pos hro, hval _, hval _, hval _, hval _⟩

/-! ## Zero-size requests -/

/-- A request of no bytes up to the end of the partition. -/
theorem rwValidate_zero {p : BitVec 4} {e : PartEntry} {oob : Option OobMode} (cap w : Bool) (hd : s.detected = true)
    (hp : s.part p = some e) (h1 : s.a1 = 0) (h0 : s.a0.toNat ≤ e.psize.toNat)
    (ho : ∀ m, oob = some m → s.a3 = 0 ∧ s.oobReqOk m s.a2 s.a3 = true) : rwValidate s p oob cap w = some .success := by
  have hbounds : s.oobOutOfBounds oob = false ∧ (oob.isNone = true ∨ s.a3 = 0) := by
    cases oob with
    | none => exact ⟨rfl, .inl rfl⟩
    | some m => exact ⟨by rw [State.oobOutOfBounds, (ho m rfl).2]; rfl, .inr (ho m rfl).1⟩
  unfold rwValidate
  rw [if_neg (by simp [hd]), hp]
  dsimp only
  rw [if_neg (by simp [h1]), if_neg (by simp [h1]; omega), if_neg (by simp [hbounds.1]), if_pos ⟨h1, hbounds.2⟩]

/-- A request that starts beyond the end of the partition. -/
theorem rwValidate_beyond {p : BitVec 4} {e : PartEntry} (oob : Option OobMode) (cap w : Bool) (hd : s.detected = true)
    (hp : s.part p = some e) (h1 : s.a1 = 0) (h0 : e.psize.toNat < s.a0.toNat) :
    rwValidate s p oob cap w = some .invalidAddress := by
  unfold rwValidate
  rw [if_neg (by simp [hd]), hp]
  dsimp only
  rw [if_neg (by simp [h1]), if_pos (by omega)]

/-- Settles O47: `rw_validate` answers a request of no bytes before it looks at capabilities, `READ_ONLY` and the lock. -/
theorem zeroSizeRequestTouchesNothing : Obligations.ZeroSizeRequestTouchesNothing := by
  unfold Obligations.ZeroSizeRequestTouchesNothing
  intro s p m e hd hp h1
  refine ⟨fun h0 => ?_, fun h0 => ?_⟩
  · have hzero (cap w : Bool) : rwValidate s p none cap w = some .success :=
      rwValidate_zero cap w hd hp h1 h0 fun _ h => nomatch h
    refine ⟨partOp_refused (hzero _ _), partOp_refused (hzero _ _), fun h3 hreq => ?_⟩
    have hoob (cap w : Bool) : rwValidate s p (some m) cap w = some .success :=
      rwValidate_zero cap w hd hp h1 h0 fun _ h => by cases h; exact ⟨h3, hreq⟩
    exact ⟨partOp_refused (hoob _ _), partOp_refused (hoob _ _)⟩
  · have hbeyond (oob : Option OobMode) (cap w : Bool) := rwValidate_beyond oob cap w hd hp h1 h0
    simp only [List.forall_mem_cons, List.not_mem_nil, false_imp_iff, implies_true, and_true]
    exact ⟨partOp_refused (hbeyond ..), partOp_refused (hbeyond ..), partOp_refused (hbeyond ..),
      partOp_refused (hbeyond ..)⟩

/-! ## The lock -/

theorem exec_lockObtain_free (hl : s.lock = false) :
    exec .lockObtain s = .next { s with lock := true, status := .success, phase := .idle } := by
  show ((acquire s).bind fun _ s => .val .success s).finish = _
  rw [acquire, hl, if_neg Bool.false_ne_true]
  rfl

theorem exec_lockObtain_held (hl : s.lock = true) : exec .lockObtain s = .next { s with phase := .stallLock } := by
  show ((acquire s).bind fun _ s => .val .success s).finish = _
  rw [acquire, if_pos hl]
  rfl

/-- A stalled requester whose lock has become free runs its request. -/
theorem step_unstalled {i : Instr} (hport : s.busPort = none) (hp : s.phase = .stallLock) (hl : s.lock = false)
    (hdec : decode (.request s.cw) = .ok i) : step s = exec i { s with phase := .run } := by
  have hstep : step s = retryLock s := by simp only [step, hport, phaseStep, hp]
  rw [hstep, retryLock, if_neg (by simp [hl])]
  exact runRequest_of_decode (s := s.setPhase .run) hdec

/-- Settles O45: test and set of `LOCK`, and the retry of a stalled request. -/
theorem lockIsTestAndSet : Obligations.LockIsTestAndSet := by
  unfold Obligations.LockIsTestAndSet
  have hobtain : decode (.request 0x00000070#32) = .ok .lockObtain := by decide
  refine ⟨hobtain, by decide, fun s => ⟨fun hport hp hl => ⟨fun i hdec => step_unstalled hport hp hl hdec, fun hcw => ?_⟩,
    exec_lockObtain_free, exec_lockObtain_held, rfl⟩⟩
  rw [step_unstalled hport hp hl (by rw [hcw]; exact hobtain)]
  exact exec_lockObtain_free hl

end

end Sys2Proof.Machine
end

section
/-! PROOFS. The page operations (44_page_ops.md), as bus sequences and on the chip that DETECT saw (20_memory.md R65,
R66). -/

namespace Sys2Proof.Machine

section
variable {s t : State}

/-! ## Bus sequences -/

/-- Settles O32: PAGE.READ with what its sub-operation leaves. -/
theorem pageReadMovesAndChecksThePage : Obligations.PageReadMovesAndChecksThePage := by
  unfold Obligations.PageReadMovesAndChecksThePage
  intro s m hwf hready hecc
  obtain ⟨hwd, -, hwo, -⟩ := hwf
  obtain ⟨n, main, oob, st, b, d, o, ca, rd, acc, hval, hran, -, -, hleaves⟩ := pageRead_val hready hecc hwd hwo s.a0.toNat
  refine ⟨({ s with bus := b, dbuf := d, oobs := o, eccCa := ca, eccRd := rd, acc := acc } : State).endOp st, n, main, oob,
    ?_, hran.trace, sameFlash_of_ran rfl hran, hleaves, rfl⟩
  show (pageRead s s.a0.toNat m).finish = _
  rw [hval]; rfl

/-- Settles O33: PAGE.WRITE with what its sub-operation sends and leaves. -/
theorem pageWriteSendsThePage : Obligations.PageWriteSendsThePage := by
  unfold Obligations.PageWriteSendsThePage
  intro s m hwf hready hro hecc
  obtain ⟨-, -, hwo, -⟩ := hwf
  obtain ⟨n, v, b, o, ca, acc, hval, hran, -, hleaves⟩ := pageWrite_val hready hro hecc hwo s.a0.toNat
  refine ⟨({ s with bus := b, oobs := o, eccCa := ca, acc := acc, res := v.setWidth 64 } : State).endOp
    (if s.tellsFailure v then .write else .success), n, v, ?_, hleaves, hran.trace, rfl⟩
  show (pageWrite s s.a0.toNat m).finish = _
  rw [hval]; rfl

/-- Settles O34: PAGE.READOOB. -/
theorem pageReadoobMovesTheSpareBytes : Obligations.PageReadoobMovesTheSpareBytes := by
  unfold Obligations.PageReadoobMovesTheSpareBytes
  intro s hwf hready hfit
  obtain ⟨-, -, hwo, -⟩ := hwf
  obtain ⟨n, oob, b, o, hval, hlen, hran, -, hread, hframe⟩ := pageReadoob_val hready hfit hwo s.a0.toNat
  refine ⟨((s.setBus b).setOobs o).endOp .success, n, oob, ?_, hlen, hran.trace, sameFlash_of_ran rfl hran, rfl, hread,
    hframe⟩
  show (pageReadoob s s.a0.toNat).finish = _
  rw [hval]; rfl

/-- Settles O35: PAGE.MARKBAD, and the scratch buffer it prepares. -/
theorem pageMarkbadProgramsTheMarker : Obligations.PageMarkbadProgramsTheMarker := by
  unfold Obligations.PageMarkbadProgramsTheMarker
  intro s hwf hready hfit hro
  obtain ⟨-, -, hwo, -⟩ := hwf
  obtain ⟨n, v, b, hval, hran⟩ := pageMarkbad_val hready hro hfit hwo s.a0.toNat
  have hmarker := read_markerOobs hwo
  have ho : markerOobs s = s.setOobs (markerOobs s).oobs := rfl
  rw [ho] at hval
  generalize (markerOobs s).oobs = o at hval hmarker
  refine ⟨(((s.setOobs o).setBus b).setRes (v.setWidth 64)).endOp (if s.tellsFailure v then .write else .success), n, v,
    ?_, hran.trace, rfl, rfl, ?_, fun a ha hne => ?_⟩
  · show (pageMarkbad s s.a0.toNat).finish = _
    rw [hval]; rfl
  · exact (hmarker _).trans (if_pos rfl)
  · exact ((hmarker a).trans (if_neg hne)).trans (if_pos ha)

/-- Settles O36: BLOCK.ERASE. -/
theorem blockEraseSendsTheRow : Obligations.BlockEraseSendsTheRow := by
  unfold Obligations.BlockEraseSendsTheRow
  intro s hready hro
  obtain ⟨n, v, b, hval, hran⟩ := blockErase_val hready hro s.a0.toNat
  refine ⟨((s.setBus b).setRes (v.setWidth 64)).endOp (if s.tellsFailure v then .erase else .success), n, v, ?_, hran.trace,
    rfl⟩
  show (blockErase s s.a0.toNat).finish = _
  rw [hval]; rfl

/-! ## Reading the array -/

variable {ch x : Chip} {row : Nat}

theorem Chip.key_add (ch : Chip) (row i k : Nat) : ch.key row (i + k) = ch.key row i + k := by
  unfold Chip.key; omega

theorem Chip.key_succ (ch : Chip) (row : Nat) : ch.key (row + 1) 0 = ch.key row 0 + ch.stride := by
  unfold Chip.key; rw [Nat.succ_mul]; omega

/-- The bytes of another memory, written at the beginning of a buffer. -/
theorem Memory.read_writeBytes_readBytes {m : Memory} (h : m.wf) (c : Memory) (base : Nat) {n k : Nat} (hk : k < n) :
    (m.writeBytes 0 (c.readBytes base n)).read k = c.read (base + k) := by
  have hread := Memory.read_writeBytes_inside h 0 k (c.readBytes base n) (by simpa using hk)
  rw [Nat.zero_add, Memory.getElem_readBytes] at hread
  exact hread

/-- Settles O37: the page of the array lands in the buffers, main bytes and spare bytes. -/
theorem pageReadReturnsTheFlashBytes : Obligations.PageReadReturnsTheFlashBytes := by
  unfold Obligations.PageReadReturnsTheFlashBytes
  intro s ch hwf hd hf hch hm hr
  obtain ⟨hwd, -, hwo, -⟩ := hwf
  obtain ⟨b, hval⟩ := pageRead_chip hd hf hch hm hr
  have hexec : exec (.pageRead .raw) s = (pageRead s s.a0.toNat .raw).finish := rfl
  rw [hval, Ret.finish_val] at hexec
  refine ⟨_, hexec, rfl, ?_, fun k hk => ?_, fun k hk => ?_⟩
  · exact Went.sameFlash (k := true) ((pageRead_fits s s.a0.toNat .raw).finish hexec)
  · exact (Memory.read_writeBytes_readBytes hwd _ _ hk).trans (by rw [← Chip.key_add, Nat.zero_add]; rfl)
  · exact (Memory.read_writeBytes_readBytes hwo _ _ hk).trans (by rw [← Chip.key_add]; rfl)

/-! ## Changing the array -/

/-- The selected chip is one of the chips on the bus. -/
theorem Bus.chip?_eq {b : Bus} {c : Byte} (hsel : b.selected = some c) : b.chip? = b.chips[c.toNat]? := by
  rw [Bus.chip?, hsel]; rfl

theorem Bus.mem_of_chip? {b : Bus} (h : b.chip? = some ch) : ch ∈ b.chips := by
  rw [Bus.chip?, Option.bind_eq_some_iff] at h
  obtain ⟨c, -, hc⟩ := h
  exact List.mem_of_getElem? hc

/-- The array of the selected chip. -/
theorem Bus.flash_selected {b : Bus} {c : Byte} (hsel : b.selected = some c) (h : b.chip? = some ch) (a : Nat) :
    b.flash c.toNat a = ch.cells.read a := by
  rw [Bus.chip?_eq hsel] at h
  rw [Bus.flash, h]

/-- After a run that selects no other chip, the arrays: that of the selected chip, and those of the others. -/
theorem Bus.Ran.arrays {q : Bool} {l : List BusEvent} {b b' : Bus} {c : Byte} (h : Bus.Ran q l b b')
    (hstays : ∀ e ∈ l, e.stays) (hsel : b.selected = some c) (hx : b'.chip? = some x) :
    (∀ a, b'.flash c.toNat a = x.cells.read a) ∧ ∀ d a, d ≠ c.toNat → b'.flash d a = b.flash d a := by
  have hsel' : b'.selected = some c := by rw [h.selected, foldl_pick hstays, hsel]
  refine ⟨Bus.flash_selected hsel' hx, fun d a hd => ?_⟩
  have hother : b'.chips[d]? = b.chips[d]? := h.others hstays d fun c' hc' => by
    rw [hsel] at hc'
    cases hc'
    exact hd.symm
  rw [Bus.flash, Bus.flash, hother]

/-- A program of one page on the chip that DETECT saw, where the program does not fail. -/
theorem programPage_chip (h : s.bus.chip? = some ch) (hm : ch.matches s) (hr : row < ch.rows)
    (hf : ch.progFails.fails row = false) :
    ∃ b x v l, programPage s row = .val .success ((s.setBus b).setRes v) ∧ b.chip? = some x ∧
      Bus.Ran false l s.bus b ∧ (∀ e ∈ l, e.stays) ∧
      x.cells = programCells ch.cells (ch.key row 0)
        (s.dbuf.readBytes 0 s.geo.pageSize.toNat ++ s.oobs.readBytes 0 s.geo.oobSize.toNat) := by
  generalize hmain : s.dbuf.readBytes 0 s.geo.pageSize.toNat = main
  generalize hoob : s.oobs.readBytes 0 s.geo.oobSize.toNat = oob
  have hlen : (main ++ oob).length = ch.stride := by
    rw [List.length_append, ← hmain, ← hoob, Memory.length_readBytes, Memory.length_readBytes, ← hm.2.1, ← hm.2.2.1]
    rfl
  obtain ⟨x, hx, hlike, hcmd, hin, haddr, hrow, hcol⟩ := chip?_seqin (k := 0) h hm hr (.inl rfl)
  rw [if_pos rfl] at hcol
  have hran := ((ran_methodBus s .seqin (some row) (some 0)).trans (Bus.ran_wrBuf _ main)).trans (Bus.ran_wrBuf _ oob)
  have hchip : (((methodBus s .seqin (some row) (some 0)).wrBuf main).wrBuf oob).chip? =
      some { x with dataIn := main ++ oob } := by
    have hfirst : x.writeData main = { x with dataIn := main } := by
      rw [Chip.writeData_seqin hcmd, hin, List.nil_append]
    have hsecond : ({ x with dataIn := main } : Chip).writeData oob = { x with dataIn := main ++ oob } :=
      Chip.writeData_seqin (x := { x with dataIn := main }) hcmd oob
    rw [Bus.chip?_wrBuf, Bus.chip?_wrBuf, hx, Option.map_some, Option.map_some, hfirst, hsecond]
  generalize hb0 : ((methodBus s .seqin (some row) (some 0)).wrBuf main).wrBuf oob = b0 at hran hchip
  obtain ⟨b, y, n, v, hval, hy, hran2, hcells, -, hfail⟩ := confirm_chip (s := s.setBus b0) (failure := .write) (.inl rfl)
    hchip (hlike.parts.2.2.2.2.2.1.trans hm.1) ((Chip.failMask_of_fixed hlike.fixed).trans hm.2.2.2.2.2.2.2.2.1)
    hm.2.2.2.2.2.2.2.2.2
  obtain ⟨hprog, hok⟩ := Chip.program_cells (x := { x with dataIn := main ++ oob }) (s.setBus b0).bus.fresh hcmd haddr
    (by show x.rowAddr < x.rows; rw [hrow, hlike.parts.2.2.2.1]; exact hr)
    (by show x.progFails.fails x.rowAddr = false; rw [hrow, hlike.parts.2.2.2.2.2.2.2.1]; exact hf)
  rw [hfail.trans hok] at hval
  refine ⟨b, y, v.setWidth 64, _, ?_, hy, (hran.trans hran2).weaken (by simp), ?_, ?_⟩
  · rw [programPage, command_noWait s _ _ (by decide), Ret.bind_val]
    simp only [State.wrBuf, State.setBus_bus, State.setBus_oobs, State.setBus_geo, State.setBus_dbuf, State.setBus_setBus,
      hmain, hoob, hb0]
    rw [hval]
    rfl
  · intro e he
    simp only [List.mem_append, List.mem_singleton] at he
    obtain ((he | rfl) | rfl) | he := he
    · exact commandEvents_stays _ _ _ _ e he
    · exact fun _ => rfl
    · exact fun _ => rfl
    · exact confirmEvents_stays _ _ _ _ e he
  · rw [hcells, hprog]
    show programCells x.cells (x.key x.rowAddr x.colAddr) ((main ++ oob).take (x.stride - x.colAddr)) = _
    rw [hcol, hrow, hlike.stride, Nat.sub_zero, ← hlen, List.take_length, hlike.cells, hlike.key]

/-- Settles O38: the confirm programs `main ++ oob` from column 0 of the row on. -/
theorem pageWriteProgramsByAnd : Obligations.PageWriteProgramsByAnd := by
  unfold Obligations.PageWriteProgramsByAnd
  intro s ch c hwf hd hf hro hsel hch hm hr hfail
  obtain ⟨b, x, v, l, hval, hx, hran, hstays, hcells⟩ := programPage_chip hch hm hr hfail
  have hwch : ch.cells.wf := hwf.2.2.2 ch (Bus.mem_of_chip? hch)
  obtain ⟨hself, hothers⟩ := hran.arrays hstays hsel hx
  rw [hcells] at hself
  have hlen : (s.dbuf.readBytes 0 s.geo.pageSize.toNat ++ s.oobs.readBytes 0 s.geo.oobSize.toNat).length = ch.stride := by
    rw [List.length_append, Memory.length_readBytes, Memory.length_readBytes, ← hm.2.1, ← hm.2.2.1]
    rfl
  have hstride : ch.stride = s.geo.pageSize.toNat + s.geo.oobSize.toNat := by
    rw [← hm.2.1, ← hm.2.2.1]; rfl
  refine ⟨((s.setBus b).setRes v).endOp .success, ?_, rfl, fun k hk => ?_, fun k hk => ?_, fun d a hda => ?_⟩
  · show (pageWrite s s.a0.toNat .raw).finish = _
    rw [pageWrite_writable hro, withDevice_pos hd hf, if_neg (by simp [State.eccActive]), hval]
    rfl
  · refine (hself _).trans ?_
    rw [← Nat.zero_add k, Chip.key_add, read_programCells_inside hwch _ _ _ (by omega),
      List.getElem_append_left (by simpa using hk), Memory.getElem_readBytes, Nat.zero_add, ← Chip.key_add, Nat.zero_add]
    rfl
  · refine (hself _).trans ?_
    rw [← Nat.zero_add (s.geo.pageSize.toNat + k), Chip.key_add, read_programCells_inside hwch _ _ _ (by omega),
      List.getElem_append_right (by simp), Memory.getElem_readBytes, Memory.length_readBytes, Nat.add_sub_cancel_left,
      Nat.zero_add, ← Chip.key_add, Nat.zero_add]
    rfl
  · by_cases hdc : d = c.toNat
    · subst hdc
      have ha : a < ch.key s.a0.toNat 0 ∨ ch.key s.a0.toNat 0 + ch.stride ≤ a := by
        rw [← Chip.key_succ]; simpa using hda
      refine (hself a).trans ?_
      rw [read_programCells_outside _ _ _ _ (by rw [hlen]; exact ha)]
      exact (Bus.flash_selected hsel hch a).symm
    · exact hothers d a hdc

/-- An erase on the chip that DETECT saw, where it does not fail. -/
theorem blockErase_chip (hd : s.detected = true) (hro : s.conf.readOnly = false) (h : s.bus.chip? = some ch)
    (hm : ch.matches s) (hr : row < ch.rows) (hf : ch.eraseFails.fails row = false) :
    ∃ b x v l, blockErase s row = .val .success ((s.setBus b).setRes v) ∧ b.chip? = some x ∧ Bus.Ran false l s.bus b ∧
      (∀ e ∈ l, e.stays) ∧
      x.cells = ch.cells.clearRange (ch.key (ch.firstRow row) 0) (ch.key (ch.firstRow row + ch.pagesPerBlock) 0) := by
  obtain ⟨x, hx, hlike, hcmd, hcyc, hrow⟩ := chip?_erase h hm hr
  have hran := ran_methodBus s .erase1 (some row) none
  generalize hb0 : methodBus s .erase1 (some row) none = b0 at hx hran
  obtain ⟨b, y, n, v, hval, hy, hran2, hcells, -, hfail⟩ := confirm_chip (s := s.setBus b0) (failure := .erase) (.inr rfl)
    hx (hlike.parts.2.2.2.2.2.1.trans hm.1) ((Chip.failMask_of_fixed hlike.fixed).trans hm.2.2.2.2.2.2.2.2.1)
    hm.2.2.2.2.2.2.2.2.2
  obtain ⟨herase, hok⟩ := Chip.erase_cells (x := x) (s.setBus b0).bus.fresh hcmd hcyc
    (by rw [hrow, hlike.parts.2.2.2.1]; exact hr) (by rw [hrow, hlike.parts.2.2.2.2.2.2.2.2.1]; exact hf)
  rw [hfail.trans hok] at hval
  have hfirst : x.firstRow row = ch.firstRow row := by unfold Chip.firstRow; rw [hlike.parts.2.2.1]
  refine ⟨b, y, v.setWidth 64, _, ?_, hy, (hran.trans hran2).weaken (by simp), ?_, ?_⟩
  · rw [blockErase_writable hro, withDevice_pos hd rfl, command_noWait s _ _ (by decide), Ret.bind_val, hb0, hval]
    rfl
  · intro e he
    obtain he | he := List.mem_append.1 he
    · exact commandEvents_stays _ _ _ _ e he
    · exact confirmEvents_stays _ _ _ _ e he
  · rw [hcells, herase, hrow, hfirst, hlike.key, hlike.key, hlike.cells, hlike.parts.2.2.1]

/-- Settles O39: the confirm clears the cells of the block of the row. -/
theorem blockEraseSetsTheBlockToOnes : Obligations.BlockEraseSetsTheBlockToOnes := by
  unfold Obligations.BlockEraseSetsTheBlockToOnes
  intro s ch c hd hro hsel hch hm hr hfail
  obtain ⟨b, x, v, l, hval, hx, hran, hstays, hcells⟩ := blockErase_chip hd hro hch hm hr hfail
  obtain ⟨hself, hothers⟩ := hran.arrays hstays hsel hx
  rw [hcells] at hself
  refine ⟨((s.setBus b).setRes v).endOp .success, ?_, rfl, fun a hlo hhi => ?_, fun d a hda => ?_⟩
  · show (blockErase s s.a0.toNat).finish = _
    rw [hval]; rfl
  · refine (hself a).trans ?_
    rw [Memory.read_clearRange, if_pos ⟨hlo, hhi⟩]
  · by_cases hdc : d = c.toNat
    · subst hdc
      refine (hself a).trans ?_
      rw [Memory.read_clearRange, if_neg (by rintro ⟨hlo, hhi⟩; simp at hda; omega)]
      exact (Bus.flash_selected hsel hch a).symm
    · exact hothers d a hdc

/-! ## The OOB scratch buffer -/

/-- Where byte `b` of the request of the operands stands in the scratch buffer. -/
def requestPlace (s : State) (m : OobMode) (b : Nat) : Nat :=
  match m with
  | .auto => (tablePositions s.freeTab).getD (s.a2.toNat + b) 0
  | .raw => s.a2.toNat + b

theorem oobPositions_getD_request {m : OobMode} (hok : s.oobReqOk m s.a2 s.a3 = true) {b : Nat} (hb : b < s.a3.toNat) :
    (s.oobPositions m s.a2.toNat s.a3.toNat).getD b 0 = requestPlace s m b := by
  obtain ⟨-, -, hlimit⟩ := oobReqOk_iff.1 hok
  cases m with
  | auto => exact oobPositions_getD hb fun _ => hlimit
  | raw => exact oobPositions_getD (m := .raw) hb (by simp)

theorem placeable_of_tables {m : OobMode} {n : Addr}
    (h : m = .auto → n ≠ 0 → tablesWellFormed s.freeTab s.eccTab s.geo.oobSize.toNat = true) :
    s.placeable m n.toNat = true := by
  cases m with
  | raw => rfl
  | auto =>
    by_cases hn : n = 0
    · subst hn; rfl
    · simp [State.placeable, h rfl hn]

/-- Gathering the request of the operands. -/
theorem gatherOob_request {m : OobMode} (hw : s.obuf.wf) (hok : s.oobReqOk m s.a2 s.a3 = true)
    (ht : m = .auto → s.a3 ≠ 0 → tablesWellFormed s.freeTab s.eccTab s.geo.oobSize.toNat = true) :
    ∃ o, gatherOob s m s.a2.toNat s.a3.toNat = .val .success (s.setObuf o) ∧
      (∀ b, b < s.a3.toNat → o.read b = s.oobs.read (requestPlace s m b)) ∧
      ∀ a, s.a3.toNat ≤ a → o.read a = s.obuf.read a := by
  obtain ⟨-, -, hlimit⟩ := oobReqOk_iff.1 hok
  obtain ⟨o, hval, -, hin, hout⟩ := gatherOob_val (s := s) (off := s.a2.toNat) hw (placeable_of_tables ht)
    fun h => by subst h; exact hlimit
  exact ⟨o, hval, fun b hb => by rw [hin b hb, oobPositions_getD_request hok hb], hout⟩

/-- Scattering the request of the operands over a blank OOB area. -/
theorem scatterOob_request {m : OobMode} (hw : s.oobs.wf) (hok : s.oobReqOk m s.a2 s.a3 = true)
    (ht : m = .auto → s.a3 ≠ 0 → tablesWellFormed s.freeTab s.eccTab s.geo.oobSize.toNat = true) :
    ∃ o, scatterOob s m s.a2.toNat s.a3.toNat = .val .success (s.setOobs o) ∧ o.wf ∧
      (∀ b, b < s.a3.toNat → o.read (requestPlace s m b) = s.obuf.read b) ∧
      (∀ a, a < s.geo.oobSize.toNat → (∀ b, b < s.a3.toNat → a ≠ requestPlace s m b) → o.read a = 0xFF#8) ∧
      ∀ a, s.geo.oobSize.toNat ≤ a → o.read a = s.oobs.read a := by
  obtain ⟨-, -, hlimit⟩ := oobReqOk_iff.1 hok
  obtain ⟨o, hval, hwo, hin, hblank, hout⟩ := scatterOob_val (s := s) (off := s.a2.toNat) hw (placeable_of_tables ht)
    (fun h => by subst h; exact hlimit) (fun h => by subst h; exact hlimit)
  refine ⟨o, hval, hwo, fun b hb => ?_, fun a ha hne => hblank a ha fun b hb => ?_, hout⟩
  · rw [← oobPositions_getD_request hok hb]; exact hin b hb
  · rw [oobPositions_getD_request hok hb]; exact hne b hb

/-- A request that is out of bounds. -/
theorem not_oobReqOk {m : OobMode}
    (h : 65536 ≤ s.a2.toNat ∨ 65536 ≤ s.a3.toNat ∨ s.oobLimit m < s.a2.toNat + s.a3.toNat) :
    ¬ s.oobReqOk m s.a2 s.a3 = true := by
  rw [oobReqOk_iff]; omega

/-- Settles O40: the guard of OOB.COPY, then the gathering. -/
theorem oobCopyGathersTheRequest : Obligations.OobCopyGathersTheRequest := by
  unfold Obligations.OobCopyGathersTheRequest
  intro s m hwf hd limit
  have hlimit : limit = s.oobLimit m := by cases m <;> rfl
  rw [hlimit]
  refine ⟨fun h => finish_withDevice_misfit hd (by simp [not_oobReqOk h]), fun h2 h3 hle hfit ht => ?_⟩
  have hok : s.oobReqOk m s.a2 s.a3 = true := oobReqOk_iff.2 ⟨h2, h3, hle⟩
  obtain ⟨o, hval, hin, hout⟩ := gatherOob_request hwf.2.1 hok ht
  refine ⟨(s.setObuf o).endOp .success, ?_, rfl, hin, hout⟩
  show (withDevice s _ _).finish = _
  rw [withDevice_pos hd (by rw [hok, hfit]; rfl), hval]
  rfl

/-- Settles O41: the guard of OOB.FILL, then the scattering. -/
theorem oobFillScattersTheRequest : Obligations.OobFillScattersTheRequest := by
  unfold Obligations.OobFillScattersTheRequest
  intro s m hwf hd limit place
  have hlimit : limit = s.oobLimit m := by cases m <;> rfl
  rw [hlimit]
  refine ⟨fun h => finish_withDevice_misfit hd (by simp [not_oobReqOk h]), fun h2 h3 hle harea hfit ht => ?_⟩
  have hok : s.oobReqOk m s.a2 s.a3 = true := oobReqOk_iff.2 ⟨h2, h3, hle⟩
  obtain ⟨o, hval, -, hin, hblank, hout⟩ := scatterOob_request hwf.2.2.1 hok ht
  refine ⟨(s.setOobs o).endOp .success, ?_, rfl, hin, hblank, hout⟩
  show (withDevice s _ _).finish = _
  rw [withDevice_pos hd (by rw [hok, harea, hfit]; rfl), hval]
  rfl

end

end Sys2Proof.Machine
end

section
/-! PROOFS. Checking and marking blocks (45_oob_badblock.md R265 to R267). -/

namespace Sys2Proof.Machine

section
variable {s t : State} {a : Nat}

/-! What is written after a chip-select, as one update. -/

theorem select_setOobs (s : State) (a : Nat) (b : Bus) (o : Memory) : ((s.select a).setBus b).setOobs o =
    { s with bus := b, curChip := s.chipIndexOf a, oobs := o } := by
  simp only [State.setOobs, State.select, State.selectChip, State.setBus, Geometry.chipOf]

theorem select_setRes (s : State) (a : Nat) (b : Bus) (o : Memory) (v : Addr) :
    (((s.select a).setBus b).setOobs o).setRes v =
    { s with bus := b, curChip := s.chipIndexOf a, oobs := o, res := v } := by
  rw [select_setOobs, State.setRes]

/-- Settles O42: DEV.ISVALID on what is no block, and on a block. -/
theorem isvalidReadsTheMarkers : Obligations.IsvalidReadsTheMarkers := by
  unfold Obligations.IsvalidReadsTheMarkers
  intro s hwf hr a
  have hexec : exec .devIsvalid s = (devIsvalid s a).finish := rfl
  refine ⟨fun hn => ?_, fun hb ha => ?_⟩
  · rw [hexec, devIsvalid_invalid hr hn]; rfl
  · obtain ⟨reads, b, o, hval, hran, -, hreads⟩ := devIsvalid_val hr hb ha hwf.2.2.1
    rw [hval, Ret.finish_val, select_setOobs] at hexec
    exact ⟨_, reads, hexec, hreads, sameFlash_of_select rfl hran, emits_of_select rfl hran, rfl⟩

/-- Settles O43: DEV.MARKBAD on what is no block, on a bad block and on a good one. -/
theorem markbadErasesThenMarks : Obligations.MarkbadErasesThenMarks := by
  unfold Obligations.MarkbadErasesThenMarks
  intro s hwf hr hro a
  have hexec : exec .devMarkbad s = (devMarkbad s a).finish := rfl
  refine ⟨fun hn => ?_, fun hb ha => ?_⟩
  · rw [hexec, devMarkbad_refused hro (by simp) (by simp) (devIsvalid_invalid hr hn)]; rfl
  · obtain ⟨reads, b, o, v, st, hval, -, hreads, hcase⟩ := devMarkbad_val hr hro hb ha hwf.2.2.1
    rw [hval, Ret.finish_val, select_setRes] at hexec
    refine ⟨_, reads, hexec, hreads, rfl, ?_⟩
    by_cases hg : goodMarkers s reads
    · rw [if_pos hg] at hcase ⊢
      obtain ⟨n, x, marks, hlen, hran, hst, hlast⟩ := hcase
      exact ⟨n, x, marks, hlen, emits_of_select rfl hran, hst, hlast⟩
    · rw [if_neg hg] at hcase ⊢
      obtain ⟨hran, hst, hv⟩ := hcase
      exact ⟨emits_of_select rfl hran, hst, hv, sameFlash_of_select rfl hran⟩

/-! ## Markers in the array -/

variable {ch x : Chip}

/-- The marker byte of a row in the array, where a read of the OOB area finds it. -/
def markerByte (s : State) (ch : Chip) (row : Nat) : Byte :=
  ch.cells.read (ch.key row (Chip.spareColumn s ch) + s.bbmPos.toNat)

theorem markerByte_of_like (h : Chip.Like ch x) (row : Nat) : markerByte s x row = markerByte s ch row := by
  unfold markerByte Chip.spareColumn
  rw [h.cells, h.key, h.large, h.parts.1]

theorem Chip.matches_of_fixed (h : x.fixed = ch.fixed) (hm : ch.matches s) : x.matches s := by
  have hlike : Chip.Like ch { x with cells := ch.cells } := ⟨h, rfl⟩
  have hmatch := hlike.matches hm
  exact hmatch

theorem Chip.rows_of_fixed (h : x.fixed = ch.fixed) : x.rows = ch.rows := by
  have hlike : Chip.Like ch { x with cells := ch.cells } := ⟨h, rfl⟩
  exact hlike.parts.2.2.2.1

theorem Chip.progFails_of_fixed (h : x.fixed = ch.fixed) : x.progFails = ch.progFails := by
  have hlike : Chip.Like ch { x with cells := ch.cells } := ⟨h, rfl⟩
  exact hlike.parts.2.2.2.2.2.2.2.1

/-- The selected chip after a run that selects no other: the same but for what commands change. -/
theorem Bus.Ran.chip {q : Bool} {l : List BusEvent} {b b' : Bus} (h : Bus.Ran q l b b') (hstays : ∀ e ∈ l, e.stays)
    (hch : b.chip? = some ch) : ∃ x, b'.chip? = some x ∧ x.fixed = ch.fixed := by
  have hsel : b'.selected = b.selected := by rw [h.selected, foldl_pick hstays]
  rw [Bus.chip?, Option.bind_eq_some_iff] at hch
  obtain ⟨c, hc, hget⟩ := hch
  have hmap : (b'.chips[c.toNat]?).map Chip.fixed = some ch.fixed := by
    rw [← List.getElem?_map, h.fixed, List.getElem?_map, hget]; rfl
  obtain ⟨x, hx, hfixed⟩ := Option.map_eq_some_iff.1 hmap
  exact ⟨x, by rw [Bus.chip?, hsel, hc]; exact hx, hfixed⟩

theorem Bus.Ran.selected_eq {q : Bool} {l : List BusEvent} {b b' : Bus} (h : Bus.Ran q l b b')
    (hstays : ∀ e ∈ l, e.stays) : b'.selected = b.selected := by rw [h.selected, foldl_pick hstays]

/-- Reading the markers of rows of the array in turn. -/
theorem checkMarkers_chip (rows : List Nat) (hd : s.detected = true) (hf : s.oobFits = true)
    (hb : s.bbmPos.toNat < s.geo.oobSize.toNat) (hw : s.oobs.wf) (hch : s.bus.chip? = some ch) (hm : ch.matches s)
    (hrows : ∀ r ∈ rows, r < ch.rows) :
    ∃ b x o, checkMarkers rows s =
        .val (if ∀ r ∈ rows, markerByte s ch r = 0xFF#8 then .success else .blockIsBad) ((s.setBus b).setOobs o) ∧
      b.chip? = some x ∧ Chip.Like ch x ∧ o.wf ∧ b.selected = s.bus.selected ∧ (s.bus.wf → b.wf) := by
  induction rows generalizing s ch with
  | nil => exact ⟨s.bus, ch, s.oobs, by rw [if_pos (by simp)]; rfl, hch, Chip.Like.refl ch, hw, rfl, id⟩
  | cons r rows ih =>
    obtain ⟨b, x, n, hval, hx, hlike, hran⟩ := pageReadoob_chip hd hf hch hm (hrows r (by simp))
    have hsel := hran.selected_eq (oobReadEvents_stays _ _ _ _)
    have hread := Memory.read_writeBytes_readBytes hw ch.cells (ch.key r (Chip.spareColumn s ch)) hb
    have hwo := Memory.wf_writeBytes hw 0 (ch.cells.readBytes (ch.key r (Chip.spareColumn s ch)) s.geo.oobSize.toNat)
    generalize s.oobs.writeBytes 0 (ch.cells.readBytes (ch.key r (Chip.spareColumn s ch)) s.geo.oobSize.toNat) = o
      at hval hread hwo
    have hmarker : o.read s.bbmPos.toNat = markerByte s ch r := hread
    rw [checkMarkers, hval, Ret.bind_val]
    by_cases hg : markerByte s ch r = 0xFF#8
    · obtain ⟨b2, y, o2, hval2, hy, hlike2, hwo2, hsel2, hwf2⟩ := ih (s := (s.setBus b).setOobs o) hd hf hb hwo hx
        (hlike.matches hm) fun r' hr' => by rw [hlike.parts.2.2.2.1]; exact hrows r' (by simp [hr'])
      have hbyte (r' : Nat) : markerByte ((s.setBus b).setOobs o) x r' = markerByte s ch r' :=
        markerByte_of_like (s := s) hlike r'
      refine ⟨b2, y, o2, ?_, hy, hlike.trans hlike2, hwo2, hsel2.trans hsel, fun h => hwf2 (hran.wf h)⟩
      rw [if_neg (by show ¬ o.read s.bbmPos.toNat ≠ 0xFF#8; rw [hmarker]; exact not_not.2 hg), hval2]
      simp only [hbyte, List.forall_mem_cons, hg, true_and]
      rfl
    · refine ⟨b, x, o, ?_, hx, hlike, hwo, hsel, hran.wf⟩
      rw [if_pos (by show o.read s.bbmPos.toNat ≠ 0xFF#8; rw [hmarker]; exact hg), if_neg fun h => hg (h r (by simp))]

/-- Marking one row of the array: its marker becomes 00. -/
theorem pageMarkbad_chip (hd : s.detected = true) (hro : s.conf.readOnly = false) (hf : s.markerFits = true)
    (hb : s.bbmPos.toNat < s.geo.oobSize.toNat) (hw : s.oobs.wf) (hch : s.bus.chip? = some ch) (hm : ch.matches s)
    (hwc : ch.cells.wf) {row : Nat} (hr : row < ch.rows) (hfail : ch.progFails.fails row = false) :
    ∃ b x o v, pageMarkbad s row = .val .success (((s.setBus b).setOobs o).setRes v) ∧ b.chip? = some x ∧
      x.fixed = ch.fixed ∧ x.cells.wf ∧ o.wf ∧ b.selected = s.bus.selected ∧ markerByte s x row = 0x00#8 := by
  have ho : markerOobs s = s.setOobs (markerOobs s).oobs := rfl
  have hmark := (read_markerOobs hw s.bbmPos.toNat).trans (if_pos rfl)
  have hwo : (markerOobs s).oobs.wf := Memory.wf_write (blankOobs_wf hw) _ _
  obtain ⟨b, x, v, hval, hx, hfixed, hsel, hcells⟩ := programOob_chip (s := markerOobs s) (row := row) hch hm hr hfail
  rw [ho] at hval hcells hsel
  generalize (markerOobs s).oobs = o at hval hcells hsel hmark hwo ho
  refine ⟨b, x, o, v, ?_, hx, hfixed, by rw [hcells]; exact programCells_wf hwc _ _, hwo, hsel, ?_⟩
  · rw [pageMarkbad_writable hro, withDevice_pos hd hf, ho, hval]; rfl
  · have hlike : Chip.Like ch { x with cells := ch.cells } := ⟨hfixed, rfl⟩
    have hkey : x.key row (Chip.spareColumn s x) = ch.key row (Chip.spareColumn s ch) := by
      have hlarge : x.large = ch.large := hlike.large
      have hpage : x.pageSize = ch.pageSize := hlike.parts.1
      have hspare : Chip.spareColumn s x = Chip.spareColumn s ch := by unfold Chip.spareColumn; rw [hlarge, hpage]
      rw [hspare]
      exact hlike.key _ _
    have hlen : s.bbmPos.toNat < (o.readBytes 0 s.geo.oobSize.toNat).length := by simpa using hb
    rw [markerByte, hkey, hcells]
    refine (read_programCells_inside hwc _ _ _ hlen).trans ?_
    rw [Memory.getElem_readBytes, Nat.zero_add, hmark]
    exact BitVec.and_zero

/-- Marking rows of the array, where no program fails: the last of them has the marker 00 afterwards. -/
theorem markRows_chip (rows : List Nat) (res : Status) (hd : s.detected = true) (hro : s.conf.readOnly = false)
    (hf : s.markerFits = true) (hb : s.bbmPos.toNat < s.geo.oobSize.toNat) (hw : s.oobs.wf)
    (hch : s.bus.chip? = some ch) (hm : ch.matches s) (hwc : ch.cells.wf) (hrows : ∀ r ∈ rows, r < ch.rows)
    (hfail : ∀ r, ch.progFails.fails r = false) :
    ∃ b x o v, markRows rows res s = .val res (((s.setBus b).setOobs o).setRes v) ∧ b.chip? = some x ∧
      x.fixed = ch.fixed ∧ o.wf ∧ b.selected = s.bus.selected ∧
      ∀ r, rows.getLast? = some r → markerByte s x r = 0x00#8 := by
  induction rows generalizing s ch res with
  | nil => exact ⟨s.bus, ch, s.oobs, s.res, rfl, hch, rfl, hw, rfl, by simp⟩
  | cons r rows ih =>
    obtain ⟨b, x, o, v, hval, hx, hfixed, hwx, hwo, hsel, hmark⟩ :=
      pageMarkbad_chip hd hro hf hb hw hch hm hwc (hrows r (by simp)) (hfail r)
    obtain ⟨b2, y, o2, v2, hval2, hy, hfixed2, hwo2, hsel2, hlast⟩ := ih (s := ((s.setBus b).setOobs o).setRes v) res hd hro
      hf hb hwo hx (Chip.matches_of_fixed hfixed hm) hwx
      (fun r' hr' => by rw [Chip.rows_of_fixed hfixed]; exact hrows r' (by simp [hr']))
      fun r' => by rw [Chip.progFails_of_fixed hfixed]; exact hfail r'
    have hres : firstFailure res .success = res := if_neg (by simp)
    cases rows with
    | nil =>
      refine ⟨b, x, o, v, ?_, hx, hfixed, hwo, hsel, fun r' hr' => ?_⟩
      · rw [markRows, hval, Ret.bind_val, hres]; rfl
      · cases hr'; exact hmark
    | cons r2 rows =>
      refine ⟨b2, y, o2, v2, ?_, hy, hfixed2.trans hfixed, hwo2, hsel2.trans hsel, fun r' hr' => hlast r' ?_⟩
      · rw [markRows, hval, Ret.bind_val, hres, hval2]; rfl
      · rwa [List.getLast?_cons_cons] at hr'

/-! ## A marked block -/

/-- Selecting the chip that is selected already changes no chip. -/
theorem Bus.chip?_sel_selected {b : Bus} {c : Byte} (h : b.selected = some c) : (b.sel c).chip? = b.chip? := by
  rw [Bus.chip?_eq h]; rfl

/-- The marker rows of a block of the device are rows of its chip (20_memory.md R64). -/
theorem markerRowsOf_lt (hg : s.geo.valid s.par) (hb : s.isBlock a) :
    ∀ r ∈ s.markerRowsOf a, r < s.geo.blocksPerChip.toNat * s.geo.pagesPerBlock.toNat := by
  obtain ⟨hpage, hblock, hdvd, hchip, -, -, -, -, -, hps, -, -, -, -, hcm, hppb, -⟩ := id hg
  have halign : a % s.geo.blockSize.toNat = 0 :=
    (blockAligned_iff_mod hg a).1 (by simpa [Geometry.blockAligned] using hb.2)
  obtain ⟨hpage0, hpage2⟩ := isPow2_iff.1 hpage
  obtain ⟨hblock0, -⟩ := isPow2_iff.1 hblock
  obtain ⟨hchip0, hchip2⟩ := isPow2_iff.1 hchip
  generalize s.geo.blocksPerChip.toNat = blocks at *
  generalize s.geo.blockSize.toNat = size at *
  generalize s.geo.pageSize.toNat = page at *
  generalize hfirst : s.firstRowOf a = first
  generalize hpp : s.geo.pagesPerBlock.toNat = pages at *
  obtain ⟨q, hq⟩ := Nat.dvd_of_mod_eq_zero hdvd
  have hpages : pages = q := by rw [hppb, hq, Nat.mul_div_cancel_left _ (Nat.pos_of_ne_zero hpage0)]
  subst hpages
  have hrow : first = a % (blocks * size) / page := by
    rw [← hfirst, State.firstRowOf, hcm, hps, ← hchip2, Nat.and_two_pow_sub_one_eq_mod, hchip2, Nat.shiftRight_eq_div_pow,
      hpage2]
  have hlt : a % (blocks * size) / size < blocks :=
    Nat.div_lt_of_lt_mul (by rw [Nat.mul_comm size]; exact Nat.mod_lt _ (Nat.pos_of_ne_zero hchip0))
  have hmod : a % (blocks * size) % size = 0 := by rw [Nat.mod_mod_of_dvd _ (Nat.dvd_mul_left _ _)]; exact halign
  obtain ⟨k, hk⟩ := Nat.dvd_of_mod_eq_zero hmod
  rw [hk, Nat.mul_div_cancel_left _ (Nat.pos_of_ne_zero hblock0)] at hlt
  have hfirst' : first = pages * k := by
    rw [hrow, hk, hq, Nat.mul_assoc, Nat.mul_div_cancel_left _ (Nat.pos_of_ne_zero hpage0)]
  have hpos : 0 < pages := Nat.pos_of_ne_zero fun h => hblock0 (by rw [hq, h, Nat.mul_zero])
  have hend : first + pages ≤ blocks * pages := by
    calc first + pages = (k + 1) * pages := by rw [hfirst', Nat.succ_mul, Nat.mul_comm]
      _ ≤ blocks * pages := Nat.mul_le_mul_right _ hlt
  intro r hr
  unfold State.markerRowsOf at hr
  rw [hfirst, hpp] at hr
  split_ifs at hr <;> simp only [List.mem_cons, List.not_mem_nil, or_false] at hr <;> omega

/-- DEV.ISVALID on a block of the chip that DETECT saw: it reads the markers of the array. -/
theorem devIsvalid_chip (hr : s.blockReady) (hb : s.isBlock a) (hw : s.oobs.wf) (hch : (s.select a).bus.chip? = some ch)
    (hm : ch.matches s) (hrows : ∀ r ∈ s.markerRowsOf a, r < ch.rows) :
    ∃ b x o, devIsvalid s a =
        .val (if ∀ r ∈ s.markerRowsOf a, markerByte s ch r = 0xFF#8 then .success else .blockIsBad)
          (((s.select a).setBus b).setOobs o) ∧
      b.chip? = some x ∧ Chip.Like ch x ∧ o.wf ∧ b.selected = some (s.chipIndexOf a) ∧ (s.bus.wf → b.wf) := by
  have hpass : ¬ (s.geo.size.toNat ≤ a ∨ s.geo.blockAligned a = false) := by
    have halign : s.geo.blockAligned a = true := by simpa [Geometry.blockAligned] using hb.2
    rw [halign]
    simpa using hb.1
  obtain ⟨b, x, o, hval, hx, hlike, hwo, hsel, hwf⟩ := checkMarkers_chip (s := s.select a) (s.markerRowsOf a) hr.1
    (Bool.and_eq_true_iff.1 hr.2.1).1 hr.2.2 hw hch hm hrows
  refine ⟨b, x, o, ?_, hx, hlike, hwo, hsel, hwf⟩
  rw [devIsvalid, withDevice_pos hr.1 hr.2.1, if_neg hpass, markerRows_eq, hval]
  rfl

/-- Some marker of the block at device address `a` is not FF in the array of the chip there. -/
def State.badBlock (s : State) (a : Nat) : Prop :=
  ∃ x, (s.select a).bus.chip? = some x ∧ x.matches s ∧ (∀ r ∈ s.markerRowsOf a, r < x.rows) ∧
    ∃ r ∈ s.markerRowsOf a, markerByte s x r ≠ 0xFF#8

theorem devIsvalid_badBlock (hr : s.blockReady) (hb : s.isBlock a) (hw : s.oobs.wf) (hbad : s.badBlock a) :
    ∃ u, devIsvalid s a = .val .blockIsBad u := by
  obtain ⟨x, hx, hm, hrows, r, hrow, hmark⟩ := hbad
  obtain ⟨b, y, o, hval, -⟩ := devIsvalid_chip hr hb hw hx hm hrows
  exact ⟨_, by rw [hval, if_neg fun h => hmark (h r hrow)]⟩

/-- DEV.MARKBAD on the chip that DETECT saw, where no program fails, leaves a bad block. -/
theorem devMarkbad_chip (hr : s.blockReady) (hro : s.conf.readOnly = false) (hb : s.isBlock a) (hw : s.memoryWf)
    (hch : (s.select a).bus.chip? = some ch) (hm : ch.matches s) (hrows : ∀ r ∈ s.markerRowsOf a, r < ch.rows)
    (hfail : ∀ r, ch.progFails.fails r = false) :
    ∃ b c o v, devMarkbad s a = .val .success { s with bus := b, curChip := c, oobs := o, res := v } ∧ o.wf ∧
      ({ s with bus := b, curChip := c, oobs := o, res := v } : State).badBlock a := by
  obtain ⟨hwd, -, hwo, hwc⟩ := hw
  obtain ⟨b, x, o, hval, hx, hlike, hwo1, hsel, hwb⟩ := devIsvalid_chip hr hb hwo hch hm hrows
  rw [select_setOobs] at hval
  by_cases hgood : ∀ r ∈ s.markerRowsOf a, markerByte s ch r = 0xFF#8
  · rw [if_pos hgood] at hval
    have hans : ({ s with bus := b, curChip := s.chipIndexOf a, oobs := o } : State).answers :=
      answers_of_chip (s := s) hx (hlike.parts.2.2.2.2.2.1.trans hm.1)
    obtain ⟨n, v, b2, herase, hran⟩ := blockErase_val
      (s := { s with bus := b, curChip := s.chipIndexOf a, oobs := o }) ⟨hr.1, hans⟩ hro (s.geo.rowOf a)
    have hstays := eraseEvents_stays { s with bus := b, curChip := s.chipIndexOf a, oobs := o } (s.geo.rowOf a) n v
    obtain ⟨y, hy, hyfixed⟩ := hran.chip hstays hx
    have hfixed : y.fixed = ch.fixed := hyfixed.trans hlike.fixed
    have hwy : y.cells.wf := hran.wf (hwb hwc) y (Bus.mem_of_chip? hy)
    obtain ⟨b3, z, o3, w, hmarks, hz, hzfixed, hwo3, hsel3, hlast⟩ := markRows_chip
      (s := { s with bus := b2, curChip := s.chipIndexOf a, oobs := o, res := v.setWidth 64 }) (s.markerRowsOf a) .success hr.1 hro hr.2.1
      hr.2.2 hwo1 hy (Chip.matches_of_fixed hfixed hm) hwy
      (fun r h => by rw [Chip.rows_of_fixed hfixed]; exact hrows r h)
      fun r => by rw [Chip.progFails_of_fixed hfixed]; exact hfail r
    simp only [State.setBus, State.setOobs, State.setRes] at herase hmarks
    refine ⟨b3, s.chipIndexOf a, o3, w, devMarkbad_good hro hval herase hmarks, hwo3, z, ?_,
      Chip.matches_of_fixed (hzfixed.trans hfixed) hm, ?_, ?_⟩
    · have hselected : b3.selected = some (s.chipIndexOf a) :=
        hsel3.trans ((hran.selected_eq hstays).trans hsel)
      exact (Bus.chip?_sel_selected hselected).trans hz
    · intro r h
      rw [Chip.rows_of_fixed (hzfixed.trans hfixed)]
      exact hrows r h
    · have hne : s.markerRowsOf a ≠ [] := markerRowsOf_ne_nil s a
      have hmark : markerByte s z ((s.markerRowsOf a).getLast hne) = 0x00#8 :=
        hlast _ (List.getLast?_eq_some_getLast hne)
      refine ⟨(s.markerRowsOf a).getLast hne, List.getLast_mem hne, fun h => ?_⟩
      have hff : markerByte s z ((s.markerRowsOf a).getLast hne) = 0xFF#8 := h
      rw [hmark] at hff
      exact absurd hff (by decide)
  · rw [if_neg hgood] at hval
    push Not at hgood
    obtain ⟨r, hrow, hmark⟩ := hgood
    refine ⟨b, s.chipIndexOf a, o, s.res, ?_, hwo1, x, (Bus.chip?_sel_selected hsel).trans hx, hlike.matches hm, ?_, r, hrow,
      ?_⟩
    · rw [devMarkbad, hro, if_neg Bool.false_ne_true, hval, Ret.bind_val, if_pos rfl]
    · intro r h
      rw [hlike.parts.2.2.2.1]
      exact hrows r h
    · intro h
      exact hmark ((markerByte_of_like hlike r).symm.trans h)

/-- What a request has met that DEV.MARKBAD ends with SUCCESS. -/
theorem of_devMarkbad_success (h : devMarkbad s a = .val .success t) :
    s.conf.readOnly = false ∧ s.detected = true ∧ s.markerFits = true ∧ s.isBlock a := by
  have hro : s.conf.readOnly = false := by
    by_contra hro
    rw [devMarkbad, if_pos (by simpa using hro)] at h
    cases h
  have hrefused {st : Status} (hbad : st ≠ .blockIsBad) (hok : st ≠ .success) (hst : devIsvalid s a = .val st s) : False := by
    rw [devMarkbad_refused hro hbad hok hst] at h
    cases h
    exact hok rfl
  have hd : s.detected = true := by
    by_contra hd
    exact hrefused (by simp) (by simp) (devIsvalid_none (by simpa using hd) a)
  have hf : s.markerFits = true := by
    by_contra hf
    exact hrefused (by simp) (by simp) (devIsvalid_misfit hd hf a)
  refine ⟨hro, hd, hf, ?_⟩
  by_contra hb
  refine hrefused (st := .invalidAddress) (by simp) (by simp) ?_
  rw [devIsvalid, withDevice_pos hd hf, if_pos]
  simpa [State.isBlock, Geometry.blockAligned, or_iff_not_imp_left] using hb

/-- Settles O44: a marked block has a marker that is not FF in the array, whether DEV.MARKBAD found it or programmed it,
and DEV.ISVALID reads the markers of the array. -/
theorem markedBlockIsBad : Obligations.MarkedBlockIsBad := by
  unfold Obligations.MarkedBlockIsBad
  intro s t u ch hwf hgeo hpos hch hm hrows hfail hmark hst hidle hvalid
  have hsuccess : ∃ w, devMarkbad s s.a0.toNat = .val .success w ∧ t = w.endOp .success := by
    obtain ⟨st, w, hval, rfl⟩ | hhang := Ret.finish_next (r := devMarkbad s s.a0.toNat) hmark
    · obtain rfl : st = .success := hst
      exact ⟨w, hval, rfl⟩
    · exact absurd hidle ((devMarkbad_fits (q := false) (k := true) s _ (by simp)).busy _ hhang)
  obtain ⟨w, hval, rfl⟩ := hsuccess
  obtain ⟨hro, hd, hf, hb⟩ := of_devMarkbad_success hval
  have hlt := markerRowsOf_lt (hgeo hd) hb
  rw [← hrows] at hlt
  obtain ⟨b, c, o, v, hval', hwo, hbad⟩ := devMarkbad_chip ⟨hd, hf, hpos⟩ hro hb hwf hch hm hlt hfail
  obtain rfl : w = { s with bus := b, curChip := c, oobs := o, res := v } := by
    rw [hval] at hval'; cases hval'; rfl
  obtain ⟨w', hbadval⟩ := devIsvalid_badBlock
    (s := ({ s with bus := b, curChip := c, oobs := o, res := v } : State).endOp .success) (a := s.a0.toNat) ⟨hd, hf, hpos⟩
    hb hwo hbad
  have hvalid : (devIsvalid (({ s with bus := b, curChip := c, oobs := o, res := v } : State).endOp .success)
    s.a0.toNat).finish = .next u := hvalid
  rw [hbadval] at hvalid
  cases hvalid
  rfl

end

end Sys2Proof.Machine
end

section
/-! PROOFS. Carving partitions and the order of validation (46_partition_ops.md R282 to R284, R289 to R292). -/

namespace Sys2Proof.Machine

section
variable {s t : State}

/-! ## PART.CREATE -/

/-- A request that PART.CREATE does not let through. -/
theorem createRefusal_bad {p d : BitVec 4} (hd : s.detected = true)
    (h : s.part p = none ∨ s.pt.length ≤ d.toNat ∨ d = 0#4 ∨
      (∃ e, s.part p = some e ∧ e.psize.toNat < s.a0.toNat + s.a1.toNat) ∨
      s.a0.toNat &&& s.geo.blockMask.toNat ≠ 0 ∨ s.a1.toNat &&& s.geo.blockMask.toNat ≠ 0) :
    createRefusal s p d = some .invalidAddress := by
  unfold createRefusal
  rw [if_neg (by simp [hd])]
  cases hp : s.part p with
  | none => rfl
  | some e =>
    dsimp only
    split_ifs with hdst hbound halign
    · rfl
    · rfl
    · rfl
    · exfalso
      simp only [not_or, Geometry.blockAligned, beq_eq_false_iff_ne, ne_eq, not_not] at hdst halign
      obtain h | h | h | ⟨x, hx, h⟩ | h | h := h
      · simp [hp] at h
      · exact hdst.1 h
      · exact hdst.2 h
      · rw [hp] at hx; cases hx; exact hbound h
      · exact h halign.1
      · exact h halign.2

/-- A good request. -/
theorem createRefusal_good {p d : BitVec 4} {e : PartEntry} (hdet : s.detected = true) (hp : s.part p = some e)
    (hlen : d.toNat < s.pt.length) (hd : d ≠ 0#4) (hfit : s.a0.toNat + s.a1.toNat ≤ e.psize.toNat)
    (h0 : s.a0.toNat &&& s.geo.blockMask.toNat = 0) (h1 : s.a1.toNat &&& s.geo.blockMask.toNat = 0) :
    createRefusal s p d = none := by
  unfold createRefusal
  rw [if_neg (by simp [hdet]), hp]
  dsimp only
  rw [if_neg (by rintro (h | h); · omega
                 · exact hd h), if_neg (by omega), if_neg (by simp [Geometry.blockAligned, h0, h1])]

/-- Where the new partition begins when the sum fits the register. -/
theorem childBegin_toNat {e : PartEntry} (h : e.begin.toNat + s.a0.toNat < s.par.addrBound) :
    (childBegin s e s.a0 s.a1).toNat = e.begin.toNat + s.a0.toNat := by
  have hbound := s.par.addrBound_le
  rw [childBegin, if_pos h, BitVec.toNat_add, Nat.mod_eq_of_lt (by omega)]

/-- Settles O46: the checks of PART.CREATE, then the one entry it writes. -/
theorem createCarvesAPartition : Obligations.CreateCarvesAPartition := by
  unfold Obligations.CreateCarvesAPartition
  intro s p d hdet
  refine ⟨fun h => exec_partCreate_refused (createRefusal_bad hdet h), fun e hp hlen hd hfit h0 h1 => ?_⟩
  have hexec : exec (.partCreate p d) s = .next ((createPartition s e d).endOp .success) := by
    show execPartCreate p d s = _
    rw [execPartCreate, createRefusal_good hdet hp hlen hd hfit h0 h1, hp]
  refine ⟨_, hexec, rfl, fun _ _ => rfl, rfl, fun k hk => ?_, ⟨true, childBegin s e s.a0 s.a1, s.a1.setWidth 65⟩, ?_, rfl,
    ?_, childBegin_toNat⟩
  · exact List.getElem?_set_ne hk.symm
  · exact List.getElem?_set_self hlen
  · show (s.a1.setWidth 65).toNat = s.a1.toNat
    rw [BitVec.toNat_setWidth, Nat.mod_eq_of_lt (by omega)]

/-! ## The order of validation -/

theorem firstRefusal_append (l m : List (Bool × Status)) :
    firstRefusal (l ++ m) = (firstRefusal l).or (firstRefusal m) := by
  unfold firstRefusal
  rw [List.find?_append]
  cases l.find? fun x => x.1 <;> rfl

/-- `rwSteps` speaks of the size of a partition by its number, the model of the entry found. -/
theorem psizeOf_eq {p : BitVec 4} {e : PartEntry} (hp : s.part p = some e) : s.psizeOf p = e.psize.toNat := by
  rw [State.psizeOf, hp]; rfl

theorem oobRequestBad_eq (m : OobMode) : s.oobRequestBad m = !s.oobReqOk m s.a2 s.a3 := by
  rw [Bool.eq_iff_iff, Bool.not_eq_true', Bool.eq_false_iff, Ne, oobReqOk_iff]
  cases m <;> simp only [State.oobRequestBad, State.oobLimit, State.oobFreeSize, Bool.or_eq_true, decide_eq_true_eq] <;> omega

theorem oobOutOfBounds_eq (o : Option OobMode) : (o.map s.oobRequestBad).getD false = s.oobOutOfBounds o := by
  cases o with
  | none => rfl
  | some m => exact oobRequestBad_eq m

/-- `rw_validate` is the first ten steps. -/
theorem rwValidate_eq (p : BitVec 4) (o : Option OobMode) (cap w : Bool) :
    rwValidate s p o cap w = firstRefusal ((rwSteps s p o cap w).take 10) := by
  unfold rwValidate rwSteps
  simp only [List.take_succ_cons, List.take_zero, firstRefusal_cons, firstRefusal_nil, oobOutOfBounds_eq]
  cases s.detected with
  | false => rfl
  | true =>
    cases hp : s.part p with
    | none => rfl
    | some e => simp [psizeOf_eq hp, Geometry.pageAligned, and_assoc, or_assoc]

/-- The validation of the block operations is the first six steps. -/
theorem blockValidate_eq (p : BitVec 4) (cap w markers : Bool) :
    blockValidate s p cap w = firstRefusal ((blockSteps s p cap w markers).take 6) := by
  unfold blockValidate blockSteps
  simp only [List.take_succ_cons, List.take_zero, firstRefusal_cons, firstRefusal_nil]
  cases s.detected with
  | false => rfl
  | true =>
    cases hp : s.part p with
    | none => rfl
    | some e => simp [psizeOf_eq hp, Geometry.blockAligned]

/-- The validation of PART.ERASEALL is the first four steps. -/
theorem eraseallValidate_eq (p : BitVec 4) (markers : Bool) :
    eraseallValidate s p = firstRefusal ((eraseallSteps s p markers).take 4) := by
  unfold eraseallValidate eraseallSteps
  simp only [List.take_succ_cons, List.take_zero, firstRefusal_cons, firstRefusal_nil]
  cases s.detected with
  | false => rfl
  | true =>
    cases hp : s.part p with
    | none => rfl
    | some e => simp

/-- The steps after the validation are the windows: they refuse with INVALID_ADDRESS when those do not fit. -/
theorem partOp_firstRefusal {l : List (Bool × Status)} {n : Nat} {r : Option Status} {f : Bool}
    {body : State → Ret Status} {st : Status} (hr : r = firstRefusal (l.take n))
    (hf : ∀ x, firstRefusal (l.drop n) = some x → x = .invalidAddress ∧ f = false) (h : firstRefusal l = some st) :
    partOp s r f body = .next (s.endOp st) := by
  rw [← List.take_append_drop n l, firstRefusal_append, ← hr] at h
  cases r with
  | some x => cases h; rfl
  | none =>
    obtain ⟨rfl, rfl⟩ := hf st h
    rfl

/-- The windows of a page transfer. -/
theorem rwSteps_windows {p : BitVec 4} {cap w : Bool} {x : Status}
    (h : firstRefusal ((rwSteps s p none cap w).drop 10) = some x) : x = .invalidAddress ∧ s.pageFits = false := by
  simp only [rwSteps, List.drop_succ_cons, List.drop_zero, firstRefusal_cons, firstRefusal_nil, Option.isNone_none,
    Bool.true_or, Bool.true_and, Option.map_none, Option.getD_none, Bool.false_eq_true, if_false] at h
  split_ifs at h with hmax
  cases h
  refine ⟨rfl, Bool.eq_false_iff.2 fun hf => ?_⟩
  rw [pageFits_iff] at hf
  simp at hmax
  omega

/-- The windows of an OOB transfer. -/
theorem rwSteps_oobWindows {p : BitVec 4} {m : OobMode} {cap w : Bool} {x : Status}
    (h : firstRefusal ((rwSteps s p (some m) cap w).drop 10) = some x) :
    x = .invalidAddress ∧ s.oobTransferFits m = false := by
  simp only [rwSteps, List.drop_succ_cons, List.drop_zero, firstRefusal_cons, firstRefusal_nil, Option.isNone_some,
    Bool.false_or, Option.map_some, Option.getD_some] at h
  have hfits : s.oobTransferFits m = true →
      s.geo.oobSize.toNat ≤ s.par.maxOob ∧ (s.a1 = s.geo.pageSize → s.geo.pageSize.toNat ≤ s.par.maxPage) ∧
        s.requestFits m s.a2.toNat s.a3.toNat = true := by
    intro hf
    obtain ⟨hpage, hreq⟩ := Bool.and_eq_true_iff.1 hf
    by_cases h1 : s.a1 = s.geo.pageSize
    · rw [if_pos h1, pageFits_iff] at hpage
      exact ⟨hpage.2, fun _ => hpage.1, hreq⟩
    · rw [if_neg h1, oobFits_iff] at hpage
      exact ⟨hpage, fun h => absurd h h1, hreq⟩
  split_ifs at h with hmax hreq
  · cases h
    refine ⟨rfl, Bool.eq_false_iff.2 fun hf => ?_⟩
    obtain ⟨hoob, hpage, -⟩ := hfits hf
    simp only [Bool.or_eq_true, Bool.and_eq_true, decide_eq_true_eq, beq_iff_eq] at hmax
    obtain hmax | ⟨h1, hmax⟩ := hmax
    · omega
    · have := hpage h1; omega
  · cases h
    refine ⟨rfl, Bool.eq_false_iff.2 fun hf => ?_⟩
    obtain ⟨-, -, hok⟩ := hfits hf
    simp [hok] at hreq

/-- The windows of the marker reads, where they are made. -/
theorem blockSteps_windows {p : BitVec 4} {cap w markers : Bool} {x : Status}
    (h : firstRefusal ((blockSteps s p cap w markers).drop 6) = some x) :
    x = .invalidAddress ∧ markers = true ∧ s.markerFits = false := by
  simp only [blockSteps, List.drop_succ_cons, List.drop_zero, firstRefusal_cons, firstRefusal_nil] at h
  split_ifs at h with hmax
  cases h
  rw [Bool.and_eq_true] at hmax
  refine ⟨rfl, hmax.1, Bool.eq_false_iff.2 fun hf => ?_⟩
  have hmax := hmax.2
  rw [markerFits_iff] at hf
  simp at hmax
  omega

theorem eraseallSteps_windows {p : BitVec 4} {markers : Bool} {x : Status}
    (h : firstRefusal ((eraseallSteps s p markers).drop 4) = some x) :
    x = .invalidAddress ∧ blocksIn s.geo.blockSize.toNat (s.psizeOf p) ≠ 0 ∧ markers = true ∧ s.markerFits = false := by
  simp only [eraseallSteps, List.drop_succ_cons, List.drop_zero, firstRefusal_cons, firstRefusal_nil] at h
  split_ifs at h with hmax
  cases h
  simp only [Bool.and_eq_true, decide_eq_true_eq] at hmax
  obtain ⟨⟨hblocks, hmarkers⟩, hmax⟩ := hmax
  refine ⟨rfl, hblocks, hmarkers, Bool.eq_false_iff.2 fun hf => ?_⟩
  rw [markerFits_iff] at hf
  simp at hmax
  omega

/-- The window of an erase, where its mode reads markers. -/
theorem eraseFits_false {m : EraseMode} (h : (m != .force && s.conf.capIsValid) = true) (hf : s.markerFits = false) :
    s.eraseFits m = false := by
  rw [Bool.and_eq_true] at h
  obtain ⟨hm, hc⟩ := h
  rw [State.eraseFits, hc, hf]
  cases m <;> first | rfl | cases hm

/-- Settles O56: each validation is the list of its steps without the windows, which `partOp` checks last. -/
theorem partValidationFollowsItsOrder : Obligations.PartValidationFollowsItsOrder := by
  unfold Obligations.PartValidationFollowsItsOrder
  intro s p m k mode st hk refused markers
  refine ⟨partOp_firstRefusal (rwValidate_eq ..) fun _ => rwSteps_windows,
    partOp_firstRefusal (rwValidate_eq ..) fun _ => rwSteps_windows,
    partOp_firstRefusal (rwValidate_eq ..) fun _ => rwSteps_oobWindows,
    partOp_firstRefusal (rwValidate_eq ..) fun _ => rwSteps_oobWindows, fun h => ?_,
    partOp_firstRefusal (blockValidate_eq ..) fun _ hx => ?_, partOp_firstRefusal (blockValidate_eq ..) fun _ hx => ?_,
    fun h => ?_⟩
  · rw [exec_partErase hk]
    refine partOp_firstRefusal (blockValidate_eq ..) (fun _ hx => ?_) h
    obtain ⟨hx, hmarkers, hf⟩ := blockSteps_windows hx
    exact ⟨hx, eraseFits_false hmarkers hf⟩
  · obtain ⟨hx, -, hf⟩ := blockSteps_windows hx
    exact ⟨hx, hf⟩
  · obtain ⟨hx, -, hf⟩ := blockSteps_windows hx
    exact ⟨hx, hf⟩
  · cases hp : s.part p with
    | none =>
      have hnone : eraseallValidate s p = some st := by
        rw [← h]
        unfold eraseallValidate eraseallSteps
        rw [hp]
        cases s.detected <;> rfl
      exact exec_partEraseall_refused hk hnone
    | some e =>
      rw [exec_partEraseall hk hp]
      refine partOp_firstRefusal (eraseallValidate_eq ..) (fun _ hx => ?_) h
      obtain ⟨hx, hblocks, hmarkers, hf⟩ := eraseallSteps_windows hx
      rw [psizeOf_eq hp] at hblocks
      exact ⟨hx, by rw [eraseFits_false hmarkers hf, Bool.or_false]; exact beq_false_of_ne hblocks⟩

end

end Sys2Proof.Machine
end

section
/-! PROOFS. The PART transfers, erases and bad-block operations of a legal request with the lock free
(46_partition_ops.md R282, R285 to R293). -/

namespace Sys2Proof.Machine

section
variable {s t s' : State} {p : BitVec 4} {e : PartEntry}

/-! ## A request under the lock -/

theorem SameDevice.pageReadEvents (h : SameDevice s s') : pageReadEvents s' = pageReadEvents s := by
  funext row n main oob; simp only [Machine.pageReadEvents, h.commandEvents]

theorem SameDevice.pageWriteEvents (h : SameDevice s s') : pageWriteEvents s' = pageWriteEvents s := by
  funext row main oob n b; simp only [Machine.pageWriteEvents, h.commandEvents, h.confirmEvents]

theorem SameDevice.oobReadEvents (h : SameDevice s s') : oobReadEvents s' = oobReadEvents s := by
  funext row n oob; simp only [Machine.oobReadEvents, h.commandEvents]

theorem SameDevice.oobWriteEvents (h : SameDevice s s') : oobWriteEvents s' = oobWriteEvents s := by
  funext row oob n b; simp only [Machine.oobWriteEvents, h.commandEvents, h.confirmEvents, h.geo]

/-- The state in which a PART operation begins its transfer: the lock taken, the chip of `a` selected. -/
def State.lockedAt (s : State) (a : Nat) : State :=
  { s with lock := true, curChip := s.chipIndexOf a, bus := s.bus.sel (s.chipIndexOf a) }

theorem select_setLock (s : State) (a : Nat) : (s.setLock true).select a = s.lockedAt a := by
  simp only [State.setLock, State.select, State.selectChip, State.setBus, Geometry.chipOf, State.lockedAt]

theorem dev_setLock (hp : s.part p = some e) : (s.setLock true).dev p = e.begin.toNat + s.a0.toNat := dev_eq hp

theorem sameDevice_lockedAt (s : State) (a : Nat) : SameDevice s (s.lockedAt a) := ⟨rfl, rfl, rfl, rfl, rfl⟩

/-- What follows the chip-select is on the bus after it. -/
theorem emits_lockedAt {a : Nat} {q : Bool} {l : List BusEvent} {b : Bus} (hb : t.bus = b)
    (h : Bus.Ran q l (s.lockedAt a).bus b) : emits s t (.sel (s.chipIndexOf a) :: l) :=
  emits_of_select hb h

theorem sameFlash_lockedAt {a : Nat} {l : List BusEvent} {b : Bus} (hb : t.bus = b)
    (h : Bus.Ran true l (s.lockedAt a).bus b) : sameFlash s t := sameFlash_of_select hb h

/-- Settles O48: the page read of `pageRead_val`, under the lock and behind the chip-select. -/
theorem partReadReadsTheRebasedPage : Obligations.PartReadReadsTheRebasedPage := by
  unfold Obligations.PartReadReadsTheRebasedPage
  intro s p e hwf hdet hfit hp hlen hne hbound hcap hclass halign hlock hecc a hans
  have hready : (s.lockedAt a).pageReady := ⟨⟨hdet, hans⟩, hfit⟩
  obtain ⟨n, main, oob, st, b, d, o, ca, rd, acc, hval, hran, -, -, hleaves⟩ :=
    pageRead_val (m := .auto) hready hecc hwf.1 hwf.2.2.1 (s.firstRowOf a)
  have hexec : exec (.partRead p) s = _ :=
    partOp_val (rwValidate_none none s.conf.capRead false hdet hp hclass (.inl ⟨hlen, hne, hbound⟩) (by simp) hcap halign
      (by simp)) hfit hlock (by rw [dev_setLock hp, select_setLock]; exact hval)
  rw [(sameDevice_lockedAt s a).pageReadEvents] at hran
  refine ⟨_, n, main, oob, hexec, sameFlash_lockedAt rfl hran, hleaves, emits_lockedAt rfl hran, ?_⟩
  simp only [State.setLock, State.endOp, State.lockedAt, ← hlock]

/-- Settles O49: the page program of `pageWrite_val` with a blank OOB area, under the lock and behind the chip-select. -/
theorem partWriteProgramsTheRebasedPage : Obligations.PartWriteProgramsTheRebasedPage := by
  unfold Obligations.PartWriteProgramsTheRebasedPage
  intro s p e hwf hdet hfit hp hlen hne hbound hcap hclass halign hro hlock hecc a hans
  have hready : (s.lockedAt a).blankOobs.pageReady := ⟨⟨hdet, hans⟩, hfit⟩
  obtain ⟨n, v, b, o, ca, acc, hval, hran, -, hleaves⟩ :=
    pageWrite_val (m := .auto) hready hro hecc (blankOobs_wf (s := s.lockedAt a) hwf.2.2.1) (s.firstRowOf a)
  have hexec : exec (.partWrite p) s = _ :=
    partOp_val (rwValidate_none none s.conf.capWrite true hdet hp hclass (.inl ⟨hlen, hne, hbound⟩) (by simp) hcap halign
      (fun _ => hro)) hfit hlock (by rw [dev_setLock hp, select_setLock]; exact hval)
  have hsame : SameDevice s (s.lockedAt a).blankOobs := ⟨rfl, rfl, rfl, rfl, rfl⟩
  rw [hsame.pageWriteEvents] at hran
  simp only [read_blankOobs] at hleaves
  refine ⟨_, n, v, hexec, hleaves, emits_lockedAt rfl hran, ?_⟩
  simp only [State.setLock, State.endOp, State.lockedAt, State.blankOobs, State.setOobs, ← hlock]
  rfl

/-! ## The OOB forms -/

theorem Ret.bind_of_val {α β : Type} {k : Ret α} {f : α → State → Ret β} {x : α} {r : Ret β} (hk : k = .val x s)
    (hf : f x s = r) : k.bind f = r := by
  rw [hk, Ret.bind_val, hf]

/-- The two forms of an OOB transfer: a whole page, or with `n = 0` only its OOB area. -/
def State.oobForm (s : State) : Prop := s.a1 = s.geo.pageSize ∧ s.a1 ≠ 0 ∨ s.a1 = 0 ∧ s.geo.pageSize ≠ 0

/-- What the transfer of PART.READOOB leaves. -/
abbrev readForOobLeaves (s t : State) (m : OobMode) (main oob : List Byte) : Prop :=
  if s.a1 = 0 then t.status = .success ∧ t.dbuf = s.dbuf ∧ t.eccCa = s.eccCa ∧ t.eccRd = s.eccRd ∧ t.acc = s.acc ∧
    t.oobs.readBytes 0 s.geo.oobSize.toNat = oob ∧ ∀ x, s.geo.oobSize.toNat ≤ x → t.oobs.read x = s.oobs.read x
  else pageReadLeaves s t m main oob

/-- The bus events of that transfer. -/
abbrev readForOobEvents (s : State) (row n : Nat) (main oob : List Byte) : List BusEvent :=
  if s.a1 = 0 then oobReadEvents s row n oob else pageReadEvents s row n main oob

theorem readForOob_val {m : OobMode} (hform : s.oobForm) (hr : s.deviceReady)
    (hf : s.oobTransferFits m = true) (hecc : s.softEcc m → s.a1 ≠ 0 → s.eccReady) (hwd : s.dbuf.wf) (hwo : s.oobs.wf)
    (row : Nat) :
    ∃ n main oob st b d o ca rd acc, readForOob s row m =
        .val st { s with bus := b, dbuf := d, oobs := o, eccCa := ca, eccRd := rd, acc := acc } ∧
      Bus.Ran true (readForOobEvents s row n main oob) s.bus b ∧ oob.length = s.geo.oobSize.toNat ∧
      o.readBytes 0 s.geo.oobSize.toNat = oob ∧
      readForOobLeaves s ({ s with
        bus := b, dbuf := d, oobs := o, eccCa := ca, eccRd := rd, acc := acc, status := st } : State) m main oob := by
  rw [State.oobTransferFits, Bool.and_eq_true] at hf
  rcases hform with ⟨hlen, hne⟩ | ⟨hzero, hpage⟩
  · rw [if_pos hlen] at hf
    obtain ⟨n, main, oob, st, b, d, o, ca, rd, acc, hval, hran, -, -, hleaves⟩ :=
      pageRead_val (m := m) ⟨hr, hf.1⟩ (fun h => hecc h hne) hwd hwo row
    refine ⟨n, main, oob, st, b, d, o, ca, rd, acc, by rw [readForOob, if_pos hlen]; exact hval, ?_, hleaves.2.1,
      hleaves.2.2.1, ?_⟩
    · rw [readForOobEvents, if_neg hne]; exact hran
    · rw [readForOobLeaves, if_neg hne]; exact hleaves
  · have hne : s.a1 ≠ s.geo.pageSize := by rw [hzero]; exact hpage.symm
    rw [if_neg hne] at hf
    obtain ⟨n, oob, b, o, hval, hlen, hran, -, hoob, hout⟩ := pageReadoob_val hr hf.1 hwo row
    refine ⟨n, [], oob, .success, b, s.dbuf, o, s.eccCa, s.eccRd, s.acc, by rw [readForOob, if_neg hne]; exact hval, ?_, hlen,
      hoob, ?_⟩
    · rw [readForOobEvents, if_pos hzero]; exact hran
    · rw [readForOobLeaves, if_pos hzero]; exact ⟨rfl, rfl, rfl, rfl, rfl, hoob, hout⟩

/-- The bytes of a request lie in the OOB area. -/
theorem requestPlace_lt {m : OobMode} (hok : s.oobReqOk m s.a2 s.a3 = true)
    (ht : m = .auto → s.a3 ≠ 0 → tablesWellFormed s.freeTab s.eccTab s.geo.oobSize.toNat = true) {b : Nat}
    (hb : b < s.a3.toNat) : requestPlace s m b < s.geo.oobSize.toNat := by
  obtain ⟨-, -, hlimit⟩ := oobReqOk_iff.1 hok
  have hlen : (s.oobPositions m s.a2.toNat s.a3.toNat).length = s.a3.toNat :=
    oobPositions_length fun h => by subst h; exact hlimit
  rw [← oobPositions_getD_request hok hb, List.getD_eq_getElem _ _ (by omega)]
  exact oobPositions_lt (placeable_of_tables ht) (fun h => by subst h; exact hlimit) (List.getElem_mem _)

/-- The validation of a legal OOB request. -/
theorem rwValidate_oob {m : OobMode} {cap w : Bool} (hdet : s.detected = true) (hp : s.part p = some e)
    (hform : s.a1 = s.geo.pageSize ∧ s.a1 ≠ 0 ∧ s.a0.toNat + s.a1.toNat ≤ e.psize.toNat ∨
      s.a1 = 0 ∧ s.geo.pageSize ≠ 0 ∧ s.a0.toNat < e.psize.toNat ∧ s.a3 ≠ 0)
    (hok : s.oobReqOk m s.a2 s.a3 = true) (hcap : cap = true) (hoob : s.conf.capOob = true)
    (hclass : s.conf.nandClass = true) (halign : s.a0.toNat &&& s.geo.pageMask.toNat = 0)
    (hro : w = true → s.conf.readOnly = false) : rwValidate s p (some m) cap w = none := by
  refine rwValidate_none (some m) cap w hdet hp hclass ?_ (fun m' hm' => ?_) hcap halign hro
  · exact hform.imp_right fun ⟨h0, h1, h2, h3⟩ => ⟨h0, h1, h2, h3, rfl⟩
  · cases hm'; exact ⟨hok, hoob⟩

theorem oobForm_of (hform : s.a1 = s.geo.pageSize ∧ s.a1 ≠ 0 ∧ s.a0.toNat + s.a1.toNat ≤ e.psize.toNat ∨
    s.a1 = 0 ∧ s.geo.pageSize ≠ 0 ∧ s.a0.toNat < e.psize.toNat ∧ s.a3 ≠ 0) : s.oobForm :=
  hform.imp (fun ⟨h0, h1, _⟩ => ⟨h0, h1⟩) fun ⟨h0, h1, _⟩ => ⟨h0, h1⟩

/-- Settles O50: the transfer, then the gathering from the OOB area it has read. -/
theorem partReadoobGathersTheRequest : Obligations.PartReadoobGathersTheRequest := by
  unfold Obligations.PartReadoobGathersTheRequest
  intro s p m e hwf hdet hfit hp hform hok hcap hoob hclass halign hlock hecc htab a hans
  obtain ⟨n, main, oob, st, b, d, o, ca, rd, acc, hval, hran, hlen, hread, hleaves⟩ :=
    readForOob_val (s := s.lockedAt a) (m := m) (oobForm_of hform) ⟨hdet, hans⟩ hfit hecc hwf.1 hwf.2.2.1 (s.firstRowOf a)
  obtain ⟨ob, hgather, hin, hout⟩ := gatherOob_request (m := m)
    (s := { s.lockedAt a with bus := b, dbuf := d, oobs := o, eccCa := ca, eccRd := rd, acc := acc }) hwf.2.1 hok htab
  have hexec : exec (.partReadoob p m) s = _ :=
    partOp_val (rwValidate_oob hdet hp hform hok hcap hoob hclass halign (by simp)) hfit hlock (by
      rw [dev_setLock hp, select_setLock, State.setLock_geo]
      exact Ret.bind_of_val hval (Ret.bind_of_val hgather rfl))
  have hevents : readForOobEvents (s.lockedAt a) = readForOobEvents s := by
    funext row n main oob
    simp only [readForOobEvents, (sameDevice_lockedAt s a).oobReadEvents, (sameDevice_lockedAt s a).pageReadEvents]
    rfl
  rw [hevents] at hran
  refine ⟨_, n, main, oob, hexec, hlen, sameFlash_lockedAt rfl hran, emits_lockedAt rfl hran, ?_, hleaves, fun b hb => ?_, hout⟩
  · simp only [State.setLock, State.endOp, State.setObuf, State.lockedAt, ← hlock]
  · refine (hin b hb).trans ?_
    have hplace : requestPlace s m b < s.geo.oobSize.toNat := requestPlace_lt hok htab hb
    rw [← hread]
    refine Eq.symm ((Memory.readBytes_getD o _ _ _ hplace).trans ?_)
    rw [Nat.zero_add]
    rfl

/-- What the transfer of PART.WRITEOOB leaves, when `OOBS` held `before` as it began. -/
abbrev writeForOobLeaves (s t : State) (m : OobMode) (before : Nat → Byte) : Prop :=
  if s.a1 = 0 then (∀ x, t.oobs.read x = before x) ∧ t.eccCa = s.eccCa ∧ t.acc = s.acc else pageWriteLeaves s t m before

/-- The bus events of that transfer. -/
abbrev writeForOobEvents (s : State) (row : Nat) (main oob : List Byte) (n : Nat) (v : Byte) : List BusEvent :=
  if s.a1 = 0 then oobWriteEvents s row oob n v else pageWriteEvents s row main oob n v

theorem writeForOob_val {m : OobMode} (hform : s.oobForm) (hr : s.deviceReady) (hro : s.conf.readOnly = false)
    (hf : s.oobTransferFits m = true) (hecc : s.softEcc m → s.a1 ≠ 0 → s.eccReady) (hwo : s.oobs.wf) (row : Nat) :
    ∃ n v b o ca acc, writeForOob s row m = .val (if s.tellsFailure v then .write else .success)
        { s with bus := b, oobs := o, eccCa := ca, acc := acc, res := v.setWidth 64 } ∧
      Bus.Ran false (writeForOobEvents s row (s.dbuf.readBytes 0 s.geo.pageSize.toNat)
        (o.readBytes 0 s.geo.oobSize.toNat) n v) s.bus b ∧
      writeForOobLeaves s ({ s with oobs := o, eccCa := ca, acc := acc } : State) m fun x => s.oobs.read x := by
  rw [State.oobTransferFits, Bool.and_eq_true] at hf
  rcases hform with ⟨hlen, hne⟩ | ⟨hzero, hpage⟩
  · rw [if_pos hlen] at hf
    obtain ⟨n, v, b, o, ca, acc, hval, hran, -, hleaves⟩ :=
      pageWrite_val (m := m) ⟨hr, hf.1⟩ hro (fun h => hecc h hne) hwo row
    refine ⟨n, v, b, o, ca, acc, by rw [writeForOob, if_pos hlen]; exact hval, ?_, ?_⟩
    · rw [writeForOobEvents, if_neg hne]; exact hran
    · rw [writeForOobLeaves, if_neg hne]; exact hleaves
  · have hne : s.a1 ≠ s.geo.pageSize := by rw [hzero]; exact hpage.symm
    rw [if_neg hne] at hf
    obtain ⟨n, v, b, hval, hran⟩ := programOob_val hr.2 row
    refine ⟨n, v, b, s.oobs, s.eccCa, s.acc, ?_, ?_, ?_⟩
    · rw [writeForOob, if_neg hne, withDevice_pos hr.1 hf.1]; exact hval
    · rw [writeForOobEvents, if_pos hzero]; exact hran
    · rw [writeForOobLeaves, if_pos hzero]; exact ⟨fun _ => rfl, rfl, rfl⟩

/-- The bytes of a request do not lie where the triples are put. -/
theorem requestPlace_not_ecc {m : OobMode} (hok : s.oobReqOk m s.a2 s.a3 = true)
    (ht : m = .auto → s.a3 ≠ 0 → tablesWellFormed s.freeTab s.eccTab s.geo.oobSize.toNat = true) (hm : m = .auto) {b : Nat}
    (hb : b < s.a3.toNat) : requestPlace s m b ∉ tablePositions s.eccTab := by
  subst hm
  obtain ⟨-, -, hlimit⟩ := oobReqOk_iff.1 hok
  have hlen : s.a2.toNat + b < (tablePositions s.freeTab).length := by
    rw [tablePositions_length]; exact (by omega : _ < s.a2.toNat + s.a3.toNat).trans_le hlimit
  have hne : s.a3 ≠ 0 := by rintro h; rw [h] at hb; exact absurd hb (by simp)
  have hplace : requestPlace s .auto b = (tablePositions s.freeTab)[s.a2.toNat + b] := List.getD_eq_getElem _ _ hlen
  rw [hplace]
  exact free_not_ecc (ht rfl hne) (List.getElem_mem _)

/-- The transfer of PART.WRITEOOB leaves the bytes of the request in their places. -/
theorem writeForOobLeaves_place {m : OobMode} {before : Nat → Byte} (h : writeForOobLeaves s t m before) {x : Nat}
    (hx : m = .auto → x ∉ tablePositions s.eccTab) : t.oobs.read x = before x := by
  rw [writeForOobLeaves] at h
  split at h
  · exact h.1 x
  · by_cases hs : s.softEcc m
    · exact (h.1 hs).2 x (hx hs.1)
    · exact (h.2 hs).1 x

/-- Settles O51: the scattering over a blank OOB area, then the transfer. -/
theorem partWriteoobProgramsTheRequest : Obligations.PartWriteoobProgramsTheRequest := by
  unfold Obligations.PartWriteoobProgramsTheRequest
  intro s p m e hwf hdet hfit hp hform hok hcap hoob hclass halign hro hlock hecc htab a place hans
  obtain ⟨o0, hscatter, hw0, hin, hblank, hout⟩ :=
    scatterOob_request (s := s.lockedAt a) (m := m) hwf.2.2.1 hok htab
  obtain ⟨n, v, b, o, ca, acc, hval, hran, hleaves⟩ :=
    writeForOob_val (s := (s.lockedAt a).setOobs o0) (m := m) (oobForm_of hform) ⟨hdet, hans⟩ hro hfit hecc hw0
      (s.firstRowOf a)
  have hexec : exec (.partWriteoob p m) s = _ :=
    partOp_val (rwValidate_oob hdet hp hform hok hcap hoob hclass halign fun _ => hro) hfit hlock (by
      rw [dev_setLock hp, select_setLock, State.setLock_geo]
      exact Ret.bind_of_val hscatter hval)
  have hsame : SameDevice s ((s.lockedAt a).setOobs o0) := ⟨rfl, rfl, rfl, rfl, rfl⟩
  have hevents : writeForOobEvents ((s.lockedAt a).setOobs o0) = writeForOobEvents s := by
    funext row main oob n v
    simp only [writeForOobEvents, hsame.oobWriteEvents, hsame.pageWriteEvents]
    rfl
  rw [hevents] at hran
  refine ⟨_, n, v, o0.read, hexec, emits_lockedAt rfl hran, ?_, hin, hblank, hout, fun b hb => ?_, hleaves⟩
  · simp only [State.setLock, State.endOp, State.setOobs, State.lockedAt, ← hlock]
    rfl
  · exact (writeForOobLeaves_place hleaves fun hm => requestPlace_not_ecc (s := s) hok htab hm hb).trans (hin b hb)

/-! ## Blocks -/

/-- Settles O54: DEV.ISVALID and DEV.MARKBAD at the rebased address, under the lock. -/
theorem partBadBlockOperationsDelegate : Obligations.PartBadBlockOperationsDelegate := by
  unfold Obligations.PartBadBlockOperationsDelegate
  intro s p e hwf hready hp hbound hclass halign hlock a rows sel hblock hans
  have hsame : SameDevice s (s.setLock true) := ⟨rfl, rfl, rfl, rfl, rfl⟩
  refine ⟨fun hcap => ?_, fun hcap hro => ?_⟩
  · obtain ⟨reads, b, o, hval, hran, -, hreads⟩ := devIsvalid_val (s := s.setLock true) hready hblock hans hwf.2.2.1
    have hexec : exec (.partIsvalid p) s = _ :=
      partOp_val (blockValidate_none s.conf.capIsValid false hready.1 hp hclass hbound hcap halign (by simp)) hready.2.1 hlock
        (by rw [dev_setLock hp]; exact hval)
    rw [hsame.markerReadEvents, select_setLock] at hran
    refine ⟨_, reads, hexec, hreads, sameFlash_lockedAt rfl hran, emits_lockedAt rfl hran, ?_⟩
    rw [select_setOobs]
    simp only [State.setLock, State.endOp, ← hlock]
    rfl
  · obtain ⟨reads, b, o, v, st, hval, -, hreads, hcase⟩ :=
      devMarkbad_val (s := s.setLock true) hready hro hblock hans hwf.2.2.1
    have hexec : exec (.partMarkbad p) s = _ :=
      partOp_val (blockValidate_none s.conf.capMarkBad true hready.1 hp hclass hbound hcap halign fun _ => hro) hready.2.1 hlock
        (by rw [dev_setLock hp]; exact hval)
    rw [hsame.markerReadEvents, hsame.eraseEvents, hsame.markEvents, select_setLock] at hcase
    rw [select_setRes] at hexec
    refine ⟨_, reads, hexec, hreads, ?_, ?_⟩
    · simp only [State.setLock, State.endOp, ← hlock]
    · by_cases hg : goodMarkers s reads
      · rw [if_pos hg]
        rw [if_pos (show goodMarkers (s.setLock true) reads from hg)] at hcase
        obtain ⟨n, x, marks, hlen, hran, hst, -⟩ := hcase
        exact ⟨n, x, marks, hlen, emits_lockedAt rfl hran, hst⟩
      · rw [if_neg hg]
        rw [if_neg (show ¬ goodMarkers (s.setLock true) reads from hg)] at hcase
        obtain ⟨hran, hst, -⟩ := hcase
        exact ⟨emits_lockedAt rfl hran, hst, sameFlash_lockedAt rfl hran⟩

theorem sameDevice_checked (s : State) (a : Nat) (b : Bus) (o : Memory) :
    SameDevice s { s with bus := b, curChip := s.chipIndexOf a, oobs := o } := ⟨rfl, rfl, rfl, rfl, rfl⟩

/-- `erase_block` in a mode that reads the markers: what it reads, and then nothing or the erase with its recovery. -/
theorem eraseBlock_checked {m : EraseMode} {a : Nat} (hm : m ≠ .force) (hcap : s.conf.capIsValid = true)
    (hready : s.blockReady) (hblock : s.isBlock a) (hro : s.conf.readOnly = false) (hw : s.oobs.wf) (hans : s.answersAt a) :
    ∃ reads b o res st, eraseBlock s a m = .val st { s with bus := b, curChip := s.chipIndexOf a, oobs := o, res := res } ∧
      markerReads s (s.markerRowsOf a) reads ∧
      if goodMarkers s reads then
        ∃ n v more, Bus.Ran false (.sel (s.chipIndexOf a) :: (markerReadEvents s (s.markerRowsOf a) reads ++
            (eraseEvents s (s.firstRowOf a) n v ++ more))) s.bus b ∧
          st = (if s.tellsFailure v then .erase else .success) ∧ recoveryEvents s a (m = .markBadOnError) v more res
      else
        Bus.Ran true (.sel (s.chipIndexOf a) :: markerReadEvents s (s.markerRowsOf a) reads) s.bus b ∧
          st = .blockIsBad ∧ res = s.res := by
  obtain ⟨reads, b, o, hval, hran, hwo, hreads⟩ := devIsvalid_val hready hblock hans hw
  rw [select_setOobs] at hval
  have hunfold : eraseBlock s a m = (devIsvalid s a).bind fun v s =>
      if v ≠ .success then .val v s else eraseThenMark s a m := by
    rw [eraseBlock, if_neg hm, if_neg (by simp [hcap])]
  by_cases hg : goodMarkers s reads
  · rw [if_pos hg] at hval
    have hsame := sameDevice_checked s a b o
    have hans1 : ({ s with bus := b, curChip := s.chipIndexOf a, oobs := o } : State).answersAt a :=
      answersAt_of_ran (s := s) (ran_select s a hran) rfl hans
    obtain ⟨n, v, b2, c, o2, res, more, herase, hc, hran2, hmore, -, -⟩ :=
      eraseThenMark_val (s := { s with bus := b, curChip := s.chipIndexOf a, oobs := o }) hready.1 m (fun _ => hready) hro
        (fun _ => hblock) hwo hans1 (hran.answers (markerReadEvents_stays _ _ _) hans)
    have hchip : c = s.chipIndexOf a := by rcases hc with hc | hc <;> exact hc
    subst hchip
    rw [hsame.eraseEvents] at hran2
    rw [recoveryEvents_same hsame] at hmore
    refine ⟨reads, b2, o2, res, _, hunfold.trans (Ret.bind_of_val hval ((if_neg (by simp)).trans herase)), hreads, ?_⟩
    rw [if_pos hg]
    exact ⟨n, v, more, (ran_select s a (hran.trans hran2)).weaken (by simp), rfl, hmore⟩
  · rw [if_neg hg] at hval
    refine ⟨reads, b, o, s.res, _, hunfold.trans (Ret.bind_of_val hval (if_pos (by simp))), hreads, ?_⟩
    rw [if_neg hg]
    exact ⟨ran_select s a hran, rfl, rfl⟩

/-- Settles O52: the erase in FORCE mode, and behind the marker reads in the other modes. -/
theorem partEraseErasesTheBlock : Obligations.PartEraseErasesTheBlock := by
  unfold Obligations.PartEraseErasesTheBlock
  intro s p e hwf hdet hp hbound hcap hclass halign hro hlock a row rows sel hblock hans
  have hvalid : blockValidate s p s.conf.capErase true = none :=
    blockValidate_none _ _ hdet hp hclass hbound hcap halign fun _ => hro
  refine ⟨?_, fun k hk => ?_⟩
  · have hansl : (s.lockedAt a).answersAt a := answersAt_of_ran (s := s) (Bus.ran_sel s.bus _) rfl hans
    obtain ⟨n, v, b, c, o, res, more, hval, hc, hran, hmore, -, ho⟩ :=
      eraseThenMark_val (s := s.lockedAt a) hdet .force (by simp) hro (a := a) (by simp) hwf.2.2.1 hansl hans
    obtain ⟨rfl, rfl⟩ := hmore.2 (by simp)
    obtain rfl := ho (by simp)
    have hchip : c = s.chipIndexOf a := by rcases hc with hc | hc <;> exact hc
    subst hchip
    rw [List.append_nil, (sameDevice_lockedAt s a).eraseEvents] at hran
    have hexec : exec (.partErase p 1#2) s = _ :=
      partOp_val hvalid (by rfl) hlock (by rw [dev_setLock hp, eraseBlock, if_pos rfl, select_setLock]; exact hval)
    refine ⟨_, n, v, hexec, emits_lockedAt rfl hran, ?_⟩
    simp only [State.setLock, State.endOp, State.lockedAt, ← hlock]
    rfl
  · obtain ⟨m, hkm, hm, hmark⟩ : ∃ m, eraseModeOf k = some m ∧ m ≠ .force ∧ (m = .markBadOnError ↔ k = 2#2) := by
      rcases hk with rfl | rfl
      · exact ⟨.normal, rfl, by simp, by simp⟩
      · exact ⟨.markBadOnError, rfl, by simp, by simp⟩
    have hrun : exec (.partErase p k) s =
        partOp s (blockValidate s p s.conf.capErase true) (s.eraseFits m) fun s => eraseBlock s (s.dev p) m :=
      exec_partErase hkm
    refine ⟨fun hno => ?_, fun hcheck hready => ?_⟩
    · have hval : eraseBlock (s.setLock true) a m = .val .opNotSupported (s.setLock true) := by
        rw [eraseBlock, if_neg hm]; exact if_pos hno
      rw [hrun, partOp_val hvalid (by simp [State.eraseFits, hno]) hlock (by rw [dev_setLock hp]; exact hval)]
      simp only [State.setLock, State.endOp, ← hlock]
    · have hsame : SameDevice s (s.setLock true) := ⟨rfl, rfl, rfl, rfl, rfl⟩
      obtain ⟨reads, b, o, res, st, hval, hreads, hcase⟩ :=
        eraseBlock_checked (s := s.setLock true) hm hcheck hready hblock hro hwf.2.2.1 hans
      rw [partOp_val hvalid (by simp [State.eraseFits, hready.2.1]) hlock (by rw [dev_setLock hp]; exact hval)] at hrun
      rw [hsame.markerReadEvents, hsame.eraseEvents] at hcase
      refine ⟨_, reads, hrun, hreads, ?_, ?_⟩
      · simp only [State.setLock, State.endOp, ← hlock]
      · by_cases hg : goodMarkers s reads
        · rw [if_pos hg]
          rw [if_pos (show goodMarkers (s.setLock true) reads from hg)] at hcase
          obtain ⟨n, v, more, hran, hst, hmore⟩ := hcase
          rw [recoveryEvents_same hsame, recoveryEvents, hmark] at hmore
          obtain ⟨hrecover, hnone⟩ := hmore
          refine ⟨n, v, more, ?_, hst, ?_⟩
          · rw [List.append_assoc]; exact hran.trace
          · split
            · rename_i h; exact hrecover h
            · rename_i h; exact hnone h
        · rw [if_neg hg]
          rw [if_neg (show ¬ goodMarkers (s.setLock true) reads from hg)] at hcase
          obtain ⟨hran, hst, hres⟩ := hcase
          exact ⟨hran.trace, hst, hres, sameFlash_of_ran rfl hran⟩

/-! ## The scan of PART.ERASEALL -/

/-- The statuses that PART.ERASEALL does not pass over. -/
def notIgnorable (st : Status) : Bool := st != .success && st != .blockIsBad

theorem foldl_firstNonIgnorable (l : List Status) (acc : Status) :
    l.foldl firstNonIgnorable acc = if acc = .success then (l.find? notIgnorable).getD .success else acc := by
  induction l generalizing acc with
  | nil => rw [List.foldl_nil, List.find?_nil, Option.getD_none]; split <;> simp_all
  | cons st l ih =>
    rw [List.foldl_cons, ih, List.find?_cons]
    by_cases hacc : acc = .success
    · cases hst : notIgnorable st <;> simp_all [notIgnorable, firstNonIgnorable]
    · simp [firstNonIgnorable, hacc]

theorem find?_notIgnorable_ne (l : List Status) : (l.find? notIgnorable).getD .success ≠ .blockIsBad := by
  cases h : l.find? notIgnorable with
  | none => simp
  | some st =>
    have hst := List.find?_some h
    rintro rfl
    exact absurd hst (by decide)

theorem eraseOutcome_same (hd : SameDevice s s') (m : EraseMode) (a : Nat) :
    eraseOutcome s' m a = eraseOutcome s m a := by
  have hrow : s'.firstRowOf a = s.firstRowOf a := by simp only [State.firstRowOf, hd.geo]
  have hchip : s'.chipIndexOf a = s.chipIndexOf a := by simp only [State.chipIndexOf, hd.geo]
  have hrows : s'.markerRowsOf a = s.markerRowsOf a := by simp only [State.markerRowsOf, hrow, hd.geo, hd.conf]
  funext events st
  unfold eraseOutcome
  rw [hd.markerReadEvents, hd.eraseEvents, hd.markEvents, hrow, hchip, hrows, hd.conf]
  simp only [State.tellsFailure, markerReads, goodMarkers, hd.par, hd.geo, hd.bbmPos]

/-- The blocks from `a` on, one after another, each with its outcome. -/
theorem eraseBlocks_val (m : EraseMode) (n : Nat) {a : Nat} {st : Status} (hdet : s.detected = true)
    (hready : m ≠ .force → s.conf.capIsValid = true → s.blockReady ∧ ∀ j, j < n → s.isBlock (a + j * s.geo.blockSize.toNat))
    (hro : s.conf.readOnly = false) (hw : s.oobs.wf) (hans : ∀ x, s.answersAt x) :
    ∃ (done : List (List BusEvent × Status)) (b : Bus) (c : Byte) (o : Memory) (res : Addr),
      eraseBlocks m n a st s = .val ((done.map fun d => d.2).foldl firstNonIgnorable st)
        { s with bus := b, curChip := c, oobs := o, res := res } ∧ done.length = n ∧
      (∀ j d, done[j]? = some d → eraseOutcome s m (a + j * s.geo.blockSize.toNat) d.1 d.2) ∧
      Bus.Ran false (done.flatMap fun d => d.1) s.bus b ∧ (m = .force → o = s.oobs) := by
  induction n generalizing s a st with
  | zero => exact ⟨[], s.bus, s.curChip, s.oobs, s.res, rfl, rfl, by simp, (Bus.Ran.refl _).weaken (by simp), fun _ => rfl⟩
  | succ n ih =>
    obtain ⟨l, st1, b1, c1, o1, res1, hval1, hran1, hout1, hw1, ho1⟩ := eraseBlock_val hdet m (a := a)
      (fun hm hc => ⟨(hready hm hc).1, by simpa using (hready hm hc).2 0 (by omega)⟩) hro hw (hans a)
    have hsame : SameDevice s { s with bus := b1, curChip := c1, oobs := o1, res := res1 } := ⟨rfl, rfl, rfl, rfl, rfl⟩
    have hnext (j : Nat) : a + s.geo.blockSize.toNat + j * s.geo.blockSize.toNat = a + (j + 1) * s.geo.blockSize.toNat := by
      rw [Nat.succ_mul]; omega
    obtain ⟨done, b, c, o, res, hval, hlen, hout, hran, ho⟩ :=
      ih (s := { s with bus := b1, curChip := c1, oobs := o1, res := res1 }) (a := a + s.geo.blockSize.toNat)
        (st := firstNonIgnorable st st1) hdet
        (fun hm hc => ⟨(hready hm hc).1, fun j hj => by rw [hnext]; exact (hready hm hc).2 (j + 1) (by omega)⟩) hro hw1
        fun x => answersAt_of_ran (s := s) hran1 rfl (hans x)
    refine ⟨(l, st1) :: done, b, c, o, res, ?_, by simp [hlen], ?_, by simpa using hran1.trans hran,
      fun hm => (ho hm).trans (ho1 hm)⟩
    · rw [eraseBlocks]
      exact Ret.bind_of_val hval1 hval
    · rintro (_ | j) d hd
      · obtain rfl : (l, st1) = d := by simpa using hd
        simpa using hout1
      · have hj := hout j d (by simpa using hd)
        rw [eraseOutcome_same hsame, hnext] at hj
        exact hj

theorem answersAt_of_alive (h : ∀ ch ∈ s.bus.chips, ch.stuck = false) (hf : s.bus.floatReady = true) (a : Nat) :
    s.answersAt a := by
  show (s.bus.sel (s.chipIndexOf a)).neverReady = false
  unfold Bus.neverReady
  split
  · rename_i ch hch
    have hmem : ch ∈ (s.bus.sel (s.chipIndexOf a)).chips := Bus.mem_of_chip? hch
    exact h ch hmem
  · rw [(Bus.ran_sel s.bus _).floatReady, hf]; rfl

/-- Settles O53: the scan of `eraseBlocks_val`, under the lock. -/
theorem eraseallScansEveryBlock : Obligations.EraseallScansEveryBlock := by
  unfold Obligations.EraseallScansEveryBlock
  intro s p e k mode hwf hdet hp hmode hcap hclass hro hlock halive hfloat blocks block hready
  have hvalid : eraseallValidate s p = none := by
    simp [eraseallValidate, hdet, hp, hcap, hclass, hro]
  have hfit : (blocksIn s.geo.blockSize.toNat e.psize.toNat == 0 || s.eraseFits mode) = true := by
    rw [Bool.or_eq_true, State.eraseFits]
    refine .inr ?_
    by_cases hm : mode = .force
    · simp [hm]
    · cases hc : s.conf.capIsValid with
      | false => simp
      | true => simp [(hready hm hc).1.2.1]
  obtain ⟨done, b, c, o, res, hval, hlen, hout, hran, ho⟩ := eraseBlocks_val (s := s.setLock true) mode
    (blocksIn s.geo.blockSize.toNat e.psize.toNat) (a := e.begin.toNat) (st := .success) hdet hready hro hwf.2.2.1
    (answersAt_of_alive (s := s.setLock true) halive hfloat)
  have hexec : exec (.partEraseall p k) s = _ :=
    (exec_partEraseall hmode hp).trans (partOp_val hvalid hfit hlock hval)
  have hsame : SameDevice s (s.setLock true) := ⟨rfl, rfl, rfl, rfl, rfl⟩
  have hstatus := foldl_firstNonIgnorable (done.map fun d => d.2) .success
  rw [if_pos rfl] at hstatus
  rw [hstatus] at hexec
  refine ⟨_, done, hexec, hlen, fun d hd => ?_, hran.trace, find?_notIgnorable_ne _, rfl, ho, ?_⟩
  · have hd' := hout d.2 d.1 (List.mem_zipIdx_iff_getElem?.1 hd)
    rw [eraseOutcome_same hsame] at hd'
    exact hd'
  · simp only [State.setLock, State.endOp, ← hlock]

end

end Sys2Proof.Machine
end

section
/-! PROOFS. ONFI.DETECT (43_detection.md R213), and the statuses that operations end with (60_exceptions.md R332). -/

namespace Sys2Proof.Machine

section
variable {s t : State}

/-! ## ONFI.DETECT -/

/-- Settles O27: `onfiDetect_chip`. -/
theorem onfiDetectAcceptsAGoodPage : Obligations.OnfiDetectAcceptsAGoodPage := by
  unfold Obligations.OnfiDetectAcceptsAGoodPage
  intro s ch page rest hch hstuck hbusy hsig hparam hlen hcrc hrev hwidth
  obtain ⟨b, x, n, hval, -, -, -, hran⟩ := onfiDetect_chip hch hstuck hbusy hsig hparam hlen hcrc hrev hwidth
  have hexec : exec .onfiDetect s = (onfiDetect s).finish := rfl
  rw [hval, Ret.finish_val] at hexec
  exact ⟨_, n, hexec, sameFlash_of_ran rfl hran, hran.trace, rfl⟩

/-- The copy in `ONFI` has a matching CRC (41_crc_onfi.md R152). -/
abbrev crcMatches (onfi : List Byte) : Prop :=
  crcBytes 0x4F4E#16 (onfi.take 254) = BitVec.ofNat 16 (le16 onfi 254)

theorem onfiCheck_success : (onfiCheck s).1 = .success ↔ crcMatches s.onfi := by
  unfold onfiCheck
  dsimp only
  split
  · rename_i h; exact iff_of_true rfl h
  · rename_i h; exact iff_of_false (by simp) h

theorem rd8s_val (s : State) (n : Nat) : ∃ l b, s.rd8s n = (l, s.setBus b) ∧ Bus.Ran true (l.map .rd8) s.bus b :=
  ⟨_, _, rfl, Bus.ran_rd8s n s.bus⟩

theorem onfiAttempts_succ {n : Nat} {l : List Byte} {b : Bus} (h : s.rd8s 256 = (l, s.setBus b)) :
    onfiAttempts (n + 1) s = if (onfiCheck { s.setBus b with onfi := l }).1 = .success then
      (true, (onfiCheck { s.setBus b with onfi := l }).2) else onfiAttempts n (onfiCheck { s.setBus b with onfi := l }).2 := by
  rw [onfiAttempts, h]

/-- The attempts write `ONFI` and the CRC registers; a copy they accept has a matching CRC. -/
theorem onfiAttempts_val (n : Nat) (s : State) : ∃ ok b o c c' l,
    onfiAttempts n s = (ok, { s with bus := b, onfi := o, crc := c, crcOut := c' }) ∧ Bus.Ran true l s.bus b ∧
      (ok = true → crcMatches o) := by
  induction n generalizing s with
  | zero => exact ⟨false, s.bus, s.onfi, s.crc, s.crcOut, [], rfl, Bus.Ran.refl _, by simp⟩
  | succ n ih =>
    obtain ⟨bytes, b1, hread, hran1⟩ := rd8s_val s 256
    rw [onfiAttempts_succ hread]
    by_cases hc : (onfiCheck { s.setBus b1 with onfi := bytes }).1 = .success
    · exact ⟨true, _, _, _, _, _, if_pos hc, hran1, fun _ => onfiCheck_success.1 hc⟩
    · obtain ⟨ok, b, o, c, c', l, hval, hran, hok⟩ := ih (onfiCheck { s.setBus b1 with onfi := bytes }).2
      exact ⟨ok, b, o, c, c', _, (if_neg hc).trans hval, hran1.trans hran, hok⟩

/-- What a verdict SUCCESS says of the copy. -/
theorem onfiVerdict_success {ok : Bool} (h : onfiVerdict ok s = .success) : ok = true ∧
    BitVec.ofNat 16 (le16 s.onfi 4) &&& s.par.onfiRevMask ≠ 0#16 ∧ (le16 s.onfi 6).testBit 0 = s.conf.bus16 := by
  unfold onfiVerdict onfiValidate at h
  cases ok with
  | false => exact absurd h (by simp)
  | true =>
    rw [if_pos rfl] at h
    split at h
    · cases h
    · split at h
      · cases h
      · exact ⟨rfl, ‹_›, not_not.1 ‹_›⟩

/-- ONFI.DETECT on a chip that becomes ready. -/
theorem onfiDetect_val (ha : s.answers) : ∃ st b o c c' l,
    onfiDetect s = .val st { s with
      bus := b, onfi := o, onfiValid := st == .success, onfiStatus := st, crc := c, crcOut := c' } ∧
      Bus.Ran true l s.bus b ∧
      (st = .success → crcMatches o ∧ BitVec.ofNat 16 (le16 o 4) &&& s.par.onfiRevMask ≠ 0#16 ∧
        (le16 o 6).testBit 0 = s.conf.bus16) := by
  obtain ⟨sig, b1, hid, -, hran1⟩ := readIdBytes_val { s with onfiValid := false } 0x20#8 4
  rw [onfiDetect, hid, Ret.bind_val]
  by_cases hsig : sig = onfiSignature
  · have ha1 : (({ s with onfiValid := false } : State).setBus b1).answers :=
      hran1.answers (by
        intro e he
        simp only [List.cons_append, List.nil_append, List.mem_cons, List.mem_map] at he
        rcases he with rfl | rfl | rfl | ⟨x, -, rfl⟩ <;> exact fun _ => rfl) ha
    obtain ⟨n, b2, hparam, hran2⟩ := command_val (s := ({ s with onfiValid := false } : State).setBus b1) (cmd := .param)
      (rb := some 0) (col := none) fun _ => ha1
    obtain ⟨ok, b3, o, c, c', l, hval, hran3, hok⟩ :=
      onfiAttempts_val 3 ((({ s with onfiValid := false } : State).setBus b1).setBus b2)
    refine ⟨onfiVerdict ok { s with bus := b3, onfi := o, onfiValid := false, crc := c, crcOut := c' }, b3, o, c, c', _, ?_,
      (hran1.trans hran2).trans hran3, fun h => ?_⟩
    · rw [if_neg (not_not.2 hsig), hparam, Ret.bind_val, hval]
      rfl
    · obtain ⟨h1, h2, h3⟩ := onfiVerdict_success h
      exact ⟨hok h1, h2, h3⟩
  · rw [if_pos hsig]
    exact ⟨.noOnfiDevice, b1, s.onfi, s.crc, s.crcOut, _, rfl, hran1, by simp⟩

/-- Settles O28: `onfiDetect_val`. -/
theorem onfiDetectRecordsItsVerdict : Obligations.OnfiDetectRecordsItsVerdict := by
  unfold Obligations.OnfiDetectRecordsItsVerdict
  intro s ha
  obtain ⟨st, b, o, c, c', l, hval, hran, hgood⟩ := onfiDetect_val ha
  have hexec : exec .onfiDetect s = (onfiDetect s).finish := rfl
  rw [hval, Ret.finish_val] at hexec
  exact ⟨_, hexec, rfl, rfl, beq_iff_eq, hgood, rfl, sameFlash_of_ran rfl hran⟩

end

end Sys2Proof.Machine
end

section
/-! PROOFS. The statuses that operations end with (60_exceptions.md R332). -/

namespace Sys2Proof.Machine

section
variable {s t : State} {l : List Status}

/-! ## The statuses of a part -/

theorem withDevice_gives {f : Bool} {k : Ret Status} (hn : .noDevice ∈ l) (hi : f = false → .invalidAddress ∈ l)
    (hk : k.Gives l) : (withDevice s f k).Gives l :=
  Ret.gives_ite (fun _ => Ret.gives_ite (fun _ => hk) fun h => Ret.gives_val (hi (by simpa using h)))
    fun _ => Ret.gives_val hn

theorem confirm_gives (c : Cmd) (failure : Status) (hs : .success ∈ l) (hf : failure ∈ l) :
    (confirm s c failure).Gives l :=
  Ret.gives_bind fun _ _ _ => Ret.gives_bind fun _ _ _ => Ret.gives_bind fun _ _ _ =>
    Ret.gives_val (by split; exacts [hf, hs])

theorem checkChunk_mem (i : Nat) : (checkChunk s i).1 ∈ [Status.success, .eccFixed, .eccUncorrectable] := by
  unfold checkChunk correctChunk
  dsimp only
  split_ifs <;> simp

theorem checkChunks_mem (n i : Nat) (st : Status) (h : st ∈ [Status.success, .eccFixed, .eccUncorrectable]) :
    (checkChunks n i st s).1 ∈ [Status.success, .eccFixed, .eccUncorrectable] := by
  induction n generalizing i st s with
  | zero => exact h
  | succ n ih => exact ih _ _ (worst_mem _ _)

/-! Each operation as a part, with what its row lists. -/

theorem pageRead_gives {row : Nat} {m : OobMode} (hl : [Status.success, .noDevice, .eccFixed, .eccUncorrectable] ⊆ l)
    (hi : s.pageFits = false → .invalidAddress ∈ l) : (pageRead s row m).Gives l := by
  refine withDevice_gives (hl (by simp)) hi (Ret.gives_ite (fun _ => ?_) fun _ => ?_)
  · refine Ret.gives_ite (fun _ => Ret.gives_ite (fun _ => Ret.gives_bind fun _ u _ => Ret.gives_val (hl ?_)) ?_) ?_
    · have hmem := checkChunks_mem (s := u) u.geo.chunks 0 .success (by simp)
      simp only [List.mem_cons, List.not_mem_nil, or_false] at hmem ⊢
      tauto
    · exact fun _ _ _ e => nomatch e
    · exact fun _ _ _ e => nomatch e
  · exact Ret.gives_bind fun _ _ _ => Ret.gives_val (hl (by simp))

theorem pageReadoob_gives {row : Nat} (hl : [Status.success, .noDevice] ⊆ l)
    (hi : s.oobFits = false → .invalidAddress ∈ l) : (pageReadoob s row).Gives l :=
  withDevice_gives (hl (by simp)) hi (Ret.gives_bind fun _ _ _ => Ret.gives_val (hl (by simp)))

theorem programPage_gives {row : Nat} (hs : .success ∈ l) (hw : .write ∈ l) : (programPage s row).Gives l :=
  Ret.gives_bind fun _ _ _ => confirm_gives _ _ hs hw

theorem programOob_gives {row : Nat} (hs : .success ∈ l) (hw : .write ∈ l) : (programOob s row).Gives l :=
  Ret.gives_bind fun _ _ _ => confirm_gives _ _ hs hw

theorem pageWrite_gives {row : Nat} {m : OobMode} (hl : [Status.success, .noDevice, .write] ⊆ l)
    (hro : s.conf.readOnly = true → .readOnly ∈ l) (hi : s.pageFits = false → .invalidAddress ∈ l) :
    (pageWrite s row m).Gives l := by
  refine Ret.gives_ite (fun h => Ret.gives_val (hro h)) fun _ => withDevice_gives (hl (by simp)) hi ?_
  refine Ret.gives_ite (fun _ => Ret.gives_ite (fun _ => Ret.gives_ite (fun _ => ?_) ?_) ?_) fun _ => ?_
  · exact programPage_gives (hl (by simp)) (hl (by simp))
  · exact fun _ _ _ e => nomatch e
  · exact fun _ _ _ e => nomatch e
  · exact programPage_gives (hl (by simp)) (hl (by simp))

theorem pageMarkbad_gives {row : Nat} (hl : [Status.success, .readOnly, .noDevice, .write] ⊆ l)
    (hi : s.markerFits = false → .invalidAddress ∈ l) : (pageMarkbad s row).Gives l :=
  Ret.gives_ite (fun _ => Ret.gives_val (hl (by simp))) fun _ =>
    withDevice_gives (hl (by simp)) hi (programOob_gives (hl (by simp)) (hl (by simp)))

theorem blockErase_gives {row : Nat} (hl : [Status.success, .readOnly, .noDevice, .erase] ⊆ l) :
    (blockErase s row).Gives l :=
  Ret.gives_ite (fun _ => Ret.gives_val (hl (by simp))) fun _ =>
    withDevice_gives (hl (by simp)) nofun (Ret.gives_bind fun _ _ _ => confirm_gives _ _ (hl (by simp)) (hl (by simp)))

theorem gatherOob_gives {m : OobMode} {off n : Nat} (hs : .success ∈ l) : (gatherOob s m off n).Gives l :=
  Ret.gives_ite (fun _ => Ret.gives_val hs) fun _ _ _ e => nomatch e

theorem scatterOob_gives {m : OobMode} {off n : Nat} (hs : .success ∈ l) : (scatterOob s m off n).Gives l :=
  Ret.gives_ite (fun _ => Ret.gives_val hs) fun _ _ _ e => nomatch e

theorem checkMarkers_gives {rows : List Nat} (hl : [Status.success, .noDevice, .invalidAddress, .blockIsBad] ⊆ l) :
    (checkMarkers rows s).Gives l := by
  induction rows generalizing s with
  | nil => exact Ret.gives_val (hl (by simp))
  | cons r rows ih =>
    exact Ret.gives_bind fun _ _ _ => Ret.gives_ite (fun _ => Ret.gives_val (hl (by simp))) fun _ => ih

theorem devIsvalid_gives {a : Nat} (hl : [Status.success, .noDevice, .invalidAddress, .blockIsBad] ⊆ l) :
    (devIsvalid s a).Gives l :=
  withDevice_gives (hl (by simp)) (fun _ => hl (by simp))
    (Ret.gives_ite (fun _ => Ret.gives_val (hl (by simp))) fun _ => checkMarkers_gives hl)

theorem markRows_gives {rows : List Nat} {res : Status}
    (hl : [Status.success, .readOnly, .noDevice, .invalidAddress, .write] ⊆ l) (hres : res ∈ l) :
    (markRows rows res s).Gives l := by
  induction rows generalizing s res with
  | nil => exact Ret.gives_val hres
  | cons r rows ih =>
    refine Ret.gives_bind fun st u hval => ih ?_
    have hst : st ∈ l := pageMarkbad_gives (List.Subset.trans (by simp) hl) (fun _ => hl (by simp)) st u hval
    unfold firstFailure
    split
    exacts [hst, hres]

theorem devMarkbad_gives {a : Nat} (hl : [Status.success, .readOnly, .noDevice, .invalidAddress, .write] ⊆ l) :
    (devMarkbad s a).Gives l := by
  refine Ret.gives_ite (fun _ => Ret.gives_val (hl (by simp))) fun _ => Ret.gives_bind fun st u hval => ?_
  refine Ret.gives_ite (fun _ => Ret.gives_val (hl (by simp))) fun hbad => Ret.gives_ite (fun _ => Ret.gives_val ?_) fun _ => ?_
  · have hst : st ∈ [Status.success, .noDevice, .invalidAddress, .blockIsBad] := devIsvalid_gives (List.Subset.refl _) st u hval
    refine hl ?_
    simp only [List.mem_cons, List.not_mem_nil, or_false] at hst ⊢
    tauto
  · exact Ret.gives_bind fun _ _ _ => markRows_gives hl (hl (by simp))

theorem eraseThenMark_gives {a : Nat} {m : EraseMode} (hl : [Status.success, .readOnly, .noDevice, .erase] ⊆ l) :
    (eraseThenMark s a m).Gives l :=
  Ret.gives_bind fun st u hval => by
    have hst : st ∈ l := blockErase_gives hl st u hval
    exact Ret.gives_ite (fun _ => Ret.gives_bind fun _ _ _ => Ret.gives_val hst) fun _ => Ret.gives_val hst

/-- What `erase_block` can end with (46_partition_ops.md R293). -/
abbrev eraseStatuses : List Status :=
  [.success, .noDevice, .invalidAddress, .opNotSupported, .readOnly, .blockIsBad, .erase]

theorem eraseBlock_gives {a : Nat} {m : EraseMode} : (eraseBlock s a m).Gives eraseStatuses :=
  Ret.gives_ite (fun _ => eraseThenMark_gives (by simp)) fun _ => Ret.gives_ite (fun _ => Ret.gives_val (by simp)) fun _ =>
    Ret.gives_bind fun st u hval => by
      have hst : st ∈ eraseStatuses := devIsvalid_gives (by simp) st u hval
      exact Ret.gives_ite (fun _ => Ret.gives_val hst) fun _ => eraseThenMark_gives (by simp)

theorem eraseBlocks_gives {m : EraseMode} {n a : Nat} {st : Status} (hst : st ∈ eraseStatuses ∧ st ≠ .blockIsBad) :
    (eraseBlocks m n a st s).Gives [.success, .noDevice, .invalidAddress, .opNotSupported, .readOnly, .erase] := by
  induction n generalizing s a st with
  | zero =>
    refine Ret.gives_val ?_
    obtain ⟨hmem, hne⟩ := hst
    simp only [List.mem_cons, List.not_mem_nil, or_false] at hmem ⊢
    tauto
  | succ n ih =>
    refine Ret.gives_bind fun e u hval => ih ?_
    unfold firstNonIgnorable
    split
    · rename_i h; exact ⟨eraseBlock_gives e u hval, h.2.1⟩
    · exact hst

theorem readForOob_gives {row : Nat} {m : OobMode}
    (hl : [Status.success, .noDevice, .invalidAddress, .eccFixed, .eccUncorrectable] ⊆ l) : (readForOob s row m).Gives l :=
  Ret.gives_ite (fun _ => pageRead_gives (List.Subset.trans (by simp) hl) fun _ => hl (by simp)) fun _ =>
    pageReadoob_gives (List.Subset.trans (by simp) hl) fun _ => hl (by simp)

theorem writeForOob_gives {row : Nat} {m : OobMode}
    (hl : [Status.success, .noDevice, .invalidAddress, .readOnly, .write] ⊆ l) : (writeForOob s row m).Gives l :=
  Ret.gives_ite
    (fun _ => pageWrite_gives (List.Subset.trans (by simp) hl) (fun _ => hl (by simp)) fun _ => hl (by simp))
    fun _ => withDevice_gives (hl (by simp)) (fun _ => hl (by simp)) (programOob_gives (hl (by simp)) (hl (by simp)))

theorem onfiDetect_gives : (onfiDetect s).Gives [.success, .noOnfiDevice, .onfiCrc, .onfiRevision, .busWidth] := by
  refine Ret.gives_bind fun sig u _ => Ret.gives_ite (fun _ => Ret.gives_val (by simp)) fun _ =>
    Ret.gives_bind fun _ v _ => ?_
  generalize onfiAttempts 3 v = r
  refine Ret.gives_val ?_
  unfold onfiVerdict onfiValidate
  split_ifs <;> simp

theorem detectFailed_gives {st : Status} (h : st ∈ l) : (detectFailed st s).Gives l := Ret.gives_val h

theorem micronProbe_gives : (micronProbe s).Gives [.success, .eccMicronInternal] :=
  Ret.gives_ite (fun _ => Ret.gives_bind fun _ _ _ => Ret.gives_bind fun _ _ _ => Ret.gives_val (by split <;> simp))
    fun _ => Ret.gives_val (by simp)

theorem identify_gives : (identify s).Gives [.success, .noDevice] :=
  Ret.gives_bind fun _ _ _ => Ret.gives_bind fun _ _ _ => Ret.gives_bind fun _ _ _ =>
    Ret.gives_ite (fun _ => Ret.gives_val (by simp)) fun _ => Ret.gives_val (by simp)

theorem detect_gives : (detect s).Gives [.success, .noDevice, .busWidth, .eccMicronInternal] := by
  refine Ret.gives_bind fun st u hval => Ret.gives_ite (fun _ => detectFailed_gives ?_) fun _ =>
    Ret.gives_bind fun found v _ => ?_
  · have hst := identify_gives st u hval
    simp only [List.mem_cons, List.not_mem_nil, or_false] at hst ⊢
    tauto
  · split
    · exact detectFailed_gives (by simp)
    · refine Ret.gives_ite (fun _ => detectFailed_gives (by simp)) fun _ =>
        Ret.gives_ite (fun _ => detectFailed_gives (by simp)) fun _ => Ret.gives_bind fun st' w hval' => ?_
      refine Ret.gives_ite (fun _ => detectFailed_gives ?_) fun _ => Ret.gives_bind fun n x _ =>
        Ret.gives_ite (fun _ => Ret.gives_val (by simp)) fun _ => detectFailed_gives (by simp)
      have hst := micronProbe_gives st' w hval'
      simp only [List.mem_cons, List.not_mem_nil, or_false] at hst ⊢
      tauto

/-! ## The statuses of an operation -/

/-- An operation that has ended, ended with a status of `l`. -/
def EndsIn (o : Host.Outcome State Fault Refusal) (l : List Status) : Prop :=
  ∀ t, o = .next t → t.phase = .idle → t.status ∈ l

theorem endsIn_endOp {st : Status} (h : st ∈ l) : EndsIn (.next (s.endOp st)) l := fun _ e _ => by cases e; exact h

theorem endsIn_ite {c : Prop} [Decidable c] {x y : Host.Outcome State Fault Refusal} (hx : c → EndsIn x l)
    (hy : ¬ c → EndsIn y l) : EndsIn (if c then x else y) l := by
  split
  · exact hx ‹_›
  · exact hy ‹_›

theorem endsIn_finish {r : Ret Status} (hb : r.Busy) (hg : r.Gives l) : EndsIn r.finish l := by
  intro t e hp
  rcases Ret.finish_next e with ⟨st, u, hval, rfl⟩ | hhang
  · exact hg st u hval
  · exact absurd hp (hb t hhang)

/-- What the validation answers, what the body gives under the lock, and INVALID_ADDRESS for a window that does not fit. -/
theorem endsIn_partOp {r : Option Status} {fits : Bool} {body : State → Ret Status} (hr : ∀ st, r = some st → st ∈ l)
    (hi : .invalidAddress ∈ l) (hb : ∀ u, (body u).Busy) (hg : ∀ u, (body u).Gives l) : EndsIn (partOp s r fits body) l := by
  unfold partOp
  cases r with
  | some st => exact endsIn_endOp (hr st rfl)
  | none =>
    refine endsIn_ite (fun _ => endsIn_finish ?_ ?_) fun _ => endsIn_endOp hi
    · refine Ret.Busy.bind ?_ fun _ u => (hb u).bind fun _ _ => Ret.busy_val
      unfold acquire
      split
      · intro u e; cases e; simp
      · exact Ret.busy_val
    · exact Ret.gives_bind fun _ u _ => Ret.gives_bind fun st v hval => Ret.gives_val (hg u st v hval)

theorem rwValidate_mem {p : BitVec 4} {o : Option OobMode} {cap w : Bool} {st : Status}
    (h : rwValidate s p o cap w = some st) : st ∈ [Status.success, .noDevice, .invalidAddress, .opNotSupported] ∨
      w = true ∧ st = .readOnly := by
  unfold rwValidate at h
  cases hp : s.part p with
  | none => rw [hp] at h; dsimp only at h; split_ifs at h <;> cases h <;> simp
  | some e => rw [hp] at h; dsimp only at h; split_ifs at h <;> cases h <;> simp_all

theorem blockValidate_mem {p : BitVec 4} {cap w : Bool} {st : Status} (h : blockValidate s p cap w = some st) :
    st ∈ [Status.success, .noDevice, .invalidAddress, .opNotSupported] ∨ w = true ∧ st = .readOnly := by
  unfold blockValidate at h
  cases hp : s.part p with
  | none => rw [hp] at h; dsimp only at h; split_ifs at h <;> cases h <;> simp
  | some e => rw [hp] at h; dsimp only at h; split_ifs at h <;> cases h <;> simp_all

theorem eraseallValidate_mem {p : BitVec 4} {st : Status} (h : eraseallValidate s p = some st) :
    st ∈ [Status.noDevice, .invalidAddress, .opNotSupported, .readOnly] := by
  unfold eraseallValidate at h
  cases hp : s.part p with
  | none => rw [hp] at h; dsimp only at h; split_ifs at h <;> cases h <;> simp
  | some e => rw [hp] at h; dsimp only at h; split_ifs at h <;> cases h <;> simp

theorem createRefusal_mem {p d : BitVec 4} {st : Status} (h : createRefusal s p d = some st) :
    st ∈ [Status.noDevice, .invalidAddress] := by
  unfold createRefusal at h
  cases hp : s.part p with
  | none => rw [hp] at h; dsimp only at h; split_ifs at h <;> cases h <;> simp
  | some e => rw [hp] at h; dsimp only at h; split_ifs at h <;> cases h <;> simp

/-- The statuses of a transfer that does not write. -/
theorem rwValidate_read {p : BitVec 4} {o : Option OobMode} {cap : Bool}
    (hl : [Status.success, .noDevice, .invalidAddress, .opNotSupported] ⊆ l) :
    ∀ st, rwValidate s p o cap false = some st → st ∈ l :=
  fun _ h => (rwValidate_mem h).elim (fun h => hl h) fun h => absurd h.1 (by simp)

theorem rwValidate_write {p : BitVec 4} {o : Option OobMode} {cap : Bool}
    (hl : [Status.success, .noDevice, .invalidAddress, .opNotSupported] ⊆ l) (hro : .readOnly ∈ l) :
    ∀ st, rwValidate s p o cap true = some st → st ∈ l :=
  fun _ h => (rwValidate_mem h).elim (fun h => hl h) fun h => h.2 ▸ hro

theorem blockValidate_read {p : BitVec 4} {cap : Bool}
    (hl : [Status.success, .noDevice, .invalidAddress, .opNotSupported] ⊆ l) :
    ∀ st, blockValidate s p cap false = some st → st ∈ l :=
  fun _ h => (blockValidate_mem h).elim (fun h => hl h) fun h => absurd h.1 (by simp)

theorem blockValidate_write {p : BitVec 4} {cap : Bool}
    (hl : [Status.success, .noDevice, .invalidAddress, .opNotSupported] ⊆ l) (hro : .readOnly ∈ l) :
    ∀ st, blockValidate s p cap true = some st → st ∈ l :=
  fun _ h => (blockValidate_mem h).elim (fun h => hl h) fun h => h.2 ▸ hro

/-- The window of a page operation by itself does not fit (92_eei_decisions.md D9; log 29). -/
def misfit (s : State) : Instr → Bool
  | .pageRead _ | .pageWrite _ => !s.pageFits
  | .pageReadoob => !s.oobFits
  | .pageMarkbad => !s.markerFits
  | _ => false

/-- The statuses listed for an operation, and INVALID_ADDRESS for a window of a page operation that does not fit. -/
def allowedStatuses (s : State) (i : Instr) : List Status :=
  if misfit s i then .invalidAddress :: listedStatuses i else listedStatuses i

theorem listed_subset_allowed (s : State) (i : Instr) : listedStatuses i ⊆ allowedStatuses s i := by
  unfold allowedStatuses
  split
  · exact List.subset_cons_self _ _
  · exact List.Subset.refl _

theorem allowed_of_misfit {i : Instr} (h : misfit s i = true) : .invalidAddress ∈ allowedStatuses s i := by
  rw [allowedStatuses, if_pos h]; exact List.mem_cons_self

theorem misfit_cases {i : Instr} (h : misfit s i = true) :
    (∃ m, i = .pageRead m ∨ i = .pageWrite m) ∧ s.pageFits = false ∨ i = .pageReadoob ∧ s.oobFits = false ∨
      i = .pageMarkbad ∧ s.markerFits = false := by
  unfold misfit at h
  split at h
  · exact .inl ⟨⟨_, .inl rfl⟩, by simpa using h⟩
  · exact .inl ⟨⟨_, .inr rfl⟩, by simpa using h⟩
  · exact .inr (.inl ⟨rfl, by simpa using h⟩)
  · exact .inr (.inr ⟨rfl, by simpa using h⟩)
  · cases h

theorem correctChunk_mem (off : Nat) :
    (correctChunk s off).1 ∈ [Status.success, .eccFixed, .eccUncorrectable] := by
  unfold correctChunk
  dsimp only
  split_ifs <;> simp

theorem onfiCheck_mem : (onfiCheck s).1 ∈ [Status.success, .onfiCrc] := by
  unfold onfiCheck
  dsimp only
  split <;> simp

/-- An erase in a mode that the encoding allows (30_encoding.md R93). -/
theorem modeLegal_of_eraseModeOf {k : BitVec 2} {m : EraseMode} (h : eraseModeOf k = some m) : modeLegal k = true := by
  have hk : k ≠ 3#2 := by rintro rfl; cases h
  simpa [modeLegal] using hk

/-- A part that only reads or moves bytes and then ends with SUCCESS. -/
theorem endsIn_success {α : Type} {r : Ret α} {f : α → State → State} (hb : r.Busy) (h : .success ∈ l) :
    EndsIn (r.bind fun x u => .val .success (f x u)).finish l :=
  endsIn_finish (hb.bind fun _ _ => Ret.busy_val) (Ret.gives_bind fun _ _ _ => Ret.gives_val h)

/-- Every operation that ends, ends with an allowed status. -/
theorem exec_allowed (i : Instr) (hi : listedStatuses i ≠ []) : EndsIn (exec i s) (allowedStatuses s i) := by
  have hlisted := listed_subset_allowed s i
  have hmisfit := fun h => allowed_of_misfit (s := s) (i := i) h
  generalize allowedStatuses s i = l at hlisted hmisfit ⊢
  cases i with
  | eccCalc | crc16 =>
    exact endsIn_ite (fun _ => endsIn_endOp (hlisted (by simp [listedStatuses]))) fun _ =>
      endsIn_endOp (hlisted (by simp [listedStatuses]))
  | eccCorrect =>
    refine endsIn_ite (fun _ => endsIn_endOp (hlisted ?_)) fun _ => endsIn_endOp (hlisted (by simp [listedStatuses]))
    have hmem := correctChunk_mem (s := s) s.a0.toNat
    simp only [listedStatuses, List.mem_cons, List.not_mem_nil, or_false] at hmem ⊢
    tauto
  | eccPopcnt b | nandSelect | nandRd8 | nandRd16 | lockRelease => exact endsIn_endOp (hlisted (by simp [listedStatuses]))
  | onfiCheck => exact endsIn_endOp (hlisted onfiCheck_mem)
  | nandCtrl d m =>
    show EndsIn (execNandCtrl d m s) l
    unfold execNandCtrl
    cases he : ctrlEvent d m with
    | some ev =>
      have hm : modeLegal m = true := by
        have hm : m ≠ 3#2 := by rintro rfl; cases he
        simpa [modeLegal] using hm
      exact endsIn_endOp (hlisted (by simp [listedStatuses, hm]))
    | none =>
      refine endsIn_endOp (hlisted ?_)
      unfold ctrlEvent at he
      split_ifs at he with h0 h1 h2
      have hm : m = 3#2 := by
        have hall : ∀ m : BitVec 2, m ≠ 0#2 → m ≠ 1#2 → m ≠ 2#2 → m = 3#2 := by decide
        exact hall m h0 h1 h2
      simp [listedStatuses, modeLegal, hm]
  | nandWait => exact endsIn_success (waitReady_fits (q := false) (k := false) s).busy (hlisted (by simp [listedStatuses]))
  | nandCmd c x y =>
    exact endsIn_ite (fun _ => endsIn_endOp (hlisted (by simp [listedStatuses]))) fun _ =>
      endsIn_success (command_fits (q := false) (k := false) s _ _ (by simp)).busy (hlisted (by simp [listedStatuses]))
  | nandRdbuf =>
    exact endsIn_ite (fun _ => endsIn_ite (fun _ => endsIn_endOp (hlisted (by simp [listedStatuses]))) fun _ =>
      endsIn_endOp (hlisted (by simp [listedStatuses]))) fun _ => endsIn_endOp (hlisted (by simp [listedStatuses]))
  | nandWrbuf =>
    exact endsIn_ite (fun _ => endsIn_endOp (hlisted (by simp [listedStatuses]))) fun _ => endsIn_ite
      (fun _ => endsIn_ite (fun _ => endsIn_endOp (hlisted (by simp [listedStatuses]))) fun _ =>
        endsIn_endOp (hlisted (by simp [listedStatuses]))) fun _ => endsIn_endOp (hlisted (by simp [listedStatuses]))
  | nandReset =>
    exact endsIn_success (command_fits (q := false) (k := false) s _ _ (by simp)).busy (hlisted (by simp [listedStatuses]))
  | nandStatus =>
    exact endsIn_success (readStatus_fits (q := false) (k := false) s).busy (hlisted (by simp [listedStatuses]))
  | nandReadid b =>
    exact endsIn_ite (fun _ => endsIn_endOp (hlisted (by simp [listedStatuses]))) fun _ =>
      endsIn_success (readIdBytes_fits (q := false) (k := false) s _ _).busy (hlisted (by simp [listedStatuses]))
  | nandGetfeat b =>
    exact endsIn_ite (fun _ => endsIn_success (getFeature_fits (q := false) (k := false) s _).busy
      (hlisted (by simp [listedStatuses]))) fun _ => endsIn_endOp (hlisted (by simp [listedStatuses]))
  | nandSetfeat b =>
    exact endsIn_ite (fun _ => endsIn_success (setFeature_fits (q := false) (k := false) s _ _).busy
      (hlisted (by simp [listedStatuses]))) fun _ => endsIn_endOp (hlisted (by simp [listedStatuses]))
  | detect => exact endsIn_finish (detect_fits (q := false) s).busy fun st u h => hlisted (detect_gives st u h)
  | onfiDetect =>
    exact endsIn_finish (onfiDetect_fits (q := false) (k := false) s).busy fun st u h => hlisted (onfiDetect_gives st u h)
  | pageRead m =>
    exact endsIn_finish (pageRead_fits (q := false) (k := false) s _ m).busy
      (pageRead_gives hlisted fun h => hmisfit (by simp [misfit, h]))
  | pageWrite m =>
    exact endsIn_finish (pageWrite_fits (q := false) (k := false) s _ m (by simp)).busy
      (pageWrite_gives (List.Subset.trans (by simp [listedStatuses]) hlisted)
        (fun _ => hlisted (by simp [listedStatuses])) fun h => hmisfit (by simp [misfit, h]))
  | pageReadoob =>
    exact endsIn_finish (pageReadoob_fits (q := false) (k := false) s _).busy
      (pageReadoob_gives hlisted fun h => hmisfit (by simp [misfit, h]))
  | pageMarkbad =>
    exact endsIn_finish (pageMarkbad_fits (q := false) (k := false) s _ (by simp)).busy
      (pageMarkbad_gives hlisted fun h => hmisfit (by simp [misfit, h]))
  | blockErase =>
    exact endsIn_finish (blockErase_fits (q := false) (k := false) s _ (by simp)).busy (blockErase_gives hlisted)
  | oobCopy m =>
    exact endsIn_finish (withDevice_fits fun _ => gatherOob_fits (q := false) (k := false) s m _ _).busy
      (withDevice_gives (hlisted (by simp [listedStatuses])) (fun _ => hlisted (by simp [listedStatuses]))
        (gatherOob_gives (hlisted (by simp [listedStatuses]))))
  | oobFill m =>
    exact endsIn_finish (withDevice_fits fun _ => scatterOob_fits (q := false) (k := false) s m _ _).busy
      (withDevice_gives (hlisted (by simp [listedStatuses])) (fun _ => hlisted (by simp [listedStatuses]))
        (scatterOob_gives (hlisted (by simp [listedStatuses]))))
  | devIsvalid => exact endsIn_finish (devIsvalid_fits (q := false) (k := false) s _).busy (devIsvalid_gives hlisted)
  | devMarkbad =>
    exact endsIn_finish (devMarkbad_fits (q := false) (k := false) s _ (by simp)).busy (devMarkbad_gives hlisted)
  | lockObtain =>
    refine endsIn_success (f := fun _ u => u) ?_ (hlisted (by simp [listedStatuses]))
    unfold acquire
    split
    · intro u e; cases e; simp
    · exact Ret.busy_val
  | partCreate p d =>
    show EndsIn (execPartCreate p d s) l
    unfold execPartCreate
    split
    · rename_i hst
      exact endsIn_endOp (hlisted (List.mem_cons_of_mem _ (createRefusal_mem hst)))
    · exact endsIn_endOp (hlisted (by simp [listedStatuses]))
    · exact endsIn_endOp (hlisted (by simp [listedStatuses]))
  | partRead p =>
    exact endsIn_partOp (rwValidate_read (List.Subset.trans (by simp [listedStatuses]) hlisted))
      (hlisted (by simp [listedStatuses])) (fun u => (pageRead_fits (q := false) (k := false) _ _ _).busy)
      fun u => pageRead_gives (List.Subset.trans (by simp [listedStatuses]) hlisted)
        fun _ => hlisted (by simp [listedStatuses])
  | partWrite p =>
    exact endsIn_partOp (rwValidate_write (List.Subset.trans (by simp [listedStatuses]) hlisted)
      (hlisted (by simp [listedStatuses])))
      (hlisted (by simp [listedStatuses])) (fun u => (pageWrite_fits (q := false) (k := false) _ _ _ (by simp)).busy)
      fun u => pageWrite_gives (List.Subset.trans (by simp [listedStatuses]) hlisted)
        (fun _ => hlisted (by simp [listedStatuses])) fun _ => hlisted (by simp [listedStatuses])
  | partReadoob p m =>
    refine endsIn_partOp (rwValidate_read (List.Subset.trans (by simp [listedStatuses]) hlisted))
      (hlisted (by simp [listedStatuses])) (fun u => ?_) fun u => Ret.gives_bind fun st v hval => ?_
    · exact ((readForOob_fits (q := false) (k := false) _ _ _).bind fun _ v =>
        (gatherOob_fits v _ _ _).bind fun _ w => fits_val (Went.refl w)).busy
    · have hst : st ∈ l := readForOob_gives (List.Subset.trans (by simp [listedStatuses]) hlisted) st v hval
      exact Ret.gives_bind fun _ _ _ => Ret.gives_val hst
  | partWriteoob p m =>
    exact endsIn_partOp (rwValidate_write (List.Subset.trans (by simp [listedStatuses]) hlisted)
      (hlisted (by simp [listedStatuses]))) (hlisted (by simp [listedStatuses]))
      (fun u => ((scatterOob_fits (q := false) (k := false) _ _ _ _).bind fun _ v => writeForOob_fits v _ _).busy)
      fun u => Ret.gives_bind fun _ v _ =>
        writeForOob_gives (List.Subset.trans (by simp [listedStatuses]) hlisted)
  | partErase p k =>
    cases hk : eraseModeOf k with
    | none =>
      have hillegal : exec (.partErase p k) s = .next (s.endOp .opNotSupported) := by
        show execPartErase p k s = _
        rw [execPartErase, hk]
        rfl
      rw [hillegal]
      exact endsIn_endOp (hlisted (by simp [listedStatuses]; split <;> simp))
    | some m =>
      rw [exec_partErase hk]
      rw [listedStatuses, if_pos (modeLegal_of_eraseModeOf hk)] at hlisted
      exact endsIn_partOp (blockValidate_write (List.Subset.trans (by simp) hlisted) (hlisted (by simp)))
        (hlisted (by simp)) (fun u => (eraseBlock_fits (q := false) (k := false) _ _ _ (by simp)).busy)
        fun u st v hval => hlisted (eraseBlock_gives st v hval)
  | partEraseall p k =>
    cases hk : eraseModeOf k with
    | none =>
      have hillegal : exec (.partEraseall p k) s = .next (s.endOp .opNotSupported) := by
        show execPartEraseall p k s = _
        rw [execPartEraseall, hk]
        rfl
      rw [hillegal]
      exact endsIn_endOp (hlisted (by simp [listedStatuses]; split <;> simp))
    | some m =>
      rw [listedStatuses, if_pos (modeLegal_of_eraseModeOf hk)] at hlisted
      have hvalid : ∀ st, eraseallValidate s p = some st → st ∈ l := fun st h =>
        hlisted (by have hmem := eraseallValidate_mem h; revert hmem; simp; tauto)
      cases hp : s.part p with
      | none =>
        have hrefused : ∃ st, eraseallValidate s p = some st := by
          unfold eraseallValidate
          rw [hp]
          dsimp only
          split_ifs <;> exact ⟨_, rfl⟩
        obtain ⟨st, hst⟩ := hrefused
        rw [exec_partEraseall_refused hk hst]
        exact endsIn_endOp (hvalid st hst)
      | some e =>
        rw [exec_partEraseall hk hp]
        exact endsIn_partOp hvalid (hlisted (by simp))
          (fun u => (eraseBlocks_fits (q := false) (k := false) _ _ _ _ _ (by simp)).busy)
          fun u st v hval => hlisted (eraseBlocks_gives (by simp) st v hval)
  | partIsvalid p =>
    exact endsIn_partOp (blockValidate_read (List.Subset.trans (by simp [listedStatuses]) hlisted))
      (hlisted (by simp [listedStatuses])) (fun u => (devIsvalid_fits (q := false) (k := false) _ _).busy)
      fun u => devIsvalid_gives (List.Subset.trans (by simp [listedStatuses]) hlisted)
  | partMarkbad p =>
    exact endsIn_partOp (blockValidate_write (List.Subset.trans (by simp [listedStatuses]) hlisted)
      (hlisted (by simp [listedStatuses]))) (hlisted (by simp [listedStatuses]))
      (fun u => (devMarkbad_fits (q := false) (k := false) _ _ (by simp)).busy)
      fun u => devMarkbad_gives (List.Subset.trans (by simp [listedStatuses]) hlisted)
  | _ => exact absurd rfl hi

/-- The instructions without listed statuses are the bus command bytes. -/
theorem commandInstr_of_unlisted {i : Instr} (h : listedStatuses i = []) : ∃ c, (i, c) ∈ commandInstrs := by
  cases i with
  | nandCtrl d m => rw [listedStatuses] at h; split at h <;> cases h
  | partErase p m => rw [listedStatuses] at h; split at h <;> cases h
  | partEraseall p m => rw [listedStatuses] at h; split at h <;> cases h
  | cmdRead0 | cmdRead1 | cmdPageprog | cmdReadstart | cmdReadoob | cmdErase1 | cmdStatus | cmdSeqin | cmdReadid | cmdErase2
  | cmdParam | cmdGetfeat | cmdSetfeat | cmdReset => simp
  | _ => cases h

/-- Settles O31: what each operation can end with, and that a command byte ends nothing. -/
theorem everyOperationEndsWithAListedStatus : Obligations.EveryOperationEndsWithAListedStatus := by
  unfold Obligations.EveryOperationEndsWithAListedStatus
  intro i s t hexec
  refine ⟨fun hi hidle => ?_, fun hi => ?_⟩
  · have hmem := exec_allowed i hi t hexec hidle
    unfold allowedStatuses at hmem
    split at hmem
    · rename_i hmis
      exact (List.mem_cons.1 hmem).elim (fun h => .inr ⟨h, misfit_cases hmis⟩) .inl
    · exact .inl hmem
  · obtain ⟨c, hc⟩ := commandInstr_of_unlisted hi
    rw [(exec_commandInstrs s (i, c) hc).1] at hexec
    cases hexec
    exact ⟨rfl, rfl⟩

end

end Sys2Proof.Machine
end

section
/-! PROOFS. What the command sequences of DETECT leave of the chips, of their feature registers and of the lines of an
empty chip-select (20_memory.md R66). -/

namespace Sys2Proof.Machine

section
variable {s t : State} {b b' b'' : Bus} {q : Bool}

/-! ## Feature registers and empty chip-selects -/

/-- An empty chip-select reads as before, and, where `q` says so, no feature register was set. -/
structure Bus.Kept (q : Bool) (b b' : Bus) : Prop where
  float : b'.floatByte = b.floatByte
  feats : q = true → b'.chips.map Chip.feats = b.chips.map Chip.feats

theorem Bus.Kept.refl (b : Bus) : Bus.Kept q b b := ⟨rfl, fun _ => rfl⟩

theorem Bus.Kept.trans (h : Bus.Kept q b b') (h' : Bus.Kept q b' b'') : Bus.Kept q b b'' :=
  ⟨h'.float.trans h.float, fun hq => (h'.feats hq).trans (h.feats hq)⟩

theorem Bus.Kept.weaken (h : Bus.Kept true b b') : Bus.Kept q b b' := ⟨h.float, fun _ => h.feats rfl⟩

theorem Bus.kept_onChip {f : Chip → Chip} (hf : q = true → ∀ x, (f x).feats = x.feats) (b : Bus) :
    Bus.Kept q b (b.onChip f) :=
  ⟨Bus.onChip_floatByte b f, fun hq => Bus.onChip_map Chip.feats (hf hq) b⟩

theorem Chip.latchCommand_feats (ch : Chip) (n : Nat) (c : Cmd) : (ch.latchCommand n c).feats = ch.feats := by
  cases c with
  | pageprog =>
    show (ch.program n).feats = _
    unfold Chip.program
    split_ifs <;> rfl
  | erase2 =>
    show (ch.erase n).feats = _
    unfold Chip.erase
    split_ifs <;> rfl
  | readstart =>
    simp only [Chip.latchCommand]
    split_ifs <;> rfl
  | _ => rfl

theorem Chip.latchAddress_feats (ch : Chip) (a : Byte) : (ch.latchAddress a).feats = ch.feats := by
  simp only [Chip.latchAddress, Chip.singleByteAddress]
  split_ifs <;> rfl

theorem Bus.kept_cle (t : CmdBytes) (b : Bus) (c : Cmd) : Bus.Kept q b (b.cle t c) :=
  have h := Bus.kept_onChip (q := q) (fun _ x => Chip.latchCommand_feats x b.fresh c) b
  ⟨h.float, h.feats⟩

theorem Bus.kept_ale (a : Byte) (b : Bus) : Bus.Kept q b (b.ale a) :=
  have h := Bus.kept_onChip (q := q) (fun _ x => Chip.latchAddress_feats x a) b
  ⟨h.float, h.feats⟩

theorem Bus.kept_ales (l : List Byte) (b : Bus) : Bus.Kept q b (b.ales l) := by
  induction l generalizing b with
  | nil => exact Bus.Kept.refl b
  | cons a l ih => exact (Bus.kept_ale a b).trans (ih _)

theorem Bus.kept_idleLatch (b : Bus) : Bus.Kept q b b.idleLatch := ⟨rfl, fun _ => rfl⟩

theorem Bus.kept_wrBuf (l : List Byte) (b : Bus) : Bus.Kept false b (b.wrBuf l) :=
  ⟨(Bus.kept_onChip (q := false) nofun b).float, nofun⟩

theorem Bus.kept_waited (b : Bus) : Bus.Kept q b b.waited := by
  unfold Bus.waited
  split
  · split
    · have h := Bus.kept_onChip (q := q) (f := fun ch => { ch with busy := false }) (fun _ _ => rfl) b
      exact ⟨h.float, h.feats⟩
    · exact ⟨rfl, fun _ => rfl⟩
  · exact ⟨rfl, fun _ => rfl⟩

theorem Bus.kept_popByte (b : Bus) : Bus.Kept q b b.popByte.2 := by
  unfold Bus.popByte
  split
  · split <;> exact ⟨rfl, fun _ => rfl⟩
  · split
    · exact ⟨rfl, fun _ => rfl⟩
    · split
      · rename_i l _
        exact Bus.kept_onChip (f := fun ch => { ch with dataOut := .bytes l }) (fun _ _ => rfl) b
      · exact Bus.Kept.refl b
      · exact ⟨rfl, fun _ => rfl⟩
      · exact ⟨rfl, fun _ => rfl⟩

theorem Bus.kept_rd8s (n : Nat) (b : Bus) : Bus.Kept q b (b.rd8s n).2 := by
  induction n generalizing b with
  | zero => exact Bus.Kept.refl b
  | succ n ih =>
    have h1 : Bus.Kept q b b.rd8.2 := ⟨(Bus.kept_popByte (q := q) b).float, (Bus.kept_popByte b).feats⟩
    exact h1.trans (ih _)

theorem kept_methodBus (s : State) (cmd : Cmd) (rb col : Option Nat) : Bus.Kept q s.bus (methodBus s cmd rb col) := by
  have hseq (cmd : Cmd) (l : List Byte) : Bus.Kept q s.bus ((s.cle cmd).ales l).idleLatch :=
    ((Bus.kept_cle _ _ _).trans (Bus.kept_ales _ _)).trans (Bus.kept_idleLatch _)
  unfold methodBus
  split
  · unfold cmdSmall
    split
    · split
      · exact (((Bus.kept_cle _ _ _).trans (Bus.kept_cle _ _ _)).trans (Bus.kept_ales _ _)).trans (Bus.kept_idleLatch _)
      · exact hseq _ _
    · exact hseq _ _
  · unfold cmdLarge
    dsimp only
    split
    · exact (hseq _ _).trans ((Bus.kept_cle _ _ _).trans (Bus.kept_idleLatch _))
    · exact hseq _ _

theorem waitReady_kept (s : State) : (waitReady s).Leaves fun t => Bus.Kept q s.bus t.bus :=
  Ret.leaves_ite (fun _ => Ret.leaves_hang ⟨rfl, fun _ => rfl⟩) fun _ => Ret.leaves_val (Bus.kept_waited _)

theorem command_kept (s : State) (cmd : Cmd) (rb col : Option Nat) :
    (command s cmd rb col).Leaves fun t => Bus.Kept q s.bus t.bus := by
  have h := kept_methodBus (q := q) s cmd rb col
  rw [command_eq]
  exact Ret.leaves_ite (fun _ => (waitReady_kept _).mono fun _ h' => h.trans h') fun _ => Ret.leaves_val h

theorem readIdBytes_kept (s : State) (a : Byte) (n : Nat) :
    (readIdBytes s a n).Leaves fun t => Bus.Kept q s.bus t.bus :=
  (command_kept s _ _ _).bind fun _ _ h => Ret.leaves_val (h.trans (Bus.kept_rd8s n _))

theorem nandReset_kept (s : State) : (nandReset s).Leaves fun t => Bus.Kept q s.bus t.bus :=
  (command_kept s _ _ _).bind fun _ _ h => Ret.leaves_val h

theorem getFeature_kept (s : State) (a : Byte) : (getFeature s a).Leaves fun t => Bus.Kept q s.bus t.bus :=
  (command_kept s _ _ _).bind fun _ _ h => Ret.leaves_val (h.trans (Bus.kept_rd8s 4 _))

theorem setFeature_kept (s : State) (a : Byte) (p : List Byte) :
    (setFeature s a p).Leaves fun t => Bus.Kept false s.bus t.bus :=
  (command_kept s _ _ _).bind fun _ _ h =>
    (waitReady_kept _).mono fun _ h' => (h.trans (Bus.kept_wrBuf p _)).trans h'

theorem rd8s_kept {n : Nat} {l : List Byte} (h : s.rd8s n = (l, s.setBus b)) : Bus.Kept q s.bus b := by
  have hb : (s.bus.rd8s n).2 = b := congrArg (fun r : List Byte × State => r.2.bus) h
  exact hb ▸ Bus.kept_rd8s n s.bus

theorem onfiAttempts_kept (n : Nat) (s : State) : Bus.Kept q s.bus (onfiAttempts n s).2.bus := by
  induction n generalizing s with
  | zero => exact Bus.Kept.refl _
  | succ n ih =>
    obtain ⟨l, b, hread, -⟩ := rd8s_val s 256
    have hkept : Bus.Kept q s.bus b := rd8s_kept hread
    rw [onfiAttempts_succ hread]
    split
    · exact hkept
    · exact hkept.trans (ih (onfiCheck { s.setBus b with onfi := l }).2)

theorem onfiDetect_kept (s : State) : (onfiDetect s).Leaves fun t => Bus.Kept q s.bus t.bus := by
  have hend (st : Status) (r : State) : Bus.Kept q r.bus (onfiEnd st r).bus := Bus.Kept.refl _
  refine Ret.Leaves.bind (readIdBytes_kept { s with onfiValid := false } _ _) fun _ t h =>
    Ret.leaves_ite (fun _ => Ret.leaves_val (h.trans (hend _ _))) fun _ =>
      Ret.Leaves.bind ((command_kept t _ _ _).mono fun _ h' => h.trans h') fun _ u h' => ?_
  exact Ret.leaves_val ((h'.trans (onfiAttempts_kept 3 u)).trans (hend _ _))

/-! ## Feature registers of the selected chip -/

variable {x : Chip}

/-- The SET FEATURES sequence on a chip: the feature register is set, unless the chip ignores it (log 24). -/
theorem setFeature_chip (hx : s.bus.chip? = some x) (hs : x.stuck = false) (a : Byte) {p : List Byte}
    (hp : p.length = 4) : ∃ b y n, setFeature s a p = .val () (s.setBus b) ∧ b.chip? = some y ∧ y.busy = false ∧
      y.stuck = false ∧ y.feats = (if x.featsFixed then x.feats else (a, p) :: x.feats.filter fun r => r.1 != a) ∧
      Bus.Ran true [s.latch .setfeat, .ale a, .idle, .wrBuf p, .wait n] s.bus b := by
  have hchip := chip?_methodBus_single s (cmd := .setfeat) a (by decide)
  rw [hx, Option.map_some] at hchip
  have hlatched : (x.latchCommand s.bus.fresh .setfeat).latchAddress a =
      { x with cmd := some .setfeat, addr := [a], dataIn := [], dataOut := .none } := by
    simp [Chip.latchCommand, Chip.latchAddress, Chip.newCommand, Chip.singleByteAddress]
  have hwrite := Bus.chip?_wrBuf (methodBus s .setfeat (some a.toNat) none) p
  rw [hchip, Option.map_some, hlatched] at hwrite
  have hset : ({ x with cmd := some .setfeat, addr := [a], dataIn := [], dataOut := .none } : Chip).writeData p =
      { x with
        cmd := some .setfeat, addr := [a], dataIn := p, dataOut := .none, busy := true
        feats := if x.featsFixed then x.feats else (a, p) :: x.feats.filter fun r => r.1 != a } := by
    simp [Chip.writeData, hp, List.take_of_length_le]
  rw [hset] at hwrite
  have hwaited := Bus.chip?_waited ((methodBus s .setfeat (some a.toNat) none).wrBuf p)
  rw [hwrite, Option.map_some] at hwaited
  have hran := ran_methodBus s .setfeat (some a.toNat) none
  rw [commandEvents_single s a.toNat (by decide)] at hran
  simp only [BitVec.ofNat_toNat, BitVec.setWidth_eq] at hran
  refine ⟨_, _, _, ?_, hwaited, rfl, hs, rfl, (hran.trans (Bus.ran_wrBuf _ p)).trans (Bus.ran_waited _)⟩
  simp only [setFeature, command_noWait s (some a.toNat) none (cmd := .setfeat) (by decide), Ret.bind_val, State.wrBuf,
    State.setBus_bus]
  exact waitReady_val (answers_of_chip hwrite hs)

/-- The first byte that a ready chip drives. -/
theorem rd8s_first {v : Byte} {l : List Byte} (n : Nat) (hx : b.chip? = some x) (hb : x.busy = false)
    (hd : x.dataOut = .bytes (v :: l)) : (b.rd8s (n + 1)).1.getD 0 0 = v := by
  have hpop : b.rd8.1 = v := (Bus.popByte_bytes hx hb hd).1
  rw [Bus.rd8s]
  exact hpop

/-- The GET FEATURES sequence on a chip where the feature register is set. -/
theorem getFeature_chip (hx : s.bus.chip? = some x) (hs : x.stuck = false) {a v : Byte} {l : List Byte}
    (hf : (x.feats.find? fun r => r.1 == a) = some (a, v :: l)) :
    ∃ b out n, getFeature s a = .val out (s.setBus b) ∧ out.getD 0 0 = v ∧
      Bus.Ran true ([s.latch .getfeat, .ale a, .idle, .wait n] ++ out.map .rd8) s.bus b := by
  have hchip := chip?_methodBus_single s (cmd := .getfeat) a (by decide)
  rw [hx, Option.map_some] at hchip
  have hlatched : (x.latchCommand s.bus.fresh .getfeat).latchAddress a =
      { x with cmd := some .getfeat, addr := [a], busy := true, dataOut := .bytes (v :: l) } := by
    have hout : ({ x with cmd := some .getfeat, addr := [a], dataOut := .none } : Chip).featureOut a = .bytes (v :: l) := by
      simp [Chip.featureOut, hf]
    simp [Chip.latchCommand, Chip.latchAddress, Chip.newCommand, Chip.singleByteAddress, hout]
  rw [hlatched] at hchip
  have hwaited := Bus.chip?_waited (methodBus s .getfeat (some a.toNat) none)
  rw [hchip, Option.map_some] at hwaited
  have hran := ran_methodBus s .getfeat (some a.toNat) none
  rw [commandEvents_single s a.toNat (by decide)] at hran
  simp only [BitVec.ofNat_toNat, BitVec.setWidth_eq] at hran
  refine ⟨_, _, _, ?_, rd8s_first 3 hwaited rfl rfl, (hran.trans (Bus.ran_waited _)).trans (Bus.ran_rd8s 4 _)⟩
  rw [getFeature, command_eq, if_pos (by decide), waitReady_val (answers_of_chip hchip hs)]
  rfl

/-! ## An empty chip-select -/

theorem rd8s_empty {v : Byte} (n : Nat) (hb : b.chip? = none) (hv : b.floatByte = some v) :
    (b.rd8s n).1 = List.replicate n v := by
  induction n generalizing b with
  | zero => rfl
  | succ n ih =>
    have hpop : b.popByte = (v, b) := by unfold Bus.popByte; rw [hb]; dsimp only; rw [hv]
    have hread : b.rd8 = (v, b.log (.rd8 v)) := by rw [Bus.rd8, hpop]
    rw [Bus.rd8s, hread, List.replicate_succ]
    exact congrArg (v :: ·) (ih (b := b.log (.rd8 v)) hb hv)

theorem readIdBytes_empty {v : Byte} (hb : s.bus.chip? = none) (hv : s.bus.floatByte = some v) (a : Byte) (n : Nat) :
    ∃ b, readIdBytes s a n = .val (List.replicate n v) (s.setBus b) ∧
      Bus.Ran true ([s.latch .readid, .ale a, .idle] ++ (List.replicate n v).map .rd8) s.bus b := by
  obtain ⟨out, b, hval, -, hran⟩ := readIdBytes_val s a n
  have hchip := chip?_methodBus_single s (cmd := .readid) a (by decide)
  rw [hb, Option.map_none] at hchip
  have hfloat := (kept_methodBus (q := false) s .readid (some a.toNat) none).float.trans hv
  have hout : readIdBytes s a n = .val ((methodBus s .readid (some a.toNat) none).rd8s n).1
      (s.setBus ((methodBus s .readid (some a.toNat) none).rd8s n).2) := by
    rw [readIdBytes, command_noWait s (some a.toNat) none (cmd := .readid) (by decide), Ret.bind_val]
    rfl
  rw [rd8s_empty n hchip hfloat] at hout
  obtain rfl : out = List.replicate n v := (Ret.val.inj (hval.symm.trans hout)).1
  exact ⟨b, hval, hran⟩

end

end Sys2Proof.Machine
end

section
/-! PROOFS. DETECT (43_detection.md R210 to R219): the bus while chip 0 is probed, the candidate it comes to, the Micron
probe, the count of the chips, and the outcome. -/

namespace Sys2Proof.Machine

/-- The event drives a chip-select. -/
def BusEvent.selects : BusEvent → Bool
  | .sel _ => true
  | _ => false

/-- Chip-select 0 is driven; the other chips, and an empty chip-select, are as in `b0`. -/
structure Bus.Beside (b0 b : Bus) : Prop where
  selected : b.selected = some 0#8
  others : ∀ d, d ≠ 0 → b.chips[d]? = b0.chips[d]?
  float : b.floatByte = b0.floatByte

/-- Besides, the chip behind it is `ch` but for what commands other than SETFEAT change. -/
structure Bus.Probes (b0 : Bus) (ch : Chip) (b : Bus) : Prop extends Bus.Beside b0 b where
  chip : ∃ x, b.chip? = some x ∧ x.fixed = ch.fixed ∧ x.feats = ch.feats

/-- The selected chip is there and not busy. -/
def Bus.Ready (b : Bus) : Prop := ∃ x, b.chip? = some x ∧ x.busy = false

section
variable {s u v : State} {b0 b b' : Bus} {ch x : Chip} {q : Bool} {l : List BusEvent} {g : Candidate}

theorem stays_of_selects (h : ∀ e ∈ l, e.selects = false) : ∀ e ∈ l, e.stays := by
  intro e he
  have hs := h e he
  cases e with
  | sel c => cases hs
  | _ => exact fun _ => rfl

theorem selects_append_reads {m : List Byte} (h : ∀ e ∈ l, e.selects = false) :
    ∀ e ∈ l ++ m.map .rd8, e.selects = false := by
  intro e he
  rcases List.mem_append.1 he with he | he
  · exact h e he
  · obtain ⟨v, -, rfl⟩ := List.mem_map.1 he
    rfl

/-! ## The bus while chip 0 is probed -/

theorem Bus.Beside.step (h : Bus.Beside b0 b) (hr : Bus.Ran q l b b') (hl : ∀ e ∈ l, e.selects = false)
    (hk : Bus.Kept false b b') : Bus.Beside b0 b' where
  selected := (hr.selected_eq (stays_of_selects hl)).trans h.selected
  others d hd := by
    refine (hr.others (stays_of_selects hl) d fun c hc => ?_).trans (h.others d hd)
    obtain rfl : 0#8 = c := Option.some.inj (h.selected.symm.trans hc)
    exact hd.symm
  float := hk.float.trans h.float

theorem Bus.chip?_of_selected (h : b.selected = some 0#8) : b.chip? = b.chips[0]? := by
  rw [Bus.chip?, h]; rfl

theorem Bus.Probes.step (h : Bus.Probes b0 ch b) (hr : Bus.Ran q l b b') (hl : ∀ e ∈ l, e.selects = false)
    (hk : Bus.Kept true b b') : Bus.Probes b0 ch b' := by
  have hbeside := h.toBeside.step hr hl hk.weaken
  obtain ⟨x, hx, hfixed, hfeats⟩ := h.chip
  obtain ⟨y, hy, hyx⟩ := hr.chip (stays_of_selects hl) hx
  refine ⟨hbeside, y, hy, hyx.trans hfixed, ?_⟩
  rw [Bus.chip?_of_selected h.selected] at hx
  have hmap : (b'.chips.map Chip.feats)[0]? = (b.chips.map Chip.feats)[0]? := by rw [hk.feats rfl]
  rw [List.getElem?_map, List.getElem?_map, ← Bus.chip?_of_selected hbeside.selected, hy, hx] at hmap
  exact (Option.some.inj hmap).trans hfeats

/-- What a chip drives, and whether it answers, are among what no command changes. -/
theorem Chip.answer_of_fixed (h : x.fixed = ch.fixed) : x.stuck = ch.stuck ∧ x.idBytes = ch.idBytes ∧
    x.sigBytes = ch.sigBytes ∧ x.paramBytes = ch.paramBytes ∧ x.featsFixed = ch.featsFixed := by
  have e {α : Type} (f : Chip → α) (hf : ∀ y : Chip, f y.fixed = f y) : f x = f ch := by rw [← hf x, h, hf]
  exact ⟨e _ fun _ => rfl, e _ fun _ => rfl, e _ fun _ => rfl, e _ fun _ => rfl, e _ fun _ => rfl⟩

theorem readIdBytes_probes (hp : Bus.Probes b0 ch s.bus) (hb : s.bus.Ready) (a : Byte) (n : Nat) {out : List Byte}
    (ho : (if a = 0x00#8 then .bytes ch.idBytes else if a = 0x20#8 then .bytes ch.sigBytes else .none) =
      DataOut.bytes out) (hn : n ≤ out.length) :
    ∃ b, readIdBytes s a n = .val (out.take n) (s.setBus b) ∧ Bus.Probes b0 ch b ∧ b.Ready := by
  obtain ⟨x, hx, hfixed, -⟩ := hp.chip
  obtain ⟨y, hy, hbusy⟩ := hb
  obtain rfl : x = y := Option.some.inj (hx.symm.trans hy)
  obtain ⟨-, hid, hsig, -, -⟩ := Chip.answer_of_fixed hfixed
  obtain ⟨b, z, hval, hz, hzbusy, -, hran⟩ := readIdBytes_chip hx hbusy a n (out := out) (by rw [hid, hsig]; exact ho) hn
  have hkept := (readIdBytes_kept (q := true) s a n).1 _ _ hval
  exact ⟨b, hval, hp.step hran (selects_append_reads (by simp [BusEvent.selects, State.latch])) hkept, z, hz, hzbusy⟩

/-- Step 1 on chip 0. -/
theorem identify_probes {others : List Chip} (h : s.bus.chips = ch :: others) (hs : ch.stuck = false)
    (hid : ch.idBytes.length = 8) : ∃ b, identify s = .val .success { s with bus := b, curChip := 0#8, id := ch.idBytes } ∧
      Bus.Probes s.bus ch b ∧ b.Ready := by
  have hchip : (s.selectChip 0#8).bus.chip? = some ch := by
    show s.bus.chips[0]? = some ch
    rw [h]; rfl
  have hp0 : Bus.Probes s.bus ch (s.selectChip 0#8).bus := ⟨⟨rfl, fun _ _ => rfl, rfl⟩, ch, hchip, rfl, rfl⟩
  obtain ⟨b1, x1, n, hval1, hx1, hbusy1, -, hran1⟩ := nandReset_chip hchip hs
  have hp1 : Bus.Probes s.bus ch b1 :=
    hp0.step hran1 (by simp [BusEvent.selects, State.latch]) ((nandReset_kept (s.selectChip 0#8)).1 _ _ hval1)
  obtain ⟨b2, hval2, hp2, hready2⟩ := readIdBytes_probes (s := (s.selectChip 0#8).setBus b1) hp1 ⟨x1, hx1, hbusy1⟩ 0x00#8 8
    (out := ch.idBytes) (if_pos rfl) hid.ge
  obtain ⟨b3, hval3, hp3, hready3⟩ := readIdBytes_probes (s := ((s.selectChip 0#8).setBus b1).setBus b2) hp2 hready2 0x00#8 8
    (out := ch.idBytes) (if_pos rfl) hid.ge
  refine ⟨b3, ?_, hp3, hready3⟩
  rw [identify]
  refine Ret.bind_of_val hval1 (Ret.bind_of_val hval2 (Ret.bind_of_val hval3 ((if_pos rfl).trans ?_)))
  rw [List.take_of_length_le hid.le]
  simp only [State.setBus, State.selectChip]

/-! ## The candidate -/

/-- The state after step 5, when ONFI.DETECT ran. -/
def afterOnfi (u : State) (b : Bus) (onfi : List Byte) (st : Status) (c c' : BitVec 16) : State :=
  { u with bus := b, onfi := onfi, onfiValid := st == .success, onfiStatus := st, crc := c, crcOut := c' }

/-- ONFI.DETECT on a chip without the signature. -/
theorem onfiDetect_noOnfi (hp : Bus.Probes b0 ch u.bus) (hb : u.bus.Ready) (hno : ch.noOnfi) :
    ∃ b, onfiDetect u = .val .noOnfiDevice (afterOnfi u b u.onfi .noOnfiDevice u.crc u.crcOut) ∧ Bus.Probes b0 ch b ∧
      b.Ready := by
  obtain ⟨b, hval, hp', hready⟩ := readIdBytes_probes (s := { u with onfiValid := false }) hp hb 0x20#8 4
    (out := ch.sigBytes) (by simp) hno.1
  exact ⟨b, Ret.bind_of_val hval (if_pos hno.2), hp', hready⟩

/-- ONFI.DETECT on a chip with a good page. -/
theorem onfiDetect_good {page : List Byte} (hp : Bus.Probes b0 ch u.bus) (hb : u.bus.Ready) (hs : ch.stuck = false)
    (hgood : ch.goodOnfi u page) :
    ∃ b c, onfiDetect u = .val .success (afterOnfi u b page .success c c) ∧ Bus.Probes b0 ch b ∧ b.Ready := by
  obtain ⟨hsig, hlen, ⟨rest, hparam⟩, hcrc, hrev, hwidth⟩ := hgood
  obtain ⟨x, hx, hfixed, -⟩ := hp.chip
  obtain ⟨y, hy, hbusy⟩ := hb
  obtain rfl : x = y := Option.some.inj (hx.symm.trans hy)
  obtain ⟨hxs, -, hxsig, hxparam, -⟩ := Chip.answer_of_fixed hfixed
  obtain ⟨b, z, n, hval, hz, hzbusy, -, hran⟩ := onfiDetect_chip hx (hxs.trans hs) hbusy (hxsig.trans hsig)
    (hxparam.trans hparam) hlen hcrc hrev hwidth
  have hkept := (onfiDetect_kept (q := true) u).1 _ _ hval
  exact ⟨b, _, hval, hp.step hran (selects_append_reads (by simp [BusEvent.selects, State.latch])) hkept, z, hz, hzbusy⟩

/-- Steps 2 to 6 without a page size in the table and without the ONFI signature: the extended ID, or nothing. -/
theorem findGeometry_noOnfi (hp : Bus.Probes b0 ch u.bus) (hb : u.bus.Ready) (hno : ch.noOnfi)
    (htab : ∀ e, devInfo u.par (u.id.getD 1 0) = some e → e.pageSize = none) :
    ∃ b, findGeometry u = .val (extIdPath u (devInfo u.par (u.id.getD 1 0)), false)
        (afterOnfi u b u.onfi .noOnfiDevice u.crc u.crcOut) ∧ Bus.Probes b0 ch b ∧ b.Ready := by
  obtain ⟨b, hval, hp', hready⟩ := onfiDetect_noOnfi hp hb hno
  refine ⟨b, ?_, hp', hready⟩
  unfold findGeometry
  cases hd : devInfo u.par (u.id.getD 1 0) with
  | none => exact Ret.bind_of_val hval (if_neg (by simp))
  | some e =>
    dsimp only [Option.bind_some]
    rw [htab e hd]
    exact Ret.bind_of_val hval (if_neg (by simp))

/-- Steps 2 to 6 on a chip that offers `g`, when no ONFI page has been recorded yet. -/
theorem findGeometry_offers {onfi : List Byte} {src : Source} (hu : u = { u with onfiValid := false, onfiStatus := .success })
    (hid : u.id = ch.idBytes) (hp : Bus.Probes b0 ch u.bus) (hb : u.bus.Ready) (hs : ch.stuck = false)
    (hoff : offers u ch onfi src g) :
    ∃ b o c c', findGeometry u = .val (some g, decide (src = .onfi))
        { u with
          bus := b, onfi := o, onfiValid := decide (src = .onfi), onfiStatus := if src = .extId then .noOnfiDevice else .success
          crc := c, crcOut := c' } ∧ Bus.Probes b0 ch b ∧ b.Ready ∧ (src = .onfi → o = onfi) := by
  unfold offers at hoff
  rw [← hid] at hoff
  cases src with
  | table =>
    obtain ⟨e, page, he, hpage, rfl⟩ := hoff
    exact ⟨u.bus, u.onfi, u.crc, u.crcOut, (findGeometry_table he hpage).trans (congrArg _ hu), hp, hb, nofun⟩
  | onfi =>
    obtain ⟨htab, hgood, rfl, hok⟩ := hoff
    obtain ⟨b, c, hval, hp', hready⟩ := onfiDetect_good hp hb hs hgood
    exact ⟨b, onfi, c, c, findGeometry_onfi htab hval hok, hp', hready, fun _ => rfl⟩
  | extId =>
    obtain ⟨hno, e, ext, he, hpage, hext, rfl⟩ := hoff
    obtain ⟨b, hval, hp', hready⟩ := findGeometry_noOnfi hp hb hno fun e' he' => by
      obtain rfl : e = e' := Option.some.inj (he.symm.trans he')
      exact hpage
    have hpath : extIdPath u (devInfo u.par (u.id.getD 1 0)) = some (extCandidate e ext) := by
      have hext : extIdDecode u.par.extId u.id = some ext := hext
      rw [he, extIdPath, Option.bind_some, hext]; rfl
    rw [hpath] at hval
    exact ⟨b, u.onfi, u.crc, u.crcOut, hval, hp', hready, nofun⟩

/-! ## The Micron probe -/

/-- What the probe reads back: the first byte of the feature register after SET FEATURES. -/
def micronReadBack (s : State) (ch : Chip) (v : Byte) : Prop :=
  ∃ l, ((if ch.featsFixed then ch.feats else (s.par.micronFeatAddr,
    [if s.conf.micronEccWant then s.par.micronEccBit else 0#8, 0#8, 0#8, 0#8]) ::
      ch.feats.filter fun r => r.1 != s.par.micronFeatAddr).find? fun r => r.1 == s.par.micronFeatAddr) =
    some (s.par.micronFeatAddr, v :: l)

theorem micronProbe_notDue (h : ¬ (s.geo.pageSize = 2048#64 ∧ s.id.getD 0 0 = s.par.micronMfr)) :
    micronProbe s = .val .success s := if_neg h

theorem micronProbe_due (h : s.geo.pageSize = 2048#64 ∧ s.id.getD 0 0 = s.par.micronMfr) (hs : ch.stuck = false)
    (hp : Bus.Probes b0 ch s.bus) {byte : Byte} (hq : micronReadBack s ch byte) :
    ∃ b, micronProbe s =
        .val (if (byte &&& s.par.micronEccBit != 0#8) = s.conf.micronEccWant then .success else .eccMicronInternal)
          { s with bus := b, micronEccOn := byte &&& s.par.micronEccBit != 0#8 } ∧ Bus.Beside b0 b := by
  obtain ⟨x, hx, hfixed, hfeats⟩ := hp.chip
  obtain ⟨hxs, -, -, -, hxf⟩ := Chip.answer_of_fixed hfixed
  obtain ⟨l, hfind⟩ := hq
  obtain ⟨b1, y, n1, hset, hy, -, hys, hyf, hran1⟩ := setFeature_chip hx (hxs.trans hs) s.par.micronFeatAddr
    (p := [if s.conf.micronEccWant then s.par.micronEccBit else 0#8, 0#8, 0#8, 0#8]) rfl
  have hbeside1 := hp.toBeside.step hran1 (by simp [BusEvent.selects, State.latch]) ((setFeature_kept s _ _).1 _ _ hset)
  rw [← hxf, ← hfeats, ← hyf] at hfind
  obtain ⟨b2, out, n2, hget, hout, hran2⟩ := getFeature_chip (s := s.setBus b1) hy hys hfind
  have hbeside2 := hbeside1.step hran2 (selects_append_reads (by simp [BusEvent.selects, State.latch]))
    ((getFeature_kept (s.setBus b1) _).1 _ _ hget)
  refine ⟨b2, ?_, hbeside2⟩
  rw [micronProbe, if_pos h]
  refine Ret.bind_of_val hset (Ret.bind_of_val hget ?_)
  rw [hout]
  rfl

/-- A chip that ignores SET FEATURES. -/
theorem micronReadBack_fixed {byte : Byte} {l : List Byte} (hf : ch.featsFixed = true)
    (h : (ch.feats.find? fun p => p.1 == s.par.micronFeatAddr) = some (s.par.micronFeatAddr, byte :: l)) :
    micronReadBack s ch byte := ⟨l, by rw [if_pos hf]; exact h⟩

/-- A chip that does not. -/
theorem micronReadBack_set (hf : ch.featsFixed = false) :
    micronReadBack s ch (if s.conf.micronEccWant then s.par.micronEccBit else 0#8) :=
  ⟨[0#8, 0#8, 0#8], by rw [hf]; simp⟩

/-! ## The count -/

/-- READID behind chip-select `c`, driven anew. -/
theorem readIdBytes_behind {v : Byte} {c : Nat} (hc : c < 256) (hchip : u.bus.chips[c]? = s.bus.chips[c]?)
    (hfloat : u.bus.floatByte = some v) (ho : ∀ o, s.bus.chips[c]? = some o → o.busy = false ∧ o.idBytes.length = 8) :
    ∃ b, readIdBytes (u.selectChip (BitVec.ofNat 8 c)) 0x00#8 8 =
        .val (idBehind s v c) ((u.selectChip (BitVec.ofNat 8 c)).setBus b) ∧
      (∀ d, c < d → b.chips[d]? = u.bus.chips[d]?) ∧ b.floatByte = some v := by
  have hsel : (u.selectChip (BitVec.ofNat 8 c)).bus.chip? = s.bus.chips[c]? := by
    show u.bus.chips[(BitVec.ofNat 8 c).toNat]? = _
    rw [toNat_ofNat_of_lt hc, hchip]
  have hlater {b : Bus} {l : List BusEvent} (hran : Bus.Ran true l (u.selectChip (BitVec.ofNat 8 c)).bus b)
      (hl : ∀ e ∈ l, e.selects = false) (d : Nat) (hd : c < d) : b.chips[d]? = u.bus.chips[d]? := by
    refine hran.others (stays_of_selects hl) d fun c' hc' => ?_
    obtain rfl : BitVec.ofNat 8 c = c' := Option.some.inj hc'
    rw [toNat_ofNat_of_lt hc]
    exact hd.ne
  have hkept {out : List Byte} {b : Bus} (hval : readIdBytes (u.selectChip (BitVec.ofNat 8 c)) 0x00#8 8 =
      .val out ((u.selectChip (BitVec.ofNat 8 c)).setBus b)) : b.floatByte = some v :=
    ((readIdBytes_kept (q := true) _ _ _).1 _ _ hval).float.trans hfloat
  cases hget : s.bus.chips[c]? with
  | some o =>
    obtain ⟨hbusy, hlen⟩ := ho o hget
    obtain ⟨b, x, hval, -, -, -, hran⟩ := readIdBytes_chip (hsel.trans hget) hbusy 0x00#8 8 (out := o.idBytes) (if_pos rfl) hlen.ge
    refine ⟨b, ?_, hlater hran (selects_append_reads (by simp [BusEvent.selects, State.latch])), hkept hval⟩
    rw [hval, List.take_of_length_le hlen.le, idBehind, hget]
  | none =>
    obtain ⟨b, hval, hran⟩ := readIdBytes_empty (hsel.trans hget) hfloat 0x00#8 8
    refine ⟨b, ?_, hlater hran (selects_append_reads (by simp [BusEvent.selects, State.latch])), hkept hval⟩
    rw [hval, idBehind, hget]

/-- Step 7, last part: the chips from `c` on with the ID of chip 0 are counted. -/
theorem countChips_counts {v : Byte} (k c m : Nat) (hc : c + k ≤ 256)
    (hchips : ∀ d, c ≤ d → u.bus.chips[d]? = s.bus.chips[d]?) (hfloat : u.bus.floatByte = some v)
    (ho : ∀ d o, c ≤ d → s.bus.chips[d]? = some o → o.busy = false ∧ o.idBytes.length = 8) :
    ∃ t, countChips k c m u =
      .val (m + ((List.range k).takeWhile fun j => idBehind s v (j + c) == u.id).length) t := by
  induction k generalizing u c m with
  | zero => exact ⟨u, rfl⟩
  | succ k ih =>
    obtain ⟨b, hval, hlater, hfloat'⟩ := readIdBytes_behind (by omega) (hchips c le_rfl) hfloat fun o => ho c o le_rfl
    have hsame : ((u.selectChip (BitVec.ofNat 8 c)).setBus b).id = u.id := rfl
    rw [countChips, hval, Ret.bind_val, hsame, List.range_succ_eq_map, List.takeWhile_cons, Nat.zero_add]
    by_cases hid : idBehind s v c = u.id
    · obtain ⟨t, ht⟩ := ih (u := (u.selectChip (BitVec.ofNat 8 c)).setBus b) (c + 1) (m + 1) (by omega)
        (fun d hd => (hlater d hd).trans (hchips d (by omega))) hfloat' fun d o hd => ho d o (by omega)
      refine ⟨t, ?_⟩
      have hshift : ((fun j => idBehind s v (j + c) == u.id) ∘ Nat.succ) = fun j => idBehind s v (j + (c + 1)) == u.id := by
        funext j
        rw [Function.comp_apply, Nat.succ_add_eq_add_succ]
      rw [if_neg (not_not.2 hid), ht, hsame, if_pos (beq_iff_eq.2 hid), List.takeWhile_map, List.length_cons, List.length_map,
        hshift, Nat.add_assoc, Nat.add_comm 1]
    · exact ⟨_, by rw [if_pos hid, if_neg (by simpa using hid)]; rfl⟩

end

end Sys2Proof.Machine
end

section
/-! PROOFS. How DETECT ends on a chip that offers a candidate geometry, or none (43_detection.md R210 to R219). -/

namespace Sys2Proof.Machine

section
variable {s w : State} {b0 b : Bus} {ch : Chip} {g : Candidate} {others : List Chip} {onfi : List Byte} {src : Source}

/-! ## DETECT up to the candidate -/

/-- The state in which DETECT has its candidate. -/
def foundState (s : State) (ch : Chip) (src : Source) (b : Bus) (onfi : List Byte) (c c' : BitVec 16) : State :=
  { forget s with
    bus := b, curChip := 0#8, id := ch.idBytes, onfi := onfi, onfiValid := decide (src = .onfi)
    onfiStatus := if src = .extId then .noOnfiDevice else .success, crc := c, crcOut := c' }

theorem detect_offers (h : s.bus.chips = ch :: others) (hs : ch.stuck = false) (hlen : ch.idBytes.length = 8)
    (hoff : offers s ch onfi src g) : ∃ b o c c', detect s =
      (if geometryOk s.par s.conf.eccMode g = false then detectFailed .noDevice (foundState s ch src b o c c')
      else if g.bus16 ≠ s.conf.bus16 then detectFailed .busWidth (foundState s ch src b o c c')
      else detectStep7 g (decide (src = .onfi)) (foundState s ch src b o c c')) ∧
      Bus.Probes s.bus ch b ∧ (src = .onfi → o = onfi) := by
  obtain ⟨b1, hid, hp1, hready1⟩ := identify_probes (s := forget s) h hs hlen
  obtain ⟨b, o, c, c', hfind, hp, -, honfi⟩ := findGeometry_offers (src := src) (onfi := onfi) (g := g)
    (u := { forget s with bus := b1, curChip := 0#8, id := ch.idBytes }) rfl rfl hp1 hready1 hs hoff
  refine ⟨b, o, c, c', ?_, hp, honfi⟩
  exact Ret.bind_of_val hid ((if_neg (by simp)).trans (Ret.bind_of_val hfind rfl))

theorem detect_offersNone (h : s.bus.chips = ch :: others) (hs : ch.stuck = false) (hlen : ch.idBytes.length = 8)
    (hnone : offersNone s ch) : ∃ w : State, detect s = detectFailed .noDevice w ∧ w.id = ch.idBytes := by
  obtain ⟨hno, hentry⟩ := hnone
  obtain ⟨b1, hid, hp1, hready1⟩ := identify_probes (s := forget s) h hs hlen
  have htab : ∀ e, devInfo s.par (ch.idBytes.getD 1 0) = some e → e.pageSize = none := fun e he => by
    rcases hentry with hentry | ⟨e', he', hpage, -⟩
    · rw [hentry] at he; cases he
    · obtain rfl : e' = e := Option.some.inj (he'.symm.trans he)
      exact hpage
  obtain ⟨b, hfind, -, -⟩ := findGeometry_noOnfi (u := { forget s with bus := b1, curChip := 0#8, id := ch.idBytes }) hp1 hready1
    hno htab
  have hpath : extIdPath { forget s with bus := b1, curChip := 0#8, id := ch.idBytes }
      (devInfo s.par (ch.idBytes.getD 1 0)) = none := by
    rcases hentry with hentry | ⟨e, he, -, hext⟩
    · rw [hentry]; rfl
    · rw [he]
      show ((extIdDecode s.par.extId ch.idBytes).map _) = none
      rw [hext]; rfl
  have hfind := hfind.trans (congrArg (fun p => Ret.val (p, false) _) hpath)
  exact ⟨_, Ret.bind_of_val hid ((if_neg (by simp)).trans (Ret.bind_of_val hfind rfl)), rfl⟩

/-- A failed DETECT leaves nothing detected, and records the ID. -/
theorem exec_detect_failed {st : Status} (hst : st ≠ .success) (h : detect s = detectFailed st w)
    (hid : w.id = ch.idBytes) : ∃ t, exec .detect s = .next t ∧ t.status = st ∧ t.phase = .idle ∧ t.detected = false ∧
      (∀ p ∈ t.pt, p.valid = false) ∧ t.id = ch.idBytes ∧ t.lock = s.lock ∧ t.conf = s.conf ∧ sameFlash s t := by
  have hexec : exec .detect s = (detect s).finish := rfl
  rw [h, detectFailed, Ret.finish_val] at hexec
  obtain ⟨-, -, -, -, -, -, hconf, -, hdetect⟩ := onlyDetectChangesTheGeometry _ _ _ hexec
  obtain ⟨hdet, hpt, hlock, hflash⟩ := hdetect rfl
  have hnot := Bool.eq_false_iff.2 fun hd => hst (hdet.1 hd).1
  exact ⟨_, hexec, rfl, rfl, hnot, hpt hnot, hid, hlock, hconf, hflash⟩

/-! ## Step 7 -/

theorem sizeBound_of_geometryOk {par : Params} {m : EccMode} (hok : geometryOk par m g = true) :
    g.chipSize < par.sizeBound := by
  simp only [geometryOk, Bool.and_eq_true, decide_eq_true_eq] at hok
  obtain ⟨⟨⟨⟨-, hsize⟩, -⟩, -⟩, -⟩ := hok
  exact hsize.trans_le (Nat.pow_le_pow_right (by omega) (by omega))

theorem pageSize_commitGeometry {par : Params} {m : EccMode} (hok : geometryOk par m g = true) (old : Geometry) :
    (commitGeometry g old).pageSize = 2048#64 ↔ g.pageSize = 2048 := by
  have hpage := (commitGeometry_valid hok old 1 le_rfl (by omega) (by simpa using sizeBound_of_geometryOk hok)).2.1
  rw [← BitVec.toNat_inj, hpage]
  rfl

/-- Step 7, third part, on a configured device: the outcome of the Micron probe. -/
theorem micronProbe_configured {f : Bool} (hok : geometryOk w.par w.conf.eccMode g = true) (hs : ch.stuck = false)
    (hp : Bus.Probes b0 ch w.bus) (hid : w.id = ch.idBytes) (hdue : micronProbed w ch g) {byte : Byte}
    (hq : micronReadBack w ch byte) : ∃ b, micronProbe (configure g f w) =
        .val (if (byte &&& w.par.micronEccBit != 0#8) = w.conf.micronEccWant then .success else .eccMicronInternal)
          { configure g f w with bus := b, micronEccOn := byte &&& w.par.micronEccBit != 0#8 } ∧ Bus.Beside b0 b := by
  obtain ⟨hpage, hmfr⟩ := hdue
  have hmfr' : w.id.getD 0 0 = w.par.micronMfr := by rw [hid]; exact hmfr
  exact micronProbe_due (s := configure g f w) ⟨(pageSize_commitGeometry hok w.geo).2 hpage, hmfr'⟩ hs
    ⟨⟨hp.selected, hp.others, hp.float⟩, hp.chip⟩ hq

/-- The Micron probe that is not due, or that the chip passes. -/
theorem micronProbe_passes {f : Bool} (hok : geometryOk w.par w.conf.eccMode g = true) (hs : ch.stuck = false)
    (hp : Bus.Probes b0 ch w.bus) (hid : w.id = ch.idBytes) (hoff : w.micronEccOn = false)
    (hpass : micronProbed w ch g → ch.featsFixed = false ∧ w.par.micronEccBit ≠ 0#8) :
    ∃ b on, micronProbe (configure g f w) = .val .success { configure g f w with bus := b, micronEccOn := on } ∧
      Bus.Beside b0 b ∧ (micronProbed w ch g → on = w.conf.micronEccWant) ∧ (¬ micronProbed w ch g → on = false) := by
  by_cases hdue : micronProbed w ch g
  · obtain ⟨hset, hbit⟩ := hpass hdue
    obtain ⟨b, hval, hbeside⟩ := micronProbe_configured (f := f) hok hs hp hid hdue (micronReadBack_set hset)
    have hon : ((if w.conf.micronEccWant then w.par.micronEccBit else 0#8) &&& w.par.micronEccBit != 0#8) =
        w.conf.micronEccWant := by
      cases w.conf.micronEccWant with
      | true => simpa using hbit
      | false => simp
    rw [hon, if_pos rfl] at hval
    exact ⟨b, _, hval, hbeside, fun _ => rfl, fun h => absurd hdue h⟩
  · refine ⟨(configure g f w).bus, false, ?_, ⟨hp.selected, hp.others, hp.float⟩, fun h => absurd h hdue, fun _ => rfl⟩
    have hnot : ¬ ((configure g f w).geo.pageSize = 2048#64 ∧
        (configure g f w).id.getD 0 0 = (configure g f w).par.micronMfr) := fun h =>
      hdue ⟨(pageSize_commitGeometry hok w.geo).1 h.1, by rw [← hid]; exact h.2⟩
    rw [micronProbe_notDue hnot]
    refine congrArg _ ?_
    rw [← hoff]
    rfl

/-- The state of a successful DETECT, before its status is written. -/
def detectedState (g : Candidate) (n : Nat) (s : State) : State :=
  { s with
    geo := { s.geo with chipCount := BitVec.ofNat 8 n, size := BitVec.ofNat 65 (g.chipSize * n) }
    pt := s.pt.set 0 ⟨true, 0, BitVec.ofNat 65 (g.chipSize * n)⟩
    detected := true }

/-- Step 7 on a device that passes: one chip at least is counted, MAX_CHIPS at most. -/
theorem detectStep7_passes {f : Bool} {b : Bus} {on : Bool} (hok : geometryOk w.par w.conf.eccMode g = true)
    (hmicron : micronProbe (configure g f w) = .val .success { configure g f w with bus := b, micronEccOn := on })
    (hmax : w.par.maxChips < 256) (hsize : g.chipSize * w.par.maxChips < w.par.sizeBound) :
    ∃ n b' c, detectStep7 g f w =
        .val .success (detectedState g n { configure g f w with bus := b', curChip := c, micronEccOn := on }) ∧
      1 ≤ n ∧ n ≤ max 1 w.par.maxChips ∧ g.chipSize * n < w.par.sizeBound ∧
      countChips (w.par.maxChips - 1) 1 1 { configure g f w with bus := b, micronEccOn := on } =
        .val n { configure g f w with bus := b', curChip := c, micronEccOn := on } := by
  obtain ⟨n, b', c, hcount, hpos, hle⟩ :=
    countChips_val (w.par.maxChips - 1) 1 1 { configure g f w with bus := b, micronEccOn := on }
  have hfit : g.chipSize * n < w.par.sizeBound := by
    rcases Nat.lt_or_ge 1 n with h1 | h1
    · exact (Nat.mul_le_mul_left g.chipSize (by omega)).trans_lt hsize
    · obtain rfl : n = 1 := by omega
      rw [Nat.mul_one]; exact sizeBound_of_geometryOk hok
  have hdone : detectDone g n { configure g f w with bus := b', curChip := c, micronEccOn := on } =
      .val .success (detectedState g n { configure g f w with bus := b', curChip := c, micronEccOn := on }) :=
    if_pos ⟨by omega, hfit⟩
  exact ⟨n, b', c, Ret.bind_of_val hmicron ((if_neg (by simp)).trans (Ret.bind_of_val hcount hdone)), hpos, by omega, hfit,
    hcount⟩

/-- The count, where the further chips are not busy and an empty chip-select reads as one value. -/
theorem countChips_counted {u t : State} {n : Nat} {v : Byte} (h : s.bus.chips = ch :: others) (hb : Bus.Beside s.bus u.bus)
    (hid : u.id = ch.idBytes) (hmax : s.par.maxChips < 256) (hv : s.bus.floatByte = some v)
    (ho : ∀ o ∈ others, o.busy = false ∧ o.idBytes.length = 8)
    (hcount : countChips (s.par.maxChips - 1) 1 1 u = .val n t) : n = countedChips s v ch.idBytes := by
  have hbehind : ∀ d o, 1 ≤ d → s.bus.chips[d]? = some o → o.busy = false ∧ o.idBytes.length = 8 := by
    intro d o hd hget
    obtain ⟨j, rfl⟩ := Nat.exists_eq_add_of_le' hd
    rw [h, List.getElem?_cons_succ] at hget
    exact ho o (List.mem_of_getElem? hget)
  obtain ⟨t', hval⟩ := countChips_counts (s := s) (u := u) (v := v) (s.par.maxChips - 1) 1 1 (by omega)
    (fun d hd => hb.others d (by omega)) (hb.float.trans hv) hbehind
  rw [hid] at hval
  exact (Ret.val.inj (hcount.symm.trans hval)).1

/-- Partition 0 is written, and no other entry is valid after `forget`. -/
theorem set_forgotten (l : List PartEntry) (e : PartEntry) :
    (∀ p ∈ ((l.map fun p => { p with valid := false }).set 0 e).tail, p.valid = false) ∧
      (l ≠ [] → ((l.map fun p => { p with valid := false }).set 0 e).head? = some e) := by
  cases l with
  | nil => exact ⟨by simp, fun h => absurd rfl h⟩
  | cons a l => exact ⟨by simp, fun _ => rfl⟩

/-- Settles O29: the candidate by `detect_offers`, the Micron probe, the count, and what `detectedState` holds. -/
theorem detectCommitsTheGeometryFound : Obligations.DetectCommitsTheGeometryFound := by
  unfold Obligations.DetectCommitsTheGeometryFound
  intro s ch others onfi hchips hstuck hlen fails
  refine ⟨fun hnone => ?_, fun src g hoff => ?_⟩
  · obtain ⟨w, hval, hid⟩ := detect_offersNone hchips hstuck hlen hnone
    exact exec_detect_failed (by simp) hval hid
  obtain ⟨b, o, c, c', hdetect, hp, honfi⟩ := detect_offers hchips hstuck hlen hoff
  refine ⟨fun hbad => ?_, fun hok hwidth => ?_, fun hok hwidth hdue ⟨q, l, hfixed, hfind, hwant⟩ => ?_,
    fun hok hwidth hpass hmax hsize => ?_⟩
  · rw [if_pos hbad] at hdetect
    exact exec_detect_failed (by simp) hdetect rfl
  · rw [if_neg (by simp [hok]), if_pos hwidth] at hdetect
    exact exec_detect_failed (by simp) hdetect rfl
  · rw [if_neg (by simp [hok]), if_neg (not_not.2 hwidth)] at hdetect
    obtain ⟨b', hmicron, -⟩ := micronProbe_configured (w := foundState s ch src b o c c') (f := decide (src = .onfi)) hok hstuck
      hp rfl hdue (micronReadBack_fixed hfixed hfind)
    have hmicron := hmicron.trans (congrArg (fun st => Ret.val st _) (if_neg hwant))
    exact exec_detect_failed (by simp) (hdetect.trans (Ret.bind_of_val hmicron (if_pos (by simp)))) rfl
  · rw [if_neg (by simp [hok]), if_neg (not_not.2 hwidth)] at hdetect
    obtain ⟨b1, on, hmicron, hbeside, hon, hoff'⟩ := micronProbe_passes (w := foundState s ch src b o c c')
      (f := decide (src = .onfi)) hok hstuck hp rfl rfl hpass
    obtain ⟨n, b2, cc, hval, hpos, hle, hfit, hcount⟩ :=
      detectStep7_passes (w := foundState s ch src b o c c') hok hmicron hmax hsize
    have hle' : n ≤ max 1 s.par.maxChips := hle
    obtain ⟨hvalid, hpage, hblock, hblocks, hoob⟩ := commitGeometry_valid hok s.geo n hpos (by omega) hfit
    have hnat : (BitVec.ofNat 8 n).toNat = n := toNat_ofNat_of_lt (by omega)
    have hexec : exec .detect s = (detect s).finish := rfl
    rw [hdetect, hval, Ret.finish_val] at hexec
    obtain ⟨-, -, -, -, -, -, hconf, -, hrest⟩ := onlyDetectChangesTheGeometry _ _ _ hexec
    obtain ⟨-, -, hlock, hflash⟩ := hrest rfl
    refine ⟨_, hexec, rfl, rfl, rfl, rfl, hvalid, hpage, hblock, hblocks, hoob, hnat.trans_le hle, fun v hv ho => ?_, rfl, rfl,
      rfl, hon, hoff', rfl, rfl, ?_, ?_, ?_, hlock, hconf, hflash⟩
    · exact hnat.trans (countChips_counted hchips hbeside rfl hmax hv ho hcount)
    · rintro rfl
      exact ⟨honfi rfl, by rw [← honfi rfl]; rfl⟩
    · exact (set_forgotten s.pt _).1
    · exact (set_forgotten s.pt _).2

end

end Sys2Proof.Machine
end
